-- ==== Sys2Proof/Word.lean ====
section
/-! DEFINITION. The bit vectors of the Cendira 1648: bytes of the control line, 24-bit samples, 32-bit counts and
stamps, 32-bit sample words of the delay store. -/

namespace Sys2Proof

/-- A byte of the control line (R174). -/
abbrev Byte := BitVec 8

/-- A 24-bit two's complement sample (R35). -/
abbrev Sample := BitVec 24

/-- A 32-bit count, stamp or sequence number, wrapping (R28, R62). -/
abbrev Count := BitVec 32

/-- A 32-bit word of the delay store (R191). -/
abbrev Word := BitVec 32

end Sys2Proof
end

