-- ==== Sys2Proof/Config.lean ====
section
/-! DEFINITION. What is fixed for the part (its sizes and limits) and the values the manual leaves open. -/

namespace Sys2Proof.Config

/-- Oscillator periods in a nominal house sample of 1/48,000 s (02, table of section 2.1).
DESIGN CHOICE (log 3): the manual gives no oscillator frequency; unsafe only where a statement uses the number itself. -/
def nominalInterval : Nat := 1024

/-- The constant P = 2,048 frames times 256 ticks (02, section 2.5). -/
def unityRatio : Nat := 524288

/-- The words of a bank (R46). -/
def bankWords : Nat := 2097152

/-- Segments of a bank (section 3.1). -/
def bankSegments : Nat := 512

/-- Sample words of a segment (section 3.1). -/
def segmentWords : Nat := 4096

/-- Places of a write queue (R52). -/
def writeQueuePlaces : Nat := 16

/-- Places of the outgoing queue (R181). -/
def outgoingPlaces : Nat := 32

/-- Places of the receive buffer (R178). -/
def receivePlaces : Nat := 2

/-- Entries of the deferred table (R180). -/
def deferredPlaces : Nat := 8

/-- Entries of the watch list (R184). -/
def watchPlaces : Nat := 16

/-- Where the saturating counts stop (R1). -/
def countLimit : Nat := 65535

/-- Where the admitted count stops (R111). -/
def admittedLimit : Nat := 16777215

/-- Record slots of the scene store, and records of one list (R156). -/
def sceneSlots : Nat := 1024
def sceneListLimit : Nat := 128

/-- The part code IDENTIFY gives (R186). -/
def partCode : Nat := 1648

/-- The bytes a message body may hold (section 11.1). -/
def bodyLimit : Nat := 250

/-- FREE VALUE (log 16): the revision number of the part (R186), which the manual does not give. -/
opaque revision : BitVec 16

/-- FREE VALUE (log 15): the mean energy of a step in which no house sample was taken since the accumulators were
cleared (R103, R106 give no result for a mean of nothing), in the energy unit; applied to `State.freeDraws`. -/
opaque emptyStepEnergy : Nat → Nat

/-- FREE VALUE (log 47): what a signed 2-byte field carries for a figure that lies outside -32,768 to 32,767, for which
R190 gives no code; applied to the figure. -/
opaque farFigure : Int → BitVec 16

end Sys2Proof.Config
end

