-- ==== Sys2Proof/Syntax.lean ====
section
/-! DEFINITION. The commands of the Cendira 1648, one constructor per row of spec/opcode_table.json, and the names
(layouts, policies, settings, records, triggers) their operands are made of. -/

namespace Sys2Proof

/-- Channel layouts (00, Layouts and channel roles; code order of R190). -/
inductive Layout | mono | stereo | quad | fiveOne | sevenOne
  deriving DecidableEq, Repr

/-- Failover policy (section 1.2). -/
inductive FailoverPolicy | never | onLoss | onLossOrSilence
  deriving DecidableEq, Repr

/-- Revert policy (section 1.2). -/
inductive RevertPolicy | manual | auto
  deriving DecidableEq, Repr

/-- Delay change mode (section 1.2). -/
inductive DelayMode | cut | slew
  deriving DecidableEq, Repr

/-- Slew limit (section 1.2). -/
inductive SlewLimit | fine | normal | fast
  deriving DecidableEq, Repr

/-- Gain mode (section 1.2). -/
inductive GainMode | off | fixed | ride
  deriving DecidableEq, Repr

/-- Declared class of a port (R37). -/
inductive PortClass | k32 | k44 | k48 | k88 | k96
  deriving DecidableEq, Repr

/-- The two sources a selector chooses between (R86). -/
inductive Selector | main | backup
  deriving DecidableEq, Repr

/-- Contact modes (R151). -/
inductive ContactMode | steady | unacked
  deriving DecidableEq, Repr

/-- Integration actions (R118). -/
inductive IntegrateAction | start | pause | reset
  deriving DecidableEq, Repr

/-- Direction of an edge on a take-trigger input (R161). -/
inductive EdgeDir | rising | falling
  deriving DecidableEq, Repr

/-- Fault kinds of the receiver (R175), in the code order of section 11.5. -/
inductive LineFault | length | crc | framing | truncated
  deriving DecidableEq, Repr

/-- Readings of the LRATE strap group (R174). -/
inductive LineRate | r115200 | r460800 | r1000000 | r3000000
  deriving DecidableEq, Repr

/-- Readings of the BANKS strap group (R46, R174). -/
inductive BankStrap | two | four
  deriving DecidableEq, Repr

/-- Take triggers (R160). -/
inductive Trigger
  | nextBoundary
  | atFrame (n : Count)
  | gpi (k : Nat) (dir : EdgeDir)
  deriving DecidableEq, Repr

/-- A target byte: a programme, or a link group (section 11.3). -/
inductive Target
  | programme (p : Nat)
  | group (g : Nat)
  deriving DecidableEq, Repr

/-- A setting item: a setting and the value carried for it (section 11.3). -/
inductive SettingItem
  | layout (v : Layout)
  | mainSource (port slot : Nat)
  | backupSource (v : Option (Nat × Nat))
  | failover (v : FailoverPolicy)
  | revert (v : RevertPolicy)
  | switchGuard (v : Nat)
  | revertHold (v : Nat)
  | delayTarget (v : Nat)
  | delayMode (v : DelayMode)
  | slewLimit (v : SlewLimit)
  | gainMode (v : GainMode)
  | fixedGain (v : Int)
  | rideTarget (v : Int)
  | rideTolerance (v : Nat)
  | rideRate (v : Nat)
  | riderGate (v : Int)
  | ceiling (v : Int)
  | limiterRelease (v : Nat)
  /-- An empty list is none (section 11.3). -/
  | outputSlots (v : List Nat)
  | linkGroup (v : Option Nat)
  | silenceThreshold (v : Int)
  | loudHigh (v : Int)
  | loudLow (v : Int)
  | phaseThreshold (v : Int)
  deriving DecidableEq, Repr

/-- The configuration fields an ALARMCFG carries; an absent one keeps its value (R149). -/
structure AlarmFields where
  enabled     : Option Bool := none
  onsetHold   : Option Nat := none
  releaseHold : Option Nat := none
  latching    : Option Bool := none
  /-- Bit k for contact k (section 11.3). -/
  contactMask : Option Nat := none
  /-- Bits 5 to 7 of the presence byte; with one of them set the request is the empty one (section 11.3). -/
  reserved    : BitVec 3 := 0
  deriving DecidableEq, Repr

/-- Scene records (R157). -/
inductive SceneRecord
  | set (target : Target) (items : List SettingItem)
  | delay (target : Target) (delayTarget : Nat) (mode : DelayMode)
  | slots (p : Nat) (slots : List Nat)
  | source (p : Nat) (side : Selector) (source : Option (Nat × Nat))
  | alarmcfg (entry : Nat) (fields : AlarmFields)
  | integrate (p : Nat) (action : IntegrateAction)
  | wait (periods : Nat)
  | chain (scene : Nat)
  deriving DecidableEq, Repr

/-- The requests of section 11.3, decoded. A record of SCENE APPEND that cannot be read as a record is `none`. -/
inductive Request
  | define (p : Nat) (items : List SettingItem)
  | set (target : Target) (items : List SettingItem)
  | delay (target : Target) (delayTarget : Nat) (mode : DelayMode)
  | allocate (p : Nat) (segments : Nat)
  | start (p : Nat)
  | park (p : Nat)
  | release (p : Nat)
  | clear (p : Nat)
  | select (p : Nat) (side : Selector)
  | port (q : Nat) (cls : PortClass)
  | integrate (p : Nat) (action : IntegrateAction)
  | histo (p firstBin binCount : Nat)
  | alarmcfg (entry : Nat) (fields : AlarmFields)
  /-- `none` names all entries. -/
  | ack (entry : Option Nat)
  | contact (k : Nat) (mode : ContactMode)
  | sceneAppend (scene : Nat) (flags : Byte) (records : List (Option SceneRecord))
  | sceneRead (scene first count : Nat)
  | take (scene : Nat) (trigger : Trigger)
  | cancel (takeTag : Byte)
  | resume
  | abandon
  | watchAdd (point period : Nat)
  | watchRemove (point : Nat)
  | watchEmpty
  | identify
  | lineReset
  | restart
  | peek (point : Nat)
  deriving DecidableEq, Repr

/-- The blocks that have work of their own at a frame boundary. The order in which they take it is not fixed by the
manual (R13, R88, R90, R139, R166); the command FRAME_BOUNDARY names it (log 9). -/
inductive BoundaryBlock | commits | sequencer | programmes | alarms | cuts | watch
  deriving DecidableEq, Repr

/-- The commands: one constructor per row of spec/opcode_table.json. `tag` is the tag byte of a request (section 11.1);
`elapsed` is the time, in oscillator periods, since the house sample in progress began (log 3). -/
inductive Instr
  | deviceReset (lrate : LineRate) (banks : BankStrap)
  | restartPerformed
  | hrefEdge (elapsed : Nat)
  | hrefLoss
  | houseSample
  | fadeTailEnd (p : Fin 16)
  | rampEnd (p : Fin 16)
  | vrefEdge
  | vrefLoss
  | generatedFrameBoundary
  | frameBoundary (order : List BoundaryBlock)
  | onsetHoldExpiry (e : Fin 154)
  | releaseHoldExpiry (e : Fin 154)
  | revert (p : Fin 16)
  | selectApply (p : Fin 16)
  | directCommit (p : Fin 16)
  | cutMade (p : Fin 16)
  | regulationTick
  | stepBoundary
  | integrationResetApply (p : Fin 16)
  | sweepVisitEnd
  | portFrameEdge (q : Fin 8) (elapsed : Nat) (slots : Vector Sample 8)
  | portSyncMisaligned (q : Fin 8) (elapsed : Nat)
  | portSyncAbsent (q : Fin 8) (elapsed : Nat)
  | portClockLoss (q : Fin 8) (elapsed : Nat)
  | trackerLossTimeout (q : Fin 8) (elapsed : Nat)
  | holdoverTimeout (q : Fin 8)
  | drainComplete (bank : Fin 4)
  /-- `damage`: the bits of the words read that have gone wrong in the DRAM, word by word (log 25). -/
  | readComplete (bank : Fin 4) (damage : List Word)
  | zeroFillAccessComplete (bank : Fin 4)
  | define (tag : Byte) (p : Nat) (items : List SettingItem)
  | set (tag : Byte) (target : Target) (items : List SettingItem)
  | delay (tag : Byte) (target : Target) (delayTarget : Nat) (mode : DelayMode)
  | allocate (tag : Byte) (p : Nat) (segments : Nat)
  | start (tag : Byte) (p : Nat)
  | park (tag : Byte) (p : Nat)
  | release (tag : Byte) (p : Nat)
  | clear (tag : Byte) (p : Nat)
  | select (tag : Byte) (p : Nat) (side : Selector)
  | port (tag : Byte) (q : Nat) (cls : PortClass)
  | integrateStart (tag : Byte) (p : Nat)
  | integratePause (tag : Byte) (p : Nat)
  | integrateReset (tag : Byte) (p : Nat)
  | histo (tag : Byte) (p firstBin binCount : Nat)
  | alarmcfg (tag : Byte) (entry : Nat) (fields : AlarmFields)
  | ack (tag : Byte) (entry : Option Nat)
  | contact (tag : Byte) (k : Nat) (mode : ContactMode)
  | sceneAppend (tag : Byte) (scene : Nat) (flags : Byte) (records : List (Option SceneRecord))
  | sceneRead (tag : Byte) (scene first count : Nat)
  | take (tag : Byte) (scene : Nat) (trigger : Trigger)
  | cancel (tag : Byte) (takeTag : Byte)
  | resume (tag : Byte)
  | abandon (tag : Byte)
  | watchAdd (tag : Byte) (point period : Nat)
  | watchRemove (tag : Byte) (point : Nat)
  | watchEmpty (tag : Byte)
  | identify (tag : Byte)
  | peek (tag : Byte) (point : Nat)
  | lineReset (tag : Byte)
  | restart (tag : Byte)
  | unknownKindRequest (kind tag : Byte) (fields : List Byte)
  | gpiEdge (k : Fin 4) (dir : EdgeDir)
  | takeTriggerMet
  | sceneSetRecord
  | sceneDelayRecord
  | sceneSlotsRecord
  | sceneSourceRecord
  | sceneAlarmcfgRecord
  | sceneIntegrateRecord
  | sceneWaitRecord
  | sceneChainRecord
  | sceneListEnd
  | sceneCommit
  | waitEnd
  | haltExpiry
  | watchDue
  /-- A frame of the line whose CRC matched: its kind byte, tag byte and field bytes. -/
  | frameChecked (kind tag : Byte) (fields : List Byte)
  | receiveFault (kind : LineFault)
  | truncatedFrame
  | receiverIdle
  | breakLine
  | messageDeparture
  | portClockReturn (q : Fin 8)
  | byteReceived (b : Byte)
  deriving DecidableEq, Repr

end Sys2Proof
end

