-- ==== Sys2Proof/Decode.lean ====
section
/-! DEFINITION. Reading what arrives as bytes: the enumeration codes of R190, setting items, scene records and the bodies
of requests (sections 11.2 to 11.4). The rows of the table give no bits, so no word spells a command. -/

namespace Sys2Proof

/-- No row of spec/opcode_table.json gives bits: no word spells a command. -/
def decodeTableWord (_nbits _w : Nat) : Option Instr := none

/-! ## Enumerations: a value is coded by its position in its list (R190) -/

def Layout.all : List Layout := [.mono, .stereo, .quad, .fiveOne, .sevenOne]
def FailoverPolicy.all : List FailoverPolicy := [.never, .onLoss, .onLossOrSilence]
def RevertPolicy.all : List RevertPolicy := [.manual, .auto]
def DelayMode.all : List DelayMode := [.cut, .slew]
def SlewLimit.all : List SlewLimit := [.fine, .normal, .fast]
def GainMode.all : List GainMode := [.off, .fixed, .ride]
def PortClass.all : List PortClass := [.k32, .k44, .k48, .k88, .k96]
def Selector.all : List Selector := [.main, .backup]
def ContactMode.all : List ContactMode := [.steady, .unacked]
def IntegrateAction.all : List IntegrateAction := [.start, .pause, .reset]

/-! ## Fields -/

def readU1 : List Byte → Option (Nat × List Byte)
  | a :: r => some (a.toNat, r)
  | _ => none

def readU2 : List Byte → Option (Nat × List Byte)
  | a :: b :: r => some ((a ++ b).toNat, r)
  | _ => none

def readU4 : List Byte → Option (Nat × List Byte)
  | a :: b :: c :: d :: r => some ((a ++ b ++ c ++ d).toNat, r)
  | _ => none

def readS2 : List Byte → Option (Int × List Byte)
  | a :: b :: r => some ((a ++ b).toInt, r)
  | _ => none

/-- An enumeration code beyond its list is a mismatch (R190). -/
def readCode {α : Type} (all : List α) (bs : List Byte) : Option (α × List Byte) := do
  let (n, r) ← readU1 bs
  let v ← all[n]?
  pure (v, r)

/-- A flag is 0 or 1 (R190). -/
def readFlag (bs : List Byte) : Option (Bool × List Byte) := readCode [false, true] bs

/-- A target byte: programme 0-15, or link group g as 80h + g (section 11.3). -/
def readTarget (bs : List Byte) : Option (Target × List Byte) := do
  let (n, r) ← readU1 bs
  if n ≤ 15 then pure (.programme n, r)
  else if 128 ≤ n ∧ n ≤ 131 then pure (.group (n - 128), r)
  else none

/-- A list of numbers: a count byte, then the entries. -/
def readList (bs : List Byte) : Option ((List Nat) × List Byte) := do
  let (n, r) ← readU1 bs
  if r.length < n then none else pure ((r.take n).map (·.toNat), r.drop n)

/-- A value and the setting it is for. -/
def asItem {α : Type} (f : α → SettingItem) : Option (α × List Byte) → Option (SettingItem × List Byte)
  | some (v, r) => some (f v, r)
  | none => none

/-- A source: port, first slot. -/
def readSource (bs : List Byte) : Option ((Nat × Nat) × List Byte) := do
  let (port, r) ← readU1 bs
  let (slot, r) ← readU1 r
  pure ((port, slot), r)

/-- A setting item (section 11.3): a setting code and the value. The absent code of a number in a setting that has no absent
value is read as the value it spells, which R2 finds out of range (DESIGN CHOICE, log 76). -/
def readItem (bs : List Byte) : Option (SettingItem × List Byte) := do
  let (code, r) ← readU1 bs
  match code with
  | 0 => asItem .layout (readCode Layout.all r)
  | 1 => asItem (fun v => .mainSource v.1 v.2) (readSource r)
  | 2 => asItem (fun v => .backupSource (if v.1 = 255 then none else some v)) (readSource r)
  | 3 => asItem .failover (readCode FailoverPolicy.all r)
  | 4 => asItem .revert (readCode RevertPolicy.all r)
  | 5 => asItem .switchGuard (readU2 r)
  | 6 => asItem .revertHold (readU2 r)
  | 7 => asItem .delayTarget (readU4 r)
  | 8 => asItem .delayMode (readCode DelayMode.all r)
  | 9 => asItem .slewLimit (readCode SlewLimit.all r)
  | 10 => asItem .gainMode (readCode GainMode.all r)
  | 11 => asItem .fixedGain (readS2 r)
  | 12 => asItem .rideTarget (readS2 r)
  | 13 => asItem .rideTolerance (readU2 r)
  | 14 => asItem .rideRate (readU2 r)
  | 15 => asItem .riderGate (readS2 r)
  | 16 => asItem .ceiling (readS2 r)
  | 17 => asItem .limiterRelease (readU2 r)
  | 18 => asItem .outputSlots (readList r)
  | 19 => asItem (fun v => .linkGroup (if v = 255 then none else some v)) (readU1 r)
  | 20 => asItem .silenceThreshold (readS2 r)
  | 21 => asItem .loudHigh (readS2 r)
  | 22 => asItem .loudLow (readS2 r)
  | 23 => asItem .phaseThreshold (readS2 r)
  | _ => none

/-- Setting items up to the end of the bytes; `fuel` bounds their number. -/
def readItems : Nat → List Byte → Option (List SettingItem)
  | _, [] => some []
  | 0, _ :: _ => none
  | fuel + 1, bs => do
    let (i, r) ← readItem bs
    let is ← readItems fuel r
    pure (i :: is)

/-- A field that the presence byte marks as present. -/
def readIf {α : Type} (present : Bool) (f : List Byte → Option (α × List Byte)) (bs : List Byte) : Option ((Option α) × List Byte) :=
  if present then (f bs).map fun (v, r) => (some v, r) else some (none, bs)

/-- The presence byte and the present fields of ALARMCFG (section 11.3). The presence byte with no field, or with bits 5
to 7 set, is read as it stands: R149 refuses it. Enabled and latching are flags (log 45). -/
def readAlarmFields (bs : List Byte) : Option (AlarmFields × List Byte) :=
  match bs with
  | [] => none
  | p :: r => do
    let (enabled, r) ← readIf (p.getLsbD 0) readFlag r
    let (onsetHold, r) ← readIf (p.getLsbD 1) readU2 r
    let (releaseHold, r) ← readIf (p.getLsbD 2) readU2 r
    let (latching, r) ← readIf (p.getLsbD 3) readFlag r
    let (contactMask, r) ← readIf (p.getLsbD 4) readU1 r
    pure ({ enabled := enabled, onsetHold := onsetHold, releaseHold := releaseHold, latching := latching
            contactMask := contactMask, reserved := p.extractLsb' 5 3 }, r)

/-- Takes a value only where no byte is left: a body longer than its layout is a mismatch (R190). -/
def whole {α : Type} : Option (α × List Byte) → Option α
  | some (v, []) => some v
  | _ => none

/-- The fields of a scene record of a kind (section 11.4). Port FFh of a SOURCE record is none, and the slot byte beside
it is not kept (log 46). An absent code in a number that needs a value is read as a value, and judged when the record is applied
(DESIGN CHOICE, log 76). -/
def readRecord (kind : Nat) (bs : List Byte) : Option SceneRecord :=
  match kind with
  | 0 => do
    let (t, r) ← readTarget bs
    let is ← readItems r.length r
    pure (.set t is)
  | 1 => do
    let (t, r) ← readTarget bs
    let (n, r) ← readU4 r
    let m ← whole (readCode DelayMode.all r)
    pure (.delay t n m)
  | 2 => do
    let (p, r) ← readU1 bs
    let l ← whole (readList r)
    pure (.slots p l)
  | 3 => do
    let (p, r) ← readU1 bs
    let (side, r) ← readCode Selector.all r
    let s ← whole (readSource r)
    pure (.source p side (if s.1 = 255 then none else some s))
  | 4 => do
    let (e, r) ← readU2 bs
    let f ← whole (readAlarmFields r)
    pure (.alarmcfg e f)
  | 5 => do
    let (p, r) ← readU1 bs
    let a ← whole (readCode IntegrateAction.all r)
    pure (.integrate p a)
  | 6 => do
    let n ← whole (readU1 bs)
    pure (.wait n)
  | 7 => do
    let n ← whole (readU1 bs)
    pure (.chain n)
  | _ => none

/-- Records of SCENE APPEND: a kind byte, a field length byte and the fields. A record that cannot be read as one is
`none`; nothing after a record that runs past the end is read (section 11.4). -/
def readRecords : Nat → List Byte → List (Option SceneRecord)
  | _, [] => []
  | 0, _ :: _ => [none]
  | fuel + 1, k :: r =>
    match r with
    | [] => [none]
    | n :: r =>
      if r.length < n.toNat then [none]
      else readRecord k.toNat (r.take n.toNat) :: readRecords fuel (r.drop n.toNat)

/-- A trigger and its argument (section 11.3, TAKE). AT_FRAME FFFFFFFFh names that count (DESIGN CHOICE, log 76). -/
def readTrigger (bs : List Byte) : Option (Trigger × List Byte) := do
  let (t, r) ← readU1 bs
  let (arg, r) ← readU4 r
  match t with
  | 0 => if arg = 0 then pure (.nextBoundary, r) else none
  | 1 => pure (.atFrame (BitVec.ofNat 32 arg), r)
  | 2 => pure (.gpi arg .rising, r)
  | 3 => pure (.gpi arg .falling, r)
  | _ => none

/-- Whether a kind byte is a request kind (section 11.1). -/
def requestKind (kind : Nat) : Bool := decide (1 ≤ kind ∧ kind ≤ 26)

/-- The request a body spells by the layout of its kind (section 11.3); `none` where it does not match that layout. The absent
code of a delay target is read as a value (DESIGN CHOICE, log 76). -/
def readRequest (kind : Nat) (bs : List Byte) : Option Request :=
  match kind with
  | 0x01 => do
    let (p, r) ← readU1 bs
    let is ← readItems r.length r
    pure (.define p is)
  | 0x02 => do
    let (t, r) ← readTarget bs
    let is ← readItems r.length r
    pure (.set t is)
  | 0x03 => do
    let (t, r) ← readTarget bs
    let (n, r) ← readU4 r
    let m ← whole (readCode DelayMode.all r)
    pure (.delay t n m)
  | 0x04 => do
    let (p, r) ← readU1 bs
    let n ← whole (readU2 r)
    pure (.allocate p n)
  | 0x05 => (whole (readU1 bs)).map .start
  | 0x06 => (whole (readU1 bs)).map .park
  | 0x07 => (whole (readU1 bs)).map .release
  | 0x08 => (whole (readU1 bs)).map .clear
  | 0x09 => do
    let (p, r) ← readU1 bs
    let s ← whole (readCode Selector.all r)
    pure (.select p s)
  | 0x0A => do
    let (q, r) ← readU1 bs
    let c ← whole (readCode PortClass.all r)
    pure (.port q c)
  | 0x0B => do
    let (p, r) ← readU1 bs
    let a ← whole (readCode IntegrateAction.all r)
    pure (.integrate p a)
  | 0x0C => do
    let (p, r) ← readU1 bs
    let (f, r) ← readU2 r
    let n ← whole (readU1 r)
    pure (.histo p f n)
  | 0x0D => do
    let (e, r) ← readU2 bs
    let f ← whole (readAlarmFields r)
    pure (.alarmcfg e f)
  | 0x0E => (whole (readU2 bs)).map fun e => .ack (if e = 65535 then none else some e)
  | 0x0F => do
    let (k, r) ← readU1 bs
    let m ← whole (readCode ContactMode.all r)
    pure (.contact k m)
  | 0x10 => do
    let (s, r) ← readU1 bs
    match r with
    | [] => none
    | f :: r => pure (.sceneAppend s f (readRecords r.length r))
  | 0x11 => do
    let (s, r) ← readU1 bs
    let (f, r) ← readU1 r
    let n ← whole (readU2 r)
    pure (.sceneRead s f n)
  | 0x12 => do
    let (s, r) ← readU1 bs
    let t ← whole (readTrigger r)
    pure (.take s t)
  | 0x13 => (whole (readU1 bs)).map fun t => .cancel (BitVec.ofNat 8 t)
  | 0x14 => if bs = [] then some .resume else none
  | 0x15 => if bs = [] then some .abandon else none
  | 0x16 => do
    let (a, r) ← readU1 bs
    match a with
    | 0 => do
      let (pt, r) ← readU2 r
      let n ← whole (readU1 r)
      pure (.watchAdd pt n)
    | 1 => (whole (readU2 r)).map .watchRemove
    | 2 => if r = [] then some .watchEmpty else none
    | _ => none
  | 0x17 => if bs = [] then some .identify else none
  | 0x18 => if bs = [] then some .lineReset else none
  | 0x19 => if bs = [] then some .restart else none
  | 0x1A => (whole (readU2 bs)).map .peek
  | _ => none

/-- The kind byte of a request (section 11.3). -/
def Request.kind : Request → Nat
  | .define .. => 0x01 | .set .. => 0x02 | .delay .. => 0x03 | .allocate .. => 0x04
  | .start _ => 0x05 | .park _ => 0x06 | .release _ => 0x07 | .clear _ => 0x08
  | .select .. => 0x09 | .port .. => 0x0A | .integrate .. => 0x0B | .histo .. => 0x0C
  | .alarmcfg .. => 0x0D | .ack _ => 0x0E | .contact .. => 0x0F | .sceneAppend .. => 0x10
  | .sceneRead .. => 0x11 | .take .. => 0x12 | .cancel _ => 0x13 | .resume => 0x14
  | .abandon => 0x15 | .watchAdd .. => 0x16 | .watchRemove _ => 0x16 | .watchEmpty => 0x16
  | .identify => 0x17 | .lineReset => 0x18 | .restart => 0x19 | .peek _ => 0x1A

end Sys2Proof
end

