-- ==== Sys2Proof/Machine/State.lean ====
section
/-! DEFINITION. The state of the Cendira 1648 as plain data, block by block as the manual's tables give it, and the
state right after device reset. The DRAM, the receive side, the outgoing queue and the commands that wait stand beside
the rest, so that an operation of the other blocks cannot touch them. -/

namespace Sys2Proof.Machine

/-! ## Names -/

/-- Reference states (R25, R29). -/
inductive RefState | free | locked
  deriving DecidableEq, Repr

/-- Port presence (R34). -/
inductive Presence | noClock | noSync | synced
  deriving DecidableEq, Repr

/-- Tracker states (section 2.5). -/
inductive TrackerState | absent | acquiring | locked | holdover
  deriving DecidableEq, Repr

/-- Programme states (R1, code order of R190). -/
inductive ProgState | vacant | defined | filling | parked | priming | running | starved
  deriving DecidableEq, Repr

/-- Owner of a pending set (R5). -/
inductive Owner | direct | scene
  deriving DecidableEq, Repr

/-- Causes of the STATE report (R14, R100). -/
inductive StateCause | primed | underrun | starved | resumed | loss | silence | revert | planned | forced
  deriving DecidableEq, Repr

/-- Outcomes of deferred operations and delay changes (R190). -/
inductive OpOutcome | success | noSpace | abandoned | superseded | done | cancelled
  deriving DecidableEq, Repr

/-- Reasons of refusal (section 11.1). -/
inductive Reason
  | badField | unknownKind | wrongState | busy | noSpace | slotClaimed | sceneBusy | queueFull | notFound
  | commitFull | chainLimit
  deriving DecidableEq, Repr

/-- Kinds of deferred operation (R180). -/
inductive OpKind | allocate | delay | integrateReset | take
  deriving DecidableEq, Repr

/-- Integration states (R118). -/
inductive IntegState | idle | integrating | paused | full
  deriving DecidableEq, Repr

/-- Rider status (R123). -/
inductive RiderStatus | off | waiting | gated | settled | moving
  deriving DecidableEq, Repr

/-- Alarm entry states (R138). -/
inductive EntryState | clear | onset | active | release | latched
  deriving DecidableEq, Repr

/-- Phases of a delay change (R74). -/
inductive ChangePhase | slewing | due | tail | remainder
  deriving DecidableEq, Repr

/-- Sequencer states (R167). -/
inductive SeqState | idle | armed | applying | committing | waiting | halted
  deriving DecidableEq, Repr

/-- Receiver states (R175). -/
inductive RxState | hunting | inFrame | discarding
  deriving DecidableEq, Repr

/-- Owner classes of the outgoing queue, in the rotation of R182. -/
inductive OwnerClass | answer | completion | alarm | state | scene | line
  deriving DecidableEq, Repr

/-- Message kinds that the part sends (section 11.1). -/
inductive MsgKind | answer | accepted | refused | completion | alarm | scene | state | meter | line
  deriving DecidableEq, Repr

/-! ## Messages -/

/-- One field of a body, typed as R190 types it; `none` is an absent value. -/
inductive Field
  | n1 (v : Option Nat)
  | n2 (v : Option Nat)
  | n4 (v : Option Nat)
  | s2 (v : Option Int)
  | s1 (v : Option Int)
  | flag (v : Bool)
  | code (v : Option Nat)
  deriving DecidableEq, Repr

/-- A message of the outgoing queue: its kind, its tag and its fields (section 11.1). -/
structure Message where
  kind   : MsgKind
  tag    : Byte
  fields : List Field
  deriving DecidableEq, Repr

/-- A checked frame of the receive buffer: the kind byte and tag byte as received, and what its fields say by the
layout of its kind: `none` where they do not match it (R179, R190). -/
structure RxFrame where
  kind    : Byte
  tag     : Byte
  request : Option Request
  deriving DecidableEq, Repr

/-! ## House timing (chapter 2) -/

/-- A failover action: the kind, by the cause it would record, with the port a LOSS action names (R89). -/
structure FailoverAction where
  programme : Fin 16
  /-- `some q` for a LOSS action on port q; `none` for a SILENCE action. -/
  lossPort  : Option (Fin 8)
  deriving DecidableEq, Repr

/-- A frame boundary in progress: the count it carries (R32), which of the work of that boundary has been taken (the
model's own marks, log 9), and the failover actions raised at it and not yet taken (R146; log 23). -/
structure Boundary where
  frame         : Count
  committed     : List (Fin 16) := []
  worked        : List (Fin 16) := []
  cut           : List (Fin 16) := []
  evaluated     : List (Fin 154) := []
  actions       : List FailoverAction := []
  alarmsDone    : Bool := false
  sequencerDone : Bool := false
  watchDone     : Bool := false
  deriving DecidableEq, Repr

/-- House timing block (table of section 2.1), with the implied fields of the inventory. -/
structure Timing where
  href           : RefState := .free
  sampleCounter  : Count := 0
  tickCount      : Count := 0
  lastInterval   : Nat := Config.nominalInterval
  hrefGlitches   : Nat := 0
  vref           : RefState := .free
  frameCounter   : Count := 0
  measuredLength : Option Nat := none
  generatedLength : Nat := 1920
  vrefGlitches   : Nat := 0
  /-- The interval whose 1/256 spaces the ticks of the house sample in progress (R25 to R27). -/
  tickSpacing    : Nat := Config.nominalInterval
  /-- House samples from the previous frame boundary to the house sample in progress (R29, R30). -/
  sinceBoundary  : Nat := 0
  /-- A VREF edge whose boundary falls at the next house sample; `some d` where its distance is measured (R29, R31). -/
  vrefWaiting    : Option (Option Nat) := none
  /-- House samples begun whose work HOUSE_SAMPLE has yet to take (log 28). -/
  samplesOwed    : Nat := 1
  regulationDue  : Bool := true
  /-- A step boundary in progress, with the meters that have taken it (R33). -/
  stepDue        : Option (List (Fin 16)) := some []
  boundary       : Option Boundary := some { frame := 1 }
  deriving DecidableEq, Repr

/-! ## Ingest ports (chapter 2) -/

/-- A rate tracker (table of section 2.5). The loss timer is kept as the house tick at which it started (log 27). -/
structure Tracker where
  state      : TrackerState := .absent
  stamps     : List Count := []
  frameCount : Nat := 0
  span       : Option Nat := none
  prevSpan   : Option Nat := none
  q          : Option Nat := none
  jumpRun    : Nat := 0
  rangeHeld  : Bool := false
  jumpSeen   : Bool := false
  lossSince  : Option Count := none
  holdover   : Option Nat := none
  deriving DecidableEq, Repr

/-- An ingest port (table of section 2.4). -/
structure Port where
  presence     : Presence := .noClock
  clockPresent : Bool := false
  /-- Whether a sync has been seen since the clock became present (R34). -/
  syncSeen     : Bool := false
  bitCount     : Nat := 0
  assembly     : List Sample := []
  cls          : PortClass := .k48
  tracker      : Tracker := {}
  deriving DecidableEq, Repr

/-! ## Programme records (chapter 1) -/

/-- A source: a port and a first slot (section 1.2). -/
structure Source where
  port : Fin 8
  slot : Fin 8
  deriving DecidableEq, Repr

/-- A settings set: every setting of section 1.2. Layout and main source have no default. -/
structure Settings where
  layout           : Layout
  main             : Source
  backup           : Option Source := none
  failover         : FailoverPolicy := .never
  revert           : RevertPolicy := .manual
  switchGuard      : Nat := 25
  revertHold       : Nat := 250
  delayTarget      : Nat := 0
  delayMode        : DelayMode := .cut
  slewLimit        : SlewLimit := .normal
  gainMode         : GainMode := .off
  fixedGain        : Int := 0
  rideTarget       : Int := -230
  rideTolerance    : Nat := 10
  rideRate         : Nat := 10
  riderGate        : Int := -500
  ceiling          : Int := -10
  limiterRelease   : Nat := 20
  slots            : Option (List Nat) := none
  linkGroup        : Option Nat := none
  silenceThreshold : Int := -600
  loudHigh         : Int := -180
  loudLow          : Int := -320
  phaseThreshold   : Int := -30
  deriving DecidableEq, Repr

/-- Where a delay write, or the change it starts, comes from: a DELAY operation by its tag, or the running scene (R62). -/
inductive DelayOrigin
  | operation (tag : Byte)
  | scene
  deriving DecidableEq, Repr

/-- A pending set with its owner (R5), and the origin of the delay write it holds, if any (R8, R163). -/
structure Pending where
  settings : Settings
  owner    : Owner
  delay    : Option DelayOrigin := none
  deriving DecidableEq, Repr

/-- A line descriptor (R16). -/
structure Line where
  bank   : Fin 4
  first  : Nat
  count  : Nat
  length : Nat
  deriving DecidableEq, Repr

/-- A programme record (R1). -/
structure Programme where
  state        : ProgState := .vacant
  active       : Option Settings := none
  pending      : Option Pending := none
  selector     : Selector := .main
  guard        : Nat := 0
  revertCount  : Nat := 0
  requested    : Option Selector := none
  line         : Option Line := none
  stateOwed    : Option StateCause := none
  memoryErrors : Nat := 0
  slips        : Nat := 0
  writeDrops   : Nat := 0
  overloads    : Nat := 0
  /-- Memory event seen (table of section 3.1). -/
  memorySeen   : Bool := false
  /-- The running mark of the alarm table (R138, R141). -/
  runningMark  : Bool := false
  /-- MODEL'S OWN (log 23): for an entry evaluated ahead of the rest of the table, by its kind, the running mark that it goes
  by until its next evaluation (R141). -/
  ownMarks     : List (Nat × Bool) := []
  deriving DecidableEq, Repr

/-! ## Delay store (chapter 3) -/

/-- A frame of a write queue (R52). -/
structure QueuedFrame where
  lane     : Fin 16
  seq      : Count
  position : Nat
  samples  : List Sample
  deriving DecidableEq, Repr

/-- A zero-fill job (R50). -/
structure FillJob where
  programme : Fin 16
  firstWord : Nat
  words     : Nat
  written   : Nat := 0
  deriving DecidableEq, Repr

/-- An access granted and not yet complete (R59). `live` is false when what it was granted for has gone, and its
completion then returns or removes nothing (R51, R55, R58). -/
inductive Access
  | drain (lane : Fin 16) (word : Nat) (samples : List Sample) (live : Bool)
  | read (lane : Fin 16) (seq : Count) (word : Nat) (channels : Nat) (live : Bool)
  | fill (programme : Fin 16) (word : Nat) (live : Bool)
  deriving DecidableEq, Repr

/-- A bank of the delay store (table of section 3.1). -/
structure Bank where
  segments : List (Option (Fin 16)) := List.replicate 512 none
  queue    : List QueuedFrame := []
  jobs     : List FillJob := []
  waiting  : List (Fin 16) := []
  readNext : Fin 16 := 0
  access   : Option Access := none
  deriving DecidableEq, Repr

/-- The DRAM: bytes at addresses, rising, none equal to what an unwritten byte reads as (log 6). -/
abbrev Memory := List Host.Cell

/-! ## Conversion lanes (chapter 4, chapter 5) -/

/-- The ratio record (R70). -/
structure RatioRecord where
  port : Fin 8
  q    : Nat
  deriving DecidableEq, Repr

/-- A frame held in the window (R67), marked where a sample of it was taken as zero by a memory error (R57). -/
structure HeldFrame where
  seq     : Count
  samples : List Sample
  muted   : Bool := false
  deriving DecidableEq, Repr

/-- A delay change in flight (R74). `boundary` is the count of the boundary of its commit, which makes no cut (R76);
`floored` says that the cut stopped at the floor (R78). -/
structure DelayChange where
  target   : Nat
  mode     : DelayMode
  origin   : Option DelayOrigin
  phase    : ChangePhase
  boundary : Count
  floored  : Bool := false
  deriving DecidableEq, Repr

/-- A fade tail (R77). It keeps the history start in force when it was made (log 18). A tail whose `remaining` is 0 has
ended and waits for FADE_TAIL_END. -/
structure FadeTail where
  readSeq      : Count
  acc          : Nat
  q            : Nat
  remaining    : Nat := 64
  stop         : Option Count := none
  historyStart : Count
  deriving DecidableEq, Repr

/-- A splice mark (R87). -/
structure SpliceMark where
  seq  : Count
  port : Fin 8
  slot : Fin 8
  q    : Option Nat
  deriving DecidableEq, Repr

/-- A read request (R56). -/
structure ReadRequest where
  seq     : Count
  granted : Bool := false
  deriving DecidableEq, Repr

/-- A lane's output frame of a house sample, with its marks (R69). -/
structure LaneOutput where
  samples   : List Sample := []
  disturbed : Bool := false
  outside   : Bool := true
  deriving DecidableEq, Repr

/-- What a lane's owed SCENE report of event DELAY carries (R172). -/
structure DelayReport where
  programme : Fin 16
  target    : Nat
  outcome   : OpOutcome
  deriving DecidableEq, Repr

/-- A conversion lane (R62), with the read request and the holding place that the delay store keeps for it. -/
structure Lane where
  source         : Option Source := none
  writeSeq       : Count := 0
  readSeq        : Count := 0
  historyStart   : Count := 0
  window         : List HeldFrame := []
  acc            : Nat := 0
  increment      : Nat := Config.unityRatio
  /-- MODEL'S OWN (log 43): the increment that a regulation tick replaced, with the number of house samples already begun
  that are still stepped with it (R72). -/
  outgoing       : Option (Nat × Nat) := none
  ratio          : Option RatioRecord := none
  target         : Nat := 0
  setpoint       : Option Nat := none
  delayLimited   : Bool := false
  overrideFast   : Bool := false
  change         : Option DelayChange := none
  fadeIn         : Nat := 0
  tail           : Option FadeTail := none
  marks          : List SpliceMark := []
  overloadRun    : List Nat := List.replicate 8 0
  overloadSeen   : Bool := false
  slipSeen       : Bool := false
  stickySlip     : Bool := false
  sceneDelayOwed : Option DelayReport := none
  readRequest    : Option ReadRequest := none
  holding        : Option (List Sample) := none
  output         : LaneOutput := {}
  deriving DecidableEq, Repr

/-! ## Loudness meters (chapter 6) -/

/-- One stage of the weighting filter: two past inputs and two past outputs (R102, R104), in units of 2^-640 of full
scale (log 13). -/
structure FilterStage where
  x1 : Int := 0
  x2 : Int := 0
  y1 : Int := 0
  y2 : Int := 0
  deriving DecidableEq, Repr

/-- The filter of one measured channel (R104). -/
structure ChannelFilter where
  shelf    : FilterStage := {}
  highPass : FilterStage := {}
  deriving DecidableEq, Repr

/-- A ring entry: a step energy, in units of 2^-1280, and its disturbed mark (R106). -/
structure RingEntry where
  energy    : Nat
  disturbed : Bool
  deriving DecidableEq, Repr

/-- Reset due: the tags of the RESET operations, and the scene mark (R102). -/
structure ResetDue where
  tags  : List Byte := []
  scene : Bool := false
  deriving DecidableEq, Repr

/-- The house sample at whose boundary the newest step was closed, the bin of the block that came with it, none where there
was no such block or it was let go at the limit, and the integration state that stood before a block brought the count to
the limit. MODEL'S OWN (logs 44, 65): a PARK or underrun of that same house sample falls inside the step closed (R105, R129). -/
structure ClosedStep where
  sample : Count
  block  : Option Nat := none
  before : IntegState := .integrating
  deriving DecidableEq, Repr

/-- A loudness meter (R102). -/
structure Meter where
  filters         : List ChannelFilter := List.replicate 8 {}
  squares         : List Nat := List.replicate 8 0
  sumLL           : Nat := 0
  sumRR           : Nat := 0
  sumLR           : Int := 0
  samples         : Nat := 0
  disturbed       : Bool := false
  started         : Bool := false
  ring            : List RingEntry := []
  closed          : Option ClosedStep := none
  momentary       : Option Int := none
  shortTerm       : Option Int := none
  correlation     : Option Int := none
  integState      : IntegState := .idle
  histogram       : List Nat := List.replicate 750 0
  admitted        : Nat := 0
  pendingBlocks   : List Nat := []
  integrated      : Option Int := none
  resetDue        : Option ResetDue := none
  abandoned       : Nat := 0
  sceneResetOwed  : Option OpOutcome := none
  deriving DecidableEq, Repr

/-- A sweep in flight (R112): the energies in units of 2^-1280, and the house samples of the visit so far (R114). -/
structure Sweep where
  programme : Fin 16
  secondPass : Bool := false
  lowest    : Nat
  highest   : Nat
  next      : Nat
  blocks    : Nat := 0
  energy    : Nat := 0
  threshold : Option Int := none
  visited   : Nat := 0
  deriving DecidableEq, Repr

/-! ## Gain stages (chapter 7) -/

/-- A gain ramp (R126). -/
structure Ramp where
  start    : Rat
  stop     : Int
  position : Nat := 0
  deriving DecidableEq, Repr

/-- What the rider's last decision replaced, with the house sample at whose step boundary it was made. MODEL'S OWN
(log 44): a PARK or underrun of that same house sample takes the decision back (R129). The ramp replaced goes on as if it
stood. -/
structure Judged where
  sample  : Count
  g       : Int
  applied : Rat
  ramp    : Option Ramp
  deriving DecidableEq, Repr

/-- A gain stage (R123); gr in gr units of 1/48,000 of a hundredth of a dB. -/
structure GainStage where
  g           : Int := 0
  applied     : Rat := 0
  ramp        : Option Ramp := none
  rider       : RiderStatus := .off
  desired     : Option Int := none
  gr          : Nat := 0
  activations : Nat := 0
  judged      : Option Judged := none
  output      : List Sample := []
  deriving DecidableEq, Repr

/-! ## Alarm table (chapter 8) -/

/-- An alarm entry (R138). -/
structure Entry where
  enabled     : Bool := true
  onsetHold   : Nat := 0
  releaseHold : Nat := 25
  latching    : Bool := false
  contactMask : BitVec 8 := 0
  state       : EntryState := .clear
  countdown   : Nat := 0
  unacked     : Bool := false
  reportOwed  : Bool := false
  onsets      : Nat := 0
  changeFrame : Count := 0
  /-- MODEL'S OWN (log 63): the report owed comes of an evaluation ahead of the rest of the table and of nothing else. It has
  a meaning until the rest of that boundary is evaluated. -/
  withheld    : Bool := false
  deriving DecidableEq, Repr

/-- A contact (R151). -/
structure Contact where
  mode   : ContactMode := .steady
  closed : Bool := false
  deriving DecidableEq, Repr

/-! ## Scene store and sequencer (chapter 9) -/

/-- A scene list (R156). -/
structure SceneList where
  records       : List SceneRecord := []
  stopOnRefusal : Bool := false
  deriving DecidableEq, Repr

/-- A take of the take queue (R160). -/
structure Take where
  scene   : Fin 32
  trigger : Trigger
  tag     : Byte
  deriving DecidableEq, Repr

/-- A halt record with its countdown (R165). -/
structure Halt where
  scene     : Fin 32
  index     : Nat
  reason    : Reason
  countdown : Nat
  deriving DecidableEq, Repr

/-- A record of the commit list (R164). -/
inductive CommitItem
  | alarmcfg (entry : Fin 154) (fields : AlarmFields)
  | integrate (p : Fin 16) (action : IntegrateAction)
  deriving DecidableEq, Repr

/-- The owed SCENE reports of the sequencer (R171). -/
inductive SceneReport
  | started (tag : Byte) (scene : Fin 32) (late : Bool) (frame : Count)
  | committed (tag : Byte) (commit : Nat) (frame : Count) (programmes : List (Fin 16)) (applied letGo : Nat)
  | halted (tag : Byte) (scene : Fin 32) (index : Nat) (reason : Reason) (refused : Nat)
  deriving DecidableEq, Repr

/-- The scene sequencer (section 9.2, 9.3). `commitPoint` is the commit point reached: a WAIT with its length, or the
end of a list (`none`), meaningful in COMMITTING. -/
structure Sequencer where
  takes       : List Take := []
  state       : SeqState := .idle
  late        : Bool := false
  current     : Option (Fin 32) := none
  next        : Nat := 0
  chain       : Nat := 0
  applied     : Nat := 0
  refused     : Nat := 0
  commits     : Nat := 0
  commitList  : List CommitItem := []
  commitPoint : Option Nat := none
  waitCount   : Nat := 0
  halt        : Option Halt := none
  owed        : List SceneReport := []
  gpi         : Vector Bool 4 := .replicate 4 false
  deriving DecidableEq, Repr

/-! ## Control line (chapter 10) -/

/-- An entry of the deferred table (R180): COMPLETE with its outcome and the data of its report, or IN_FLIGHT. -/
structure Deferred where
  tag      : Byte
  kind     : OpKind
  /-- A programme, or for TAKE a scene. -/
  subject  : Nat
  complete : Option (OpOutcome × List Field) := none
  deriving DecidableEq, Repr

/-- An entry of the watch list (R184). -/
structure Watch where
  point     : Nat
  period    : Nat
  countdown : Nat
  deriving DecidableEq, Repr

/-- The part of the control line block that other blocks act on: deferred table, LINE owed marks, watch list and
counts (R174). -/
structure LineBlock where
  deferred      : List Deferred := []
  /-- Tags of the COMPLETE entries in the order their operations completed (R182). -/
  completions   : List Byte := []
  breakOwed     : Option Nat := none
  badFrameOwed  : Option (LineFault × Nat) := none
  overrunOwed   : Option (Byte × Nat) := none
  watch         : List Watch := []
  badFrames     : Nat := 0
  overruns      : Nat := 0
  breaks        : Nat := 0
  meterDrops    : Nat := 0
  deriving DecidableEq, Repr

/-- The receive side (R174, R175, R178). -/
structure Receiver where
  state          : RxState := .hunting
  assembly       : Option (List Byte) := none
  buffer         : List RxFrame := []
  hold           : Bool := false
  restartPending : Bool := false
  deriving DecidableEq, Repr

/-- The sending side (R181, R182). -/
structure Sender where
  queue   : List Message := []
  carry   : List Message := []
  pointer : OwnerClass := .line
  deriving DecidableEq, Repr

/-! ## The whole -/

/-- Everything in the part but the two queues of the control line. -/
structure Body where
  lrate      : LineRate := .r115200
  banksStrap : BankStrap := .four
  timing     : Timing := {}
  ports      : Vector Port 8 := .replicate 8 {}
  programmes : Vector Programme 16 := .replicate 16 {}
  outputMap  : List (Option (Fin 16 × Nat)) := List.replicate 64 none
  banks      : Vector Bank 4 := .replicate 4 {}
  lanes      : Vector Lane 16 := .replicate 16 {}
  meters     : Vector Meter 16 := .replicate 16 {}
  sweep      : Option Sweep := none
  sweepQueue : List (Fin 16) := []
  gains      : Vector GainStage 16 := .replicate 16 {}
  /-- The output frame formed at the house sample in progress, slot by slot (R133), and the one being sent (R134). -/
  formed     : List Sample := List.replicate 64 0
  sending    : List Sample := List.replicate 64 0
  entries    : Vector Entry 154 := .replicate 154 {}
  contacts   : Vector Contact 8 := .replicate 8 {}
  scenes     : Vector SceneList 32 := .replicate 32 {}
  sequencer  : Sequencer := {}
  line       : LineBlock := {}
  /-- MODEL'S OWN (log 15): how many free values have been drawn. -/
  freeDraws  : Nat := 0
  deriving DecidableEq, Repr

/-- Why the machine stops. Raised by DRAIN_COMPLETE, READ_COMPLETE and ZERO_FILL_ACCESS_COMPLETE. -/
inductive Fault
  /-- A granted access names a word the bank does not have (R46 gives words 0 to 2,097,151). Safe: no run from reset
  grants such an access. -/
  | noSuchWord (bank : Fin 4) (word : Nat)
  deriving DecidableEq, Repr

/-- Why a command has no meaning in the model. -/
inductive Refusal
  /-- A row of the table that has no meaning yet. Raised by the dispatch alone; safe. -/
  | notModelled (mnemonic : String)
  deriving DecidableEq, Repr

/-- The state of the machine: the part, its receive and sending sides, the DRAM beside it, and the commands waiting. -/
structure State where
  body    : Body := {}
  rx      : Receiver := {}
  tx      : Sender := {}
  dram    : Memory := []
  pending : List Instr := []
  deriving DecidableEq, Repr

/-- The machine right after device reset (R174 and the reset column of every chapter's state table). The strap
readings are LRATE 0 and four banks (log 5); the DRAM lists nothing (log 6); no command waits. -/
def State.reset : State := {}

end Sys2Proof.Machine
end

