-- ==== Sys2Proof/Machine/Ops.lean ====
section
/-! DEFINITION. The named operations over the state: reading and writing one block's record, saturating counts, sequence
numbers, the words and bytes of the DRAM, and what several blocks do to the control line block (ending an operation). -/

namespace Sys2Proof.Machine

/-! ## Records of the blocks -/

def programmeIds : List (Fin 16) := List.finRange 16
def portIds : List (Fin 8) := List.finRange 8
def bankIds : List (Fin 4) := List.finRange 4
def entryIds : List (Fin 154) := List.finRange 154

/-- The programme, port, ... a request names by number, where it exists (R2). -/
def idOf (n k : Nat) : Option (Fin n) := if h : k < n then some ⟨k, h⟩ else none

namespace Body

def programme (b : Body) (p : Fin 16) : Programme := b.programmes[p]
def setProgramme (b : Body) (p : Fin 16) (x : Programme) : Body := { b with programmes := b.programmes.set p x }
def onProgramme (b : Body) (p : Fin 16) (f : Programme → Programme) : Body := b.setProgramme p (f (b.programme p))

def lane (b : Body) (p : Fin 16) : Lane := b.lanes[p]
def setLane (b : Body) (p : Fin 16) (x : Lane) : Body := { b with lanes := b.lanes.set p x }
def onLane (b : Body) (p : Fin 16) (f : Lane → Lane) : Body := b.setLane p (f (b.lane p))

def meter (b : Body) (p : Fin 16) : Meter := b.meters[p]
def setMeter (b : Body) (p : Fin 16) (x : Meter) : Body := { b with meters := b.meters.set p x }
def onMeter (b : Body) (p : Fin 16) (f : Meter → Meter) : Body := b.setMeter p (f (b.meter p))

def gain (b : Body) (p : Fin 16) : GainStage := b.gains[p]
def setGain (b : Body) (p : Fin 16) (x : GainStage) : Body := { b with gains := b.gains.set p x }
def onGain (b : Body) (p : Fin 16) (f : GainStage → GainStage) : Body := b.setGain p (f (b.gain p))

def port (b : Body) (q : Fin 8) : Port := b.ports[q]
def setPort (b : Body) (q : Fin 8) (x : Port) : Body := { b with ports := b.ports.set q x }
def onPort (b : Body) (q : Fin 8) (f : Port → Port) : Body := b.setPort q (f (b.port q))

def bank (b : Body) (k : Fin 4) : Bank := b.banks[k]
def setBank (b : Body) (k : Fin 4) (x : Bank) : Body := { b with banks := b.banks.set k x }
def onBank (b : Body) (k : Fin 4) (f : Bank → Bank) : Body := b.setBank k (f (b.bank k))

def entry (b : Body) (e : Fin 154) : Entry := b.entries[e]
def setEntry (b : Body) (e : Fin 154) (x : Entry) : Body := { b with entries := b.entries.set e x }
def onEntry (b : Body) (e : Fin 154) (f : Entry → Entry) : Body := b.setEntry e (f (b.entry e))

def contact (b : Body) (k : Fin 8) : Contact := b.contacts[k]
def scene (b : Body) (n : Fin 32) : SceneList := b.scenes[n]
def setScene (b : Body) (n : Fin 32) (x : SceneList) : Body := { b with scenes := b.scenes.set n x }

def onTiming (b : Body) (f : Timing → Timing) : Body := { b with timing := f b.timing }
def onSequencer (b : Body) (f : Sequencer → Sequencer) : Body := { b with sequencer := f b.sequencer }
def onLine (b : Body) (f : LineBlock → LineBlock) : Body := { b with line := f b.line }

/-- One operation for each programme, in increasing number. -/
def eachProgramme (b : Body) (f : Fin 16 → Body → Body) : Body := programmeIds.foldl (fun b p => f p b) b

end Body

/-! ## Counts and sequence numbers -/

/-- One more, up to the limit of a saturating count (R1). -/
def bump (n : Nat) : Nat := min Config.countLimit (n + 1)

/-- `k` more, up to the limit. -/
def bumpBy (k n : Nat) : Nat := min Config.countLimit (n + k)

/-- Sequence numbers are compared on their difference (00, Sequence numbers and occupancy): a lies before b. -/
def seqBefore (a b : Count) : Bool := a != b && decide ((b - a).toNat < 2147483648)

/-- a lies at or before b. -/
def seqUpTo (a b : Count) : Bool := decide ((b - a).toNat < 2147483648)

/-- The later of two sequence numbers. -/
def seqLater (a b : Count) : Count := if seqBefore a b then b else a

/-- A Nat as a 32-bit count. -/
def cnt (n : Nat) : Count := BitVec.ofNat 32 n

/-- Occupancy: write sequence less read sequence (R63). -/
def Lane.occupancy (l : Lane) : Nat := (l.writeSeq - l.readSeq).toNat

/-! ## The DRAM -/

/-- What a byte that nothing has written reads as. DESIGN CHOICE (log 6): the manual leaves the DRAM's contents at power
on undefined; unsafe. A word of such bytes has its written mark clear, so a read of it is a memory error (R191). -/
def unwrittenByte : BitVec 8 := 0

/-- The canonical form: addresses strictly rising, no entry equal to what an unlisted address reads as. -/
def Memory.wf (m : Memory) : Bool :=
  decide (m.Pairwise fun a b => a.1 < b.1) && m.all fun c => c.2 != unwrittenByte

/-- The byte at an address. -/
def Memory.read : Memory → Nat → BitVec 8
  | [], _ => unwrittenByte
  | c :: m, a => if c.1 = a then c.2 else Memory.read m a

/-- Writing a byte keeps the canonical form: writing what an unwritten byte reads as removes the entry. -/
def Memory.write : Memory → Nat → BitVec 8 → Memory
  | [], a, v => if v = unwrittenByte then [] else [(a, v)]
  | c :: m, a, v =>
    if a < c.1 then (if v = unwrittenByte then c :: m else (a, v) :: c :: m)
    else if a = c.1 then (if v = unwrittenByte then m else (a, v) :: m)
    else c :: Memory.write m a v

/-- The first byte address of a word of a bank. The bank's words lie one after another, four bytes each (log 6). -/
def byteAddress (bank : Fin 4) (word : Nat) : Nat := (bank.val * Config.bankWords + word) * 4

/-- A word of the DRAM, most significant byte at the lowest address (log 6). -/
def Memory.readWord (m : Memory) (bank : Fin 4) (word : Nat) : Word :=
  let a := byteAddress bank word
  m.read a ++ m.read (a + 1) ++ m.read (a + 2) ++ m.read (a + 3)

def Memory.writeWord (m : Memory) (bank : Fin 4) (word : Nat) (v : Word) : Memory :=
  let a := byteAddress bank word
  ((((m.write a (v.extractLsb' 24 8)).write (a + 1) (v.extractLsb' 16 8)).write (a + 2)
    (v.extractLsb' 8 8)).write (a + 3) (v.extractLsb' 0 8))

/-- Consecutive words from `word` on. -/
def Memory.writeWords (m : Memory) (bank : Fin 4) : Nat → List Word → Memory
  | _, [] => m
  | word, v :: vs => (m.writeWord bank word v).writeWords bank (word + 1) vs

def Memory.readWords (m : Memory) (bank : Fin 4) : Nat → Nat → List Word
  | _, 0 => []
  | word, n + 1 => m.readWord bank word :: m.readWords bank (word + 1) n

/-- Whether a run of words lies in a bank (R46). -/
def inBank (word n : Nat) : Bool := decide (word + n ≤ Config.bankWords)

/-! ## The sample word (R49, R191) -/

/-- Whether an odd number of the twelve bits are ones: the parity bit that makes the whole even. -/
def oddOnes (v : BitVec 12) : Bool := (List.range 12).foldl (fun acc i => acc != v.getLsbD i) false

/-- The complete sample word of a sample: sample in bits 31 to 8, upper parity in bit 7 over sample bits 23 to 12, lower
parity in bit 6 over bits 11 to 0, written mark in bit 5 (R191). -/
def sampleWord (x : Sample) : Word :=
  x ++ BitVec.ofBool (oddOnes (x.extractLsb' 12 12)) ++ BitVec.ofBool (oddOnes (x.extractLsb' 0 12)) ++ (32 : BitVec 6)

/-- The sample a word holds. -/
def wordSample (w : Word) : Sample := w.extractLsb' 8 24

/-- The check of R57: both parity bits agree and the written mark is set. -/
def wordPasses (w : Word) : Bool :=
  let x := wordSample w
  w.getLsbD 7 == oddOnes (x.extractLsb' 12 12) && w.getLsbD 6 == oddOnes (x.extractLsb' 0 12) && w.getLsbD 5

/-! ## Leaving RUNNING -/

/-- A decision of the rider at the house sample `now` is taken back: the step it judged counts as disturbed, and the rider
is GATED with g and any ramp as they were (R127, R129; log 44). -/
def GainStage.takeBack (x : GainStage) (now : Count) : GainStage :=
  match x.judged with
  | some j =>
    if j.sample = now then
      { x with g := j.g, applied := j.applied, ramp := j.ramp, rider := .gated, desired := none, judged := none }
    else x
  | none => x

/-- The gain stage of a programme that leaves RUNNING by PARK or underrun (R124, R129). -/
def GainStage.leaveRunning (x : GainStage) (now : Count) : GainStage := { x.takeBack now with gr := 0 }

/-- A block of a bin leaves the pending blocks, or the histogram, that it entered last (R110, R111). Where it had brought the
count to the limit, the integration state goes from FULL back to `before`, the one it was counted in (DESIGN CHOICE, log
65). -/
def Meter.withdrawBlock (m : Meter) (k : Nat) (before : IntegState) : Meter :=
  if m.pendingBlocks.getLast? = some k then { m with pendingBlocks := m.pendingBlocks.dropLast }
  else if m.histogram.getD k 0 = 0 ∨ m.admitted = 0 then m
  else
    { m with histogram := m.histogram.modify k (· - 1), admitted := m.admitted - 1
             integState := if m.integState = .full then before else m.integState }

/-- The step closed at the house sample `now` is marked disturbed in its ring, and its block is not admitted (R105, R110,
R129; log 44). A block let go at the limit has left nothing to take back: count, histogram and FULL stand (R111). -/
def Meter.disturbClosed (m : Meter) (now : Count) : Meter :=
  match m.closed with
  | some c =>
    if c.sample = now then
      let m := { m with ring := m.ring.modify (m.ring.length - 1) fun e => { e with disturbed := true }, closed := none }
      match c.block with
      | some k => m.withdrawBlock k c.before
      | none => m
    else m
  | none => m

/-- What a PARK or underrun does to the gain stage and the meter (R105, R124, R129). -/
def leaveRunning (p : Fin 16) (b : Body) : Body :=
  (b.onGain p fun x => x.leaveRunning b.timing.sampleCounter).onMeter p fun m => m.disturbClosed b.timing.sampleCounter

/-! ## Answers and the deferred table -/

/-- What the interpreter answers a request with (R179). -/
inductive Answer
  | answer (fields : List Field)
  | accepted
  | refused (reason : Reason) (detail : List Field)
  deriving DecidableEq, Repr

/-- A refusal with no detail. -/
def refuse (r : Reason) : Answer := .refused r []

/-- Ends the operation of a tag: its entry becomes COMPLETE, and its COMPLETION report is owed (R180). -/
def completeTag (tag : Byte) (o : OpOutcome) (data : List Field) (b : Body) : Body :=
  b.onLine fun l => { l with deferred := l.deferred.map fun d =>
    if d.tag = tag ∧ d.complete = none then { d with complete := some (o, data) } else d }

/-- Ends the operations in flight of a kind and subject. -/
def completeSubject (kind : OpKind) (subject : Nat) (o : OpOutcome) (data : List Field) (b : Body) : Body :=
  b.onLine fun l => { l with deferred := l.deferred.map fun d =>
    if d.kind = kind ∧ d.subject = subject ∧ d.complete = none then { d with complete := some (o, data) } else d }

/-- The checks of the deferred table (R180): a free tag and a free entry, else BUSY. -/
def deferredFree (tag : Byte) (b : Body) : Bool :=
  b.line.deferred.all (fun d => d.tag != tag) && decide (b.line.deferred.length < Config.deferredPlaces)

/-- A deferred operation begins: its entry is created IN_FLIGHT (R180). -/
def beginDeferred (tag : Byte) (kind : OpKind) (subject : Nat) (b : Body) : Body :=
  b.onLine fun l => { l with deferred := l.deferred ++ [{ tag := tag, kind := kind, subject := subject }] }

/-- A cause is recorded for the STATE report; a later cause replaces an earlier one (R14). -/
def oweState (p : Fin 16) (c : StateCause) (b : Body) : Body := b.onProgramme p fun r => { r with stateOwed := some c }

end Sys2Proof.Machine
end

