-- ==== Sys2Proof/Machine/Timing.lean ====
section
/-! DEFINITION. House timing (chapter 2): the house sample and its ticks, HREF, VREF and the frame boundaries they make
(R25 to R33). -/

namespace Sys2Proof.Machine

/-- The position of a moment inside the house sample in progress, 0 to 255 (R25; log 4). -/
def tickPosition (t : Timing) (elapsed : Nat) : Nat := min 255 (256 * elapsed / t.tickSpacing)

/-- The house tick count at that moment. -/
def tickAt (t : Timing) (elapsed : Nat) : Count := t.sampleCounter * 256 + cnt (tickPosition t elapsed)

/-- A frame boundary at the house sample in progress; it will carry the next count (R32). -/
def openBoundary (since : Nat) (t : Timing) : Timing :=
  { t with boundary := some { frame := t.frameCounter + 1 }, sinceBoundary := since }

/-- The boundary of a VREF edge that waited for this house sample (R29, R31). -/
def takeVrefEdge (t : Timing) : Timing :=
  match t.vrefWaiting, t.boundary with
  | some d, none =>
    { openBoundary 0 t with
      vrefWaiting := none, measuredLength := d.or t.measuredLength, generatedLength := d.getD t.generatedLength }
  | _, _ => t

/-- The cadences of a new house sample (R33): the regulation tick and the step boundary that fall on it. -/
def takeCadences (t : Timing) : Timing :=
  { t with regulationDue := t.regulationDue || t.sampleCounter.toNat % 480 == 0
           stepDue := if t.sampleCounter.toNat % 4800 = 0 then t.stepDue.or (some []) else t.stepDue }

/-- The timing block's part of the start of a house sample (R25, R33). -/
def Timing.nextSample (t : Timing) : Timing :=
  let n := t.sampleCounter + 1
  takeVrefEdge (takeCadences
    { t with sampleCounter := n, tickCount := n * 256, sinceBoundary := t.sinceBoundary + 1, samplesOwed := t.samplesOwed + 1 })

/-- A house sample ends and the next starts: the counters, the cadences, the holdover timers (R43), the visit of the sweep
engine (R114), the output frame now sent (R134). -/
def startSample (b : Body) : Body :=
  { b with timing := b.timing.nextSample
           ports := b.ports.map fun q =>
             { q with tracker := { q.tracker with holdover := q.tracker.holdover.map fun n => min 48000 (n + 1) } }
           sweep := b.sweep.map fun w => { w with visited := w.visited + 1 }
           sending := b.formed }

/-- A rising edge of HREF, `elapsed` oscillator periods into the house sample in progress (R25, R27). -/
def hrefEdgeWork (elapsed : Nat) (b : Body) : Body :=
  match b.timing.href with
  | .free =>
    startSample (b.onTiming fun t => { t with href := .locked, tickSpacing := Config.nominalInterval })
  | .locked =>
    if Config.nominalInterval ≤ 2 * elapsed then
      startSample (b.onTiming fun t => { t with lastInterval := elapsed, tickSpacing := elapsed })
    else b.onTiming fun t => { t with hrefGlitches := bump t.hrefGlitches }

/-- No edge of HREF within two nominal house samples (R26). -/
def hrefLossWork (b : Body) : Body :=
  match b.timing.href with
  | .free => b
  | .locked => startSample (b.onTiming fun t => { t with href := .free, tickSpacing := Config.nominalInterval })

/-- A rising edge of VREF, judged by the distance to the next house sample (R29, R31; log 8). -/
def vrefEdgeWork (b : Body) : Body :=
  b.onTiming fun t =>
    let d := t.sinceBoundary + 1
    match t.vref with
    | .free => { t with vref := .locked, vrefWaiting := some none }
    | .locked =>
      if t.vrefWaiting.isSome then t
      else if d < 800 then { t with vrefGlitches := bump t.vrefGlitches }
      else if d ≤ 2000 then { t with vrefWaiting := some (some d) }
      else if d ≤ 2099 then { t with vrefWaiting := some none }
      else t

/-- 2,100 house samples without a boundary made by an edge (R30). -/
def vrefLossWork (b : Body) : Body :=
  b.onTiming fun t =>
    if t.vref = .locked ∧ 2100 ≤ t.sinceBoundary ∧ t.boundary = none then
      { openBoundary (t.sinceBoundary - 2100) t with vref := .free }
    else t

/-- A generated boundary falls due (R30). -/
def generatedWork (b : Body) : Body :=
  b.onTiming fun t =>
    if t.vref = .free ∧ t.generatedLength ≤ t.sinceBoundary ∧ t.boundary = none then
      openBoundary (t.sinceBoundary - t.generatedLength) t
    else t

end Sys2Proof.Machine
end

