-- ==== Sys2Proof/Machine/Numeric.lean ====
section
/-! DEFINITION. The arithmetic that the measuring and gain chapters share: rounding, powers of ten, the loudness of an
energy, the weighting filter, the correlation, the interpolation weights. Energies are whole counts of 2^-1280 of the
square of full scale; powers of ten are worked at 2^-176 (log 13, log 14). -/

namespace Sys2Proof.Machine

/-- Rounded to the nearest integer, halves away from zero (R69, R124). -/
def roundAway (num : Int) (den : Nat) : Int :=
  let m := (2 * num.natAbs + den) / (2 * den)
  if num < 0 then -(m : Int) else m

/-- Kept within a range. -/
def clampInt (lo hi x : Int) : Int := max lo (min hi x)

/-- Largest magnitude of a lane output sample (R69). -/
def fullScale : Int := 8388607

def toSample (x : Int) : Sample := BitVec.ofInt 24 x

/-! ## Powers of ten -/

/-- The natural logarithm of 10 in units of 2^-176. -/
def ln10 : Nat := 220543836717352689672461482814443888321585447919118711

/-- The series of the exponential of r (units of 2^-176): `n` terms from the i-th on. -/
def expSeries (r : Nat) : Nat → Nat → Nat → Nat → Nat
  | 0, _, _, sum => sum
  | n + 1, i, term, sum => expSeries r n (i + 1) (term * r / (2 ^ 176 * (i + 1))) (sum + term)

/-- 10 to the fractional part of num / den, in units of 2^-160. -/
def pow10Frac (num : Int) (den : Nat) : Nat :=
  expSeries ((num % den).toNat * ln10 / den) 72 0 (2 ^ 176) 0 / 2 ^ 16

/-- 10 to the power num / den, in units of 2^-160. -/
def pow10 (num : Int) (den : Nat) : Nat :=
  match num / (den : Int) with
  | .ofNat k => pow10Frac num den * 10 ^ k
  | .negSucc k => pow10Frac num den / 10 ^ (k + 1)

/-- Units of 2^-1280, of energy, in a unit of 2^-160. -/
def energyScale : Nat := 2 ^ 1120

/-- Whether 10 to the power num / den is at or below x units of energy. -/
def pow10UpTo (num : Int) (den : Nat) (x : Nat) : Bool :=
  match num / (den : Int) with
  | .ofNat k => decide (pow10Frac num den * energyScale * 10 ^ k ≤ x)
  | .negSucc k => decide (pow10Frac num den * energyScale ≤ x * 10 ^ (k + 1))

/-- The largest of lo, …, lo + 2^bits - 1 that passes a test which the smaller ones pass. -/
def searchMax (ok : Int → Bool) (lo : Int) : Nat → Int
  | 0 => lo
  | n + 1 => if ok (lo + 2 ^ n) then searchMax ok (lo + 2 ^ n) n else searchMax ok lo n

/-! ## Loudness (chapter 6) -/

/-- The loudness of an energy, -6.91 + 100 log10 E decilu floored; absent for an energy of zero (R107). -/
def loudness (energy : Nat) : Option Int :=
  if energy = 0 then none
  else some (searchMax (fun n => pow10UpTo (100 * n + 691) 10000 energy) (-40000) 16)

/-- The energy of the centre of a bin: 10^((c + 6.91) / 100) with c = -700 + k + 0.5 decilu (R114). -/
def centreEnergy (k : Nat) : Nat := pow10 (100 * (k : Int) - 69259) 10000 * energyScale

/-- One stage: b0 x + b1 x1 + b2 x2 - a1 y1 - a2 y2, coefficients in millionths (R104), the fraction of a unit dropped
towards zero (log 13). Answers the output and the stage after it. -/
def filterStage (b0 b1 b2 a1 a2 : Int) (s : FilterStage) (x : Int) : Int × FilterStage :=
  let y := (b0 * x + b1 * s.x1 + b2 * s.x2 - a1 * s.y1 - a2 * s.y2).tdiv 1000000
  (y, { x1 := x, x2 := s.x1, y1 := y, y2 := s.y1 })

/-- The weighting filter of R104 for one sample: shelf, then high-pass. Output in units of 2^-640 of full scale. -/
def weight (f : ChannelFilter) (x : Sample) : Int × ChannelFilter :=
  let (u, s1) := filterStage 1535183 (-2691808) 1198427 (-1690704) 732506 f.shelf (x.toInt * 2 ^ 617)
  let (v, s2) := filterStage 994785 (-1989570) 994785 (-1989556) 989583 f.highPass u
  (v, { shelf := s1, highPass := s2 })

/-- How many of 1, …, 100 pass a test. -/
def countTo100 (ok : Nat → Bool) : Nat := ((List.range 100).filter fun i => ok (i + 1)).length

/-- The correlation of R108: 100 LR / sqrt(LL RR), floored, within -100 to 100; absent when LL or RR is zero. -/
def correlationOf (ll rr : Nat) (lr : Int) : Option Int :=
  if ll = 0 ∨ rr = 0 then none
  else
    let square := 10000 * (lr.natAbs * lr.natAbs)
    if 0 ≤ lr then some (countTo100 fun n => decide (n * n * (ll * rr) ≤ square) : Nat)
    else some (-((min 100 (1 + countTo100 fun n => decide (n * n * (ll * rr) < square)) : Nat) : Int))

/-! ## Gain (chapter 7) -/

/-- 10^((a - gr) / 2,000) with a in hundredths and gr in gr units, in units of 2^-160 (R124). -/
def gainFactor (a : Rat) (gr : Nat) : Nat :=
  pow10 (a.num * 48000 - (gr : Int) * (a.den : Int)) (a.den * 96000000)

/-- The ceiling value: floor(8,388,607 × 10^(ceiling / 200)) (R130). -/
def ceilingValue (ceiling : Int) : Nat := 8388607 * pow10 ceiling 200 / 2 ^ 160

/-- Whether a peak, after the gain a and the reduction gr, is at or below the ceiling value (R131). -/
def peakPasses (peak : Nat) (a : Rat) (ceiling gr : Nat) : Bool :=
  decide (peak * gainFactor a gr ≤ ceiling * 2 ^ 160)

/-- The smallest whole number of gr units that brings the peak to the ceiling value (R131). -/
def smallestReduction (peak : Nat) (a : Rat) (ceiling : Nat) : Nat :=
  (searchMax (fun n => !peakPasses peak a ceiling n.toNat) 0 27).toNat + 1

/-- A sample after the gain and the reduction (R124). -/
def scaleSample (a : Rat) (gr : Nat) (x : Sample) : Sample :=
  toSample (roundAway (x.toInt * (gainFactor a gr : Int)) (2 ^ 160))

/-! ## Interpolation (R68) -/

/-- The weights of the frames r - 1, r, r + 1, r + 2 in units of 2^-49, for the fraction F / 65,536. -/
def cubicWeights (F : Int) : Int × Int × Int × Int :=
  (-F * 2 ^ 32 + 2 * F ^ 2 * 2 ^ 16 - F ^ 3,
   2 ^ 49 - 5 * F ^ 2 * 2 ^ 16 + 3 * F ^ 3,
   F * 2 ^ 32 + 4 * F ^ 2 * 2 ^ 16 - 3 * F ^ 3,
   -F ^ 2 * 2 ^ 16 + F ^ 3)

/-- The fraction of an accumulator: floor(65,536 × accumulator / Q). -/
def fractionOf (acc q : Nat) : Int := ((65536 * acc / q : Nat) : Int)

/-- The interpolated value of one channel, in units of 2^-49 of a sample. -/
def interpolate (F : Int) (a b c d : Sample) : Int :=
  let (w0, w1, w2, w3) := cubicWeights F
  w0 * a.toInt + w1 * b.toInt + w2 * c.toInt + w3 * d.toInt

end Sys2Proof.Machine
end

