-- ==== Sys2Proof/Machine/Operands.lean ====
section
/-! DEFINITION. What operands and messages are made of: the codes of enumerations (R190), the fields, items and records of
a body as bytes, the CRC and frame of a message and its bits on the line (R174, R175, section 11.1), the ranges and relations of settings (R2, R3, R4),
the claim of output slots (R10) and the writing of a pending set (R5, R7). -/

namespace Sys2Proof.Machine

/-! ## Codes of enumerations: the position in the list that R190 or the defining table gives -/

def RefState.all : List RefState := [.locked, .free]
def Presence.all : List Presence := [.noClock, .noSync, .synced]
def TrackerState.all : List TrackerState := [.absent, .acquiring, .locked, .holdover]
def ProgState.all : List ProgState := [.vacant, .defined, .filling, .parked, .priming, .running, .starved]
def StateCause.all : List StateCause :=
  [.primed, .underrun, .starved, .resumed, .loss, .silence, .revert, .planned, .forced]
def OpOutcome.all : List OpOutcome := [.success, .noSpace, .abandoned, .superseded, .done, .cancelled]
def IntegState.all : List IntegState := [.idle, .integrating, .paused, .full]
def RiderStatus.all : List RiderStatus := [.off, .waiting, .gated, .settled, .moving]
def EntryState.all : List EntryState := [.clear, .onset, .active, .release, .latched]
def ChangePhase.all : List ChangePhase := [.slewing, .due, .tail, .remainder]
def SeqState.all : List SeqState := [.idle, .armed, .applying, .committing, .waiting, .halted]
def RxState.all : List RxState := [.hunting, .inFrame, .discarding]
def LineFault.all : List LineFault := [.length, .crc, .framing, .truncated]
def OwnerClass.all : List OwnerClass := [.answer, .completion, .alarm, .state, .scene, .line]

/-- An enumeration field. -/
def enum {α : Type} [BEq α] (all : List α) (v : α) : Field := .code (some (all.idxOf v))

/-- An enumeration field that may be absent. -/
def enum? {α : Type} [BEq α] (all : List α) (v : Option α) : Field := .code (v.map all.idxOf)

/-- Fields of numbers that are never absent. -/
def num1 (n : Nat) : Field := .n1 (some n)
def num2 (n : Nat) : Field := .n2 (some n)
def num4 (n : Nat) : Field := .n4 (some n)
def count4 (n : Count) : Field := num4 n.toNat

/-- A reason's code (section 11.1). -/
def Reason.code : Reason → Nat
  | .badField => 1 | .unknownKind => 2 | .wrongState => 3 | .busy => 4 | .noSpace => 5 | .slotClaimed => 6
  | .sceneBusy => 7 | .queueFull => 8 | .notFound => 9 | .commitFull => 10 | .chainLimit => 11

/-- The code of a kind of deferred operation in the deferred table point (R180's order, R190). -/
def OpKind.all : List OpKind := [.allocate, .delay, .integrateReset, .take]

/-- A kind of deferred operation is reported by its request code (section 11.5). -/
def OpKind.code : OpKind → Nat
  | .allocate => 0x04 | .delay => 0x03 | .integrateReset => 0x0B | .take => 0x12

/-- Kind bytes of what the part sends (section 11.1). -/
def MsgKind.code : MsgKind → Nat
  | .answer => 0x40 | .accepted => 0x41 | .refused => 0x42 | .completion => 0x60 | .alarm => 0x61 | .scene => 0x62
  | .state => 0x63 | .meter => 0x64 | .line => 0x65

/-! ## Bytes of a message -/

/-- The `k` low bytes of a number, most significant first. -/
def beBytes : Nat → Nat → List Byte
  | 0, _ => []
  | k + 1, n => BitVec.ofNat 8 (n / 256 ^ k) :: beBytes k n

/-- A signed number in two's complement. -/
def signedBytes (k : Nat) (v : Int) : List Byte := beBytes k (v % (256 ^ k : Int)).toNat

/-- A field by its type, an absent value by the absent code of the type (R190). Of the signed figures only a loudness can
lie outside its two bytes (log 47). -/
def Field.bytes : Field → List Byte
  | .n1 v => beBytes 1 (v.getD 0xFF)
  | .n2 v => beBytes 2 (v.getD 0xFFFF)
  | .n4 v => beBytes 4 (v.getD 0xFFFFFFFF)
  | .s2 none => beBytes 2 0x8000
  | .s2 (some v) => if -32768 ≤ v ∧ v ≤ 32767 then signedBytes 2 v else beBytes 2 (Config.farFigure v).toNat
  | .s1 v => v.elim (beBytes 1 0x80) (signedBytes 1)
  | .flag v => beBytes 1 v.toNat
  | .code v => beBytes 1 (v.getD 0xFF)

def fieldBytes (fs : List Field) : List Byte := fs.flatMap Field.bytes

/-- A list: a count byte, then the entries (R190). -/
def listField (entries : List (List Field)) : List Field := num1 entries.length :: entries.flatten

/-- One bit of the CRC: polynomial x^16 + x^12 + x^5 + 1, most significant bit first (section 10.2). -/
def crcBit (crc : BitVec 16) : BitVec 16 := if crc.msb then (crc <<< 1) ^^^ 0x1021 else crc <<< 1

def crcByte (crc : BitVec 16) (b : Byte) : BitVec 16 :=
  let c := crc ^^^ (b ++ (0 : BitVec 8))
  crcBit (crcBit (crcBit (crcBit (crcBit (crcBit (crcBit (crcBit c)))))))

/-- The CRC of bytes, from the initial value of all ones (R175). -/
def crc (bs : List Byte) : BitVec 16 := bs.foldl crcByte 0xFFFF

/-- The body of a message: kind, tag, fields (section 11.1). -/
def Message.bodyBytes (m : Message) : List Byte := BitVec.ofNat 8 m.kind.code :: m.tag :: fieldBytes m.fields

/-- Length byte and body, followed by their CRC, behind the start byte (R175, R181). -/
def frameBytes (body : List Byte) : List Byte :=
  let checked := BitVec.ofNat 8 body.length :: body
  0xA5 :: checked ++ [(crc checked).extractLsb' 8 8, (crc checked).extractLsb' 0 8]

/-- What the transmitter sends for a message (R181). -/
def Message.frame (m : Message) : List Byte := frameBytes m.bodyBytes

/-- A byte as its ten bit times on the line, first in time leftmost, `true` where the line is high: the start bit, 8 data bits
with the least significant first, one stop bit, no parity (R174). The levels of start and stop bit are log 74. -/
def byteBits (v : Byte) : List Bool := false :: (List.range 8).map (fun i => v.getLsbD i) ++ [true]

/-- The byte of 8 data bits, least significant first (R174). -/
def bitsByte (ds : List Bool) : Byte := BitVec.ofNat 8 (ds.foldr (fun d n => d.toNat + 2 * n) 0)

/-- A message as it goes over the line, with no idle gap between its bytes (R174, R181). -/
def Message.bits (m : Message) : List Bool := m.frame.flatMap byteBits

/-- The message that answers a request (R179, section 11.1). -/
def Answer.message (kind : Nat) (tag : Byte) : Answer → Message
  | .answer fs => { kind := .answer, tag := tag, fields := num1 kind :: fs }
  | .accepted => { kind := .accepted, tag := tag, fields := [num1 kind] }
  | .refused r d => { kind := .refused, tag := tag, fields := num1 kind :: num1 r.code :: d }

/-! ## Settings -/

/-- C, the channel count of a layout (00, Layouts and channel roles). -/
def channelsOf : Layout → Nat
  | .mono => 1 | .stereo => 2 | .quad => 4 | .fiveOne => 6 | .sevenOne => 8

/-- A source as a pair of numbers, where both exist. -/
def sourceOf (s : Nat × Nat) : Option Source :=
  match idOf 8 s.1, idOf 8 s.2 with
  | some p, some k => some { port := p, slot := k }
  | _, _ => none

def Source.numbers (s : Source) : Nat × Nat := (s.port, s.slot)

/-- The setting code of an item (section 11.3). -/
def itemCode : SettingItem → Nat
  | .layout _ => 0 | .mainSource .. => 1 | .backupSource _ => 2 | .failover _ => 3 | .revert _ => 4
  | .switchGuard _ => 5 | .revertHold _ => 6 | .delayTarget _ => 7 | .delayMode _ => 8 | .slewLimit _ => 9
  | .gainMode _ => 10 | .fixedGain _ => 11 | .rideTarget _ => 12 | .rideTolerance _ => 13 | .rideRate _ => 14
  | .riderGate _ => 15 | .ceiling _ => 16 | .limiterRelease _ => 17 | .outputSlots _ => 18 | .linkGroup _ => 19
  | .silenceThreshold _ => 20 | .loudHigh _ => 21 | .loudLow _ => 22 | .phaseThreshold _ => 23

def natIn (lo hi n : Nat) : Bool := decide (lo ≤ n ∧ n ≤ hi)
def intIn (lo hi n : Int) : Bool := decide (lo ≤ n ∧ n ≤ hi)

/-- The range of each setting (R2, table of section 1.2). -/
def itemInRange : SettingItem → Bool
  | .layout _ | .failover _ | .revert _ | .delayMode _ | .slewLimit _ | .gainMode _ => true
  | .mainSource port slot => (sourceOf (port, slot)).isSome
  | .backupSource v => v.all fun s => (sourceOf s).isSome
  | .switchGuard v => natIn 0 250 v
  | .revertHold v => natIn 0 1500 v
  | .delayTarget v => natIn 0 240000 v
  | .fixedGain v => intIn (-2000) 1200 v
  | .rideTarget v => intIn (-310) (-140) v
  | .rideTolerance v => natIn 0 30 v
  | .rideRate v => natIn 1 30 v
  | .riderGate v => intIn (-700) (-300) v
  | .ceiling v => intIn (-100) 0 v
  | .limiterRelease v => natIn 1 100 v
  | .outputSlots v => v.all fun s => natIn 0 63 s
  | .linkGroup v => v.all fun g => natIn 0 3 g
  | .silenceThreshold v => intIn (-900) (-400) v
  | .loudHigh v => intIn (-300) 0 v
  | .loudLow v => intIn (-500) (-100) v
  | .phaseThreshold v => intIn (-100) 0 v

/-- A value written into a set (R2: stored exactly as given). A layout whose C differs from the length of the slot list
of the set sets that list to none (R4). -/
def Settings.write (st : Settings) : SettingItem → Settings
  | .layout v =>
    { st with layout := v, slots := st.slots.bind fun l => if l.length = channelsOf v then some l else none }
  | .mainSource port slot => { st with main := (sourceOf (port, slot)).getD st.main }
  | .backupSource v => { st with backup := v.bind sourceOf }
  | .failover v => { st with failover := v }
  | .revert v => { st with revert := v }
  | .switchGuard v => { st with switchGuard := v }
  | .revertHold v => { st with revertHold := v }
  | .delayTarget v => { st with delayTarget := v }
  | .delayMode v => { st with delayMode := v }
  | .slewLimit v => { st with slewLimit := v }
  | .gainMode v => { st with gainMode := v }
  | .fixedGain v => { st with fixedGain := v }
  | .rideTarget v => { st with rideTarget := v }
  | .rideTolerance v => { st with rideTolerance := v }
  | .rideRate v => { st with rideRate := v }
  | .riderGate v => { st with riderGate := v }
  | .ceiling v => { st with ceiling := v }
  | .limiterRelease v => { st with limiterRelease := v }
  | .outputSlots v => { st with slots := if v = [] then none else some v }
  | .linkGroup v => { st with linkGroup := v }
  | .silenceThreshold v => { st with silenceThreshold := v }
  | .loudHigh v => { st with loudHigh := v }
  | .loudLow v => { st with loudLow := v }
  | .phaseThreshold v => { st with phaseThreshold := v }

def Settings.writeAll (st : Settings) (is : List SettingItem) : Settings := is.foldl Settings.write st

/-- The item of the same setting with the value the set holds. -/
def Settings.item (st : Settings) : SettingItem → SettingItem
  | .layout _ => .layout st.layout
  | .mainSource _ _ => .mainSource st.main.port st.main.slot
  | .backupSource _ => .backupSource (st.backup.map Source.numbers)
  | .failover _ => .failover st.failover
  | .revert _ => .revert st.revert
  | .switchGuard _ => .switchGuard st.switchGuard
  | .revertHold _ => .revertHold st.revertHold
  | .delayTarget _ => .delayTarget st.delayTarget
  | .delayMode _ => .delayMode st.delayMode
  | .slewLimit _ => .slewLimit st.slewLimit
  | .gainMode _ => .gainMode st.gainMode
  | .fixedGain _ => .fixedGain st.fixedGain
  | .rideTarget _ => .rideTarget st.rideTarget
  | .rideTolerance _ => .rideTolerance st.rideTolerance
  | .rideRate _ => .rideRate st.rideRate
  | .riderGate _ => .riderGate st.riderGate
  | .ceiling _ => .ceiling st.ceiling
  | .limiterRelease _ => .limiterRelease st.limiterRelease
  | .outputSlots _ => .outputSlots (st.slots.getD [])
  | .linkGroup _ => .linkGroup st.linkGroup
  | .silenceThreshold _ => .silenceThreshold st.silenceThreshold
  | .loudHigh _ => .loudHigh st.loudHigh
  | .loudLow _ => .loudLow st.loudLow
  | .phaseThreshold _ => .phaseThreshold st.phaseThreshold

/-- The source carried by an item or record: port, first slot; port FFh is none, with slot 0 (log 46). -/
def sourceFields (s : Option (Nat × Nat)) : List Field := [.n1 (s.map Prod.fst), num1 ((s.map Prod.snd).getD 0)]

/-- The value of an item as fields (section 11.3). -/
def itemValue : SettingItem → List Field
  | .layout v => [enum Layout.all v]
  | .mainSource port slot => [num1 port, num1 slot]
  | .backupSource v => sourceFields v
  | .failover v => [enum FailoverPolicy.all v]
  | .revert v => [enum RevertPolicy.all v]
  | .delayTarget v => [num4 v]
  | .delayMode v => [enum DelayMode.all v]
  | .slewLimit v => [enum SlewLimit.all v]
  | .gainMode v => [enum GainMode.all v]
  | .switchGuard v | .revertHold v | .rideTolerance v | .rideRate v | .limiterRelease v => [num2 v]
  | .fixedGain v | .rideTarget v | .riderGate v | .ceiling v | .silenceThreshold v | .loudHigh v | .loudLow v
  | .phaseThreshold v => [.s2 (some v)]
  | .outputSlots v => listField (v.map fun s => [num1 s])
  | .linkGroup v => [.n1 v]

def itemFields (i : SettingItem) : List Field := num1 (itemCode i) :: itemValue i

/-- The relations of R3 on a set: sources fit the layout, the slot list has C entries with none twice, the loud window
is not empty. -/
def sourceFitsLayout (l : Layout) (s : Source) : Bool := decide (s.slot.val + channelsOf l ≤ 8)

def slotsFitLayout (l : Layout) (slots : List Nat) : Bool := decide (slots.length = channelsOf l ∧ slots.Nodup)

def Settings.agrees (st : Settings) : Bool :=
  sourceFitsLayout st.layout st.main && st.backup.all (sourceFitsLayout st.layout) &&
    st.slots.all (slotsFitLayout st.layout) && decide (st.loudLow < st.loudHigh)

/-- The effective-next set (00, Terms). -/
def Programme.effectiveNext (r : Programme) : Option Settings :=
  match r.pending with
  | some w => some w.settings
  | none => r.active

/-- The slots that a programme claims, in its active list or its pending list (R10). -/
def Programme.claims (r : Programme) : List Nat :=
  ((r.active.bind (·.slots)).getD []) ++ ((r.pending.bind (·.settings.slots)).getD [])

/-- Whether a slot list meets a claim of a programme other than p (R10). -/
def slotsClaimed (b : Body) (p : Fin 16) (slots : List Nat) : Bool :=
  programmeIds.any fun o => o != p && slots.any fun s => (b.programme o).claims.contains s

def itemClaimed (b : Body) (p : Fin 16) : SettingItem → Bool
  | .outputSlots l => slotsClaimed b p l
  | _ => false

/-- The pending set written: created as a copy of the active set where absent (R5, R7). The scene takes the ownership of
the set it writes (R7); a request writes a DIRECT set or none. -/
def Programme.writePending (r : Programme) (owner : Owner) (delay : Option DelayOrigin) (is : List SettingItem) :
    Programme :=
  match r.effectiveNext with
  | none => r
  | some st =>
    let kept := r.pending.bind (·.delay)
    { r with pending := some { settings := st.writeAll is, owner := owner, delay := delay.or kept } }

/-- The checks of a write, in the order of R5: known setting, state, owner (left out for a scene, R7), R2 to R4, claim.
`named` says whether the form may name these settings at all. -/
def writeRefusal (b : Body) (p : Fin 16) (byScene named : Bool) (is : List SettingItem) : Option Reason :=
  let r := b.programme p
  if !named then some .badField else
  match r.effectiveNext with
  | none => some .wrongState
  | some st =>
    if r.state = .vacant then some .wrongState
    else if is.any (fun i => itemCode i == 0) && r.state != .defined then some .wrongState
    else if !byScene && r.pending.any (fun w => w.owner = .scene) then some .sceneBusy
    else if !(is.all itemInRange && (st.writeAll is).agrees) then some .badField
    else if is.any (itemClaimed b p) then some .slotClaimed
    else none

/-- The form of a SET: one setting item, or the two loud window limits (section 11.3). -/
def setForm : List SettingItem → Bool
  | [_] => true
  | [.loudHigh _, .loudLow _] => true
  | [.loudLow _, .loudHigh _] => true
  | _ => false

/-- SET does not name the delay target or the delay change mode (R5). -/
def setNames (is : List SettingItem) : Bool := is.all fun i => itemCode i != 7 && itemCode i != 8

/-- The four settings that a group does not take (R9): layout, main source, backup source, output slots. -/
def groupNames (is : List SettingItem) : Bool := is.all fun i => !([0, 1, 2, 18].contains (itemCode i))

/-- The members of a link group: the programmes whose active set names it (R9). -/
def groupMembers (b : Body) (g : Nat) : List (Fin 16) :=
  programmeIds.filter fun p => (b.programme p).active.any fun st => st.linkGroup = some g

/-! ## Scene records as bytes (section 11.4) -/

def targetField : Target → Field
  | .programme p => num1 p
  | .group g => num1 (128 + g)

/-- The presence byte and present fields of an alarm configuration (section 11.3). -/
def alarmFieldsFields (f : AlarmFields) : List Field :=
  let presence := f.enabled.isSome.toNat + 2 * f.onsetHold.isSome.toNat + 4 * f.releaseHold.isSome.toNat +
    8 * f.latching.isSome.toNat + 16 * f.contactMask.isSome.toNat + 32 * f.reserved.toNat
  num1 presence :: ((f.enabled.map Field.flag).toList ++ (f.onsetHold.map num2).toList ++
    (f.releaseHold.map num2).toList ++ (f.latching.map Field.flag).toList ++ (f.contactMask.map num1).toList)

/-- The kind of a record, in the order of R157, and its fields. -/
def recordCode : SceneRecord → Nat
  | .set .. => 0 | .delay .. => 1 | .slots .. => 2 | .source .. => 3 | .alarmcfg .. => 4 | .integrate .. => 5
  | .wait _ => 6 | .chain _ => 7

def recordFields : SceneRecord → List Field
  | .set t is => targetField t :: is.flatMap itemFields
  | .delay t n m => [targetField t, num4 n, enum DelayMode.all m]
  | .slots p l => num1 p :: listField (l.map fun s => [num1 s])
  | .source p side s => [num1 p, enum Selector.all side] ++ sourceFields s
  | .alarmcfg e f => num2 e :: alarmFieldsFields f
  | .integrate p a => [num1 p, enum IntegrateAction.all a]
  | .wait n => [num1 n]
  | .chain n => [num1 n]

/-- A record as it travels: kind byte, field length byte, fields. -/
def recordMessage (r : SceneRecord) : List Field :=
  num1 (recordCode r) :: num1 (fieldBytes (recordFields r)).length :: recordFields r

end Sys2Proof.Machine
end

