-- ==== Sys2Proof/Machine/Store.lean ====
section
/-! DEFINITION. The delay store controller (chapter 3) but for the write path: allocation and release of segments, the
bank arbiter, zero-fill, and the reader's side of it: the frame window and the read requests of a lane (R46 to R51, R56 to
R60, R67). -/

namespace Sys2Proof.Machine

/-! ## Lines and segments -/

/-- Fitted banks, from the BANKS strap (R46). -/
def fittedBanks (b : Body) : Nat :=
  match b.banksStrap with
  | .two => 2
  | .four => 4

/-- The channel count of the active layout; 0 where there is no active set. -/
def channels (b : Body) (p : Fin 16) : Nat := ((b.programme p).active.map fun st => channelsOf st.layout).getD 0

/-- L - 64, the most a line may hold in RUNNING (R20). -/
def Line.limit (l : Line) : Nat := l.length - 64

/-- The first word of the frame of a sequence number: line base plus C times (sequence mod L) (R46). -/
def frameWord (line : Line) (c : Nat) (seq : Count) : Nat :=
  Config.segmentWords * line.first + c * (seq.toNat % line.length)

/-- The lengths of the runs of FREE segments, each with its first segment, in rising order. -/
def freeRuns : List (Option (Fin 16)) → Nat → Option (Nat × Nat) → List (Nat × Nat)
  | [], _, none => []
  | [], _, some run => [run]
  | none :: rest, i, none => freeRuns rest (i + 1) (some (i, 1))
  | none :: rest, i, some (f, n) => freeRuns rest (i + 1) (some (f, n + 1))
  | some _ :: rest, i, none => freeRuns rest (i + 1) none
  | some _ :: rest, i, some run => run :: freeRuns rest (i + 1) none

def Bank.runs (k : Bank) : List (Nat × Nat) := freeRuns k.segments 0 none

def Bank.freeSegments (k : Bank) : Nat := (k.segments.filter Option.isNone).length

/-- Segment count of the longest run of FREE segments (R61). -/
def Bank.largestRun (k : Bank) : Nat := k.runs.foldl (fun m r => max m r.2) 0

/-- First fit: the first fitted bank, and its first run, that holds n segments (R48). -/
def findRun (b : Body) (n : Nat) : Option (Fin 4 × Nat) :=
  (bankIds.filter fun k => decide (k.val < fittedBanks b)).findSome? fun k =>
    ((b.bank k).runs.find? fun r => decide (n ≤ r.2)).map fun r => (k, r.1)

/-- The owner of segments first, …, first + n - 1 set. -/
def setOwner (owner : Option (Fin 16)) (first n : Nat) (segs : List (Option (Fin 16))) : List (Option (Fin 16)) :=
  segs.mapIdx fun i o => if first ≤ i ∧ i < first + n then owner else o

/-! ## The bank arbiter (R59) -/

/-- The lanes with a read claim at a bank: an open request not yet granted, of a line in that bank. -/
def readClaims (b : Body) (k : Fin 4) : List (Fin 16) :=
  programmeIds.filter fun p =>
    ((b.programme p).line.any fun l => l.bank = k) && ((b.lane p).readRequest.any fun r => !r.granted)

/-- Round-robin from the read pointer (R59). -/
def nextReader (claims : List (Fin 16)) (ptr : Fin 16) : Option (Fin 16) :=
  (claims.find? fun p => decide (ptr ≤ p)).or claims.head?

/-- The drain of the oldest frame of the queue. -/
def drainAccess (b : Body) (k : Fin 4) : Option Access :=
  match (b.bank k).queue with
  | [] => none
  | f :: _ =>
    let word := match (b.programme f.lane).line with
      | some l => Config.segmentWords * l.first + f.samples.length * f.position
      | none => 0
    some (.drain f.lane word f.samples true)

/-- A grant to a read claim: the pointer moves to the lane after it. -/
def grantRead (b : Body) (k : Fin 4) (p : Fin 16) : Body :=
  match (b.lane p).readRequest, (b.programme p).line with
  | some r, some l =>
    let c := channels b p
    (b.onLane p fun x => { x with readRequest := some { r with granted := true } }).onBank k fun y =>
      { y with readNext := p + 1, access := some (.read p r.seq (frameWord l c r.seq) c true) }
  | _, _ => b

/-- A zero-fill access for the oldest job (R50). -/
def fillAccess (k : Bank) : Option Access :=
  k.jobs.head?.map fun j => .fill j.programme (j.firstWord + j.written) true

/-- One grant at a bank with no access in progress, in the order of R59. -/
def grantBank (k : Fin 4) (b : Body) : Body :=
  let x := b.bank k
  match x.access with
  | some _ => b
  | none =>
    if 8 ≤ x.queue.length then b.setBank k { x with access := drainAccess b k }
    else match nextReader (readClaims b k) x.readNext with
      | some p => grantRead b k p
      | none =>
        if x.queue ≠ [] then b.setBank k { x with access := drainAccess b k }
        else b.setBank k { x with access := fillAccess x }

/-! ## The frame window and read requests (R56, R67) -/

/-- The tail's and the reader's frames with the history start each obeys, in the order of fetching (R67). -/
def Lane.wanted (l : Lane) : List (Count × Count) :=
  [(l.readSeq - 1, l.historyStart), (l.readSeq, l.historyStart), (l.readSeq + 1, l.historyStart),
    (l.readSeq + 2, l.historyStart)] ++
  (match l.tail with
    | some t =>
      if t.remaining = 0 then []
      else [(t.readSeq - 1, t.historyStart), (t.readSeq, t.historyStart), (t.readSeq + 1, t.historyStart),
        (t.readSeq + 2, t.historyStart)]
    | none => []) ++
  [(l.readSeq + 3, l.historyStart)]

def Lane.held (l : Lane) (seq : Count) : Option HeldFrame := l.window.find? fun f => f.seq = seq

/-- Frames that lie in no window leave (R67). One held for the place the reader jumped from stays where the tail's window
wants it (log 59). -/
def Lane.prune (l : Lane) : Lane :=
  { l with window := l.window.filter fun f => l.wanted.any fun w => w.1 = f.seq }

/-- The first awaited frame that can be fetched: written, and not before its history start (R56, R67). -/
def Lane.awaited (l : Lane) : Option Count :=
  (l.wanted.find? fun w => (l.held w.1).isNone && !seqBefore w.1 w.2 && seqBefore w.1 l.writeSeq).map Prod.fst

/-- The samples of a frame still in the write queue (forwarding, R56). -/
def queuedSamples (b : Body) (p : Fin 16) (seq : Count) : Option (List Sample) :=
  (b.programme p).line.bind fun l =>
    ((b.bank l.bank).queue.find? fun f => f.lane = p && f.seq = seq).map QueuedFrame.samples

/-- Opens read requests while frames come back at once; the first that must wait stays open and claims its bank. -/
def openReads (p : Fin 16) : Nat → Body → Body
  | 0, b => b
  | n + 1, b =>
    let l := b.lane p
    match l.readRequest, l.awaited, (b.programme p).line with
    | none, some seq, some line =>
      match queuedSamples b p seq with
      | some samples =>
        openReads p n (b.onLane p fun x => { x with window := x.window ++ [{ seq := seq, samples := samples }] })
      | none => grantBank line.bank (b.onLane p fun x => { x with readRequest := some { seq := seq } })
    | _, _, _ => b

/-- The window is brought up to the reader's place and its awaited frames are asked for, while RUNNING (R56, R67). -/
def pumpReads (p : Fin 16) (b : Body) : Body :=
  let b := b.onLane p Lane.prune
  if (b.programme p).state = .running then openReads p 10 b else b

/-- A granted access whose owner has gone: its completion returns and removes nothing (R51, R55, R58). -/
def Access.kill (p : Fin 16) (reads writes : Bool) : Access → Access
  | .drain q w s live => .drain q w s (live && !(writes && q == p))
  | .read q s w c live => .read q s w c (live && !(reads && q == p))
  | .fill q w live => .fill q w (live && !(writes && q == p))

def killAccess (p : Fin 16) (reads writes : Bool) (b : Body) : Body :=
  bankIds.foldl (fun b k => b.onBank k fun x => { x with access := x.access.map (Access.kill p reads writes) }) b

/-- The open read request is closed without a return (R58). -/
def closeRead (p : Fin 16) (b : Body) : Body :=
  killAccess p true false (b.onLane p fun l => { l with readRequest := none })

/-! ## Memory errors (R57, R58) -/

def memoryErrors (p : Fin 16) (n : Nat) (b : Body) : Body :=
  if n = 0 then b
  else b.onProgramme p fun r => { r with memoryErrors := bumpBy n r.memoryErrors, memorySeen := true }

/-- What a read returns for its words: each failing word as zero (R57). -/
def checkedSamples (ws : List Word) : List Sample := ws.map fun w => if wordPasses w then wordSample w else 0

def failingWords (ws : List Word) : Nat := (ws.filter fun w => !wordPasses w).length

/-- A read returns: the request is closed, the frame is held if a window still wants it, the next request is opened. -/
def returnFrame (p : Fin 16) (seq : Count) (ws : List Word) (b : Body) : Body :=
  let b := memoryErrors p (failingWords ws) b
  let f : HeldFrame := { seq := seq, samples := checkedSamples ws, muted := failingWords ws != 0 }
  pumpReads p (b.onLane p fun l =>
    { l with readRequest := none, window := if (l.held seq).isNone then l.window ++ [f] else l.window })

/-! ## Allocation and zero-fill (R48, R50, R17) -/

/-- An allocation at a run: the map, the descriptor, the job, the lane's counts from 0, and FILLING (R16, R48, R62). The
lane target becomes the delay target of the active set, as R71 has it, where DEFINE left it at 0 (log 17). -/
def placeLine (p : Fin 16) (k : Fin 4) (first n : Nat) (b : Body) : Body :=
  let line : Line := { bank := k, first := first, count := n, length := n * Config.segmentWords / channels b p }
  let b := b.onBank k fun x =>
    { x with segments := setOwner (some p) first n x.segments
             jobs := x.jobs ++
               [{ programme := p, firstWord := Config.segmentWords * first, words := Config.segmentWords * n }] }
  let b := b.onProgramme p fun r => { r with line := some line, state := .filling }
  let target := ((b.programme p).active.map Settings.delayTarget).getD 0
  grantBank k (b.onLane p fun l => { l with writeSeq := 0, readSeq := 0, historyStart := 0, target := target })

/-- The data of an ALLOCATE completion: bank, first segment, segment count, L (R17, section 11.5). -/
def lineFields (l : Line) : List Field := [num1 l.bank, num2 l.first, num2 l.count, num4 l.length]

/-- The zero-fill of a programme is complete: PARKED, and the ALLOCATE completes SUCCESS (R17). -/
def fillDone (p : Fin 16) (b : Body) : Body :=
  let data := ((b.programme p).line.map lineFields).getD []
  completeSubject .allocate p .success data (b.onProgramme p fun r => { r with state := .parked })

/-- A live zero-fill access has written its 64 words (R50). -/
def fillAdvance (k : Fin 4) (b : Body) : Body :=
  match (b.bank k).jobs with
  | [] => b
  | j :: js =>
    if j.words ≤ j.written + 64 then fillDone j.programme (b.onBank k fun x => { x with jobs := js })
    else b.onBank k fun x => { x with jobs := { j with written := j.written + 64 } :: js }

end Sys2Proof.Machine
end

