-- ==== Sys2Proof/Machine/Reader.lean ====
section
/-! DEFINITION. The reader of a conversion lane (chapter 4, and the splices of chapter 5 as the reader meets them): setpoint,
delay changes, jumps, fade tails, stepping, interpolation and output, underrun, entry to RUNNING, regulation. -/

namespace Sys2Proof.Machine

/-! ## Trackers as the lane sees them -/

/-- D_nom of a class (table of R37). -/
def nominalSpan : PortClass → Nat
  | .k32 => 98304 | .k44 => 71331 | .k48 => 65536 | .k88 => 35665 | .k96 => 32768

def nominalQ (c : PortClass) : Nat := 8 * nominalSpan c

def isLocked (b : Body) (q : Fin 8) : Bool := (b.port q).tracker.state == .locked

/-- The current Q of a LOCKED tracker. -/
def lockedQ (b : Body) (q : Fin 8) : Option Nat := if isLocked b q then (b.port q).tracker.q else none

/-- The tracker of the source in use is LOCKED. -/
def sourceLocked (b : Body) (p : Fin 16) : Bool := (b.lane p).source.any fun s => isLocked b s.port

/-! ## Setpoint (R71) -/

/-- ceil(target × 524,288 / Q) + 4, limited to L - 64 with the delay-limited flag (R71). -/
def setpointFor (target q : Nat) (line : Line) : Nat × Bool :=
  let n := (target * Config.unityRatio + q - 1) / q + 4
  if line.limit < n then (line.limit, true) else (n, false)

/-- The Q the setpoint is computed from, by the state (R71). -/
def setpointQ (b : Body) (p : Fin 16) : Option Nat :=
  match (b.programme p).state with
  | .running => (b.lane p).ratio.map RatioRecord.q
  | .priming => (b.lane p).source.bind fun s => (b.port s.port).tracker.q
  | _ => none

def refreshSetpoint (p : Fin 16) (b : Body) : Body :=
  match setpointQ b p, (b.programme p).line with
  | some q, some line =>
    let n := setpointFor (b.lane p).target q line
    b.onLane p fun l => { l with setpoint := some n.1, delayLimited := n.2 }
  | _, _ => b.onLane p fun l => { l with setpoint := none, delayLimited := false }

/-! ## Delay changes (R74 to R79) -/

/-- A delay change ends: the override returns to none, and its origin is told (R74, R78, R79, R172). -/
def endChange (p : Fin 16) (o : OpOutcome) (b : Body) : Body :=
  match (b.lane p).change with
  | none => b
  | some c =>
    let b := b.onLane p fun l => { l with change := none, overrideFast := false }
    match c.origin with
    | some (.operation tag) => completeTag tag o [] b
    | some .scene =>
      b.onLane p fun l => { l with sceneDelayOwed := some { programme := p, target := c.target, outcome := o } }
    | none => b

/-- A fade tail ends: a change in TAIL phase completes, or goes on in REMAINDER (R76, R77, R78). -/
def endTail (p : Fin 16) (b : Body) : Body :=
  let b := b.onLane p fun l => { l with tail := none }
  match (b.lane p).change with
  | some c =>
    if c.phase = .tail then
      if c.floored then b.onLane p fun l => { l with change := some { c with phase := .remainder } }
      else endChange p .success b
    else b
  | none => b

/-- A tail whose remaining count has reached 0 has ended (R77). -/
def settleTail (p : Fin 16) (b : Body) : Body :=
  if (b.lane p).tail.any fun t => t.remaining = 0 then endTail p b else b

/-! ## Splice marks as the reader meets them (R97 to R99) -/

/-- The Q loaded at a mark (table of R98). -/
def markQ (b : Body) (m : SpliceMark) : Nat :=
  match lockedQ b m.port with
  | some q => q
  | none => m.q.getD (nominalQ (b.port m.port).cls)

/-- Ratio record, accumulator and history start set from a mark (steps 2, 3 and 4 of R98). -/
def Lane.takeMark (l : Lane) (m : SpliceMark) (q : Nat) : Lane :=
  { l with historyStart := m.seq, ratio := some { port := m.port, q := q }, acc := q / 2 }

/-- The reader reaches the oldest mark (R98). -/
def reachMark (p : Fin 16) (m : SpliceMark) (b : Body) : Body :=
  refreshSetpoint p (b.onLane p fun l => { l.takeMark m (markQ b m) with marks := l.marks.tail, fadeIn := 64 })

/-- The marks that a forward move of the reader to `d` consumes: after the old place, at or before `d` (R99). -/
def Lane.passed (l : Lane) (d : Count) : List SpliceMark :=
  if seqBefore l.readSeq d then l.marks.filter fun m => seqUpTo m.seq d else []

/-- The reader moves to `d`, consuming the marks on the way (R76, R81, R99). That a backward cut stopped at a floor one frame
ahead of the reader comes here as a forward move, and consumes a mark that lies at the floor, is the model's (DESIGN CHOICE,
log 71). -/
def moveReader (p : Fin 16) (d : Count) (b : Body) : Body :=
  let l := b.lane p
  let gone := l.passed d
  let b := b.onLane p fun l => { l with readSeq := d, marks := l.marks.drop gone.length }
  match gone.getLast? with
  | none => b
  | some m => refreshSetpoint p (b.onLane p fun l => l.takeMark m (markQ b m))

/-- A fade tail is made from the reader as it stands (R77). -/
def makeTail (p : Fin 16) (b : Body) : Body :=
  b.onLane p fun l =>
    match l.ratio with
    | none => l
    | some r =>
      { l with tail := some { readSeq := l.readSeq, acc := l.acc, q := r.q, stop := l.marks.head?.map (·.seq),
                              historyStart := l.historyStart } }

/-- The floor of a backward cut (R78). -/
def cutFloor (l : Lane) (line : Line) : Count := seqLater (l.writeSeq - cnt line.limit) (l.historyStart + 1)

/-- The cut is made (R76, R78). Where the floor lies one frame ahead of the reader (log 34), a backward cut moves the reader
forward to it; a mark at that floor is consumed as in a forward jump (DESIGN CHOICE, log 71). -/
def makeCut (p : Fin 16) (c : DelayChange) (b : Body) : Body :=
  let b := refreshSetpoint p (b.onLane p fun l => { l with target := c.target })
  let l := b.lane p
  match l.setpoint, (b.programme p).line with
  | some sp, some line =>
    let d := l.writeSeq - cnt sp
    if d = l.readSeq then endChange p .success b
    else
      let low := cutFloor l line
      let floored := seqBefore d l.readSeq && seqBefore d low
      let b := moveReader p (if floored then low else d) (makeTail p b)
      pumpReads p (b.onLane p fun l =>
        { l with change := some { c with phase := .tail, floored := floored }
                 overrideFast := l.overrideFast || floored })
  | _, _ => b

/-- The cut of a change that is DUE, at a frame boundary other than that of its commit, with no tail active (R76). -/
def cutDue (p : Fin 16) (frame : Count) (b : Body) : Body :=
  let b := settleTail p b
  match (b.lane p).change with
  | some c =>
    if c.phase = .due ∧ c.boundary ≠ frame ∧ (b.lane p).tail = none then makeCut p c b else b
  | none => b

/-- The slip seen flag and the sticky slip flag are set (R80, R81, R53). -/
def markSlip (p : Fin 16) (b : Body) : Body := b.onLane p fun l => { l with slipSeen := true, stickySlip := true }

def countSlip (p : Fin 16) (b : Body) : Body :=
  markSlip p (b.onProgramme p fun r => { r with slips := bump r.slips })

/-- An overrun (R81, R99). -/
def overrun (p : Fin 16) (b : Body) : Body :=
  let b := settleTail p b
  let l := b.lane p
  let d := l.writeSeq - cnt (l.setpoint.getD 4)
  let gone := l.passed d
  let b :=
    if l.tail = none then moveReader p d (makeTail p b)
    else (moveReader p d b).onLane p fun x => { x with fadeIn := if gone = [] then x.fadeIn else 64 }
  pumpReads p (countSlip p b)

/-- An underrun (R20, R80, R79; its gain stage and meter, R105, R124, R129). -/
def underrun (p : Fin 16) (b : Body) : Body :=
  let b := countSlip p (closeRead p b)
  let b := b.onLane p fun l =>
    { l with tail := none, fadeIn := 0, marks := [], overloadRun := List.replicate 8 0
             target := match l.change with
               | some c => c.target
               | none => l.target }
  let b := leaveRunning p (endChange p .success b)
  let next : ProgState × StateCause := if sourceLocked b p then (.priming, .underrun) else (.starved, .starved)
  refreshSetpoint p (oweState p next.2 (b.onProgramme p fun r => { r with state := next.1 }))

/-- Whether a PRIMING programme enters RUNNING at this house sample (R19, R73). -/
def primed (b : Body) (p : Fin 16) : Bool :=
  sourceLocked b p && (b.lane p).setpoint.any fun n => decide (n ≤ (b.lane p).occupancy)

/-- Entry to RUNNING, but for the stepping of its house sample (R19, R73; the running mark, R141). -/
def enterRunning (p : Fin 16) (b : Body) : Body :=
  match (b.lane p).source with
  | none => b
  | some s =>
    let q := (b.port s.port).tracker.q.getD (nominalQ (b.port s.port).cls)
    let b := b.onLane p fun l =>
      { l with readSeq := match l.setpoint with
                 | some n => if n < l.occupancy then l.writeSeq - cnt n else l.readSeq
                 | none => l.readSeq
               ratio := some { port := s.port, q := q }
               acc := q / 2, increment := Config.unityRatio, outgoing := none, fadeIn := 64, window := [] }
    pumpReads p (refreshSetpoint p (oweState p .primed (b.onProgramme p fun r =>
      { r with state := .running, runningMark := true, ownMarks := r.ownMarks.map fun x => (x.1, true) })))

/-! ## Stepping (R66, R77) -/

/-- Step 2 of R66. Answers whether the house sample is an underrun. -/
def stepLoop (p : Fin 16) : Nat → Body → Body × Bool
  | 0, b => (b, false)
  | n + 1, b =>
    let l := b.lane p
    match l.ratio with
    | none => (b, false)
    | some r =>
      if l.acc < r.q then (b, false)
      else if l.occupancy < 5 then (b, true)
      else
        let b := b.onLane p fun x => { x with acc := x.acc - r.q, readSeq := x.readSeq + 1 }
        match l.marks with
        | m :: _ => if m.seq = l.readSeq + 1 then stepLoop p n (reachMark p m b) else stepLoop p n b
        | [] => stepLoop p n b

/-- The increment a house sample is stepped with: one begun before a regulation tick keeps the increment that the tick
replaced (R72; log 43). -/
def Lane.stepIncrement (l : Lane) : Nat := (l.outgoing.map Prod.fst).getD l.increment

/-- One house sample less is to be stepped with the increment replaced. -/
def Lane.stepped (l : Lane) : Lane :=
  { l with outgoing := l.outgoing.bind fun x => if x.2 ≤ 1 then none else some (x.1, x.2 - 1) }

/-- Steps 1 and 2 of R66. -/
def stepReader (p : Fin 16) (b : Body) : Body × Bool :=
  let b := b.onLane p fun l => { l.stepped with acc := l.acc + l.stepIncrement }
  let l := b.lane p
  stepLoop p (((l.ratio.map fun r => l.acc / r.q).getD 0) + 1) b

/-- The tail steps against its own Q; `none` where it ends at once: at its stop, or with too little left (R77). -/
def stepTail (written : Count) : Nat → FadeTail → Option FadeTail
  | 0, t => some t
  | n + 1, t =>
    if t.acc < t.q then some t
    else if (written - t.readSeq).toNat < 5 then none
    else if t.stop = some (t.readSeq + 1) then none
    else stepTail written n { t with acc := t.acc - t.q, readSeq := t.readSeq + 1 }

/-- Step 1 of R77. A tail that ends early keeps a remaining count of 0 until its end is taken. -/
def Lane.stepTail (l : Lane) : Lane :=
  match l.tail with
  | none => l
  | some t =>
    let t := { t with acc := t.acc + Config.unityRatio }
    match Machine.stepTail l.writeSeq (t.acc / t.q + 1) t with
    | some t => { l with tail := some t }
    | none => { l with tail := some { t with remaining := 0 } }

/-! ## Interpolation and output (R67 to R69, R77, R97) -/

/-- A frame as a window gives it to the interpolation. -/
structure WindowFrame where
  samples : List Sample
  muted   : Bool := false
  late    : Bool := false
  deriving DecidableEq, Repr

/-- The frame of a sequence in a window that begins at `start` and is silent from `stop` on (R67, R97). -/
def Lane.frame (l : Lane) (start : Count) (stop : Option Count) (seq : Count) : WindowFrame :=
  if stop.any fun s => seqUpTo s seq then { samples := [] }
  else if seqBefore seq start then { samples := [] }
  else match l.held seq with
    | some f => { samples := f.samples, muted := f.muted }
    | none => { samples := [], late := true }

/-- The four frames round a place, and which of them are late. -/
def Lane.fourFrames (l : Lane) (r start : Count) (stop : Option Count) : List (Count × WindowFrame) :=
  [r - 1, r, r + 1, r + 2].map fun s => (s, l.frame start stop s)

/-- One channel of an interpolated frame, in units of 2^-49 (R68). -/
def interpolateChannel (F : Int) (i : Nat) : List (Count × WindowFrame) → Int
  | [a, b, c, d] =>
    interpolate F (a.2.samples.getD i 0) (b.2.samples.getD i 0) (c.2.samples.getD i 0) (d.2.samples.getD i 0)
  | _ => 0

/-- The splice dip in 64ths: d within 64 frames before a stop, else 64 (R97, R77). -/
def dipFactor (r : Count) : Option Count → Nat
  | some s => if (s - r).toNat ≤ 64 then (s - r).toNat else 64
  | none => 64

/-- The output of a RUNNING lane at a house sample, after its stepping; the frames that were late; and the lane with
its fade-in and tail one house sample on (R69, R77). -/
def Lane.produce (l : Lane) (c : Nat) : LaneOutput × List Count × Lane :=
  let stop := l.marks.head?.map (·.seq)
  let main := l.fourFrames l.readSeq l.historyStart stop
  let F := fractionOf l.acc ((l.ratio.map (·.q)).getD 1)
  let fade := 64 - l.fadeIn
  let dip := dipFactor l.readSeq stop
  let live := l.tail.filter fun t => t.remaining ≠ 0
  let old := (live.map fun t => l.fourFrames t.readSeq t.historyStart t.stop).getD []
  let m := (live.map (·.remaining)).getD 0
  let oldF := (live.map fun t => fractionOf t.acc t.q).getD 0
  let oldDip := (live.map fun t => dipFactor t.readSeq t.stop).getD 64
  let sample (i : Nat) : Sample :=
    let v := interpolateChannel F i main * ((fade * dip * (64 - m) : Nat) : Int) +
      interpolateChannel oldF i old * ((oldDip * 64 * m : Nat) : Int)
    toSample (clampInt (-fullScale) fullScale (roundAway v (2 ^ 67)))
  let used := main ++ old
  let late := ((used.filter fun f => f.2.late).map Prod.fst).eraseDups
  ({ samples := (List.range c).map sample
     disturbed := decide (l.fadeIn ≠ 0) || decide (dip < 64) || live.isSome || used.any (fun f => f.2.muted || f.2.late)
     outside := false },
   late,
   { l with fadeIn := l.fadeIn - 1
            tail := l.tail.map fun t => { t with remaining := t.remaining - 1 } })

/-- The zero output outside RUNNING (R69). -/
def silentLane (p : Fin 16) (b : Body) : Body :=
  b.onLane p fun l => { l with output := { samples := List.replicate (channels b p) 0, disturbed := false, outside := true } }

/-- A house sample of a RUNNING lane (R66, R69, R80). -/
def runLane (p : Fin 16) (b : Body) : Body :=
  match stepReader p b with
  | (b, true) => silentLane p (underrun p b)
  | (b, false) =>
    let b := pumpReads p (b.onLane p Lane.stepTail)
    let c := channels b p
    let out := (b.lane p).produce c
    memoryErrors p (out.2.1.length * c) (b.setLane p { out.2.2 with output := out.1 })

/-- A house sample of a lane, whatever the state (R69, R73). -/
def sampleLane (p : Fin 16) (b : Body) : Body :=
  let b := settleTail p b
  match (b.programme p).state with
  | .running => runLane p b
  | .priming => if primed b p then runLane p (enterRunning p b) else silentLane p b
  | _ => silentLane p b

/-! ## Regulation (R70, R72, R87) -/

/-- The limit in force (R72). -/
def regulationLimit (b : Body) (p : Fin 16) : Int :=
  if (b.lane p).overrideFast then 524
  else match (b.programme p).active.map Settings.slewLimit with
    | some .fine => 131
    | some .fast => 524
    | _ => 262

/-- The increment for an occupancy error (step 3 of R72). -/
def incrementFor (limit e : Int) : Nat :=
  if -1 ≤ e ∧ e ≤ 1 then Config.unityRatio else (524288 + clampInt (-limit) limit (16 * e)).toNat

/-- The increment of a regulation tick, used from the house sample after the tick: the `owed` house samples that have begun
keep the one in use (R72; log 43). -/
def Lane.regulate (l : Lane) (owed increment : Nat) : Lane :=
  { l with increment := increment, outgoing := if owed = 0 then none else some (l.stepIncrement, owed) }

/-- A regulation tick of a lane (R72, with the marks of R87). -/
def regulateLane (p : Fin 16) (b : Body) : Body :=
  if (b.programme p).state ≠ .running then b
  else
    let b := settleTail p b
    let b := b.onLane p fun l =>
      { l with ratio := l.ratio.map fun r => { r with q := (lockedQ b r.port).getD r.q }
               marks := l.marks.map fun m => { m with q := (lockedQ b m.port).or m.q } }
    let b := refreshSetpoint p b
    let l := b.lane p
    match l.setpoint with
    | none => b
    | some n =>
      let e : Int := (l.occupancy : Int) - n
      let b := b.onLane p fun x => x.regulate b.timing.samplesOwed (incrementFor (regulationLimit b p) e)
      if -1 ≤ e ∧ e ≤ 1 ∧ l.change.any (fun c => c.phase = .slewing || c.phase = .remainder) then
        endChange p .success b
      else b

end Sys2Proof.Machine
end

