-- ==== Sys2Proof/Machine/Writer.lean ====
section
/-! DEFINITION. The writer of a lane and the write path of the delay store: handing over, the write queue, the holding
places, overload and overrun at a write (R52 to R55, R63 to R65, R81), the completion of accesses, and the release of a line
(R23, R24, R51, R55). -/

namespace Sys2Proof.Machine

/-! ## Overload (R65) -/

/-- A sample of full-scale magnitude. -/
def fullScaleSample (x : Sample) : Bool := decide (8388607 ≤ x.toInt.natAbs)

/-- One channel's overload run after a sample. -/
def overloadNext (run : Nat) (x : Sample) : Nat := if fullScaleSample x then min 3 (run + 1) else 0

def overloadRuns : List Nat → List Sample → List Nat
  | r :: rs, x :: xs => overloadNext r x :: overloadRuns rs xs
  | rs, _ => rs

/-- The runs that reach 3 with this frame. -/
def overloadEvents : List Nat → List Sample → Nat
  | r :: rs, x :: xs => (if r < 3 ∧ overloadNext r x = 3 then 1 else 0) + overloadEvents rs xs
  | _, _ => 0

/-- The writer watches a frame it writes (R65). -/
def watchOverload (p : Fin 16) (samples : List Sample) (b : Body) : Body :=
  let l := b.lane p
  let n := overloadEvents l.overloadRun samples
  let b := b.onLane p fun l => { l with overloadRun := overloadRuns l.overloadRun samples
                                        overloadSeen := l.overloadSeen || n != 0 }
  b.onProgramme p fun r => { r with overloads := bumpBy n r.overloads }

/-- All overload runs return to 0 (R65). -/
def clearOverloadRuns (p : Fin 16) (b : Body) : Body := b.onLane p fun l => { l with overloadRun := List.replicate 8 0 }

/-! ## Writing (R52 to R54, R64, R81) -/

/-- After a write: occupancy held at L - 64 in PRIMING and STARVED (R64), the overrun test in RUNNING (R81). -/
def afterWrite (p : Fin 16) (b : Body) : Body :=
  match (b.programme p).line with
  | none => b
  | some line =>
    let l := b.lane p
    match (b.programme p).state with
    | .running => if line.limit < l.occupancy then overrun p b else pumpReads p b
    | .priming | .starved =>
      if line.limit < l.occupancy then b.onLane p fun x => { x with readSeq := x.writeSeq - cnt line.limit } else b
    | _ => b

/-- The history start once a frame is written: never more than 2^30 frames behind the write sequence, so that the compare of
sequence numbers stays right however long a lane runs (log 51). No line holds a frame so old. -/
def trailingStart (written start : Count) : Count :=
  if (written - start).toNat ≤ 2 ^ 30 then start else written - cnt (2 ^ 30)

/-- A frame enters the write queue of its bank: it is written (R52). -/
def enterQueue (p : Fin 16) (samples : List Sample) (b : Body) : Body :=
  match (b.programme p).line with
  | none => b
  | some line =>
    let seq := (b.lane p).writeSeq
    let b := b.onBank line.bank fun k =>
      { k with queue := k.queue ++ [{ lane := p, seq := seq, position := seq.toNat % line.length, samples := samples }] }
    let b := b.onLane p fun l =>
      { l with writeSeq := l.writeSeq + 1, historyStart := trailingStart (l.writeSeq + 1) l.historyStart }
    afterWrite p (watchOverload p samples (grantBank line.bank b))

/-- A frame handed over by a lane writer (R52, R53). -/
def handOver (p : Fin 16) (samples : List Sample) (b : Body) : Body :=
  match (b.programme p).line with
  | none => b
  | some line =>
    if (b.bank line.bank).queue.length < Config.writeQueuePlaces then enterQueue p samples b
    else
      let b := if (b.lane p).holding.isSome then
          markSlip p (b.onProgramme p fun r => { r with writeDrops := bump r.writeDrops })
        else b
      (b.onLane p fun l => { l with holding := some samples }).onBank line.bank fun k =>
        { k with waiting := k.waiting.filter (· != p) ++ [p] }

/-- Free places go to the waiting lanes in their order (R54); `fuel` bounds them. -/
def admitWaiting (k : Fin 4) : Nat → Body → Body
  | 0, b => b
  | n + 1, b =>
    match (b.bank k).waiting with
    | [] => b
    | p :: rest =>
      if Config.writeQueuePlaces ≤ (b.bank k).queue.length then b
      else
        let samples := ((b.lane p).holding).getD []
        let b := (b.onBank k fun x => { x with waiting := rest }).onLane p fun l => { l with holding := none }
        admitWaiting k n (enterQueue p samples b)

/-- The lane leaves the waiting order, its held frame discarded (R54). -/
def discardHeld (p : Fin 16) (b : Body) : Body :=
  let b := b.onLane p fun l => { l with holding := none }
  bankIds.foldl (fun b k => b.onBank k fun x => { x with waiting := x.waiting.filter (· != p) }) b

/-- The samples of a lane out of a port frame: C consecutive slots from the first (R63). -/
def slotSamples (slots : Vector Sample 8) (first c : Nat) : List Sample := (slots.toList.drop first).take c

/-- Whether a lane takes the frames of a port (R63). -/
def takesFrom (b : Body) (p : Fin 16) (q : Fin 8) : Bool :=
  let st := (b.programme p).state
  (st = .priming || st = .running || st = .starved) && (b.lane p).source.any fun s => s.port = q

/-- A delivered frame is offered to the lanes in increasing number (R35, R63). -/
def deliver (q : Fin 8) (slots : Vector Sample 8) (b : Body) : Body :=
  b.eachProgramme fun p b =>
    if takesFrom b p q then
      match (b.lane p).source with
      | some s => handOver p (slotSamples slots s.slot (channels b p)) b
      | none => b
    else b

/-! ## Completions (R50, R51, R55, R57) -/

/-- A drain of a frame still in the queue is complete: it leaves, and its place may go to a waiting lane (R54, R55). -/
def drainDone (k : Fin 4) (live : Bool) (b : Body) : Body :=
  let b := b.onBank k fun x => { x with access := none, queue := if live then x.queue.drop 1 else x.queue }
  grantBank k (admitWaiting k 16 b)

/-- A read access is complete with the words it read (R56 to R58). -/
def readDone (k : Fin 4) (p : Fin 16) (seq : Count) (live : Bool) (ws : List Word) (b : Body) : Body :=
  let b := b.onBank k fun x => { x with access := none }
  grantBank k (if live then returnFrame p seq ws b else b)

/-- A zero-fill access is complete (R50, R51). -/
def fillAccessDone (k : Fin 4) (live : Bool) (b : Body) : Body :=
  let b := b.onBank k fun x => { x with access := none }
  grantBank k (if live then fillAdvance k b else b)

/-! ## Release (R23, R24, R47, R51, R55) -/

/-- The programme's line is given back: segments FREE, its job, queued frames, held frame and open read gone. -/
def releaseLine (p : Fin 16) (b : Body) : Body :=
  match (b.programme p).line with
  | none => b
  | some line =>
    let b := discardHeld p (closeRead p (killAccess p true true b))
    let b := b.onBank line.bank fun x =>
      { x with segments := setOwner none line.first line.count x.segments
               jobs := x.jobs.filter fun j => j.programme != p
               queue := x.queue.filter fun f => f.lane != p }
    let b := b.onProgramme p fun r => { r with line := none }
    grantBank line.bank (admitWaiting line.bank 16 b)

end Sys2Proof.Machine
end

