-- ==== Sys2Proof/Machine/Ports.lean ====
section
/-! DEFINITION. Ingest ports and rate trackers (chapter 2): presence, frame edges, stamps and windows, loss and holdover,
the PORT request (R34 to R44). -/

namespace Sys2Proof.Machine

/-- The history is cleared as R40 says: the next frame edge is stamped. -/
def Tracker.clearHistory (t : Tracker) : Tracker :=
  { t with stamps := [], frameCount := 255, span := none, prevSpan := none, q := none, jumpRun := 0, rangeHeld := false }

/-- |a - b| > bound. -/
def apart (a b bound : Nat) : Bool := decide (bound < a - b ∨ bound < b - a)

/-- A window of span d closes (R39, R40, R41). -/
def Tracker.closeWindow (t : Tracker) (nominal d : Nat) : Tracker :=
  let t := { t with span := some d }
  let outOfRange := apart d nominal (nominal / 200)
  let jumps := t.prevSpan.any fun e => apart d e (e / 512)
  if !outOfRange && !jumps then
    let t := { t with prevSpan := some d, jumpRun := 0, rangeHeld := false }
    match t.stamps.head?, t.stamps.getLast? with
    | some oldest, some newest =>
      if t.stamps.length = 9 then { t with q := some (newest - oldest).toNat, state := .locked } else t
    | _, _ => t
  else
    let t := { t with rangeHeld := t.rangeHeld || outOfRange }
    if !jumps then t
    else
      let t := { t with jumpSeen := true, jumpRun := t.jumpRun + 1 }
      if t.jumpRun < 3 then t else { t.clearHistory with state := .acquiring }

/-- A stamp is taken (R38). -/
def Tracker.stamp (t : Tracker) (nominal : Nat) (tick : Count) : Tracker :=
  let kept := if 9 ≤ t.stamps.length then t.stamps.drop 1 else t.stamps
  let t' := { t with stamps := kept ++ [tick], frameCount := 0 }
  match t.stamps.getLast? with
  | none => t'
  | some last => t'.closeWindow nominal (tick - last).toNat

/-- A frame edge is counted (R38). -/
def Tracker.frameEdge (t : Tracker) (nominal : Nat) (tick : Count) : Tracker :=
  if t.state = .acquiring ∨ t.state = .locked then
    if t.stamps = [] ∨ 255 ≤ t.frameCount then t.stamp nominal tick else { t with frameCount := t.frameCount + 1 }
  else t

/-- Presence becomes SYNCED (R42, R43). -/
def Tracker.presenceReturns (t : Tracker) : Tracker :=
  match t.state with
  | .acquiring | .locked => { t.clearHistory with state := .acquiring, lossSince := none }
  | .holdover => { t.clearHistory with state := .acquiring, lossSince := none, holdover := none }
  | .absent => { t with state := .acquiring, stamps := [], lossSince := none }

/-- A STARVED programme whose source locked enters PRIMING with an empty line (R21, R73). -/
def resumeProgramme (p : Fin 16) (b : Body) : Body :=
  let b := b.onLane p fun l => { l with readSeq := l.writeSeq, historyStart := l.writeSeq, marks := [] }
  clearOverloadRuns p (oweState p .resumed (b.onProgramme p fun r => { r with state := .priming }))

/-- What a tracker's change means to the lanes on its port: STARVED ones resume where it has locked, PRIMING ones take
their setpoint anew (R21, R71). -/
def afterTracker (q : Fin 8) (b : Body) : Body :=
  b.eachProgramme fun p b =>
    if (b.lane p).source.any fun s => s.port = q then
      let b := if (b.programme p).state = .starved ∧ isLocked b q then resumeProgramme p b else b
      if (b.programme p).state = .priming then refreshSetpoint p b else b
    else b

/-- A slot sample: the first 24 bit clocks of the slot, most significant bit first; the last 8 are not read (R35). -/
def slotSample (bits : List Bool) : Sample :=
  BitVec.ofNat 24 ((bits.take 24).foldl (fun n d => 2 * n + d.toNat) 0)

/-- The eight slot samples of a port frame in slot order, from its serial data, bit clock by bit clock (R35): slots of 32 bit
clocks each. -/
def frameSlots (bits : List Bool) : Vector Sample 8 := Vector.ofFn fun i => slotSample ((bits.drop (32 * i.val)).take 32)

/-- The event that a frame sync makes, after the serial data of the bit clocks since the sync before it: aligned, and so the
frame edge that delivers what was assembled, after exactly 256 of them, else misaligned (R34, R35). -/
def syncEvent (q : Fin 8) (elapsed : Nat) (bits : List Bool) : Instr :=
  if bits.length = 256 then .portFrameEdge q elapsed (frameSlots bits) else .portSyncMisaligned q elapsed

/-- A frame edge can arrive: the clock is present, a sync was seen, and the count has not passed 256 (R34). -/
def edgePossible (x : Port) : Bool := x.clockPresent && x.syncSeen && x.bitCount != 257

/-- An aligned sync: the port's frame edge (R34, R35, R38; log 7), with the samples that `frameSlots` reads. The frame is delivered before the tracker counts the edge:
a STARVED lane that leaves with the lock it brings lets that frame go (R21, R73; log 54). -/
def frameEdgeWork (q : Fin 8) (elapsed : Nat) (slots : Vector Sample 8) (b : Body) : Body :=
  let x := b.port q
  if edgePossible x then
    let tick := tickAt b.timing elapsed
    let t := if x.presence = .synced then x.tracker else x.tracker.presenceReturns
    let b := b.setPort q { x with presence := .synced, bitCount := 0, assembly := [], tracker := t }
    let b := deliver q slots b
    afterTracker q (b.onPort q fun x => { x with tracker := x.tracker.frameEdge (nominalSpan x.cls) tick })
  else b

/-- Presence becomes something other than SYNCED; leaving SYNCED starts the loss timer (R34, R42). -/
def Port.leaveSync (x : Port) (presence : Presence) (tick : Count) : Port :=
  { x with presence := presence, assembly := []
           tracker := if x.presence = .synced then { x.tracker with lossSince := some tick } else x.tracker }

/-- A misaligned sync, or the first sync since the clock returned (R34). -/
def misalignedWork (q : Fin 8) (elapsed : Nat) (b : Body) : Body :=
  b.onPort q fun x =>
    if x.clockPresent then { x.leaveSync .noSync (tickAt b.timing elapsed) with bitCount := 0, syncSeen := true } else x

/-- The bit count reaches 257 without a sync (R34). -/
def syncAbsentWork (q : Fin 8) (elapsed : Nat) (b : Body) : Body :=
  b.onPort q fun x =>
    if x.clockPresent then { x.leaveSync .noSync (tickAt b.timing elapsed) with bitCount := 257 } else x

/-- No bit clock for 256 house ticks (R34). -/
def clockLossWork (q : Fin 8) (elapsed : Nat) (b : Body) : Body :=
  b.onPort q fun x =>
    if x.clockPresent then
      { x.leaveSync .noClock (tickAt b.timing elapsed) with bitCount := 0, clockPresent := false, syncSeen := false }
    else x

/-- The first bit clock after an absence (R34). -/
def clockReturnWork (q : Fin 8) (b : Body) : Body :=
  b.onPort q fun x =>
    if x.clockPresent then x else { x with clockPresent := true, syncSeen := false, bitCount := 0, presence := .noSync }

/-- The loss timer has reached 4,096 house ticks (R42). -/
def Tracker.lossDue (t : Tracker) (tick : Count) : Bool := t.lossSince.any fun s => decide (4096 ≤ (tick - s).toNat)

def Tracker.lossTimeout (t : Tracker) : Tracker :=
  match t.state with
  | .locked => { t with state := .holdover, holdover := some 0, lossSince := none }
  | .acquiring => { t.clearHistory with state := .absent, lossSince := none }
  | _ => { t with lossSince := none }

def lossTimeoutWork (q : Fin 8) (elapsed : Nat) (b : Body) : Body :=
  if (b.port q).tracker.lossDue (tickAt b.timing elapsed) then
    afterTracker q (b.onPort q fun x => { x with tracker := x.tracker.lossTimeout })
  else b

/-- The holdover timer has reached 48,000 house samples (R43). -/
def Tracker.holdoverDue (t : Tracker) : Bool := t.state == .holdover && t.holdover.any fun n => decide (48000 ≤ n)

def Tracker.holdoverTimeout (t : Tracker) : Tracker :=
  { t with state := .absent, q := none, prevSpan := none, stamps := [], holdover := none }

def holdoverTimeoutWork (q : Fin 8) (b : Body) : Body :=
  if (b.port q).tracker.holdoverDue then
    afterTracker q (b.onPort q fun x => { x with tracker := x.tracker.holdoverTimeout })
  else b

/-- PORT with another class (R36). -/
def setClass (q : Fin 8) (cls : PortClass) (b : Body) : Body :=
  if (b.port q).cls = cls then b
  else
    afterTracker q (b.onPort q fun x =>
      { x with cls := cls
               tracker := { x.tracker.clearHistory with
                            lossSince := none, holdover := none
                            state := if x.presence = .synced then .acquiring else .absent } })

/-- The PORT request (R36). -/
def portRequest (q : Nat) (cls : PortClass) (b : Body) : Answer × Body :=
  match idOf 8 q with
  | none => (refuse .badField, b)
  | some q =>
    let b' := setClass q cls b
    (.answer [num1 q, enum PortClass.all (b.port q).cls, enum PortClass.all cls,
      enum TrackerState.all (b'.port q).tracker.state], b')

end Sys2Proof.Machine
end

