-- ==== Sys2Proof/Machine/Switching.lean ====
section
/-! DEFINITION. Source switching (chapter 5): the carrying out of a switch, failover actions, the requested selector, revert
and the boundary work of a programme (R13, R86 to R96, R100). -/

namespace Sys2Proof.Machine

/-- The definition a selector names in a set (R13). -/
def selectedSource (st : Settings) : Selector → Option Source
  | .main => some st.main
  | .backup => st.backup

/-- States in which the writer and the switching logic work (R63, R88). -/
def carrying (st : ProgState) : Bool := st == .priming || st == .running || st == .starved

/-- The forced jump to the oldest mark (R95). -/
def forcedJump (p : Fin 16) (b : Body) : Body :=
  let b := if (b.lane p).tail.isSome then endTail p b else b
  match (b.lane p).marks with
  | [] => b
  | m :: _ => pumpReads p (reachMark p m (b.onLane p fun l => { l with readSeq := m.seq }))

/-- The splice mark of a switch in RUNNING (step 3 of R94). -/
def placeMark (p : Fin 16) (src : Source) (b : Body) : Body :=
  let l := b.lane p
  let m : SpliceMark := { seq := l.writeSeq, port := src.port, slot := src.slot, q := lockedQ b src.port }
  if l.marks.getLast?.any fun n => n.seq = l.writeSeq then
    b.onLane p fun l => { l with marks := l.marks.dropLast ++ [m] }
  else
    let b := if 4 ≤ l.marks.length then forcedJump p b else b
    b.onLane p fun l => { l with marks := l.marks ++ [m] }

/-- The line is emptied from the write sequence (R96, R21). -/
def emptyLine (p : Fin 16) (b : Body) : Body :=
  b.onLane p fun l => { l with readSeq := l.writeSeq, historyStart := l.writeSeq, window := [] }

/-- One switch of the lane to a source, with its cause (R94, R96, R100). -/
def switchSource (p : Fin 16) (src : Source) (cause : StateCause) (b : Body) : Body :=
  let b := oweState p cause b
  let b := b.onProgramme p fun r =>
    match r.active with
    | some st => { r with guard := st.switchGuard, revertCount := st.revertHold }
    | none => r
  let b := if (b.programme p).state = .running then placeMark p src b else b
  let b := clearOverloadRuns p (b.onLane p fun l => { l with source := some src })
  match (b.programme p).state with
  | .priming => refreshSetpoint p (emptyLine p (discardHeld p b))
  | .starved =>
    let b := discardHeld p b
    if isLocked b src.port then
      refreshSetpoint p (oweState p cause (resumeProgramme p (emptyLine p b)))
    else b
  | _ => b

/-- The selector changes side, and the lane switches where the definitions differ (R13, R89, R91, R92). -/
def changeSelector (p : Fin 16) (side : Selector) (cause : StateCause) (b : Body) : Body :=
  let b := b.onProgramme p fun r => { r with selector := side }
  match (b.programme p).active.bind fun st => selectedSource st side with
  | some src => if (b.lane p).source = some src then oweState p cause b else switchSource p src cause b
  | none => b

/-- After a commit the lane is reconciled with the selected definition; a selector left without one becomes MAIN in every
state, with its cause recorded (R14; log 57), and the switch is made in those that carry a feed (R13, R93). -/
def reconcile (p : Fin 16) (b : Body) : Body :=
  let r := b.programme p
  match r.active with
  | none => b
  | some st =>
    match selectedSource st r.selector with
    | none =>
      if carrying r.state then changeSelector p .main .planned b
      else oweState p .planned (b.onProgramme p fun r => { r with selector := .main })
    | some src =>
      if carrying r.state && (b.lane p).source != some src then switchSource p src .planned b else b

/-- The LOSS entry of a port (table of section 8.1). -/
def lossEntry (q : Fin 8) : Fin 154 := ⟨128 + 3 * q.val, by omega⟩

/-- The selector's other side. -/
def otherSide : Selector → Selector
  | .main => .backup
  | .backup => .main

/-- Test 2 of R89. -/
def policyAdmits (st : Settings) (a : FailoverAction) : Bool :=
  match st.failover with
  | .never => false
  | .onLoss => a.lossPort.isSome
  | .onLossOrSilence => true

/-- The source a failover action takes the programme to, where every test of R89 holds. -/
def failoverTarget (b : Body) (a : FailoverAction) : Option Source :=
  let r := b.programme a.programme
  match r.active with
  | none => none
  | some st =>
    match selectedSource st (otherSide r.selector) with
    | none => none
    | some src =>
      let portMatches := a.lossPort.all fun q => (selectedSource st r.selector).any fun s => s.port = q
      let lost := (b.entry (lossEntry src.port)).state
      if carrying r.state && policyAdmits st a && portMatches && r.guard == 0 && isLocked b src.port &&
          lost != .active && lost != .latched then some src
      else none

/-- A failover action is taken (R89). -/
def takeFailover (a : FailoverAction) (b : Body) : Body :=
  match failoverTarget b a with
  | none => b
  | some _ =>
    changeSelector a.programme (otherSide (b.programme a.programme).selector)
      (if a.lossPort.isSome then .loss else .silence) b

/-! ## The boundary work of a programme (R88) -/

/-- Step 1. -/
def guardStep (p : Fin 16) (b : Body) : Body := b.onProgramme p fun r => { r with guard := r.guard - 1 }

/-- Step 2: the requested selector is applied and set absent (R92). -/
def applyRequested (p : Fin 16) (b : Body) : Body :=
  let r := b.programme p
  let b := b.onProgramme p fun r => { r with requested := none }
  match r.requested with
  | none => b
  | some side =>
    if (r.active.bind fun st => selectedSource st side).isNone || side = r.selector then b
    else changeSelector p side .forced b

/-- Whether revert is satisfied (R91). -/
def revertSatisfied (b : Body) (p : Fin 16) : Bool :=
  (b.programme p).active.any fun st =>
    st.revert = .auto && isLocked b st.main.port && (b.entry (lossEntry st.main.port)).state = .clear

/-- Step 3: the revert test (R91). -/
def revertTest (p : Fin 16) (b : Body) : Body :=
  let r := b.programme p
  if r.selector ≠ .backup then b
  else if !revertSatisfied b p then
    b.onProgramme p fun r => { r with revertCount := (r.active.map Settings.revertHold).getD 0 }
  else
    let n := r.revertCount - 1
    let b := b.onProgramme p fun r => { r with revertCount := n }
    if n = 0 ∧ r.guard = 0 then changeSelector p .main .revert b else b

/-- R88. -/
def switchingWork (p : Fin 16) (b : Body) : Body :=
  if carrying (b.programme p).state then revertTest p (applyRequested p (guardStep p b)) else b

end Sys2Proof.Machine
end

