-- ==== Sys2Proof/Machine/Flags.lean ====
section
/-! DEFINITION. The conditions that the alarm table evaluates, and the seen flags and running marks behind them (R44, R57,
R65, R82, R137, R140 to R142). -/

namespace Sys2Proof.Machine

/-- The SILENCE condition of a RUNNING programme (R140). -/
def silenceHolds (st : Settings) (m : Meter) : Bool :=
  match m.shortTerm with
  | none => true
  | some v => decide (v < st.silenceThreshold)

/-- The running mark that a programme's entry goes by: its own where it was last evaluated ahead of the rest (R141; log 23). -/
def Programme.markOf (r : Programme) (kind : Nat) : Bool := (r.ownMarks.lookup kind).getD r.runningMark

/-- An event condition is heeded where the programme ran since the previous evaluation (R141). -/
def heeded (r : Programme) (kind : Nat) (seen : Bool) : Bool := seen && (r.markOf kind || r.state == .running)

/-- The condition of a programme's entry by its kind (R137, R140, R141). -/
def programmeCondition (b : Body) (p : Fin 16) (kind : Nat) : Bool :=
  let r := b.programme p
  let l := b.lane p
  let m := b.meter p
  match r.active with
  | none => false
  | some st =>
    let running := r.state == .running
    carrying r.state &&
    (match kind with
    | 0 => running && silenceHolds st m
    | 1 => heeded r 1 l.overloadSeen
    | 2 => running && m.shortTerm.any fun v => decide (st.loudHigh < v)
    | 3 => running && !silenceHolds st m && m.shortTerm.any fun v => decide (v < st.loudLow)
    | 4 => running && m.correlation.any fun v => decide (v < st.phaseThreshold)
    | 5 => heeded r 5 l.slipSeen
    | 6 => r.state == .starved
    | _ => heeded r 7 r.memorySeen)

/-- The programmes in PRIMING, RUNNING or STARVED whose source in use is on a port (R44, R89). -/
def usersOf (b : Body) (q : Fin 8) : List (Fin 16) :=
  programmeIds.filter fun p => carrying (b.programme p).state && (b.lane p).source.any fun s => s.port = q

/-- The condition of a port's entry by its kind (R44, R142). -/
def portCondition (b : Body) (q : Fin 8) (kind : Nat) : Bool :=
  let t := (b.port q).tracker
  match kind with
  | 0 => (t.state == .holdover || t.state == .absent) && usersOf b q != []
  | 1 => t.rangeHeld
  | _ => t.jumpSeen

/-- What an entry watches (R137). -/
inductive Subject
  | programme (p : Fin 16) (kind : Nat)
  | port (q : Fin 8) (kind : Nat)
  | href
  | vref
  deriving DecidableEq, Repr

def subjectOf (e : Fin 154) : Subject :=
  if h : e.val < 128 then .programme ⟨e.val / 8, by omega⟩ (e.val % 8)
  else if h' : e.val < 152 then .port ⟨(e.val - 128) / 3, by omega⟩ ((e.val - 128) % 3)
  else if e.val = 152 then .href else .vref

/-- The condition of an entry as its owner gives it (R139 to R142). -/
def condition (b : Body) (e : Fin 154) : Bool :=
  match subjectOf e with
  | .programme p kind => programmeCondition b p kind
  | .port q kind => portCondition b q kind
  | .href => b.timing.href == .free
  | .vref => b.timing.vref == .free

/-- The number of a programme's entry, and of a port's, by its kind (table of section 8.1). -/
def programmeEntry (p : Fin 16) (kind : Fin 8) : Fin 154 := ⟨8 * p.val + kind.val, by omega⟩
def portEntry (q : Fin 8) (kind : Fin 3) : Fin 154 := ⟨128 + 3 * q.val + kind.val, by omega⟩

/-- An entry is evaluated ahead of the rest: its seen flag is cleared, and its running mark set anew, once its condition is
taken (R44, R57, R65, R82, R141; log 23). -/
def clearSeenOf (b : Body) (e : Fin 154) : Body :=
  match subjectOf e with
  | .programme p kind =>
    let b := b.onProgramme p fun r =>
      { r with ownMarks := (kind, r.state == .running) :: r.ownMarks.filter fun x => x.1 != kind }
    match kind with
    | 1 => b.onLane p fun l => { l with overloadSeen := false }
    | 5 => b.onLane p fun l => { l with slipSeen := false }
    | 7 => b.onProgramme p fun r => { r with memorySeen := false }
    | _ => b
  | .port q 2 => b.onPort q fun x => { x with tracker := { x.tracker with jumpSeen := false } }
  | _ => b

/-- Whether the entries `done`, evaluated ahead of the rest, hold a programme's entry of a kind. -/
def evaluatedKind (done : List (Fin 154)) (p : Fin 16) (kind : Nat) : Bool := done.any fun e => subjectOf e = .programme p kind

/-- The seen flags are cleared, and the running marks set anew, once the conditions are taken (R44, R57, R65, R82, R141).
A flag set since the evaluation of an entry `done` ahead of the rest is for the next boundary, with the mark of its own that
the entry goes by (log 23). -/
def clearSeen (done : List (Fin 154)) (b : Body) : Body :=
  { b with
    programmes := .ofFn fun p =>
      let r := b.programme p
      { r with memorySeen := r.memorySeen && done.contains (programmeEntry p 7)
               runningMark := r.state == .running
               ownMarks := r.ownMarks.filter fun x => evaluatedKind done p x.1 }
    lanes := .ofFn fun p =>
      let l := b.lane p
      { l with overloadSeen := l.overloadSeen && done.contains (programmeEntry p 1)
               slipSeen := l.slipSeen && done.contains (programmeEntry p 5) }
    ports := .ofFn fun q =>
      let x := b.port q
      { x with tracker := { x.tracker with jumpSeen := x.tracker.jumpSeen && done.contains (portEntry q 2) } } }

end Sys2Proof.Machine
end

