-- ==== Sys2Proof/Machine/Alarms.lean ====
section
/-! DEFINITION. The alarm table (chapter 8): the state machine of an entry, acknowledgement, configuration, contacts, and the
evaluation at a frame boundary with the failover actions it raises (R139, R143 to R152). -/

namespace Sys2Proof.Machine

/-- The entry owes a report, with its change frame (R153). -/
def Entry.owe (e : Entry) (frame : Count) : Entry :=
  { e with reportOwed := true, changeFrame := frame, withheld := false }

/-- Into CLEAR, with the flag cleared and a report owed (R144, R147, R150). -/
def Entry.toClear (e : Entry) (frame : Count) : Entry :=
  { e with state := .clear, unacked := false }.owe frame

/-- An onset (R145). -/
def Entry.onset (e : Entry) (frame : Count) : Entry :=
  { e with state := .active, unacked := true, onsets := bump e.onsets, countdown := 0 }.owe frame

/-- One evaluation of an enabled entry (R143, R144, R145). -/
def Entry.advance (e : Entry) (holds : Bool) (frame : Count) : Entry :=
  match e.state, holds with
  | .clear, true => if e.onsetHold = 0 then e.onset frame else { e with state := .onset, countdown := e.onsetHold }
  | .clear, false => e
  | .onset, true => if e.countdown ≤ 1 then e.onset frame else { e with countdown := e.countdown - 1 }
  | .onset, false => { e with state := .clear, countdown := 0 }
  | .active, true => e
  | .active, false =>
    if e.latching then { e with state := .latched }.owe frame
    else if e.releaseHold = 0 then e.toClear frame
    else { e with state := .release, countdown := e.releaseHold }
  | .release, true => { e with state := .active, countdown := 0 }
  | .release, false => if e.countdown ≤ 1 then e.toClear frame else { e with countdown := e.countdown - 1 }
  | .latched, true => { e with state := .active }.owe frame
  | .latched, false => e

/-- Whether that evaluation is an onset (R145). -/
def Entry.hasOnset (e : Entry) (holds : Bool) : Bool :=
  holds && ((e.state == .clear && e.onsetHold == 0) || (e.state == .onset && decide (e.countdown ≤ 1)))

/-! ## Contacts (R151, R152) -/

/-- Entry states that close a contact in STEADY mode. -/
def EntryState.up (s : EntryState) : Bool := s == .active || s == .release || s == .latched

/-- Whether a contact of a mode is closed (R151). -/
def contactCloses (entries : List Entry) (k : Fin 8) : ContactMode → Bool
  | .steady => entries.any fun e => e.contactMask.getLsbD k && e.enabled && e.state.up
  | .unacked => entries.any fun e => e.contactMask.getLsbD k && e.unacked

/-- The states of the contacts recomputed (R151). -/
def recomputeContacts (b : Body) : Body :=
  { b with contacts := .ofFn fun k =>
      { b.contacts[k] with closed := contactCloses b.entries.toList k b.contacts[k].mode } }

/-! ## Evaluation (R139, R146) -/

/-- The failover actions of an onset (R146). -/
def onsetActions (b : Body) (e : Fin 154) : List FailoverAction :=
  match subjectOf e with
  | .programme p 0 => [{ programme := p, lossPort := none }]
  | .port q 0 => (usersOf b q).map fun p => { programme := p, lossPort := some q }
  | _ => []

/-- One entry is evaluated; answers the failover actions it raises. -/
def evaluateEntry (frame : Count) (e : Fin 154) (b : Body) : Body × List FailoverAction :=
  let x := b.entry e
  if x.enabled then
    let holds := condition b e
    (b.setEntry e (x.advance holds frame), if x.hasOnset holds then onsetActions b e else [])
  else (b, [])

def evaluateEntries (frame : Count) : List (Fin 154) → Body → Body × List FailoverAction
  | [], b => (b, [])
  | e :: es, b =>
    let x := evaluateEntry frame e b
    let y := evaluateEntries frame es x.1
    (y.1, x.2 ++ y.2)

/-- The actions are taken at the boundary of the evaluation, in the order of the entries that raised them (R89; log 23). -/
def takeActions (as : List FailoverAction) (b : Body) : Body := as.foldl (fun b a => takeFailover a b) b

/-- The evaluation of a frame boundary, but for the entries evaluated before it, and the actions of all of them (R139,
R146; log 9, log 23). -/
def evaluate (d : Boundary) (b : Body) : Body :=
  let x := evaluateEntries d.frame (entryIds.filter fun e => !d.evaluated.contains e) b
  recomputeContacts (takeActions (d.actions ++ x.2) (clearSeen d.evaluated x.1))

/-- One entry evaluated at an open boundary ahead of the rest: its seen flag is taken, and the actions it raises wait for the
evaluation of the rest, which they cannot influence (R139; log 23). So does the report it owes, but where the entry owed one
before, which this one joins (R153; log 63). -/
def evaluateEarly (e : Fin 154) (d : Boundary) (b : Body) : Body :=
  let owed := (b.entry e).reportOwed
  let x := evaluateEntry d.frame e b
  let c := (clearSeenOf x.1 e).onEntry e fun y => { y with withheld := !owed }
  recomputeContacts (c.onTiming fun t =>
    { t with boundary := some { d with evaluated := e :: d.evaluated, actions := d.actions ++ x.2 } })

/-- An open boundary at which the alarm table has not yet evaluated an entry. -/
def evaluationOpen (b : Body) (e : Fin 154) : Option Boundary :=
  b.timing.boundary.filter fun d => !d.alarmsDone && !d.evaluated.contains e && (b.entry e).enabled

/-- A report that an evaluation ahead of the rest alone owes waits for the evaluation of the rest, so that the reports of one
evaluation enter the queue in entry order (R153; DESIGN CHOICE, log 63). -/
def reportWithheld (b : Body) (e : Fin 154) : Bool :=
  (b.entry e).withheld && b.timing.boundary.any fun d => !d.alarmsDone && d.evaluated.contains e

/-! ## Acknowledgement (R147) -/

def Entry.acknowledge (e : Entry) (frame : Count) : Entry :=
  match e.state with
  | .latched => e.toClear frame
  | .active | .release => { e with unacked := false }
  | .clear | .onset => e

/-- The ACK request (R147). -/
def ackRequest (entry : Option Nat) (b : Body) : Answer × Body :=
  let frame := b.timing.frameCounter
  match entry with
  | none =>
    let entries := b.entries.map fun e => e.acknowledge frame
    (.answer [num2 (b.entries.toList.filter Entry.unacked).length,
      num2 (b.entries.toList.filter fun e => e.state = .latched).length],
      recomputeContacts { b with entries := entries })
  | some n =>
    match idOf 154 n with
    | none => (refuse .badField, b)
    | some e =>
      let x := b.entry e
      let y := x.acknowledge frame
      (.answer [num2 e, enum EntryState.all x.state, enum EntryState.all y.state, .flag x.unacked],
        recomputeContacts (b.setEntry e y))

/-! ## Configuration (R149, R150) -/

/-- The checks of R149 on the fields carried. -/
def alarmFieldsPass (f : AlarmFields) : Bool :=
  f.reserved == 0 && (f.enabled.isSome || f.onsetHold.isSome || f.releaseHold.isSome || f.latching.isSome || f.contactMask.isSome) &&
    f.onsetHold.all (natIn 0 600) && f.releaseHold.all (natIn 0 600) && f.contactMask.all (natIn 0 255)

/-- The configuration written and its effects on the entry (R150). -/
def Entry.configure (e : Entry) (f : AlarmFields) (frame : Count) : Entry :=
  let n : Entry :=
    { e with
      enabled := f.enabled.getD e.enabled, onsetHold := f.onsetHold.getD e.onsetHold
      releaseHold := f.releaseHold.getD e.releaseHold, latching := f.latching.getD e.latching
      contactMask := (f.contactMask.map (BitVec.ofNat 8)).getD e.contactMask }
  if !n.enabled then (if e.state = .clear then n else { n with countdown := 0 }.toClear frame)
  else if e.state = .onset ∧ n.onsetHold ≠ e.onsetHold then { n with countdown := n.onsetHold }
  else if e.state = .release ∧ n.releaseHold ≠ e.releaseHold then { n with countdown := n.releaseHold }
  else n

/-- ALARMCFG takes effect, from the request or from a commit list (R149, R166). -/
def configureEntry (e : Fin 154) (f : AlarmFields) (frame : Count) (b : Body) : Body :=
  recomputeContacts (b.onEntry e fun x => x.configure f frame)

def configFields (e : Entry) : List Field :=
  [.flag e.enabled, num2 e.onsetHold, num2 e.releaseHold, .flag e.latching, num1 e.contactMask.toNat]

/-- The entry an ALARMCFG names, where the request passes (R149). -/
def alarmcfgTarget (entry : Nat) (f : AlarmFields) : Option (Fin 154) := if alarmFieldsPass f then idOf 154 entry else none

def alarmcfgRequest (entry : Nat) (f : AlarmFields) (b : Body) : Answer × Body :=
  match alarmcfgTarget entry f with
  | none => (refuse .badField, b)
  | some e =>
    let b' := configureEntry e f b.timing.frameCounter b
    (.answer ([num2 e] ++ configFields (b.entry e) ++ configFields (b'.entry e) ++
      [enum EntryState.all (b'.entry e).state]), b')

/-- Open or closed, in the order of R155. -/
def contactField (c : Contact) : Field := enum [false, true] c.closed

/-- The CONTACT request (R152). -/
def contactRequest (k : Nat) (mode : ContactMode) (b : Body) : Answer × Body :=
  match idOf 8 k with
  | none => (refuse .badField, b)
  | some k =>
    let b' := recomputeContacts { b with contacts := b.contacts.set k { b.contacts[k] with mode := mode } }
    (.answer [num1 k, enum ContactMode.all (b.contact k).mode, enum ContactMode.all mode, contactField (b'.contact k)], b')

end Sys2Proof.Machine
end

