-- ==== Sys2Proof/Machine/Gain.lean ====
section
/-! DEFINITION. The gain stages and the output assembler (chapter 7): correction gain, ramps, rider, limiter and output
frames (R123 to R135). -/

namespace Sys2Proof.Machine

/-- g is given a value; a ramp begins where it differs from the applied gain (R126). A value that is the applied gain ends
a ramp in progress and begins none (log 50). -/
def GainStage.give (x : GainStage) (g : Int) : GainStage :=
  { x with g := g, ramp := if (g : Rat) = x.applied then none else some { start := x.applied, stop := g } }

/-- The applied gain at a position of a ramp (R126). -/
def Ramp.value (r : Ramp) : Rat := r.start + ((r.stop : Rat) - r.start) * (r.position : Rat) / 4800

/-- One house sample of a ramp (R126). A ramp that has reached 4,800 has ended. -/
def GainStage.advance (x : GainStage) : GainStage :=
  match x.ramp with
  | none => x
  | some r =>
    if 4800 ≤ r.position then { x with ramp := none }
    else
      let r := { r with position := r.position + 1 }
      { x with ramp := some r, applied := r.value }

/-- The gain and ramp that a decision replaced, one house sample on; with the next house sample begun they are given up
(R129; log 44). -/
def GainStage.advanceJudged (x : GainStage) (now : Count) : Option Judged :=
  (x.judged.filter fun j => j.sample = now).map fun j =>
    let y := { x with applied := j.applied, ramp := j.ramp }.advance
    { j with applied := y.applied, ramp := y.ramp }

/-- A ramp that has reached 4,800 becomes absent (R126). -/
def rampEndWork (p : Fin 16) (b : Body) : Body :=
  b.onGain p fun x => { x with ramp := x.ramp.filter fun r => r.position < 4800 }

/-- A gain stage as DEFINE sets it (R123). -/
def definedGain (st : Settings) : GainStage :=
  let g := if st.gainMode = .fixed then st.fixedGain else 0
  { g := g, applied := g, rider := if st.gainMode = .ride then .waiting else .off }

/-- What a commit of another gain mode or fixed gain does (R125). Where the mode becomes RIDE, g is kept and not given anew: a
ramp in progress goes on, and none begins; OFF and FIXED give g, so that a ramp begins anew from the applied gain, also
towards the g that stood (DESIGN CHOICE, log 67). -/
def GainStage.commit (x : GainStage) (old new : Settings) : GainStage :=
  if old.gainMode = new.gainMode then
    if new.gainMode = .fixed ∧ old.fixedGain ≠ new.fixedGain then x.give new.fixedGain else x
  else
    match new.gainMode with
    | .off => { x.give 0 with rider := .off, desired := none, judged := none }
    | .fixed => { x.give new.fixedGain with rider := .off, desired := none, judged := none }
    | .ride => { x with rider := .waiting, desired := none, judged := none }

/-! ## Rider (R127, R128) -/

/-- The tests of R127, with the short-term loudness they pass. -/
def riderMayJudge (running disturbed : Bool) (short : Option Int) (gate : Int) : Option Int :=
  if running && !disturbed then short.filter fun s => gate ≤ s else none

/-- The rider moves, or settles (R128). What it replaces is kept for a PARK or underrun of the same house sample (R129). -/
def GainStage.ride (x : GainStage) (st : Settings) (short : Int) (now : Count) : GainStage :=
  let x := { x with judged := some { sample := now, g := x.g, applied := x.applied, ramp := x.ramp } }
  let want := clampInt (-2000) 1200 (10 * (st.rideTarget - short))
  let away := want - x.g
  if (away.natAbs : Int) ≤ 10 * st.rideTolerance then { x with desired := some want, rider := .settled }
  else
    { x.give (x.g + clampInt (-(st.rideRate : Int)) st.rideRate away) with desired := some want, rider := .moving }

/-- The handover of a meter at a step boundary (R109, R127). -/
def riderDecision (p : Fin 16) (short : Option Int) (disturbed : Bool) (b : Body) : Body :=
  match (b.programme p).active with
  | none => b
  | some st =>
    if st.gainMode = .ride then
      match riderMayJudge ((b.programme p).state == .running) disturbed short st.riderGate with
      | some s => b.onGain p fun x => x.ride st s b.timing.sampleCounter
      | none => b.onGain p fun x => { x with rider := .gated, desired := none }
    else b

/-! ## Limiter and output (R124, R131, R133) -/

/-- The largest magnitude of a frame. -/
def peakOf (samples : List Sample) : Nat := samples.foldl (fun m x => max m x.toInt.natAbs) 0

/-- The gain reduction settled for a frame (R131). -/
def settleReduction (peak : Nat) (a : Rat) (ceiling release gr : Nat) : Nat :=
  if peakPasses peak a ceiling (gr - 10 * release) then gr - 10 * release else smallestReduction peak a ceiling

/-- The limiter and the scaling of a RUNNING programme's frame (R124, R131). -/
def GainStage.limit (x : GainStage) (st : Settings) (samples : List Sample) : GainStage :=
  let gr := settleReduction (peakOf samples) x.applied (ceilingValue st.ceiling) st.limiterRelease x.gr
  { x with gr := gr
           activations := if x.gr = 0 ∧ gr ≠ 0 then bump x.activations else x.activations
           output := samples.map (scaleSample x.applied gr) }

/-- A house sample of a gain stage (R124). -/
def sampleGain (p : Fin 16) (b : Body) : Body :=
  let samples := (b.lane p).output.samples
  match (b.programme p).active with
  | none => b.onGain p fun x => { x with output := [] }
  | some st =>
    b.onGain p fun x =>
      let x := { x.advance with judged := x.advanceJudged b.timing.sampleCounter }
      if (b.programme p).state = .running then x.limit st samples
      else { x with output := samples.map fun _ => 0 }

/-- What a slot carries (R133). -/
def slotOutput (b : Body) (entry : Option (Fin 16 × Nat)) : Sample :=
  match entry with
  | none => 0
  | some (p, i) => if (b.programme p).state = .running then (b.gain p).output.getD i 0 else 0

/-- The output assembler's frame of the house sample (R133). -/
def assemble (b : Body) : Body := { b with formed := b.outputMap.map (slotOutput b) }

/-! ## Output ports (R134) -/

/-- The 32 bits of a slot of a port frame, first in time leftmost: the sample, most significant bit first, then zeros. -/
def slotBits (x : Sample) : List Bool := (List.range 24).map (fun i => x.getLsbD (23 - i)) ++ List.replicate 8 false

/-- The data line of an output port, bit clock by bit clock, through the house sample in progress: the slots of the port
in the frame being sent. -/
def portFrame (b : Body) (q : Fin 8) : List Bool := ((b.sending.drop (8 * q.val)).take 8).flatMap slotBits

/-- The frame sync of an output port at a bit clock of the frame: it marks the first bit clock of slot 0. -/
def frameSync (bitClock : Nat) : Bool := bitClock == 0

/-! ## The output map -/

/-- The output map re-formed from the active sets (R11). -/
def slotEntry (b : Body) (s : Nat) : Option (Fin 16 × Nat) :=
  programmeIds.findSome? fun p =>
    (((b.programme p).active.bind Settings.slots).getD []).findIdx? (· == s) |>.map fun i => (p, i)

def reformMap (b : Body) : Body := { b with outputMap := (List.range 64).map (slotEntry b) }

end Sys2Proof.Machine
end

