-- ==== Sys2Proof/Machine/Meters.lean ====
section
/-! DEFINITION. The loudness meters and the sweep engine (chapter 6): the tap, the step figures, gating, sweeps, integration
control and resets (R102 to R120). -/

namespace Sys2Proof.Machine

/-- The weights of the channels in hundredths; none for the LFE channel (00, Layouts and channel roles). -/
def channelWeights : Layout → List (Option Nat)
  | .mono => [some 100]
  | .stereo => [some 100, some 100]
  | .quad => [some 100, some 100, some 141, some 141]
  | .fiveOne => [some 100, some 100, some 100, none, some 141, some 141]
  | .sevenOne => [some 100, some 100, some 100, none, some 141, some 141, some 141, some 141]

/-! ## The tap (R104, R105) -/

/-- One house sample of the measured channels: filters and squares, channel by channel. -/
def measure : List (Option Nat) → List Sample → List ChannelFilter → List Nat → List ChannelFilter × List Nat
  | w :: ws, x :: xs, f :: fs, a :: as =>
    let rest := measure ws xs fs as
    if w.isSome then
      let y := weight f x
      (y.2 :: rest.1, (a + y.1.natAbs ^ 2) :: rest.2)
    else (f :: rest.1, a :: rest.2)
  | _, _, fs, as => (fs, as)

/-- The meter takes an output frame (R105). -/
def Meter.take (m : Meter) (layout : Layout) (o : LaneOutput) : Meter :=
  let y := measure (channelWeights layout) o.samples m.filters m.squares
  let pair := layout ≠ .mono
  let l := (o.samples.getD 0 0).toInt
  let r := (o.samples.getD 1 0).toInt
  { m with filters := y.1, squares := y.2, samples := m.samples + 1
           sumLL := if pair then m.sumLL + l.natAbs ^ 2 else m.sumLL
           sumRR := if pair then m.sumRR + r.natAbs ^ 2 else m.sumRR
           sumLR := if pair then m.sumLR + l * r else m.sumLR
           disturbed := m.disturbed || o.disturbed || o.outside }

/-- A house sample of a meter; in VACANT it takes nothing (R103). -/
def sampleMeter (p : Fin 16) (b : Body) : Body :=
  match (b.programme p).active with
  | none => b
  | some st => b.onMeter p fun m => m.take st.layout (b.lane p).output

/-- The step accumulators restarted. -/
def Meter.clearSums (m : Meter) : Meter :=
  { m with squares := List.replicate 8 0, sumLL := 0, sumRR := 0, sumLR := 0, samples := 0 }

/-- A commit of another layout (R103). MONO has no correlation (R108, R140). -/
def Meter.layoutChanged (m : Meter) (layout : Layout) : Meter :=
  { m.clearSums with filters := List.replicate 8 {}, correlation := if layout = .mono then none else m.correlation }

/-! ## Step figures (R106 to R108) -/

/-- The weighted sum of the channels' accumulators, in hundredths. -/
def weightedSum : List (Option Nat) → List Nat → Nat
  | w :: ws, a :: as => w.getD 0 * a + weightedSum ws as
  | _, _ => 0

/-- The step energy, a whole count of 2^-1280 (R106). -/
def stepEnergy (layout : Layout) (m : Meter) : Nat :=
  weightedSum (channelWeights layout) m.squares / (100 * m.samples)

/-- The loudness of the mean of the newest n entries of a ring, where it holds so many (R107). -/
def ringLoudness (ring : List RingEntry) (n : Nat) : Option Int :=
  if ring.length < n then none
  else loudness (((ring.drop (ring.length - n)).map RingEntry.energy).sum / n)

/-- A step of an energy enters the ring, and the figures follow (R106, R107, R108). -/
def Meter.closeStep (m : Meter) (layout : Layout) (energy : Nat) : Meter :=
  let kept := if 30 ≤ m.ring.length then m.ring.drop 1 else m.ring
  let ring := kept ++ [{ energy := energy, disturbed := m.disturbed }]
  { m.clearSums with
    ring := ring, disturbed := false
    momentary := ringLoudness ring 4, shortTerm := ringLoudness ring 30
    correlation := if layout = .mono then none else correlationOf m.sumLL m.sumRR m.sumLR }

/-! ## Histogram and sweep engine (R110 to R117) -/

/-- One more block in a bin, up to the limit, at which the state becomes FULL; a block beyond it is let go (R111, R116). The
newest step closed holds on to what a taking back of its block would need (logs 44, 65). -/
def Meter.admitBlock (m : Meter) (k : Nat) : Meter :=
  if Config.admittedLimit ≤ m.admitted then { m with closed := m.closed.map fun c => { c with block := none } }
  else
    let n := m.admitted + 1
    if n = Config.admittedLimit then
      { m with histogram := m.histogram.modify k (· + 1), admitted := n, integState := .full
               closed := m.closed.map fun c => { c with before := m.integState } }
    else { m with histogram := m.histogram.modify k (· + 1), admitted := n }

/-- The pending blocks are admitted in order (R116). -/
def Meter.admitPending (m : Meter) : Meter := { (m.pendingBlocks.foldl Meter.admitBlock m) with pendingBlocks := [] }

/-- A sweep request joins the queue, once (R113). -/
def raiseRequest (p : Fin 16) (b : Body) : Body :=
  if b.sweepQueue.contains p then b else { b with sweepQueue := b.sweepQueue ++ [p] }

/-- The sweep of a programme whose histogram holds a block: its span, and pass 1 at the lowest bin (R114). -/
def newSweep (p : Fin 16) (histogram : List Nat) : Sweep :=
  let lo := (histogram.findIdx? (· != 0)).getD 0
  let hi := 749 - (histogram.reverse.findIdx? (· != 0)).getD 0
  { programme := p, lowest := lo, highest := hi, next := lo }

/-- The engine, idle, takes requests until a sweep is in flight; `fuel` bounds the queue (R114). -/
def startSweeps : Nat → Body → Body
  | 0, b => b
  | n + 1, b =>
    match b.sweep, b.sweepQueue with
    | none, p :: rest =>
      let b := { b with sweepQueue := rest }
      if (b.meter p).admitted = 0 then
        startSweeps n (b.onMeter p fun m => { m with integrated := none }.admitPending)
      else { b with sweep := some (newSweep p (b.meter p).histogram) }
    | _, _ => b

def nextSweep (b : Body) : Body := startSweeps 17 b

/-- The loudness of a pass's mean energy. -/
def passLoudness (w : Sweep) : Option Int := if w.blocks = 0 then none else loudness (w.energy / w.blocks)

/-- The sweep ends: its result, the pending admissions, the next sweep (R115, R116). -/
def endSweep (w : Sweep) (b : Body) : Body :=
  nextSweep ({ b with sweep := none }.onMeter w.programme fun m =>
    { m with integrated := passLoudness w }.admitPending)

/-- The first bin of pass 2: the greater of T + 700 and the lowest of the span (R114). -/
def secondStart (w : Sweep) (t : Option Int) : Nat :=
  match t with
  | some t => max (t + 700).toNat w.lowest
  | none => w.lowest

/-- The visit of a bin ends (R114). -/
def visitBin (w : Sweep) (b : Body) : Body :=
  let n := (b.meter w.programme).histogram.getD w.next 0
  let w := { w with blocks := w.blocks + n, energy := w.energy + n * centreEnergy w.next
                    next := w.next + 1, visited := w.visited - 16 }
  if w.next ≤ w.highest then { b with sweep := some w }
  else if w.secondPass then endSweep w b
  else
    let t := (passLoudness w).map (· - 100)
    { b with sweep := some { w with secondPass := true, threshold := t, next := secondStart w t, blocks := 0, energy := 0 } }

/-- SWEEP_VISIT_END: 16 house samples of a visit have passed (R114). -/
def sweepVisitWork (b : Body) : Body :=
  match b.sweep with
  | some w => if 16 ≤ w.visited then visitBin w b else b
  | none => b

def sweeping (b : Body) (p : Fin 16) : Bool := b.sweep.any fun w => w.programme = p

/-- An admissible block is admitted, waits, or abandons the sweep in flight (R111, R116, R117). -/
def offerBlock (p : Fin 16) (k : Nat) (b : Body) : Body :=
  if !sweeping b p then nextSweep (raiseRequest p (b.onMeter p fun m => m.admitBlock k))
  else if (b.meter p).pendingBlocks.length < 4 then
    raiseRequest p (b.onMeter p fun m => { m with pendingBlocks := m.pendingBlocks ++ [k] })
  else
    let b := { b with sweep := none }.onMeter p fun m =>
      { m.admitPending.admitBlock k with abandoned := bump m.abandoned }
    nextSweep (raiseRequest p b)

/-- The bin of the block of a step boundary, where it is admissible (R110). -/
def Meter.admissible (m : Meter) : Option Nat :=
  let newest := m.ring.drop (m.ring.length - 4)
  if m.integState = .integrating ∧ 4 ≤ m.ring.length ∧ newest.all (fun e => !e.disturbed) then
    match m.momentary with
    | some v => if -700 ≤ v then some (min 749 (v + 700).toNat) else none
    | none => none
  else none

/-! ## Resets (R119, R120) -/

/-- What a reset clears in the meter (R119). -/
def Meter.reset (m : Meter) : Meter :=
  { m with histogram := List.replicate 750 0, admitted := 0, pendingBlocks := [], integrated := none, abandoned := 0
           integState := .idle, resetDue := none }

/-- The programme's sweep and request go; the engine starts the next sweep (R113, R119). -/
def dropSweep (p : Fin 16) (b : Body) : Body :=
  nextSweep { b with sweep := if sweeping b p then none else b.sweep, sweepQueue := b.sweepQueue.filter (· != p) }

/-- The operations of a reset due end with an outcome, and the scene is told of its own (R119, R120, R172). -/
def endResets (p : Fin 16) (due : Option ResetDue) (o : OpOutcome) (b : Body) : Body :=
  match due with
  | none => b
  | some d =>
    let b := d.tags.foldl (fun b t => completeTag t o [] b) b
    if d.scene then b.onMeter p fun m => { m with sceneResetOwed := some o } else b

/-- A reset due is applied (R119). -/
def applyReset (p : Fin 16) (b : Body) : Body :=
  let due := (b.meter p).resetDue
  if due.isNone then b else endResets p due .success (dropSweep p (b.onMeter p Meter.reset))

/-- What a CLEAR does to the meter (R120). -/
def clearMeter (p : Fin 16) (b : Body) : Body :=
  let m := b.meter p
  endResets p m.resetDue .abandoned (dropSweep p (b.setMeter p { sceneResetOwed := m.sceneResetOwed }))

/-! ## The step boundary of a meter (R103, R106 to R110, R119) -/

/-- The first boundary since DEFINE (R103). -/
def Meter.begin (m : Meter) : Meter := { m.clearSums with started := true, disturbed := false }

/-- The energy of the step in progress. With no house sample in it the manual gives no mean: a free value (log 15). -/
def drawStepEnergy (layout : Layout) (m : Meter) (b : Body) : Nat × Body :=
  if m.samples = 0 then (Config.emptyStepEnergy b.freeDraws, { b with freeDraws := b.freeDraws + 1 })
  else (stepEnergy layout m, b)

/-- The step is closed, its figures are computed and handed to the gain stage (R106 to R109). -/
def closeStep (p : Fin 16) (layout : Layout) (b : Body) : Body :=
  let disturbed := (b.meter p).disturbed
  let e := drawStepEnergy layout (b.meter p) b
  let b := e.2.onMeter p fun m => m.closeStep layout e.1
  riderDecision p (b.meter p).shortTerm disturbed b

def meterBoundary (p : Fin 16) (b : Body) : Body :=
  match (b.programme p).active with
  | none => b
  | some st =>
    if (b.meter p).started then
      let b := applyReset p (closeStep p st.layout b)
      let block := (b.meter p).admissible
      let b := b.onMeter p fun m => { m with closed := some { sample := b.timing.sampleCounter, block := block } }
      match block with
      | some k => offerBlock p k b
      | none => b
    else applyReset p (b.onMeter p Meter.begin)

/-- STEP_BOUNDARY: the meters that have not taken their work of this boundary take it, in increasing order. -/
def stepBoundaryWork (b : Body) : Body :=
  match b.timing.stepDue with
  | none => b
  | some done =>
    (b.eachProgramme fun p b => if done.contains p then b else meterBoundary p b).onTiming fun t =>
      { t with stepDue := none }

/-- INTEGRATION_RESET_APPLY: the step boundary work of one meter whose reset is due. -/
def resetApplyWork (p : Fin 16) (b : Body) : Body :=
  match b.timing.stepDue with
  | none => b
  | some done =>
    if (b.meter p).resetDue.isSome ∧ p ∉ done then
      (meterBoundary p b).onTiming fun t => { t with stepDue := some (p :: done) }
    else b

/-! ## Integration control (R118, R119) -/

/-- START and PAUSE (table of R118). -/
def integrationNext : IntegState → IntegrateAction → IntegState
  | .full, _ => .full
  | _, .start => .integrating
  | .integrating, .pause => .paused
  | s, _ => s

end Sys2Proof.Machine
end

