-- ==== Sys2Proof/Machine/Programmes.lean ====
section
/-! DEFINITION. The programme table (chapter 1): commits and what they set in motion, the writing of settings by requests and
records, and the state requests (R5 to R24, R74, R92, R118, R119, R121). -/

namespace Sys2Proof.Machine

/-! ## Commits (R6, R12, R74) -/

/-- The origin of a delay write is told that it ended SUCCESS at the commit (R8, R172). -/
def endDelayWrite (p : Fin 16) (target : Nat) (origin : Option DelayOrigin) (b : Body) : Body :=
  match origin with
  | some (.operation tag) => completeTag tag .success [] b
  | some .scene =>
    b.onLane p fun l => { l with sceneDelayOwed := some { programme := p, target := target, outcome := .success } }
  | none => b

/-- A delay change begins (R74, R75, R76). A change whose fade tail has run out is in flight until FADE_TAIL_END or another
taker of the tail's end completes it (log 60). -/
def beginChange (p : Fin 16) (new : Settings) (origin : Option DelayOrigin) (frame : Count) (b : Body) : Body :=
  let b := endChange p .superseded b
  let c : DelayChange :=
    { target := new.delayTarget, mode := new.delayMode, origin := origin, boundary := frame
      phase := if new.delayMode = .slew then .slewing else .due }
  if new.delayMode = .slew then
    refreshSetpoint p (b.onLane p fun l => { l with change := some c, target := new.delayTarget })
  else b.onLane p fun l => { l with change := some c }

/-- What a commit does with the delay target (R8, R71, R74). -/
def commitDelay (p : Fin 16) (old new : Settings) (origin : Option DelayOrigin) (frame : Count) (b : Body) : Body :=
  if old.delayTarget = new.delayTarget then endDelayWrite p new.delayTarget origin b
  else if (b.programme p).state = .running then beginChange p new origin frame b
  else
    endDelayWrite p new.delayTarget origin
      (refreshSetpoint p (b.onLane p fun l => { l with target := new.delayTarget }))

/-- A pending set becomes the active set, with the effects of R12. `frame` is the count of the boundary of the commit. The
manual does not order the delay change and the switch of one commit: the change comes first, so a change in flight ends
SUPERSEDED before a forced jump (R95) could complete it (DESIGN CHOICE, log 72). -/
def commitSet (p : Fin 16) (frame : Count) (b : Body) : Body :=
  let r := b.programme p
  match r.pending, r.active with
  | some w, some old =>
    let new := w.settings
    let b := b.onProgramme p fun r => { r with active := some new, pending := none }
    let b := b.onGain p fun x => x.commit old new
    let b := if old.layout = new.layout then b else b.onMeter p fun m => m.layoutChanged new.layout
    let b := if old.slots = new.slots then b else reformMap b
    reconcile p (commitDelay p old new w.delay frame b)
  | _, _ => b

def ownedBy (b : Body) (o : Owner) (p : Fin 16) : Bool := (b.programme p).pending.any fun w => w.owner = o

/-- R6. -/
def commitDirect (p : Fin 16) (frame : Count) (b : Body) : Body := if ownedBy b .direct p then commitSet p frame b else b

/-! ## Writing settings (R5, R7, R8, R9) -/

/-- A write that has passed its checks: the pending set is written; a DELAY operation whose target and mode it replaces
completes SUPERSEDED (R8, R163). -/
def writeSettings (p : Fin 16) (owner : Owner) (delay : Option DelayOrigin) (is : List SettingItem) (b : Body) : Body :=
  let b :=
    match delay, (b.programme p).pending.bind Pending.delay with
    | some _, some (.operation tag) => completeTag tag .superseded [] b
    | _, _ => b
  b.onProgramme p fun r => r.writePending owner delay is

/-- The slot list of the active set, where a layout write sets the list of the set it joins to none (R4). -/
def slotsDropped (r : Programme) (is : List SettingItem) : Bool :=
  is.any (fun i => itemCode i == 0) &&
    r.effectiveNext.any fun st => st.slots.isSome && (st.writeAll is).slots.isNone

/-- Value before, from the active set, and value in force at the commit, of each setting written (R5). A SET of both limits
of the loud window, which R5 gives no layout, sends code, before and after of each in turn (log 21). -/
def beforeAfter (withCode : Bool) (r : Programme) (is : List SettingItem) : List Field :=
  match r.active, r.effectiveNext with
  | some a, some n =>
    let shown := is ++ if slotsDropped r is then [.outputSlots []] else []
    shown.flatMap fun i =>
      (if withCode then [num1 (itemCode i)] else []) ++ itemValue (a.item i) ++ itemValue ((n.writeAll is).item i)
  | _, _ => []

/-- SET of one programme (R5). -/
def setOne (p : Nat) (is : List SettingItem) (b : Body) : Answer × Body :=
  match idOf 16 p with
  | none => (refuse .badField, b)
  | some p =>
    match writeRefusal b p false (setNames is) is with
    | some r => (refuse r, b)
    | none => (.answer (beforeAfter true (b.programme p) is), writeSettings p .direct none is b)

/-- The members of a group are written one after another; the entry of each in the answer's list (R9, section 11.1). -/
def setMembers (is : List SettingItem) : List (Fin 16) → Body → List (List Field) × Body
  | [], b => ([], b)
  | p :: ps, b =>
    match writeRefusal b p false (setNames is) is with
    | some r =>
      let rest := setMembers is ps b
      ([num1 p, num1 r.code] :: rest.1, rest.2)
    | none =>
      let entry := [num1 p, num1 0] ++ beforeAfter false (b.programme p) is
      let rest := setMembers is ps (writeSettings p .direct none is b)
      (entry :: rest.1, rest.2)

/-- The SET request (R5, R9). -/
def setRequest (t : Target) (is : List SettingItem) (b : Body) : Answer × Body :=
  if !setForm is then (refuse .badField, b)
  else match t with
    | .programme p => setOne p is b
    | .group g =>
      if 3 < g ∨ !groupNames is then (refuse .badField, b)
      else
        let x := setMembers is (groupMembers b g) b
        (.answer (listField x.1), x.2)

/-- The DELAY request (R8, R9, R180). -/
def delayRequest (tag : Byte) (t : Target) (target : Nat) (mode : DelayMode) (b : Body) : Answer × Body :=
  let is := [SettingItem.delayTarget target, .delayMode mode]
  match t with
  | .group _ => (refuse .badField, b)
  | .programme p =>
    match idOf 16 p with
    | none => (refuse .badField, b)
    | some p =>
      match writeRefusal b p false true is with
      | some r => (refuse r, b)
      | none =>
        if !deferredFree tag b then (refuse .busy, b)
        else (.accepted, writeSettings p .direct (some (.operation tag)) is (beginDeferred tag .delay p b))

/-! ## DEFINE (R15) -/

def definedLayout (is : List SettingItem) : Option Layout :=
  (is.reverse.findSome? fun i => match i with
    | .layout v => some v
    | _ => none)

def definedMain (is : List SettingItem) : Option (Nat × Nat) :=
  (is.reverse.findSome? fun i => match i with
    | .mainSource port slot => some (port, slot)
    | _ => none)

/-- Whether an item keeps the relations of R3 in the set it stands in. -/
def itemAgrees (st : Settings) : SettingItem → Bool
  | .mainSource _ _ => sourceFitsLayout st.layout st.main
  | .backupSource _ => st.backup.all (sourceFitsLayout st.layout)
  | .outputSlots _ => st.slots.all (slotsFitLayout st.layout)
  | .loudHigh _ | .loudLow _ => decide (st.loudLow < st.loudHigh)
  | _ => true

/-- The set a DEFINE makes, or the reason of its first failing setting, in the order carried (R15; log 36). The manual does
not rank a missing layout or main source among the settings carried: it is judged before them (log 48). -/
def definedSet (b : Body) (p : Fin 16) (is : List SettingItem) : Except Reason Settings :=
  match definedLayout is, (definedMain is) with
  | some layout, some m =>
    let main := (sourceOf m).getD { port := 0, slot := 0 }
    let st := ({ layout := layout, main := main } : Settings).writeAll (is.filter fun i => itemCode i != 0)
    let failing := is.findSome? fun i =>
      if !(itemInRange i && itemAgrees st i) then some Reason.badField
      else if itemClaimed b p i then some .slotClaimed
      else none
    match failing with
    | some r => .error r
    | none => .ok st
  | _, _ => .error .badField

/-- DEFINE accepted (R15, R62, R86, R123). -/
def defineProgramme (p : Fin 16) (st : Settings) (b : Body) : Body :=
  let b := b.onProgramme p fun r =>
    { r with active := some st, pending := none, selector := .main, guard := 0, revertCount := 0, requested := none
             line := none, stateOwed := none, memoryErrors := 0, slips := 0, writeDrops := 0, overloads := 0
             state := .defined }
  let b := b.onLane p fun l =>
    { l with target := 0, setpoint := none, delayLimited := false, overloadSeen := false, slipSeen := false
             stickySlip := false }
  let b := b.setGain p (definedGain st)
  if st.slots.isSome then reformMap b else b

def defineRequest (p : Nat) (is : List SettingItem) (b : Body) : Answer × Body :=
  match idOf 16 p with
  | none => (refuse .badField, b)
  | some p =>
    if (b.programme p).state ≠ .vacant then (refuse .wrongState, b)
    else match definedSet b p is with
      | .error r => (refuse r, b)
      | .ok st => (.answer [num1 p, enum ProgState.all .defined], defineProgramme p st b)

/-! ## The state requests (R16, R18, R22, R23, R24) -/

/-- A request on a programme that must be in one of some states. -/
def inStates (p : Nat) (ok : ProgState → Bool) (b : Body) (f : Fin 16 → Answer × Body) : Answer × Body :=
  match idOf 16 p with
  | none => (refuse .badField, b)
  | some p => if ok (b.programme p).state then f p else (refuse .wrongState, b)

/-- A pending layout differs from the active one (R4, R16). -/
def layoutPending (r : Programme) : Bool :=
  match r.pending, r.active with
  | some w, some st => decide (w.settings.layout ≠ st.layout)
  | _, _ => false

/-- The search and its outcome (R16, R48). -/
def allocate (tag : Byte) (p : Fin 16) (n : Nat) (b : Body) : Body :=
  match findRun b n with
  | some (k, first) => placeLine p k first n b
  | none => completeTag tag .noSpace [] b

def allocateRequest (tag : Byte) (p n : Nat) (b : Body) : Answer × Body :=
  if !natIn 1 512 n then (refuse .badField, b)
  else inStates p (· == .defined) b fun p =>
    if layoutPending (b.programme p) then (refuse .wrongState, b)
    else if !deferredFree tag b then (refuse .busy, b)
    else (.accepted, allocate tag p n (beginDeferred tag .allocate p b))

/-- START (R18, R73, R86). -/
def startProgramme (p : Fin 16) (b : Body) : Body :=
  match (b.programme p).active with
  | none => b
  | some st =>
    let b := b.onProgramme p fun r =>
      { r with selector := .main, guard := 0, revertCount := st.revertHold, requested := none, state := .priming }
    let b := b.onLane p fun l =>
      { l with source := some st.main, readSeq := l.writeSeq, historyStart := l.writeSeq }
    refreshSetpoint p (clearOverloadRuns p b)

def startRequest (p : Nat) (b : Body) : Answer × Body :=
  inStates p (· == .parked) b fun p => (.answer [enum ProgState.all .priming], startProgramme p b)

/-- A delay change in flight ends ABANDONED, in flight also where its fade tail has run out and its end is not yet taken (log
60); a DUE cut leaves the lane target at the new one (R79). -/
def abandonChange (p : Fin 16) (b : Body) : Body :=
  endChange p .abandoned (b.onLane p fun l =>
    { l with target := match l.change with
                       | some c => c.target
                       | none => l.target })

/-- PARK (R22, R85, R124, R129). Overload seen and slip seen stay as they are until the next boundary clears them (DESIGN
CHOICE, log 66). -/
def parkProgramme (p : Fin 16) (b : Body) : Body :=
  let b := discardHeld p (closeRead p (abandonChange p b))
  let b := b.onLane p fun l =>
    { l with readSeq := l.writeSeq, historyStart := l.writeSeq, fadeIn := 0, tail := none, window := [], marks := []
             ratio := none, increment := Config.unityRatio, setpoint := none, delayLimited := false
             overloadRun := List.replicate 8 0 }
  let b := (leaveRunning p b).onMeter p fun m => { m with disturbed := true }
  b.onProgramme p fun r => { r with state := .parked, requested := none }

def parkRequest (p : Nat) (b : Body) : Answer × Body :=
  inStates p carrying b fun p => (.answer [enum ProgState.all .parked], parkProgramme p b)

/-- RELEASE (R23). -/
def releaseProgramme (p : Fin 16) (b : Body) : Body :=
  let b := if (b.programme p).state = .filling then completeSubject .allocate p .abandoned [] b else b
  (releaseLine p b).onProgramme p fun r => { r with state := .defined }

def releaseRequest (p : Nat) (b : Body) : Answer × Body :=
  inStates p (fun s => s == .filling || s == .parked) b fun p =>
    (.answer [enum ProgState.all .defined], releaseProgramme p b)

/-- CLEAR (R24, R62, R86, R120, R123; log 29). -/
def clearProgramme (p : Fin 16) (b : Body) : Body :=
  let b := abandonChange p b
  let b := completeSubject .delay p .abandoned [] (completeSubject .allocate p .abandoned [] b)
  let b := releaseLine p b
  let b := b.onLane p fun l => { sceneDelayOwed := l.sceneDelayOwed }
  let b := clearMeter p (b.setGain p {})
  reformMap (b.onProgramme p fun r => { memorySeen := r.memorySeen, runningMark := r.runningMark })

def clearRequest (p : Nat) (b : Body) : Answer × Body :=
  inStates p (· != .vacant) b fun p =>
    if ownedBy b .scene p then (refuse .sceneBusy, b)
    else (.answer [enum ProgState.all .vacant], clearProgramme p b)

/-! ## SELECT, INTEGRATE, HISTO (R92, R118, R119, R121) -/

def selectRequest (p : Nat) (side : Selector) (b : Body) : Answer × Body :=
  inStates p carrying b fun p =>
    if ((b.programme p).active.bind fun st => selectedSource st side).isNone then (refuse .badField, b)
    else
      (.answer [num1 p, enum Selector.all (b.programme p).selector, enum Selector.all side],
        b.onProgramme p fun r => { r with requested := some side })

/-- START and PAUSE act at once (R118). -/
def integrateNow (p : Fin 16) (a : IntegrateAction) (b : Body) : Body :=
  b.onMeter p fun m => { m with integState := integrationNext m.integState a }

def integrateRequest (p : Nat) (a : IntegrateAction) (b : Body) : Answer × Body :=
  inStates p (· != .vacant) b fun p =>
    let b' := integrateNow p a b
    (.answer [num1 p, enum IntegState.all (b.meter p).integState, enum IntegState.all (b'.meter p).integState], b')

/-- RESET waits for the next step boundary (R119). -/
def resetRequest (tag : Byte) (p : Nat) (b : Body) : Answer × Body :=
  inStates p (· != .vacant) b fun p =>
    if !deferredFree tag b then (refuse .busy, b)
    else
      (.accepted, (beginDeferred tag .integrateReset p b).onMeter p fun m =>
        { m with resetDue := some { tags := ((m.resetDue.map ResetDue.tags).getD []) ++ [tag]
                                    scene := (m.resetDue.map ResetDue.scene).getD false } })

def histoRequest (p first n : Nat) (b : Body) : Answer × Body :=
  if !(natIn 0 749 first && natIn 1 50 n && decide (first + n ≤ 750)) then (refuse .badField, b)
  else inStates p (· != .vacant) b fun p =>
    let m := b.meter p
    (.answer ([num1 p, enum IntegState.all m.integState, num4 m.admitted, num2 m.pendingBlocks.length, num2 first] ++
      (((m.histogram.drop first).take n).map num4)), b)

end Sys2Proof.Machine
end

