-- ==== Sys2Proof/Machine/Scenes.lean ====
section
/-! DEFINITION. Scenes and takes (chapter 9): the scene store, the take queue, the application of records, commits, halts and
the end of a take (R156 to R171). -/

namespace Sys2Proof.Machine

/-! ## The scene store (R156 to R159) -/

/-- Free slots of the pool: 1,024 less the records held (R156). -/
def freeSlots (b : Body) : Nat := Config.sceneSlots - (b.scenes.toList.map fun l => l.records.length).sum

def targetExists : Target → Bool
  | .programme p => natIn 0 15 p
  | .group g => natIn 0 3 g

/-- The numbers an item names something by (R158). -/
def itemNamesExist : SettingItem → Bool
  | .mainSource port slot => natIn 0 7 port && natIn 0 63 slot
  | .backupSource v => v.all fun s => natIn 0 7 s.1 && natIn 0 63 s.2
  | .outputSlots l => l.all (natIn 0 63)
  | .linkGroup v => v.all (natIn 0 3)
  | _ => true

/-- The form of a record (R158). -/
def recordForm : SceneRecord → Bool
  | .set t is => targetExists t && setForm is && is.all itemNamesExist
  | .delay t _ _ => targetExists t
  | .slots p l => natIn 0 15 p && l.all (natIn 0 63)
  | .source p side s =>
    natIn 0 15 p && (s.isSome || side = .backup) && s.all fun s => natIn 0 7 s.1 && natIn 0 63 s.2
  | .alarmcfg e _ => natIn 0 153 e
  | .integrate p _ => natIn 0 15 p
  | .wait n => natIn 0 250 n
  | .chain n => natIn 0 31 n

/-- States in which a take is running (R162, R169). -/
def SeqState.runs (s : SeqState) : Bool := s == .applying || s == .committing || s == .waiting || s == .halted

/-- Whether a scene is busy (R158). -/
def sceneBusy (b : Body) (n : Fin 32) : Bool :=
  b.sequencer.takes.any (fun t => t.scene = n) || (b.sequencer.state.runs && b.sequencer.current == some n)

/-- SCENE APPEND (R158). The detail of a refusal for form is the index of the record, FFh where the scene or a flag is to blame,
whatever the records (log 21). -/
def sceneAppendRequest (scene : Nat) (flags : Byte) (records : List (Option SceneRecord)) (b : Body) : Answer × Body :=
  let bad (i : Option Nat) : Answer × Body := (.refused .badField [.n1 i], b)
  match idOf 32 scene with
  | none => bad none
  | some n =>
    if 8 ≤ flags.toNat then bad none
    else match records.findIdx? fun r => !(r.any recordForm) with
      | some i => bad (some i)
      | none =>
        let new := records.filterMap id
        let fresh := flags.getLsbD 0
        let old := b.scene n
        let kept := if fresh then [] else old.records
        let free := freeSlots b + (if fresh then old.records.length else 0)
        if sceneBusy b n then (refuse .sceneBusy, b)
        else if Config.sceneListLimit < kept.length + new.length ∨ free < new.length then (refuse .noSpace, b)
        else
          let stop := if flags.getLsbD 1 then flags.getLsbD 2 else if fresh then false else old.stopOnRefusal
          let b' := b.setScene n { records := kept ++ new, stopOnRefusal := stop }
          (.answer [num1 n, num2 (kept ++ new).length, num2 (freeSlots b')], b')

/-- SCENE READ (R159). -/
def sceneReadRequest (scene first count : Nat) (b : Body) : Answer × Body :=
  match idOf 32 scene with
  | none => (refuse .badField, b)
  | some n =>
    if !(natIn 0 127 first && natIn 1 8 count) then (refuse .badField, b)
    else
      let l := b.scene n
      let shown := ((l.records.drop first).take count).mapIdx fun i r => num1 (first + i) :: recordMessage r
      (.answer ([num2 l.records.length, .flag l.stopOnRefusal, .flag (sceneBusy b n), num2 (freeSlots b)] ++
        listField shown), b)

/-! ## The take queue (R160 to R162) -/

/-- An owed SCENE report of the sequencer: a later occurrence of an event replaces the earlier one (R171; log 22). -/
def SceneReport.sameEvent : SceneReport → SceneReport → Bool
  | .started .., .started .. => true
  | .committed .., .committed .. => true
  | .halted .., .halted .. => true
  | _, _ => false

def oweScene (r : SceneReport) (q : Sequencer) : Sequencer :=
  if q.owed.any r.sameEvent then { q with owed := q.owed.map fun o => if r.sameEvent o then r else o }
  else { q with owed := q.owed ++ [r] }

/-- An AT_FRAME count already passed at the latest frame boundary (R161). -/
def framePassed (c : Count) : Trigger → Bool
  | .atFrame n => decide ((c - n).toNat < 2147483648)
  | _ => false

/-- IDLE with a take waiting: the head becomes ARMED (R161). `c` is the count of the latest frame boundary. -/
def armNext (c : Count) (q : Sequencer) : Sequencer :=
  match q.state, q.takes with
  | .idle, t :: _ => { q with state := .armed, late := framePassed c t.trigger }
  | _, _ => q

/-- The trigger of the head is met (R161). -/
def startTake (frame : Count) (q : Sequencer) : Sequencer :=
  match q.takes with
  | [] => q
  | t :: _ =>
    oweScene (.started t.tag t.scene q.late frame)
      { q with state := .applying, current := some t.scene, next := 0, chain := 0, applied := 0, refused := 0
               commits := 0, commitList := [], commitPoint := none }

/-- Whether the trigger of the ARMED head is met at the frame boundary carrying a count (R160, R161). A late take waits for
the next boundary: one armed at the very boundary whose count it names, once other blocks have taken that boundary, is
late and does not start there (log 52). A NEXT_BOUNDARY take armed there, and a late one that names an earlier count, starts at
that same boundary, while the sequencer has yet to take it (DESIGN CHOICE, logs 68 and 75). -/
def triggerMetAt (q : Sequencer) (frame : Count) : Bool :=
  match q.takes with
  | { trigger := .nextBoundary, .. } :: _ => true
  | { trigger := .atFrame n, .. } :: _ => q.late != (n == frame)
  | _ => false

/-- Whether an edge meets the trigger of the ARMED head (R161). -/
def edgeMeets (q : Sequencer) (k : Fin 4) (dir : EdgeDir) : Bool :=
  q.state == .armed && (q.takes.head?.any fun t => t.trigger = .gpi k dir)

/-- GPI_EDGE: the level taken at a house sample differs from the one before (R161). -/
def gpiEdgeWork (k : Fin 4) (dir : EdgeDir) (b : Body) : Body :=
  let high := dir = .rising
  if b.sequencer.gpi[k] = decide high then b
  else
    b.onSequencer fun q =>
      let q := { q with gpi := q.gpi.set k (decide high) }
      if edgeMeets q k dir then startTake b.timing.frameCounter q else q

def triggerExists : Trigger → Bool
  | .gpi k _ => natIn 0 3 k
  | _ => true

/-- TAKE (R160, R180). -/
def takeRequest (tag : Byte) (scene : Nat) (trigger : Trigger) (b : Body) : Answer × Body :=
  match idOf 32 scene with
  | none => (refuse .badField, b)
  | some n =>
    if !triggerExists trigger then (refuse .badField, b)
    else if 4 ≤ b.sequencer.takes.length then (refuse .queueFull, b)
    else if !deferredFree tag b then (refuse .busy, b)
    else
      (.accepted, (beginDeferred tag .take n b).onSequencer fun q =>
        armNext b.timing.frameCounter { q with takes := q.takes ++ [{ scene := n, trigger := trigger, tag := tag }] })

/-- CANCEL (R162). The place in the queue is sent in 1 byte and counts from 0 (log 21). -/
def cancelRequest (takeTag : Byte) (b : Body) : Answer × Body :=
  let q := b.sequencer
  match q.takes.findIdx? fun t => t.tag = takeTag, q.takes.find? fun t => t.tag = takeTag with
  | some i, some t =>
    if i = 0 ∧ q.state.runs then (refuse .wrongState, b)
    else
      let b := b.onSequencer fun q =>
        let q := { q with takes := q.takes.eraseIdx i }
        if i = 0 then armNext b.timing.frameCounter { q with state := .idle, late := false } else q
      (.answer [num1 t.scene, num1 i], completeTag takeTag .cancelled [] b)
  | _, _ => (refuse .notFound, b)

/-! ## The end of a take (R169, R170) -/

/-- The take ends: out of the queue, its completion owed, the next one armed (R170). The chain count and the take's counts
keep their values until the next take starts (log 56). -/
def endTake (o : OpOutcome) (frame : Count) (b : Body) : Body :=
  let q := b.sequencer
  let data := [num2 q.applied, num2 q.refused, num2 q.commits]
  let b := match q.takes with
    | t :: _ => completeTag t.tag o data b
    | [] => b
  b.onSequencer fun q =>
    armNext frame { q with takes := q.takes.drop 1, state := .idle, late := false, current := none, next := 0
                           commitList := [], commitPoint := none, waitCount := 0, halt := none }

/-- A pending set owned by SCENE is discarded; its DELAY operation completes ABANDONED (R169, R8). -/
def discardScene (p : Fin 16) (b : Body) : Body :=
  if ownedBy b .scene p then
    let b := match (b.programme p).pending.bind Pending.delay with
      | some (.operation tag) => completeTag tag .abandoned [] b
      | _ => b
    b.onProgramme p fun r => { r with pending := none }
  else b

def abandonTake (frame : Count) (b : Body) : Body := endTake .abandoned frame (b.eachProgramme discardScene)

/-- ABANDON (R169). -/
def abandonRequest (b : Body) : Answer × Body :=
  let q := b.sequencer
  if q.state.runs then
    (.answer [num2 q.commits, num2 q.applied, num2 q.refused], abandonTake b.timing.frameCounter b)
  else (refuse .wrongState, b)

/-- RESUME (R168). -/
def resumeRequest (b : Body) : Answer × Body :=
  match b.sequencer.state, b.sequencer.halt with
  | .halted, some h =>
    (.answer [num1 h.scene, num1 h.index, .code (some h.reason.code)],
      b.onSequencer fun q => { q with state := .applying, current := some h.scene, next := h.index + 1, halt := none })
  | _, _ => (refuse .wrongState, b)

/-! ## Applying records (R163 to R165) -/

/-- A record that passed counts as applied, and the next follows (R163, R164). -/
def countApplied (b : Body) : Body := b.onSequencer fun q => { q with applied := q.applied + 1, next := q.next + 1 }

/-- A record is refused (R165). Where the sequencer halts, the next record stays the refused one until RESUME (log 55). -/
def refuseRecord (reason : Reason) (b : Body) : Body :=
  let q := { b.sequencer with refused := b.sequencer.refused + 1 }
  match q.current, q.takes with
  | some n, t :: _ =>
    if (b.scene n).stopOnRefusal then
      let h : Halt := { scene := n, index := q.next, reason := reason, countdown := 250 }
      let q' := { q with state := .halted, halt := some h }
      { b with sequencer := oweScene (.halted t.tag n q.next reason q.refused) q' }
    else { b with sequencer := { q with next := q.next + 1 } }
  | _, _ => { b with sequencer := { q with next := q.next + 1 } }

/-- One programme's write by a scene: its refusal, or the write (R163, R7). -/
def sceneWrite (p : Fin 16) (delay : Option DelayOrigin) (named : Bool) (is : List SettingItem) (b : Body) :
    Option Reason × Body :=
  match writeRefusal b p true named is with
  | some r => (some r, b)
  | none => (none, writeSettings p .scene delay is b)

/-- Member by member; the first refusal is the record's (R163). -/
def sceneWriteAll (delay : Option DelayOrigin) (named : Bool) (is : List SettingItem) :
    List (Fin 16) → Body → Option Reason × Body
  | [], b => (none, b)
  | p :: ps, b =>
    let x := sceneWrite p delay named is b
    let rest := sceneWriteAll delay named is ps x.2
    (x.1.or rest.1, rest.2)

def countRecord (x : Option Reason × Body) : Body :=
  match x with
  | (none, b) => countApplied b
  | (some r, b) => refuseRecord r b

/-- A write to a target: a programme, or the members of a group (R163). -/
def sceneTarget (t : Target) (delay : Option DelayOrigin) (named : Bool) (is : List SettingItem) (b : Body) : Body :=
  match t with
  | .programme p =>
    match idOf 16 p with
    | none => refuseRecord .badField b
    | some p => countRecord (sceneWrite p delay named is b)
  | .group g =>
    if groupNames is then countRecord (sceneWriteAll delay named is (groupMembers b g) b)
    else refuseRecord .badField b

/-- The record the sequencer applies next, in APPLYING; `some none` at the end of the current list. -/
def nextRecord (b : Body) : Option (Option SceneRecord) :=
  match b.sequencer.state, b.sequencer.current with
  | .applying, some n => some ((b.scene n).records[b.sequencer.next]?)
  | _, _ => none

def setRecordWork (b : Body) : Body :=
  match nextRecord b with
  | some (some (.set t is)) => sceneTarget t none (setForm is && setNames is) is b
  | _ => b

def delayRecordWork (b : Body) : Body :=
  match nextRecord b with
  | some (some (.delay t n m)) => sceneTarget t (some .scene) true [.delayTarget n, .delayMode m] b
  | _ => b

def slotsRecordWork (b : Body) : Body :=
  match nextRecord b with
  | some (some (.slots p l)) => sceneTarget (.programme p) none true [.outputSlots l] b
  | _ => b

/-- The item a SOURCE record writes (R157). -/
def sourceItem (side : Selector) (s : Option (Nat × Nat)) : SettingItem :=
  match side, s with
  | .main, some s => .mainSource s.1 s.2
  | .main, none => .mainSource 255 0
  | .backup, s => .backupSource s

def sourceRecordWork (b : Body) : Body :=
  match nextRecord b with
  | some (some (.source p side s)) => sceneTarget (.programme p) none true [sourceItem side s] b
  | _ => b

/-- A record that passed its checks joins the commit list, where there is room (R164). -/
def joinCommitList (i : CommitItem) (b : Body) : Body :=
  if 32 ≤ b.sequencer.commitList.length then refuseRecord .commitFull b
  else countApplied (b.onSequencer fun q => { q with commitList := q.commitList ++ [i] })

def alarmcfgRecordWork (b : Body) : Body :=
  match nextRecord b with
  | some (some (.alarmcfg e f)) =>
    match alarmcfgTarget e f with
    | some e => joinCommitList (.alarmcfg e f) b
    | none => refuseRecord .badField b
  | _ => b

def integrateRecordWork (b : Body) : Body :=
  match nextRecord b with
  | some (some (.integrate p a)) =>
    match idOf 16 p with
    | none => refuseRecord .badField b
    | some p =>
      if (b.programme p).state = .vacant then refuseRecord .wrongState b else joinCommitList (.integrate p a) b
  | _ => b

/-- A WAIT is a commit point (R164). -/
def waitRecordWork (b : Body) : Body :=
  match nextRecord b with
  | some (some (.wait n)) =>
    (countApplied b).onSequencer fun q => { q with state := .committing, commitPoint := some n }
  | _ => b

/-- CHAIN (R164). -/
def chainRecordWork (b : Body) : Body :=
  match nextRecord b with
  | some (some (.chain n)) =>
    match idOf 32 n with
    | none => refuseRecord .badField b
    | some n =>
      if 8 ≤ b.sequencer.chain then refuseRecord .chainLimit b
      else b.onSequencer fun q =>
        { q with chain := q.chain + 1, applied := q.applied + 1, current := some n, next := 0 }
  | _ => b

/-- The end of the current list is a commit point (R164). -/
def listEndWork (b : Body) : Body :=
  match nextRecord b with
  | some none => b.onSequencer fun q => { q with state := .committing, commitPoint := none }
  | _ => b

/-! ## Commits, waits and halts at a frame boundary (R166, R167, R165) -/

/-- One record of the commit list (step 2 of R166). Answers whether it was let go. -/
def applyCommitItem (frame : Count) (i : CommitItem) (b : Body) : Bool × Body :=
  match i with
  | .alarmcfg e f => (false, configureEntry e f frame b)
  | .integrate p a =>
    if (b.programme p).state = .vacant then (true, b.onSequencer fun q => { q with refused := q.refused + 1 })
    else match a with
      | .reset =>
        (false, b.onMeter p fun m =>
          { m with resetDue := some { tags := (m.resetDue.map ResetDue.tags).getD [], scene := true } })
      | a => (false, integrateNow p a b)

/-- The commit list in its order; answers how many were let go. -/
def applyCommitList (frame : Count) : List CommitItem → Body → Nat × Body
  | [], b => (0, b)
  | i :: is, b =>
    let x := applyCommitItem frame i b
    let rest := applyCommitList frame is x.2
    (x.1.toNat + rest.1, rest.2)

/-- The sequencer goes on after a commit (step 4 of R166). -/
def afterCommit (frame : Count) (b : Body) : Body :=
  match b.sequencer.commitPoint with
  | none => endTake .done frame b
  | some 0 => b.onSequencer fun q => { q with state := .applying, commitPoint := none }
  | some n => b.onSequencer fun q => { q with state := .waiting, waitCount := n, commitPoint := none }

/-- The commit of a segment (R166). -/
def commitSegment (frame : Count) (b : Body) : Body :=
  let programmes := programmeIds.filter (ownedBy b .scene)
  let items := b.sequencer.commitList
  let b := programmes.foldl (fun b p => commitSet p frame b) b
  let x := applyCommitList frame items b
  let b := x.2.onSequencer fun q =>
    let q := { q with commits := q.commits + 1, commitList := [] }
    match q.takes with
    | t :: _ => oweScene (.committed t.tag q.commits frame programmes (items.length - x.1) x.1) q
    | [] => q
  afterCommit frame b

/-- The sequencer's part of a frame boundary, by its state (R161, R165 to R167, R169). -/
def sequencerStep (frame : Count) (b : Body) : Body :=
  let q := b.sequencer
  match q.state with
  | .armed => if triggerMetAt q frame then { b with sequencer := startTake frame q } else b
  | .committing => commitSegment frame b
  | .waiting =>
    if q.waitCount ≤ 1 then { b with sequencer := { q with waitCount := 0, state := .applying } }
    else { b with sequencer := { q with waitCount := q.waitCount - 1 } }
  | .halted =>
    match q.halt with
    | some h =>
      if h.countdown ≤ 1 then abandonTake frame b
      else { b with sequencer := { q with halt := some { h with countdown := h.countdown - 1 } } }
    | none => b
  | .idle | .applying => b

end Sys2Proof.Machine
end

