-- ==== Sys2Proof/Machine/Reports.lean ====
section
/-! DEFINITION. Reports owed and the places of the outgoing queue: what each owner class places next, the rotation of R182, and
the end of an event, at which owed reports take the free places (R14, R153, R171, R172, R180 to R183; log 11, log 30). -/

namespace Sys2Proof.Machine

/-! ## The next report of each owner class -/

/-- Operations that have completed join the order of the completions (R182). -/
def LineBlock.sync (l : LineBlock) : LineBlock :=
  { l with completions := l.completions ++
      ((l.deferred.filter fun d => d.complete.isSome && !l.completions.contains d.tag).map Deferred.tag) }

def completionMessage (d : Deferred) (o : OpOutcome) (data : List Field) : Message :=
  { kind := .completion, tag := d.tag, fields := [num1 d.kind.code, enum OpOutcome.all o] ++ data }

/-- The first COMPLETE entry in the order of completion; its entry is removed as the report is placed (R180, R182). -/
def completionOf (l : LineBlock) : Option (Message × LineBlock) :=
  match l.completions with
  | [] => none
  | tag :: rest =>
    match l.deferred.find? fun d => d.tag = tag && d.complete.isSome with
    | some d =>
      d.complete.map fun c =>
        (completionMessage d c.1 c.2,
          { l with completions := rest, deferred := l.deferred.filter fun x => !(x.tag == tag && x.complete.isSome) })
    | none => none

def completionReport (s : State) : Option (Message × State) :=
  match s.tx.carry with
  | m :: rest => some (m, { s with tx := { s.tx with carry := rest } })
  | [] => (completionOf s.body.line).map fun x => (x.1, { s with body := { s.body with line := x.2 } })

def alarmMessage (e : Fin 154) (x : Entry) : Message :=
  { kind := .alarm, tag := 0
    fields := [num2 e, enum EntryState.all x.state, .flag x.unacked, num2 x.onsets, count4 x.changeFrame] }

/-- The lowest-numbered entry that owes a report, but for those that wait for the evaluation of the rest (R153; log 63). -/
def alarmReport (s : State) : Option (Message × State) :=
  (entryIds.find? fun e => (s.body.entry e).reportOwed && !reportWithheld s.body e).map fun e =>
    (alarmMessage e (s.body.entry e),
      { s with body := s.body.onEntry e fun x => { x with reportOwed := false } })

def stateMessage (p : Fin 16) (r : Programme) (c : StateCause) : Message :=
  { kind := .state, tag := 0
    fields := [num1 p, enum ProgState.all r.state, enum Selector.all r.selector, enum StateCause.all c] }

/-- The lowest-numbered programme that owes a report (R14). -/
def stateReport (s : State) : Option (Message × State) :=
  programmeIds.findSome? fun p =>
    (s.body.programme p).stateOwed.map fun c =>
      (stateMessage p (s.body.programme p) c,
        { s with body := s.body.onProgramme p fun r => { r with stateOwed := none } })

/-- The SCENE reports of the sequencer, the lanes and the meters (R171, R172, section 11.5). -/
def sequencerMessage : SceneReport → Message
  | .started tag n late frame =>
    { kind := .scene, tag := tag, fields := [.code (some 0), num1 n, .flag late, count4 frame] }
  | .committed tag k frame ps applied letGo =>
    { kind := .scene, tag := tag
      fields := [.code (some 1), num2 k, count4 frame] ++ listField (ps.map fun p => [num1 p.val]) ++
        [num2 applied, num2 letGo] }
  | .halted tag n i reason refused =>
    { kind := .scene, tag := tag
      fields := [.code (some 2), num1 n, num1 i, .code (some reason.code), num2 refused] }

def delayMessage (d : DelayReport) : Message :=
  { kind := .scene, tag := 0
    fields := [.code (some 3), num1 d.programme, num4 d.target, enum OpOutcome.all d.outcome] }

def resetMessage (p : Fin 16) (o : OpOutcome) : Message :=
  { kind := .scene, tag := 0, fields := [.code (some 4), num1 p, enum OpOutcome.all o] }

def laneReport (s : State) : Option (Message × State) :=
  programmeIds.findSome? fun p =>
    (s.body.lane p).sceneDelayOwed.map fun d =>
      (delayMessage d, { s with body := s.body.onLane p fun l => { l with sceneDelayOwed := none } })

def meterReport (s : State) : Option (Message × State) :=
  programmeIds.findSome? fun p =>
    (s.body.meter p).sceneResetOwed.map fun o =>
      (resetMessage p o, { s with body := s.body.onMeter p fun m => { m with sceneResetOwed := none } })

/-- The sequencer's reports in the order owed, then the lanes, then the meters (R182). -/
def sceneReport (s : State) : Option (Message × State) :=
  match s.body.sequencer.owed with
  | r :: rest => some (sequencerMessage r, { s with body := s.body.onSequencer fun q => { q with owed := rest } })
  | [] => (laneReport s).or (meterReport s)

/-- BREAK, then BADFRAME, then OVERRUN (R182, R183). -/
def lineReport (s : State) : Option (Message × State) :=
  let l := s.body.line
  match l.breakOwed, l.badFrameOwed, l.overrunOwed with
  | some n, _, _ =>
    some ({ kind := .line, tag := 0, fields := [.code (some 0), num2 n] },
      { s with body := s.body.onLine fun l => { l with breakOwed := none } })
  | none, some (k, n), _ =>
    some ({ kind := .line, tag := 0, fields := [.code (some 1), enum LineFault.all k, num2 n] },
      { s with body := s.body.onLine fun l => { l with badFrameOwed := none } })
  | none, none, some (t, n) =>
    some ({ kind := .line, tag := 0, fields := [.code (some 2), num1 t.toNat, num2 n] },
      { s with body := s.body.onLine fun l => { l with overrunOwed := none } })
  | none, none, none => none

/-- The report a class places next; the ANSWER class is served by the interpreter. -/
def classReport (s : State) : OwnerClass → Option (Message × State)
  | .answer => none
  | .completion => completionReport s
  | .alarm => alarmReport s
  | .state => stateReport s
  | .scene => sceneReport s
  | .line => lineReport s

/-! ## Places (R181, R182) -/

/-- The classes in the order in which they are served after a class (R182). -/
def classesAfter : OwnerClass → List OwnerClass
  | .answer => [.completion, .alarm, .state, .scene, .line, .answer]
  | .completion => [.alarm, .state, .scene, .line, .answer, .completion]
  | .alarm => [.state, .scene, .line, .answer, .completion, .alarm]
  | .state => [.scene, .line, .answer, .completion, .alarm, .state]
  | .scene => [.line, .answer, .completion, .alarm, .state, .scene]
  | .line => [.answer, .completion, .alarm, .state, .scene, .line]

/-- A message enters the queue for a class, and the pointer names that class (R182; log 11). -/
def putMessage (c : OwnerClass) (m : Message) (s : State) : State :=
  { s with tx := { s.tx with queue := s.tx.queue ++ [m], pointer := c } }

/-- One report is placed, where a place is free and a class waits. -/
def placeOne (s : State) : Option State :=
  if Config.outgoingPlaces ≤ s.tx.queue.length then none
  else (classesAfter s.tx.pointer).findSome? fun c => (classReport s c).map fun x => putMessage c x.1 x.2

/-- Reports are placed while places are free and waiters remain. -/
def placeLoop : Nat → State → State
  | 0, s => s
  | n + 1, s =>
    match placeOne s with
    | none => s
    | some s' => placeLoop n s'

/-- Operations that completed in the event take their order. -/
def syncCompletions (s : State) : State := { s with body := s.body.onLine LineBlock.sync }

/-- The end of an event: the reports owed take the free places (R182; log 30). -/
def placeReports (s : State) : State :=
  let s := syncCompletions s
  placeLoop (Config.outgoingPlaces - s.tx.queue.length) s

/-- An event of the blocks other than the control line. -/
def bodyEvent (f : Body → Body) (s : State) : Host.Outcome State Fault Refusal :=
  .next (placeReports { s with body := f s.body })

end Sys2Proof.Machine
end

