-- ==== Sys2Proof/Machine/Monitor.lean ====
section
/-! DEFINITION. The monitor points (R45, R61, R84, R101, R122, R136, R155, R173, R189, numbered by R192) and their reading by
PEEK and the watch list (R184 to R186). -/

namespace Sys2Proof.Machine

/-! ## The points of each block, by their offsets -/

/-- Yes or no where it may be absent: an enumeration in the order of R122 (R190). -/
def yesNo? (v : Option Bool) : Field := enum? [true, false] v

/-- The number of reports waiting in each class of R182 (R189), as six counts of 2 bytes without a count byte; for ANSWER, which
owes no report, 1 while a frame held may be taken and 0 otherwise (DESIGN CHOICE, log 64). -/
def owedByClass (s : State) : List Field :=
  let l := s.body.line
  let owedScene := s.body.sequencer.owed.length + (s.body.lanes.toList.filter fun x => x.sceneDelayOwed.isSome).length +
    (s.body.meters.toList.filter fun x => x.sceneResetOwed.isSome).length
  [num2 (if s.rx.buffer ≠ [] ∧ !s.rx.restartPending then 1 else 0),
    num2 (s.tx.carry.length + (l.deferred.filter fun d => d.complete.isSome).length),
    num2 (s.body.entries.toList.filter Entry.reportOwed).length,
    num2 (s.body.programmes.toList.filter fun r => r.stateOwed.isSome).length,
    num2 owedScene,
    num2 (l.breakOwed.isSome.toNat + l.badFrameOwed.isSome.toNat + l.overrunOwed.isSome.toNat)]

/-- A trigger in the take queue point, with its 4-byte argument as a TAKE carries it (sections 11.2, 11.3). R173 names the trigger
alone (DESIGN CHOICE, log 64). -/
def triggerFields : Trigger → List Field
  | .nextBoundary => [.code (some 0), num4 0]
  | .atFrame n => [.code (some 1), count4 n]
  | .gpi k .rising => [.code (some 2), num4 k]
  | .gpi k .falling => [.code (some 3), num4 k]

/-- Part points, 0000h to 0020h. Of a point with several items each absent item has its own absent code; the countdown of an
absent halt record reads 0 (log 61). -/
def partPoint (s : State) (n : Nat) : Option (List Field) :=
  let b := s.body
  let t := b.timing
  let q := b.sequencer
  let l := b.line
  match n with
  | 0 => some [enum RefState.all t.href]
  | 1 => some [enum RefState.all t.vref]
  | 2 => some [count4 t.sampleCounter]
  | 3 => some [count4 t.frameCounter]
  | 4 => some [.n2 t.measuredLength]
  | 5 => some [num2 t.generatedLength]
  | 6 => some [num2 t.hrefGlitches]
  | 7 => some [num2 t.vrefGlitches]
  | 8 => some [num2 (fittedBanks b)]
  | 9 => some [.n1 (b.sweep.map fun w => w.programme.val), .n1 (b.sweep.map fun w => if w.secondPass then 2 else 1)]
  | 10 => some (listField (b.sweepQueue.map fun p => [num1 p.val]))
  | 11 => some [num2 (freeSlots b)]
  | 12 => some (listField (q.takes.map fun t => num1 t.scene.val :: triggerFields t.trigger ++ [num1 t.tag.toNat]))
  | 13 => some [enum SeqState.all q.state]
  | 14 => some [.n1 (q.current.map Fin.val), .n1 (q.current.map fun _ => q.next)]
  | 15 => some [num2 q.chain]
  | 16 => some [num2 q.commitList.length]
  | 17 => some [num2 q.waitCount]
  | 18 => some [.n1 (q.halt.map fun h => h.scene.val), .n1 (q.halt.map Halt.index),
      .code (q.halt.map fun h => h.reason.code), num2 ((q.halt.map Halt.countdown).getD 0)]
  | 19 => some [num2 q.applied, num2 q.refused, num2 q.commits]
  | 20 => some [num2 (b.entries.toList.filter Entry.reportOwed).length]
  | 21 => some [num2 s.rx.buffer.length]
  | 22 => some [enum [true, false] s.rx.hold]
  | 23 => some [enum RxState.all s.rx.state]
  | 24 => some [num2 s.tx.queue.length]
  | 25 => some [num2 s.tx.carry.length]
  | 26 => some (listField (l.deferred.map fun d =>
      [num1 d.tag.toNat, enum OpKind.all d.kind, num1 d.subject, enum [false, true] d.complete.isSome]))
  | 27 => some (listField (l.watch.map fun w => [num2 w.point, num1 w.period]))
  | 28 => some (owedByClass s)
  | 29 => some [num2 l.badFrames]
  | 30 => some [num2 l.overruns]
  | 31 => some [num2 l.breaks]
  | 32 => some [num2 l.meterDrops]
  | _ => none

/-- The points of a port. The RANGE condition is a flag (log 45). -/
def portPoint (b : Body) (q : Fin 8) (n : Nat) : Option (List Field) :=
  let x := b.port q
  let t := x.tracker
  match n with
  | 0 => some [enum Presence.all x.presence]
  | 1 => some [enum PortClass.all x.cls]
  | 2 => some [enum TrackerState.all t.state]
  | 3 => some [num2 t.stamps.length]
  | 4 => some [.n4 t.span]
  | 5 => some [.n4 t.prevSpan]
  | 6 => some [.n4 t.q]
  | 7 => some [num2 t.jumpRun]
  | 8 => some [.flag t.rangeHeld]
  | _ => none

/-- The points of a bank; those of an unfitted bank read absent (R61). -/
def bankPoint (b : Body) (k : Fin 4) (n : Nat) : Option (List Field) :=
  let x := b.bank k
  let shown (v : Nat) : Option (List Field) := some [.n2 (if k.val < fittedBanks b then some v else none)]
  match n with
  | 0 => shown x.freeSegments
  | 1 => shown x.largestRun
  | 2 => shown x.queue.length
  | 3 => shown x.jobs.length
  | _ => none

/-- The zero-fill of a FILLING programme: words written and words in the run (R61). -/
def fillProgress (b : Body) (p : Fin 16) : Option FillJob :=
  (b.programme p).line.bind fun l => (b.bank l.bank).jobs.find? fun j => j.programme = p

/-- The delay reported while RUNNING (R83). Below an occupancy of 4 the formula is negative and the field has no sign: 0 is
reported (DESIGN CHOICE, log 62). -/
def reportedDelay (b : Body) (p : Fin 16) : Option Nat :=
  if (b.programme p).state = .running then
    (b.lane p).ratio.map fun r => ((b.lane p).occupancy - 4) * r.q / Config.unityRatio
  else none

def lanePoint (b : Body) (p : Fin 16) (n : Nat) : Option (List Field) :=
  let l := b.lane p
  let r := b.programme p
  match n with
  | 0 => some [count4 l.writeSeq]
  | 1 => some [count4 l.readSeq]
  | 2 => some [num4 l.occupancy]
  | 3 => some [.n4 l.setpoint]
  | 4 => some [.flag l.delayLimited]
  | 5 => some [.n4 (reportedDelay b p)]
  | 6 => some [num4 l.increment]
  | 7 => some [.n1 (l.ratio.map fun x => x.port.val), .n4 (l.ratio.map RatioRecord.q)]
  | 8 => some [enum? ChangePhase.all (l.change.map DelayChange.phase)]
  | 9 => some [num2 ((l.tail.map FadeTail.remaining).getD 0)]
  | 10 => some [num2 l.marks.length]
  | 11 => some [.flag l.stickySlip]
  | 12 => some [num2 r.slips]
  | 13 => some [num2 r.overloads]
  | _ => none

def switchingPoint (b : Body) (p : Fin 16) (n : Nat) : Option (List Field) :=
  let l := b.lane p
  let r := b.programme p
  match n with
  | 0 => some [enum Selector.all r.selector]
  | 1 => some [enum? Selector.all r.requested]
  | 2 => some [.n1 (l.source.map fun s => s.port.val), .n1 (l.source.map fun s => s.slot.val)]
  | 3 => some [num2 r.guard]
  | 4 => some [num2 r.revertCount]
  | 5 => some (listField (l.marks.map fun m => [count4 m.seq, num1 m.port.val, num1 m.slot.val, .n4 m.q]))
  | 6 => some [.n4 (l.marks.head?.map fun m => (m.seq - l.readSeq).toNat)]
  | _ => none

/-- The points of a meter. Reset due is a flag (log 45). -/
def meterPoint (m : Meter) (n : Nat) : Option (List Field) :=
  match n with
  | 0 => some [.s2 m.momentary]
  | 1 => some [.s2 m.shortTerm]
  | 2 => some [.s1 m.correlation]
  | 3 => some [.s2 m.integrated]
  | 4 => some [enum IntegState.all m.integState]
  | 5 => some [num4 m.admitted]
  | 6 => some [num2 m.pendingBlocks.length]
  | 7 => some [num2 m.ring.length]
  | 8 => some [yesNo? (m.ring.getLast?.map RingEntry.disturbed)]
  | 9 => some [.flag m.resetDue.isSome]
  | 10 => some [num2 m.abandoned]
  | _ => none

def gainPoint (x : GainStage) (n : Nat) : Option (List Field) :=
  match n with
  | 0 => some [.s2 (some x.g)]
  | 1 => some [.s2 (some x.applied.floor)]
  | 2 => some [num2 ((x.ramp.map fun r => 4800 - r.position).getD 0)]
  | 3 => some [enum RiderStatus.all x.rider]
  | 4 => some [.s2 x.desired]
  | 5 => some [.s2 (some (x.gr / 48000 : Nat))]
  | 6 => some [num2 x.activations]
  | _ => none

/-- The points of a programme: the block by the second hexadecimal digit, the item by the last. -/
def programmePoint (b : Body) (p : Fin 16) (block n : Nat) : Option (List Field) :=
  let r := b.programme p
  match block, n with
  | 0, 0 => some [enum ProgState.all r.state]
  | 0, 1 => some [num2 r.memoryErrors]
  | 0, 2 => some [num2 r.writeDrops]
  | 0, 3 => some [.n4 ((fillProgress b p).map FillJob.written), .n4 ((fillProgress b p).map FillJob.words)]
  | 0, 4 => some [.flag (b.lane p).holding.isSome]
  | 1, n => lanePoint b p n
  | 2, n => switchingPoint b p n
  | 3, n => meterPoint (b.meter p) n
  | 4, n => gainPoint (b.gain p) n
  | 5, 0 => some [.flag r.runningMark]
  | _, _ => none

/-- The points of an output slot. A channel index is one byte; both bytes of an empty entry are FFh (log 49). -/
def slotPoint (b : Body) (slot n : Nat) : Option (List Field) :=
  let e := b.outputMap.getD slot none
  match n with
  | 0 => some [.n1 (e.map fun x => x.1.val), .n1 (e.map Prod.snd)]
  | 1 => some [.flag (e.any fun x => (b.programme x.1).state = .running)]
  | _ => none

def entryPoint (x : Entry) (n : Nat) : Option (List Field) :=
  match n with
  | 0 => some [enum EntryState.all x.state]
  | 1 => some [num2 x.countdown]
  | 2 => some [.flag x.unacked]
  | 3 => some [.flag x.reportOwed]
  | 4 => some [num2 x.onsets]
  | 5 => some [count4 x.changeFrame]
  | 6 => some (configFields x)
  | _ => none

/-- The value of a monitor point as it stands; `none` for a number that the tables do not give (R192). -/
def readPoint (s : State) (n : Nat) : Option (List Field) :=
  let b := s.body
  if n < 0x100 then partPoint s n
  else if n < 0x180 then (idOf 8 ((n - 0x100) / 16)).bind fun q => portPoint b q (n % 16)
  else if n < 0x200 then none
  else if n < 0x240 then (idOf 4 ((n - 0x200) / 16)).bind fun k => bankPoint b k (n % 16)
  else if n < 0x1000 then none
  else if n < 0x2000 then (idOf 16 ((n - 0x1000) / 256)).bind fun p => programmePoint b p (n / 16 % 16) (n % 16)
  else if n < 0x2400 then slotPoint b ((n - 0x2000) / 16) (n % 16)
  else if n < 0x3000 then none
  else if n < 0x3000 + 8 * 154 then (idOf 154 ((n - 0x3000) / 8)).bind fun e => entryPoint (b.entry e) (n % 8)
  else if n < 0x3800 then none
  else if n < 0x3810 then (idOf 8 ((n - 0x3800) / 2)).map fun k =>
    if n % 2 = 0 then [contactField (b.contact k)] else [enum ContactMode.all (b.contact k).mode]
  else if n < 0x3900 then none
  else if n < 0x3940 then (idOf 32 ((n - 0x3900) / 2)).map fun k =>
    if n % 2 = 0 then [num2 (b.scene k).records.length] else [.flag (b.scene k).stopOnRefusal]
  else none

/-- A reading: point number, value length, value (section 11.5). -/
def reading (n : Nat) (value : List Field) : List Field := num2 n :: num1 (fieldBytes value).length :: value

/-- The lane whose sticky slip flag a point is (R82, R192). -/
def stickyPoint (n : Nat) : Option (Fin 16) := if n % 256 = 0x1B ∧ 0x1000 ≤ n then idOf 16 ((n - 0x1000) / 256) else none

/-- PEEK (R186). -/
def peekRequest (n : Nat) (s : State) : Answer × State :=
  match readPoint s n with
  | none => (refuse .badField, s)
  | some v =>
    let t := s.body.timing
    (.answer (reading n v ++ [count4 t.sampleCounter, count4 t.frameCounter]),
      match stickyPoint n with
      | some p => { s with body := s.body.onLane p fun l => { l with stickySlip := false } }
      | none => s)

/-! ## The watch list (R184, R185) -/

def watchCount (b : Body) : Answer := .answer [num2 b.line.watch.length]

/-- WATCH ADD (R184). -/
def watchAddRequest (n period : Nat) (s : State) : Answer × State :=
  if (readPoint s n).isNone ∨ !natIn 1 250 period then (refuse .badField, s)
  else
    let w : Watch := { point := n, period := period, countdown := period }
    let l := s.body.line.watch
    let put (l : List Watch) : Answer × State :=
      let b := s.body.onLine fun x => { x with watch := l }
      (watchCount b, { s with body := b })
    if l.any fun x => x.point = n then put (l.map fun x => if x.point = n then w else x)
    else if Config.watchPlaces ≤ l.length then (refuse .noSpace, s)
    else put (l ++ [w])

/-- WATCH REMOVE (R184). FFFFh, the absent code of a point, is a number that no entry of the list has, and is answered
NOT_FOUND like another (DESIGN CHOICE, log 69). -/
def watchRemoveRequest (n : Nat) (s : State) : Answer × State :=
  if s.body.line.watch.any fun x => x.point = n then
    let b := s.body.onLine fun x => { x with watch := x.watch.filter fun w => w.point != n }
    (watchCount b, { s with body := b })
  else (refuse .notFound, s)

/-- WATCH EMPTY (R184). -/
def watchEmptyRequest (s : State) : Answer × State :=
  let b := s.body.onLine fun x => { x with watch := [] }
  (watchCount b, { s with body := b })

/-- Readings packed into METER reports of as many whole readings as fit the body limit (R185, section 11.5). -/
def packReadings : List (List Field) → List Field → List (List Field)
  | [], acc => if acc = [] then [] else [acc]
  | r :: rs, acc =>
    if Config.bodyLimit < 6 + (fieldBytes (acc ++ r)).length ∧ acc ≠ [] then acc :: packReadings rs r
    else packReadings rs (acc ++ r)

/-- A METER report is offered: it enters where at least 9 places are free, and is dropped otherwise (R181). -/
def offerMeter (frame : Count) (s : State) (readings : List Field) : State :=
  if s.tx.queue.length + 9 ≤ Config.outgoingPlaces then
    { s with tx := { s.tx with
        queue := s.tx.queue ++ [{ kind := .meter, tag := 0, fields := count4 frame :: readings }] } }
  else { s with body := s.body.onLine fun l => { l with meterDrops := bump l.meterDrops } }

/-- The work of the watch list at a frame boundary (R185). -/
def watchWork (frame : Count) (s : State) : State :=
  let due := s.body.line.watch.filter fun w => w.countdown ≤ 1
  let readings := due.map fun w => reading w.point ((readPoint s w.point).getD [])
  let s := { s with body := s.body.onLine fun l =>
    { l with watch := l.watch.map fun w =>
        { w with countdown := if w.countdown ≤ 1 then w.period else w.countdown - 1 } } }
  (packReadings readings []).foldl (offerMeter frame) s

end Sys2Proof.Machine
end

