-- ==== Sys2Proof/Machine/Boundary.lean ====
section
/-! DEFINITION. The work of a frame boundary, block by block, each piece taken at most once at a boundary, and the pieces that
have commands of their own (R6, R76, R88, R139, R166, R185; log 9). -/

namespace Sys2Proof.Machine

/-- The boundary in progress is taken: the house frame counter stands at its count (R32). -/
def enterBoundary (d : Boundary) (b : Body) : Body := b.onTiming fun t => { t with frameCounter := d.frame }

/-- The marks of the boundary in progress. -/
def mark (f : Boundary → Boundary) (b : Body) : Body := b.onTiming fun t => { t with boundary := t.boundary.map f }

/-! ## The pieces of the blocks -/

/-- The DIRECT pending set of a programme commits, once (R6). -/
def commitPiece (d : Boundary) (p : Fin 16) (b : Body) : Body :=
  if d.committed.contains p then b
  else mark (fun d => { d with committed := p :: d.committed }) (commitDirect p d.frame b)

/-- The boundary work of a programme, after the commit of its DIRECT set (R88). -/
def programmePiece (d : Boundary) (p : Fin 16) (b : Body) : Body :=
  if d.worked.contains p then b
  else mark (fun d => { d with worked := p :: d.worked }) (switchingWork p (commitPiece d p b))

/-- The cut of a lane that is DUE (R76). -/
def cutPiece (d : Boundary) (p : Fin 16) (b : Body) : Body :=
  if d.cut.contains p then b else mark (fun d => { d with cut := p :: d.cut }) (cutDue p d.frame b)

def sequencerPiece (d : Boundary) (b : Body) : Body :=
  if d.sequencerDone then b else mark (fun d => { d with sequencerDone := true }) (sequencerStep d.frame b)

def alarmPiece (d : Boundary) (b : Body) : Body :=
  if d.alarmsDone then b else mark (fun d => { d with alarmsDone := true }) (evaluate d b)

def onBody (f : Body → Body) (s : State) : State := { s with body := f s.body }

def watchPiece (d : Boundary) (s : State) : State :=
  if d.watchDone then s else onBody (mark fun d => { d with watchDone := true }) (watchWork d.frame s)

/-- The work of one block at the boundary in progress. -/
def blockPiece (k : BoundaryBlock) (s : State) : State :=
  match s.body.timing.boundary with
  | none => s
  | some d =>
    match k with
    | .commits => onBody (fun b => b.eachProgramme (commitPiece d)) s
    | .sequencer => onBody (sequencerPiece d) s
    | .programmes => onBody (fun b => b.eachProgramme (programmePiece d)) s
    | .alarms => onBody (alarmPiece d) s
    | .cuts => onBody (fun b => b.eachProgramme (cutPiece d)) s
    | .watch => watchPiece d s

/-- The order in which the blocks take the boundary where the command does not name one (log 9). -/
def usualOrder : List BoundaryBlock := [.commits, .sequencer, .programmes, .alarms, .cuts, .watch]

/-- FRAME_BOUNDARY: what is left of the work of the boundary in progress, the blocks named first, then the rest. -/
def frameBoundaryWork (order : List BoundaryBlock) (s : State) : State :=
  match s.body.timing.boundary with
  | none => s
  | some d =>
    let s := (order ++ usualOrder).foldl (fun s k => placeReports (blockPiece k s)) (onBody (enterBoundary d) s)
    onBody (fun b => b.onTiming fun t => { t with boundary := none }) s

/-! ## Pieces taken by commands of their own, at a boundary in progress and where they are due -/

/-- DIRECT_COMMIT (R6). -/
def directCommitWork (p : Fin 16) (b : Body) : Body :=
  match b.timing.boundary with
  | some d =>
    if !d.committed.contains p && ownedBy b .direct p then commitPiece d p (enterBoundary d b) else b
  | none => b

/-- SELECT_APPLY: the boundary work of a programme with a requested selector (R88, R92). -/
def selectApplyWork (p : Fin 16) (b : Body) : Body :=
  match b.timing.boundary with
  | some d =>
    let r := b.programme p
    if !d.worked.contains p && carrying r.state && r.requested.isSome then programmePiece d p (enterBoundary d b)
    else b
  | none => b

/-- Whether the boundary work of a programme makes a revert (R91). -/
def revertDue (d : Boundary) (p : Fin 16) (b : Body) : Bool :=
  carrying (b.programme p).state &&
    (let b := applyRequested p (guardStep p (commitPiece d p b))
     let r := b.programme p
     r.selector == .backup && revertSatisfied b p && r.revertCount - 1 == 0 && r.guard == 0)

/-- REVERT: the boundary work of a programme that reverts at it (R88, R91). -/
def revertWork (p : Fin 16) (b : Body) : Body :=
  match b.timing.boundary with
  | some d =>
    if !d.worked.contains p && revertDue d p b then programmePiece d p (enterBoundary d b) else b
  | none => b

/-- CUT_MADE (R76). -/
def cutMadeWork (p : Fin 16) (b : Body) : Body :=
  match b.timing.boundary with
  | some d =>
    let due := (b.lane p).change.any fun c => c.phase = .due && c.boundary != d.frame
    let free := (b.lane p).tail.all fun t => t.remaining = 0
    if !d.cut.contains p && due && free then cutPiece d p (enterBoundary d b) else b
  | none => b

/-- ONSET_HOLD_EXPIRY (R143, R145). -/
def onsetExpiryEvent (e : Fin 154) (b : Body) : Body :=
  match evaluationOpen b e with
  | some d =>
    if (b.entry e).state = .onset ∧ (b.entry e).countdown ≤ 1 ∧ condition b e then
      evaluateEarly e d (enterBoundary d b)
    else b
  | none => b

/-- RELEASE_HOLD_EXPIRY (R144). -/
def releaseExpiryEvent (e : Fin 154) (b : Body) : Body :=
  match evaluationOpen b e with
  | some d =>
    if (b.entry e).state = .release ∧ (b.entry e).countdown ≤ 1 ∧ !condition b e then
      evaluateEarly e d (enterBoundary d b)
    else b
  | none => b

/-- The sequencer's work of the boundary in progress, in a state in which it is due. -/
def sequencerEvent (due : Boundary → Sequencer → Bool) (b : Body) : Body :=
  match b.timing.boundary with
  | some d => if !d.sequencerDone && due d b.sequencer then sequencerPiece d (enterBoundary d b) else b
  | none => b

/-- TAKE_TRIGGER_MET (R161). -/
def triggerDue (d : Boundary) (q : Sequencer) : Bool := q.state == .armed && triggerMetAt q d.frame

/-- SCENE_COMMIT (R166). -/
def commitDue (_ : Boundary) (q : Sequencer) : Bool := q.state == .committing

/-- WAIT_END (R167). -/
def waitDue (_ : Boundary) (q : Sequencer) : Bool := q.state == .waiting && decide (q.waitCount ≤ 1)

/-- HALT_EXPIRY (R169). -/
def haltDue (_ : Boundary) (q : Sequencer) : Bool :=
  q.state == .halted && q.halt.any fun h => decide (h.countdown ≤ 1)

/-- WATCH_DUE (R185). -/
def watchDueWork (s : State) : State :=
  match s.body.timing.boundary with
  | some d =>
    if !d.watchDone && s.body.line.watch.any (fun w => w.countdown ≤ 1) then
      watchPiece d (onBody (enterBoundary d) s)
    else s
  | none => s

end Sys2Proof.Machine
end

