-- ==== Sys2Proof/Machine/Sample.lean ====
section
/-! DEFINITION. The work of a house sample in the order of the data path: lanes, meters, gain stages, output assembler; and
the regulation tick. -/

namespace Sys2Proof.Machine

/-- Lane, meter and gain stage of every programme, then the output frame (00, Programme data path). The lanes take the house
sample in increasing number (log 58). -/
def samplePipeline (b : Body) : Body :=
  assemble (b.eachProgramme fun p b => sampleGain p (sampleMeter p (sampleLane p b)))

/-- The work of the house sample in progress is taken. -/
def takeSample (b : Body) : Body :=
  samplePipeline (b.onTiming fun t => { t with samplesOwed := t.samplesOwed - 1 })

/-- HOUSE_SAMPLE: the work of a house sample that has begun; in FREE with none begun, the oscillator starts the next one
(R26; log 28). -/
def houseSampleWork (b : Body) : Body :=
  if b.timing.samplesOwed ≠ 0 then takeSample b
  else if b.timing.href = .free then takeSample (startSample b)
  else b

/-- REGULATION_TICK (R33, R72). -/
def regulationWork (b : Body) : Body :=
  if b.timing.regulationDue then
    (b.eachProgramme regulateLane).onTiming fun t => { t with regulationDue := false }
  else b

end Sys2Proof.Machine
end

