-- ==== Sys2Proof/Machine/Interpreter.lean ====
section
/-! DEFINITION. The control line (chapter 10): the interpreter and the answers, the grant of places to all classes, line reset
and RESTART, the receiver and the receive buffer (R174 to R188). -/

namespace Sys2Proof.Machine

/-! ## Resets (R174, R187, R188) -/

/-- RESTART is performed: as device reset, but for the scene store, the straps and the DRAM (R188, 00 Resets). The commands
that wait are not the part's, and the draws of free values go on (log 15). An access in progress is dropped with the rest
(log 53). -/
def performRestart (s : State) : State :=
  let b := s.body
  { s with body := { lrate := b.lrate, banksStrap := b.banksStrap, scenes := b.scenes, freeDraws := b.freeDraws }
           rx := {}, tx := {} }

/-- Device reset: the straps are sampled; the DRAM keeps its contents (section 3.1), and an access in progress is dropped
(log 53). -/
def performReset (lrate : LineRate) (banks : BankStrap) (s : State) : State :=
  { s with body := { lrate := lrate, banksStrap := banks, freeDraws := s.body.freeDraws }, rx := {}, tx := {} }

/-- A line reset, leaving the receiver in a state (R187, R154). No report waits for an evaluation after it (log 63). -/
def lineReset (after : RxState) (s : State) : State :=
  let isCompletion (m : Message) : Bool := m.kind == .completion
  let b := s.body.onLine fun l => { l with watch := [] }
  let b := { b with entries := b.entries.map fun e =>
    { e with reportOwed := e.reportOwed || e.state != .clear, withheld := false } }
  let t : State :=
    { s with body := b
             rx := { s.rx with state := after, assembly := none, buffer := [], hold := false }
             tx := { queue := [], carry := s.tx.carry ++ s.tx.queue.filter isCompletion, pointer := .line } }
  if s.rx.restartPending then performRestart t else t

/-! ## The interpreter (R179) -/

/-- A request on the blocks, lifted to the machine. -/
def onBlocks (f : Body → Answer × Body) (s : State) : Answer × State :=
  let x := f s.body
  (x.1, { s with body := x.2 })

/-- The bit times of a second, in both directions of the line (table of R174). -/
def lineBaud : LineRate → Nat
  | .r115200 => 115200 | .r460800 => 460800 | .r1000000 => 1000000 | .r3000000 => 3000000

/-- IDENTIFY (R186). -/
def identifyRequest (b : Body) : Answer × Body :=
  (.answer [num2 Config.partCode, num2 Config.revision.toNat, num2 (fittedBanks b), num4 (lineBaud b.lrate)], b)

/-- LINE RESET by request: the receiver is back in HUNTING at once (R187). -/
def lineResetRequest (s : State) : Answer × State := (.answer [], lineReset .hunting s)

/-- RESTART: restart pending is set (R188). -/
def restartRequest (s : State) : Answer × State :=
  (.answer [], { s with rx := { s.rx with restartPending := true } })

/-- A request is acted on (R179). -/
def carryOut (tag : Byte) (r : Request) (s : State) : Answer × State :=
  match r with
  | .define p is => onBlocks (defineRequest p is) s
  | .set t is => onBlocks (setRequest t is) s
  | .delay t n m => onBlocks (delayRequest tag t n m) s
  | .allocate p n => onBlocks (allocateRequest tag p n) s
  | .start p => onBlocks (startRequest p) s
  | .park p => onBlocks (parkRequest p) s
  | .release p => onBlocks (releaseRequest p) s
  | .clear p => onBlocks (clearRequest p) s
  | .select p side => onBlocks (selectRequest p side) s
  | .port q cls => onBlocks (portRequest q cls) s
  | .integrate p .reset => onBlocks (resetRequest tag p) s
  | .integrate p a => onBlocks (integrateRequest p a) s
  | .histo p f n => onBlocks (histoRequest p f n) s
  | .alarmcfg e f => onBlocks (alarmcfgRequest e f) s
  | .ack e => onBlocks (ackRequest e) s
  | .contact k m => onBlocks (contactRequest k m) s
  | .sceneAppend n f rs => onBlocks (sceneAppendRequest n f rs) s
  | .sceneRead n f c => onBlocks (sceneReadRequest n f c) s
  | .take n t => onBlocks (takeRequest tag n t) s
  | .cancel t => onBlocks (cancelRequest t) s
  | .resume => onBlocks resumeRequest s
  | .abandon => onBlocks abandonRequest s
  | .watchAdd n p => watchAddRequest n p s
  | .watchRemove n => watchRemoveRequest n s
  | .watchEmpty => watchEmptyRequest s
  | .identify => onBlocks identifyRequest s
  | .lineReset => lineResetRequest s
  | .restart => restartRequest s
  | .peek n => peekRequest n s

/-- What the interpreter does with a frame: its answer, and the state it leaves (R179). A body too short for its kind is
refused BAD_FIELD alone, also that of a SCENE APPEND without its scene or flags byte, which has no record index to name (log
70). -/
def answerTo (f : RxFrame) (s : State) : Answer × State :=
  if !requestKind f.kind.toNat then (refuse .unknownKind, s)
  else match f.request with
    | none => (refuse .badField, s)
    | some r => carryOut f.tag r s

/-- A frame is taken: acted on and answered in one event, the answer in the granted place (R179, R182). The request is acted on
before its answer is put, so a PEEK of the outgoing queue depth does not count the place of its own answer (DESIGN CHOICE, log
73). -/
def answerFrame (f : RxFrame) (s : State) : State :=
  let x := answerTo f s
  putMessage .answer (x.1.message f.kind.toNat f.tag) x.2

/-! ## Grants to all classes (R182) -/

/-- The interpreter waits for a place (R179). -/
def answerWaits (s : State) : Bool := s.rx.buffer != [] && !s.rx.restartPending

/-- The oldest frame is taken out of the buffer, and HOLD is released (R178). -/
def takeFrame (s : State) : State :=
  match s.rx.buffer with
  | [] => s
  | f :: rest => answerFrame f { s with rx := { s.rx with buffer := rest, hold := false } }

/-- A place is granted to a class that waits. -/
def grantTo (s : State) (c : OwnerClass) : Option State :=
  if c = .answer then (if answerWaits s then some (takeFrame s) else none)
  else (classReport s c).map fun x => putMessage c x.1 x.2

def grantOne (s : State) : Option State :=
  if Config.outgoingPlaces ≤ s.tx.queue.length then none
  else (classesAfter s.tx.pointer).findSome? (grantTo s)

/-- The grant is repeated while places remain free and waiters remain (R182); `fuel` bounds the places. -/
def grantLoop : Nat → State → State
  | 0, s => s
  | n + 1, s =>
    match grantOne (syncCompletions s) with
    | none => syncCompletions s
    | some s' => grantLoop n s'

/-! ## The receive side (R175 to R178) -/

/-- The event that levels of the receive line make, bit time by bit time from a start bit on: ten of them are a byte (R174), of
kind FRAMING where its stop bit is low (R175). Levels that are all low are a low of that length: a break at 20 bit times, a
FRAMING fault where it ends before but outlasts the stop bit (R177, log 74). -/
def lineEvent (bits : List Bool) : Option Instr :=
  if bits.all (!·) then
    if 20 ≤ bits.length then some .breakLine
    else if 10 ≤ bits.length then some (.receiveFault .framing)
    else none
  else match bits with
    | [false, d0, d1, d2, d3, d4, d5, d6, d7, stop] =>
      some (if stop then .byteReceived (bitsByte [d0, d1, d2, d3, d4, d5, d6, d7]) else .receiveFault .framing)
    | _ => none

/-- A checked frame is offered to the receive buffer (R178). -/
def offerFrame (f : RxFrame) (s : State) : State :=
  if s.rx.buffer.length < Config.receivePlaces then
    let buffer := s.rx.buffer ++ [f]
    { s with rx := { s.rx with buffer := buffer, hold := s.rx.hold || decide (Config.receivePlaces ≤ buffer.length) } }
  else
    onBody (fun b => b.onLine fun l =>
      { l with overruns := bump l.overruns, overrunOwed := some (f.tag, bump l.overruns) }) s

/-- Whether a frame that arrives is taken at once: nothing held before it, a place free, no restart pending (R179). -/
def takenAtOnce (s : State) : Bool :=
  s.rx.buffer == [] && decide (s.tx.queue.length < Config.outgoingPlaces) && !s.rx.restartPending

/-- A checked frame arrives, and the event ends. While the receiver is DISCARDING every byte of it is ignored, and the
frame is lost (R176). -/
def arrive (f : RxFrame) (s : State) : State :=
  if s.rx.state = .discarding then s
  else placeReports (if takenAtOnce s then answerFrame f s else offerFrame f s)

/-- The frame of a request (log 12). -/
def arriveRequest (tag : Byte) (r : Request) (s : State) : State :=
  arrive { kind := BitVec.ofNat 8 r.kind, tag := tag, request := some r } s

/-- The receiver is back in HUNTING with nothing in assembly. -/
def hunt (s : State) : State := { s with rx := { s.rx with state := .hunting, assembly := none } }

/-- A frame as received: its kind, its tag and what its fields say (R179, R190). -/
def receivedFrame (kind tag : Byte) (fields : List Byte) : RxFrame :=
  { kind := kind, tag := tag, request := readRequest kind.toNat fields }

/-- A frame is checked and leaves the receiver HUNTING; in DISCARDING its bytes are ignored (R176; log 42). -/
def frameCheckedWork (kind tag : Byte) (fields : List Byte) (s : State) : State :=
  if s.rx.state = .discarding then s else arrive (receivedFrame kind tag fields) (hunt s)

/-- A fault ends the frame in assembly (R176). -/
def faultWork (k : LineFault) (s : State) : State :=
  if s.rx.state = .inFrame then
    let b := s.body.onLine fun l =>
      { l with badFrames := bump l.badFrames, badFrameOwed := some (k, bump l.badFrames) }
    placeReports { s with
      body := b, rx := { s.rx with assembly := none, state := if k = .truncated then .hunting else .discarding } }
  else s

/-- The bytes of a frame once its second CRC byte is in: kind, tag and fields, where the CRC matches (R175). -/
def checkFrame (bytes : List Byte) : Option (Byte × Byte × List Byte) :=
  match bytes with
  | _ :: n :: rest =>
    let body := rest.take n.toNat
    let c := crc (n :: body)
    if rest.drop n.toNat = [c.extractLsb' 8 8, c.extractLsb' 0 8] then
      match body with
      | kind :: tag :: fields => some (kind, tag, fields)
      | _ => none
    else none
  | _ => none

/-- A byte of the control line (R175). -/
def byteWork (v : Byte) (s : State) : State :=
  match s.rx.state with
  | .hunting => if v = 0xA5 then { s with rx := { s.rx with state := .inFrame, assembly := some [v] } } else s
  | .discarding => s
  | .inFrame =>
    let bytes := s.rx.assembly.getD [] ++ [v]
    let s := { s with rx := { s.rx with assembly := some bytes } }
    if bytes.length = 2 ∧ (v.toNat < 2 ∨ Config.bodyLimit < v.toNat) then faultWork .length s
    else if bytes.length = (bytes.getD 1 0).toNat + 4 then
      match checkFrame bytes with
      | some (kind, tag, fields) => frameCheckedWork kind tag fields s
      | none => faultWork .crc s
    else s

/-- The line has been idle for two byte times since the fault or the last byte received (R176, R177). -/
def idleWork (s : State) : State := if s.rx.state = .discarding then hunt s else s

/-- A break (R177). -/
def breakWork (s : State) : State :=
  let s := lineReset .discarding s
  let b := s.body.onLine fun l => { l with breaks := bump l.breaks, breakOwed := some (bump l.breaks) }
  placeReports { s with body := b, rx := { s.rx with state := .discarding } }

/-! ## The sending side (R181, R182, R188) -/

/-- The levels of the transmit line while the oldest message is sent, bit time by bit time, its bytes with no idle gap between
them (R174, R181); none with an empty queue, when the line idles. -/
def transmitted (s : State) : List Bool := (s.tx.queue.head?.map Message.bits).getD []

/-- Whether a message is the answer to a RESTART. -/
def isRestartAnswer (m : Message) : Bool := m.kind == .answer && m.fields.head? == some (num1 0x19)

/-- The RESTART answer is the oldest message, and restart is pending. -/
def restartDue (s : State) : Bool := s.rx.restartPending && s.tx.queue.head?.any isRestartAnswer

/-- The oldest message has left: its place is granted, or the RESTART it answered is performed (R181, R182, R188). -/
def departureWork (s : State) : State :=
  match s.tx.queue with
  | [] => s
  | _ :: rest =>
    if restartDue s then performRestart s else grantLoop 100 { s with tx := { s.tx with queue := rest } }

/-- RESTART_PERFORMED: the last stop bit of the RESTART answer has been sent (R188). -/
def restartWork (s : State) : State := if restartDue s then performRestart s else s

end Sys2Proof.Machine
end

