-- ==== Sys2Proof/Machine/LineCommands.lean ====
section
/-! DEFINITION. The commands of the control line and the resets (chapter 10). -/

namespace Sys2Proof.Machine

/-- DEVICE_RESET (R174, 00 Resets). -/
def execDeviceReset (lrate : LineRate) (banks : BankStrap) (s : State) : Host.Outcome State Fault Refusal :=
  .next (performReset lrate banks s)

/-- RESTART_PERFORMED (R188). -/
def execRestartPerformed (s : State) : Host.Outcome State Fault Refusal := .next (restartWork s)

/-- FRAME_CHECKED (R175, R178, R179). -/
def execFrameChecked (kind tag : Byte) (fields : List Byte) (s : State) : Host.Outcome State Fault Refusal :=
  .next (frameCheckedWork kind tag fields s)

/-- RECEIVE_FAULT (R176). -/
def execReceiveFault (k : LineFault) (s : State) : Host.Outcome State Fault Refusal := .next (faultWork k s)

/-- TRUNCATED_FRAME (R175, R176). -/
def execTruncatedFrame (s : State) : Host.Outcome State Fault Refusal := .next (faultWork .truncated s)

/-- RECEIVER_IDLE (R176, R177). -/
def execReceiverIdle (s : State) : Host.Outcome State Fault Refusal := .next (idleWork s)

/-- BREAK (R177, R187). -/
def execBreakLine (s : State) : Host.Outcome State Fault Refusal := .next (breakWork s)

/-- MESSAGE_DEPARTURE (R181, R182, R188). -/
def execMessageDeparture (s : State) : Host.Outcome State Fault Refusal := .next (departureWork s)

/-- BYTE_RECEIVED (R175). -/
def execByteReceived (v : Byte) (s : State) : Host.Outcome State Fault Refusal := .next (byteWork v s)

/-- UNKNOWN_KIND_REQUEST (R179): a checked frame whose kind is no request kind. -/
def execUnknownKindRequest (kind tag : Byte) (fields : List Byte) (s : State) : Host.Outcome State Fault Refusal :=
  .next (arrive (receivedFrame kind tag fields) s)

end Sys2Proof.Machine
end

