-- ==== Sys2Proof/Machine/RequestCommands.lean ====
section
/-! DEFINITION. The request commands: the frame of a request arrives, checked, and where nothing stands before it it is taken
and answered in the same event (R179; log 12). -/

namespace Sys2Proof.Machine

/-- DEFINE (R15). -/
def execDefine (tag : Byte) (p : Nat) (is : List SettingItem) (s : State) : Host.Outcome State Fault Refusal :=
  .next (arriveRequest tag (.define p is) s)

/-- SET (R5, R9). -/
def execSet (tag : Byte) (t : Target) (is : List SettingItem) (s : State) : Host.Outcome State Fault Refusal :=
  .next (arriveRequest tag (.set t is) s)

/-- DELAY (R8). -/
def execDelay (tag : Byte) (t : Target) (n : Nat) (m : DelayMode) (s : State) : Host.Outcome State Fault Refusal :=
  .next (arriveRequest tag (.delay t n m) s)

/-- ALLOCATE (R16, R48). -/
def execAllocate (tag : Byte) (p n : Nat) (s : State) : Host.Outcome State Fault Refusal :=
  .next (arriveRequest tag (.allocate p n) s)

/-- START (R18). -/
def execStart (tag : Byte) (p : Nat) (s : State) : Host.Outcome State Fault Refusal :=
  .next (arriveRequest tag (.start p) s)

/-- PARK (R22, R85). -/
def execPark (tag : Byte) (p : Nat) (s : State) : Host.Outcome State Fault Refusal :=
  .next (arriveRequest tag (.park p) s)

/-- RELEASE (R23). -/
def execRelease (tag : Byte) (p : Nat) (s : State) : Host.Outcome State Fault Refusal :=
  .next (arriveRequest tag (.release p) s)

/-- CLEAR (R24). -/
def execClear (tag : Byte) (p : Nat) (s : State) : Host.Outcome State Fault Refusal :=
  .next (arriveRequest tag (.clear p) s)

/-- SELECT (R92). -/
def execSelect (tag : Byte) (p : Nat) (side : Selector) (s : State) : Host.Outcome State Fault Refusal :=
  .next (arriveRequest tag (.select p side) s)

/-- PORT (R36). -/
def execPort (tag : Byte) (q : Nat) (cls : PortClass) (s : State) : Host.Outcome State Fault Refusal :=
  .next (arriveRequest tag (.port q cls) s)

/-- INTEGRATE_START (R118). -/
def execIntegrateStart (tag : Byte) (p : Nat) (s : State) : Host.Outcome State Fault Refusal :=
  .next (arriveRequest tag (.integrate p .start) s)

/-- INTEGRATE_PAUSE (R118). -/
def execIntegratePause (tag : Byte) (p : Nat) (s : State) : Host.Outcome State Fault Refusal :=
  .next (arriveRequest tag (.integrate p .pause) s)

/-- INTEGRATE_RESET (R119). -/
def execIntegrateReset (tag : Byte) (p : Nat) (s : State) : Host.Outcome State Fault Refusal :=
  .next (arriveRequest tag (.integrate p .reset) s)

/-- HISTO (R121). -/
def execHisto (tag : Byte) (p f n : Nat) (s : State) : Host.Outcome State Fault Refusal :=
  .next (arriveRequest tag (.histo p f n) s)

/-- ALARMCFG (R149, R150). -/
def execAlarmcfg (tag : Byte) (e : Nat) (f : AlarmFields) (s : State) : Host.Outcome State Fault Refusal :=
  .next (arriveRequest tag (.alarmcfg e f) s)

/-- ACK (R147). -/
def execAck (tag : Byte) (e : Option Nat) (s : State) : Host.Outcome State Fault Refusal :=
  .next (arriveRequest tag (.ack e) s)

/-- CONTACT (R152). -/
def execContact (tag : Byte) (k : Nat) (m : ContactMode) (s : State) : Host.Outcome State Fault Refusal :=
  .next (arriveRequest tag (.contact k m) s)

/-- SCENE_APPEND (R158). -/
def execSceneAppend (tag : Byte) (n : Nat) (flags : Byte) (rs : List (Option SceneRecord)) (s : State) : Host.Outcome State Fault Refusal :=
  .next (arriveRequest tag (.sceneAppend n flags rs) s)

/-- SCENE_READ (R159). -/
def execSceneRead (tag : Byte) (n f c : Nat) (s : State) : Host.Outcome State Fault Refusal :=
  .next (arriveRequest tag (.sceneRead n f c) s)

/-- TAKE (R160). -/
def execTake (tag : Byte) (n : Nat) (t : Trigger) (s : State) : Host.Outcome State Fault Refusal :=
  .next (arriveRequest tag (.take n t) s)

/-- CANCEL (R162). -/
def execCancel (tag : Byte) (t : Byte) (s : State) : Host.Outcome State Fault Refusal :=
  .next (arriveRequest tag (.cancel t) s)

/-- RESUME (R168). -/
def execResume (tag : Byte) (s : State) : Host.Outcome State Fault Refusal :=
  .next (arriveRequest tag .resume s)

/-- ABANDON (R169). -/
def execAbandon (tag : Byte) (s : State) : Host.Outcome State Fault Refusal :=
  .next (arriveRequest tag .abandon s)

/-- WATCH_ADD (R184). -/
def execWatchAdd (tag : Byte) (n p : Nat) (s : State) : Host.Outcome State Fault Refusal :=
  .next (arriveRequest tag (.watchAdd n p) s)

/-- WATCH_REMOVE (R184). -/
def execWatchRemove (tag : Byte) (n : Nat) (s : State) : Host.Outcome State Fault Refusal :=
  .next (arriveRequest tag (.watchRemove n) s)

/-- WATCH_EMPTY (R184). -/
def execWatchEmpty (tag : Byte) (s : State) : Host.Outcome State Fault Refusal :=
  .next (arriveRequest tag .watchEmpty s)

/-- IDENTIFY (R186). -/
def execIdentify (tag : Byte) (s : State) : Host.Outcome State Fault Refusal :=
  .next (arriveRequest tag .identify s)

/-- PEEK (R186). -/
def execPeek (tag : Byte) (n : Nat) (s : State) : Host.Outcome State Fault Refusal :=
  .next (arriveRequest tag (.peek n) s)

/-- LINE_RESET (R187). -/
def execLineReset (tag : Byte) (s : State) : Host.Outcome State Fault Refusal :=
  .next (arriveRequest tag .lineReset s)

/-- RESTART (R188). -/
def execRestart (tag : Byte) (s : State) : Host.Outcome State Fault Refusal :=
  .next (arriveRequest tag .restart s)

end Sys2Proof.Machine
end

