-- ==== Sys2Proof/Machine/SceneCommands.lean ====
section
/-! DEFINITION. The commands of the take triggers and the sequencer (chapter 9). A record command applies the next record
where it is of that kind; it changes nothing otherwise (log 1). -/

namespace Sys2Proof.Machine

/-- GPI_EDGE (R161). -/
def execGpiEdge (k : Fin 4) (dir : EdgeDir) (s : State) : Host.Outcome State Fault Refusal := bodyEvent (gpiEdgeWork k dir) s

/-- TAKE_TRIGGER_MET (R161). -/
def execTakeTriggerMet (s : State) : Host.Outcome State Fault Refusal := bodyEvent (sequencerEvent triggerDue) s

/-- SCENE_SET_RECORD (R163, R165). -/
def execSceneSetRecord (s : State) : Host.Outcome State Fault Refusal := bodyEvent setRecordWork s

/-- SCENE_DELAY_RECORD (R163, R165). -/
def execSceneDelayRecord (s : State) : Host.Outcome State Fault Refusal := bodyEvent delayRecordWork s

/-- SCENE_SLOTS_RECORD (R163, R165). -/
def execSceneSlotsRecord (s : State) : Host.Outcome State Fault Refusal := bodyEvent slotsRecordWork s

/-- SCENE_SOURCE_RECORD (R163, R165). -/
def execSceneSourceRecord (s : State) : Host.Outcome State Fault Refusal := bodyEvent sourceRecordWork s

/-- SCENE_ALARMCFG_RECORD (R164, R165). -/
def execSceneAlarmcfgRecord (s : State) : Host.Outcome State Fault Refusal := bodyEvent alarmcfgRecordWork s

/-- SCENE_INTEGRATE_RECORD (R164, R165). -/
def execSceneIntegrateRecord (s : State) : Host.Outcome State Fault Refusal := bodyEvent integrateRecordWork s

/-- SCENE_WAIT_RECORD (R164). -/
def execSceneWaitRecord (s : State) : Host.Outcome State Fault Refusal := bodyEvent waitRecordWork s

/-- SCENE_CHAIN_RECORD (R164, R165). -/
def execSceneChainRecord (s : State) : Host.Outcome State Fault Refusal := bodyEvent chainRecordWork s

/-- SCENE_LIST_END (R164). -/
def execSceneListEnd (s : State) : Host.Outcome State Fault Refusal := bodyEvent listEndWork s

/-- SCENE_COMMIT (R166, R170). -/
def execSceneCommit (s : State) : Host.Outcome State Fault Refusal := bodyEvent (sequencerEvent commitDue) s

/-- WAIT_END (R167). -/
def execWaitEnd (s : State) : Host.Outcome State Fault Refusal := bodyEvent (sequencerEvent waitDue) s

/-- HALT_EXPIRY (R169). -/
def execHaltExpiry (s : State) : Host.Outcome State Fault Refusal := bodyEvent (sequencerEvent haltDue) s

end Sys2Proof.Machine
end

