-- ==== Sys2Proof/Machine/TimingCommands.lean ====
section
/-! DEFINITION. The commands of house timing, the ports, the sample pipeline, the delay store and the frame boundary. A
command whose event is not due where it comes changes nothing (log 1). -/

namespace Sys2Proof.Machine

/-! ## House timing and cadences -/

/-- HREF_EDGE (R25, R27). -/
def execHrefEdge (elapsed : Nat) (s : State) : Host.Outcome State Fault Refusal := bodyEvent (hrefEdgeWork elapsed) s

/-- HREF_LOSS (R26). -/
def execHrefLoss (s : State) : Host.Outcome State Fault Refusal := bodyEvent hrefLossWork s

/-- HOUSE_SAMPLE (R66, R69, R73, R105, R124, R133). -/
def execHouseSample (s : State) : Host.Outcome State Fault Refusal := bodyEvent houseSampleWork s

/-- FADE_TAIL_END (R77, R76, R78). -/
def execFadeTailEnd (p : Fin 16) (s : State) : Host.Outcome State Fault Refusal := bodyEvent (settleTail p) s

/-- RAMP_END (R126). -/
def execRampEnd (p : Fin 16) (s : State) : Host.Outcome State Fault Refusal := bodyEvent (rampEndWork p) s

/-- VREF_EDGE (R29, R31). -/
def execVrefEdge (s : State) : Host.Outcome State Fault Refusal := bodyEvent vrefEdgeWork s

/-- VREF_LOSS (R30). -/
def execVrefLoss (s : State) : Host.Outcome State Fault Refusal := bodyEvent vrefLossWork s

/-- GENERATED_FRAME_BOUNDARY (R30). -/
def execGeneratedFrameBoundary (s : State) : Host.Outcome State Fault Refusal := bodyEvent generatedWork s

/-- REGULATION_TICK (R33, R70, R72, R87). -/
def execRegulationTick (s : State) : Host.Outcome State Fault Refusal := bodyEvent regulationWork s

/-- STEP_BOUNDARY (R33, R103, R106 to R111, R119, R127). -/
def execStepBoundary (s : State) : Host.Outcome State Fault Refusal := bodyEvent stepBoundaryWork s

/-- INTEGRATION_RESET_APPLY (R119). -/
def execIntegrationResetApply (p : Fin 16) (s : State) : Host.Outcome State Fault Refusal := bodyEvent (resetApplyWork p) s

/-- SWEEP_VISIT_END (R114, R115, R116). -/
def execSweepVisitEnd (s : State) : Host.Outcome State Fault Refusal := bodyEvent sweepVisitWork s

/-! ## Frame boundary -/

/-- FRAME_BOUNDARY (R6, R32, R76, R88, R139, R165 to R169, R185). -/
def execFrameBoundary (order : List BoundaryBlock) (s : State) : Host.Outcome State Fault Refusal :=
  .next (placeReports (frameBoundaryWork order s))

/-- ONSET_HOLD_EXPIRY (R143, R145, R146). -/
def execOnsetHoldExpiry (e : Fin 154) (s : State) : Host.Outcome State Fault Refusal := bodyEvent (onsetExpiryEvent e) s

/-- RELEASE_HOLD_EXPIRY (R144). -/
def execReleaseHoldExpiry (e : Fin 154) (s : State) : Host.Outcome State Fault Refusal := bodyEvent (releaseExpiryEvent e) s

/-- REVERT (R88, R91). -/
def execRevert (p : Fin 16) (s : State) : Host.Outcome State Fault Refusal := bodyEvent (revertWork p) s

/-- SELECT_APPLY (R88, R92). -/
def execSelectApply (p : Fin 16) (s : State) : Host.Outcome State Fault Refusal := bodyEvent (selectApplyWork p) s

/-- DIRECT_COMMIT (R6, R12). -/
def execDirectCommit (p : Fin 16) (s : State) : Host.Outcome State Fault Refusal := bodyEvent (directCommitWork p) s

/-- CUT_MADE (R76, R78). -/
def execCutMade (p : Fin 16) (s : State) : Host.Outcome State Fault Refusal := bodyEvent (cutMadeWork p) s

/-- WATCH_DUE (R185). -/
def execWatchDue (s : State) : Host.Outcome State Fault Refusal := .next (placeReports (watchDueWork s))

/-! ## Ports -/

/-- PORT_FRAME_EDGE (R34, R35, R38 to R41, R63). -/
def execPortFrameEdge (q : Fin 8) (elapsed : Nat) (slots : Vector Sample 8) (s : State) :
    Host.Outcome State Fault Refusal :=
  bodyEvent (frameEdgeWork q elapsed slots) s

/-- PORT_SYNC_MISALIGNED (R34, R42). -/
def execPortSyncMisaligned (q : Fin 8) (elapsed : Nat) (s : State) : Host.Outcome State Fault Refusal :=
  bodyEvent (misalignedWork q elapsed) s

/-- PORT_SYNC_ABSENT (R34, R42). -/
def execPortSyncAbsent (q : Fin 8) (elapsed : Nat) (s : State) : Host.Outcome State Fault Refusal :=
  bodyEvent (syncAbsentWork q elapsed) s

/-- PORT_CLOCK_LOSS (R34, R42). -/
def execPortClockLoss (q : Fin 8) (elapsed : Nat) (s : State) : Host.Outcome State Fault Refusal :=
  bodyEvent (clockLossWork q elapsed) s

/-- PORT_CLOCK_RETURN (R34). -/
def execPortClockReturn (q : Fin 8) (s : State) : Host.Outcome State Fault Refusal := bodyEvent (clockReturnWork q) s

/-- TRACKER_LOSS_TIMEOUT (R42). -/
def execTrackerLossTimeout (q : Fin 8) (elapsed : Nat) (s : State) : Host.Outcome State Fault Refusal :=
  bodyEvent (lossTimeoutWork q elapsed) s

/-- HOLDOVER_TIMEOUT (R43). -/
def execHoldoverTimeout (q : Fin 8) (s : State) : Host.Outcome State Fault Refusal := bodyEvent (holdoverTimeoutWork q) s

/-! ## Delay store: the completions of granted accesses -/

/-- DRAIN_COMPLETE (R55): C complete sample words are written (R49). -/
def execDrainComplete (bank : Fin 4) (s : State) : Host.Outcome State Fault Refusal :=
  match (s.body.bank bank).access with
  | some (.drain _ word samples live) =>
    if inBank word samples.length then
      bodyEvent (drainDone bank live) { s with dram := s.dram.writeWords bank word (samples.map sampleWord) }
    else .fault (.noSuchWord bank word)
  | _ => .next s

/-- Words with the bits that have gone wrong changed (log 25). -/
def damaged : List Word → List Word → List Word
  | w :: ws, d :: ds => (w ^^^ d) :: damaged ws ds
  | ws, _ => ws

/-- READ_COMPLETE (R56, R57, R58). -/
def execReadComplete (bank : Fin 4) (damage : List Word) (s : State) : Host.Outcome State Fault Refusal :=
  match (s.body.bank bank).access with
  | some (.read p seq word c live) =>
    if inBank word c then
      let ws := damaged (s.dram.readWords bank word c) damage
      bodyEvent (readDone bank p seq live ws)
        { s with dram := if damage = [] then s.dram else s.dram.writeWords bank word ws }
    else .fault (.noSuchWord bank word)
  | _ => .next s

/-- ZERO_FILL_ACCESS_COMPLETE (R50, R51, R17): 64 words of zero samples are written. -/
def execZeroFillAccessComplete (bank : Fin 4) (s : State) : Host.Outcome State Fault Refusal :=
  match (s.body.bank bank).access with
  | some (.fill _ word live) =>
    if inBank word 64 then
      bodyEvent (fillAccessDone bank live)
        { s with dram := s.dram.writeWords bank word (List.replicate 64 (sampleWord 0)) }
    else .fault (.noSuchWord bank word)
  | _ => .next s

end Sys2Proof.Machine
end

