-- ==== Sys2Proof/Machine/Dispatch.lean ====
section
/-! DEFINITION. One command's effect on everything but the queue of commands: one arm per constructor. -/

namespace Sys2Proof.Machine

def exec (i : Instr) (s : State) : Host.Outcome State Fault Refusal :=
  match i with
  | .deviceReset lrate banks => Sys2Proof.Machine.execDeviceReset lrate banks s
  | .restartPerformed => Sys2Proof.Machine.execRestartPerformed s
  | .hrefEdge elapsed => Sys2Proof.Machine.execHrefEdge elapsed s
  | .hrefLoss => Sys2Proof.Machine.execHrefLoss s
  | .houseSample => Sys2Proof.Machine.execHouseSample s
  | .fadeTailEnd p => Sys2Proof.Machine.execFadeTailEnd p s
  | .rampEnd p => Sys2Proof.Machine.execRampEnd p s
  | .vrefEdge => Sys2Proof.Machine.execVrefEdge s
  | .vrefLoss => Sys2Proof.Machine.execVrefLoss s
  | .generatedFrameBoundary => Sys2Proof.Machine.execGeneratedFrameBoundary s
  | .frameBoundary order => Sys2Proof.Machine.execFrameBoundary order s
  | .onsetHoldExpiry e => Sys2Proof.Machine.execOnsetHoldExpiry e s
  | .releaseHoldExpiry e => Sys2Proof.Machine.execReleaseHoldExpiry e s
  | .revert p => Sys2Proof.Machine.execRevert p s
  | .selectApply p => Sys2Proof.Machine.execSelectApply p s
  | .directCommit p => Sys2Proof.Machine.execDirectCommit p s
  | .cutMade p => Sys2Proof.Machine.execCutMade p s
  | .regulationTick => Sys2Proof.Machine.execRegulationTick s
  | .stepBoundary => Sys2Proof.Machine.execStepBoundary s
  | .integrationResetApply p => Sys2Proof.Machine.execIntegrationResetApply p s
  | .sweepVisitEnd => Sys2Proof.Machine.execSweepVisitEnd s
  | .portFrameEdge q elapsed slots => Sys2Proof.Machine.execPortFrameEdge q elapsed slots s
  | .portSyncMisaligned q elapsed => Sys2Proof.Machine.execPortSyncMisaligned q elapsed s
  | .portSyncAbsent q elapsed => Sys2Proof.Machine.execPortSyncAbsent q elapsed s
  | .portClockLoss q elapsed => Sys2Proof.Machine.execPortClockLoss q elapsed s
  | .trackerLossTimeout q elapsed => Sys2Proof.Machine.execTrackerLossTimeout q elapsed s
  | .holdoverTimeout q => Sys2Proof.Machine.execHoldoverTimeout q s
  | .drainComplete bank => Sys2Proof.Machine.execDrainComplete bank s
  | .readComplete bank damage => Sys2Proof.Machine.execReadComplete bank damage s
  | .zeroFillAccessComplete bank => Sys2Proof.Machine.execZeroFillAccessComplete bank s
  | .define tag p items => Sys2Proof.Machine.execDefine tag p items s
  | .set tag target items => Sys2Proof.Machine.execSet tag target items s
  | .delay tag target delayTarget mode => Sys2Proof.Machine.execDelay tag target delayTarget mode s
  | .allocate tag p segments => Sys2Proof.Machine.execAllocate tag p segments s
  | .start tag p => Sys2Proof.Machine.execStart tag p s
  | .park tag p => Sys2Proof.Machine.execPark tag p s
  | .release tag p => Sys2Proof.Machine.execRelease tag p s
  | .clear tag p => Sys2Proof.Machine.execClear tag p s
  | .select tag p side => Sys2Proof.Machine.execSelect tag p side s
  | .port tag q cls => Sys2Proof.Machine.execPort tag q cls s
  | .integrateStart tag p => Sys2Proof.Machine.execIntegrateStart tag p s
  | .integratePause tag p => Sys2Proof.Machine.execIntegratePause tag p s
  | .integrateReset tag p => Sys2Proof.Machine.execIntegrateReset tag p s
  | .histo tag p firstBin binCount => Sys2Proof.Machine.execHisto tag p firstBin binCount s
  | .alarmcfg tag entry fields => Sys2Proof.Machine.execAlarmcfg tag entry fields s
  | .ack tag entry => Sys2Proof.Machine.execAck tag entry s
  | .contact tag k mode => Sys2Proof.Machine.execContact tag k mode s
  | .sceneAppend tag scene flags records => Sys2Proof.Machine.execSceneAppend tag scene flags records s
  | .sceneRead tag scene first count => Sys2Proof.Machine.execSceneRead tag scene first count s
  | .take tag scene trigger => Sys2Proof.Machine.execTake tag scene trigger s
  | .cancel tag takeTag => Sys2Proof.Machine.execCancel tag takeTag s
  | .resume tag => Sys2Proof.Machine.execResume tag s
  | .abandon tag => Sys2Proof.Machine.execAbandon tag s
  | .watchAdd tag point period => Sys2Proof.Machine.execWatchAdd tag point period s
  | .watchRemove tag point => Sys2Proof.Machine.execWatchRemove tag point s
  | .watchEmpty tag => Sys2Proof.Machine.execWatchEmpty tag s
  | .identify tag => Sys2Proof.Machine.execIdentify tag s
  | .peek tag point => Sys2Proof.Machine.execPeek tag point s
  | .lineReset tag => Sys2Proof.Machine.execLineReset tag s
  | .restart tag => Sys2Proof.Machine.execRestart tag s
  | .unknownKindRequest kind tag fields => Sys2Proof.Machine.execUnknownKindRequest kind tag fields s
  | .gpiEdge k dir => Sys2Proof.Machine.execGpiEdge k dir s
  | .takeTriggerMet => Sys2Proof.Machine.execTakeTriggerMet s
  | .sceneSetRecord => Sys2Proof.Machine.execSceneSetRecord s
  | .sceneDelayRecord => Sys2Proof.Machine.execSceneDelayRecord s
  | .sceneSlotsRecord => Sys2Proof.Machine.execSceneSlotsRecord s
  | .sceneSourceRecord => Sys2Proof.Machine.execSceneSourceRecord s
  | .sceneAlarmcfgRecord => Sys2Proof.Machine.execSceneAlarmcfgRecord s
  | .sceneIntegrateRecord => Sys2Proof.Machine.execSceneIntegrateRecord s
  | .sceneWaitRecord => Sys2Proof.Machine.execSceneWaitRecord s
  | .sceneChainRecord => Sys2Proof.Machine.execSceneChainRecord s
  | .sceneListEnd => Sys2Proof.Machine.execSceneListEnd s
  | .sceneCommit => Sys2Proof.Machine.execSceneCommit s
  | .waitEnd => Sys2Proof.Machine.execWaitEnd s
  | .haltExpiry => Sys2Proof.Machine.execHaltExpiry s
  | .watchDue => Sys2Proof.Machine.execWatchDue s
  | .frameChecked kind tag fields => Sys2Proof.Machine.execFrameChecked kind tag fields s
  | .receiveFault kind => Sys2Proof.Machine.execReceiveFault kind s
  | .truncatedFrame => Sys2Proof.Machine.execTruncatedFrame s
  | .receiverIdle => Sys2Proof.Machine.execReceiverIdle s
  | .breakLine => Sys2Proof.Machine.execBreakLine s
  | .messageDeparture => Sys2Proof.Machine.execMessageDeparture s
  | .portClockReturn q => Sys2Proof.Machine.execPortClockReturn q s
  | .byteReceived b => Sys2Proof.Machine.execByteReceived b s

end Sys2Proof.Machine
end

