-- ==== Sys2Proof/Safety.lean ====
section
/-! DEFINITION. What a safe machine is: the places at which a step can stop, and the properties of a state that the part keeps
at every step. -/

namespace Sys2Proof.Machine

/-- The step answers a next state. -/
def Completes (s : State) : Prop := ∃ t, step s = .next t

/-- The words of an access lie in its bank (R46). -/
def Access.inBank : Access → Bool
  | .drain _ word samples _ => Machine.inBank word samples.length
  | .read _ _ word c _ => Machine.inBank word c
  | .fill _ word _ => Machine.inBank word 64

/-- Every granted access lies in its bank: then no completion faults. -/
def accessesInBanks (s : State) : Bool := s.body.banks.toList.all fun k => k.access.all Access.inBank

/-! ## The delay store within its banks (R46, R48 to R52) -/

/-- The active set is present exactly outside VACANT (R1). The line of a programme lies in its bank's segments and its L frames
lie in it; it stands only in a state that has one, and the layout it was cut for is that of both sets (R4, R16). -/
def Programme.lineSound (r : Programme) : Bool :=
  (r.active.isSome == (r.state != .vacant)) &&
  match r.line, r.active with
  | none, _ => true
  | some _, none => false
  | some l, some st =>
    r.state != .defined && decide (l.first + l.count ≤ Config.bankSegments) && decide (0 < l.length) &&
      decide (channelsOf st.layout * l.length ≤ Config.segmentWords * l.count) &&
      r.pending.all fun w => w.settings.layout = st.layout

/-- The frame held for a lane is one of its line. -/
def holdingSound (b : Body) (p : Fin 16) : Bool :=
  (b.lane p).holding.all fun x => (b.programme p).line.isSome && decide (x.length ≤ channels b p)

/-- A queued frame belongs to a line in the bank and stands at a place of it. -/
def frameSound (b : Body) (k : Fin 4) (f : QueuedFrame) : Bool :=
  (b.programme f.lane).line.any fun l =>
    l.bank == k && decide (f.position < l.length) && decide (f.samples.length ≤ channels b f.lane)

/-- A zero-fill job is that of a line in the bank, and has whole accesses of 64 words left, inside the bank. -/
def jobSound (b : Body) (k : Fin 4) (j : FillJob) : Bool :=
  ((b.programme j.programme).line.any fun l => l.bank == k) && decide (j.firstWord + j.words ≤ Config.bankWords) &&
    decide (j.written < j.words) && (j.words - j.written) % 64 == 0

/-- Lines, held and queued frames, zero-fill jobs and granted accesses lie within their banks. -/
def storeSound (s : State) : Bool :=
  programmeIds.all (fun p => (s.body.programme p).lineSound && holdingSound s.body p) &&
    (bankIds.all fun k =>
      (s.body.bank k).segments.length == Config.bankSegments && (s.body.bank k).queue.all (frameSound s.body k) &&
        (s.body.bank k).jobs.all (jobSound s.body k)) &&
    accessesInBanks s

/-- The receive side: at most two frames held, and HOLD asserted exactly while two are (R178). -/
def Receiver.sound (r : Receiver) : Bool :=
  decide (r.buffer.length ≤ Config.receivePlaces) && r.hold == decide (r.buffer.length = Config.receivePlaces)

/-- The outgoing queue holds at most 32 messages (R181). -/
def Sender.sound (t : Sender) : Bool := decide (t.queue.length ≤ Config.outgoingPlaces)

/-- The DRAM is in its canonical form, and both sides of the control line are within their places. -/
def State.sound (s : State) : Bool := s.dram.wf && s.rx.sound && s.tx.sound

/-- The contacts stand as R151 says. -/
def contactsRight (b : Body) : Prop :=
  ∀ k : Fin 8, b.contacts[k].closed = contactCloses b.entries.toList k b.contacts[k].mode

/-- The counts of the 750 bins sum to the admitted count, which never exceeds its limit, and every pending block names a
bin (R111). -/
def Meter.countsAgree (m : Meter) : Bool :=
  m.histogram.length == 750 && m.histogram.sum == m.admitted && decide (m.admitted ≤ Config.admittedLimit) &&
    m.pendingBlocks.all fun k => decide (k < 750)

/-- Nothing waits for a place of the outgoing queue, in any of the six classes (R182); the reports that an evaluation ahead
of the rest of the table alone owes wait for that evaluation (R153; log 63). -/
def State.nothingWaits (s : State) : Prop :=
  (s.rx.buffer = [] ∨ s.rx.restartPending = true) ∧
  s.tx.carry = [] ∧ completionOf s.body.line.sync = none ∧
  (∀ e : Fin 154, (s.body.entry e).reportOwed = true → reportWithheld s.body e = true) ∧ (∀ p : Fin 16, (s.body.programme p).stateOwed = none) ∧
  s.body.sequencer.owed = [] ∧ (∀ p : Fin 16, (s.body.lane p).sceneDelayOwed = none) ∧
  (∀ p : Fin 16, (s.body.meter p).sceneResetOwed = none) ∧
  s.body.line.breakOwed = none ∧ s.body.line.badFrameOwed = none ∧ s.body.line.overrunOwed = none

/-- At a moment at which a place is free, nothing waits for one (R181). -/
def State.served (s : State) : Prop := s.tx.queue.length < Config.outgoingPlaces → s.nothingWaits

/-! ## Words of the statements -/

/-- The blocks apart from the reports they owe: every owed mark cleared, and of the deferred table the operations still in
flight. Placing a report in the outgoing queue never changes this. -/
def Body.quiet (b : Body) : Body :=
  { b with
    programmes := b.programmes.map fun r => { r with stateOwed := none }
    lanes := b.lanes.map fun l => { l with sceneDelayOwed := none }
    meters := b.meters.map fun m => { m with sceneResetOwed := none }
    entries := b.entries.map fun e => { e with reportOwed := false }
    sequencer := { b.sequencer with owed := [] }
    line := { b.line with
      deferred := b.line.deferred.filter fun d => d.complete.isNone
      completions := [], breakOwed := none, badFrameOwed := none, overrunOwed := none } }

/-- The active and the pending set of every programme. -/
def Body.sets (b : Body) : Vector (Option Settings × Option Pending) 16 := b.programmes.map fun r => (r.active, r.pending)

/-- The control line is free to take and answer a request: the receiver not DISCARDING, nothing held before it, a place in
the outgoing queue, no restart pending (R176, R178, R179, R182, R188). -/
def LineFree (s : State) : Prop :=
  s.rx.state ≠ .discarding ∧ s.rx.buffer = [] ∧ s.tx.queue.length < Config.outgoingPlaces ∧ s.rx.restartPending = false

/-- What a command of the blocks leaves as it was: the DRAM, the receive side, the commands that wait; and the messages of
the outgoing queue keep their places. -/
def Keeps (s t : State) : Prop :=
  t.dram = s.dram ∧ t.rx = s.rx ∧ t.pending = s.pending ∧ s.tx.queue <+: t.tx.queue

/-- A command takes the blocks from the body of `s` to `b`, but for the reports owed, and leaves everything else. -/
def Becomes (s : State) (b : Body) (t : State) : Prop := Keeps s t ∧ t.body.quiet = b.quiet

/-- The message stands in the first place of the outgoing queue that was free. -/
def Answers (s : State) (m : Message) (t : State) : Prop := s.tx.queue ++ [m] <+: t.tx.queue

/-- What starts a house sample whatever starts it (R25, R28, R33, R114, R134, R43): counter and tick count go on, the frame
formed is now sent, the holdover timers and the visit of the sweep engine count on. `s` is the machine before it, `t` after. -/
def SampleStarts (s t : State) (spacing : Nat) : Prop :=
  t.body.timing.sampleCounter = s.body.timing.sampleCounter + 1 ∧
  t.body.timing.tickCount = (s.body.timing.sampleCounter + 1) * 256 ∧
  t.body.timing.tickSpacing = spacing ∧
  t.body.timing.samplesOwed = s.body.timing.samplesOwed + 1 ∧
  (t.body.timing.regulationDue = true ↔
    s.body.timing.regulationDue = true ∨ (s.body.timing.sampleCounter + 1).toNat % 480 = 0) ∧
  (t.body.timing.stepDue.isSome = true ↔
    s.body.timing.stepDue.isSome = true ∨ (s.body.timing.sampleCounter + 1).toNat % 4800 = 0) ∧
  t.body.timing.hrefGlitches = s.body.timing.hrefGlitches ∧
  t.body.timing.vref = s.body.timing.vref ∧ t.body.timing.vrefGlitches = s.body.timing.vrefGlitches ∧
  t.body.timing.frameCounter = s.body.timing.frameCounter ∧
  (∀ q : Fin 8, t.body.port q =
    { s.body.port q with tracker := { (s.body.port q).tracker with
        holdover := (s.body.port q).tracker.holdover.map fun n => min 48000 (n + 1) } }) ∧
  Becomes s { s.body with timing := t.body.timing, ports := t.body.ports, sending := s.body.formed,
                          sweep := s.body.sweep.map fun w => { w with visited := w.visited + 1 } } t

/-- The COMPLETION report of an operation is owed, or stands in the outgoing queue (R180). -/
def CompletionDue (d : Deferred) (o : OpOutcome) (data : List Field) (t : State) : Prop :=
  { d with complete := some (o, data) } ∈ t.body.line.deferred ∨ completionMessage d o data ∈ t.tx.queue

/-- A SCENE report of the sequencer is owed, or stands in the outgoing queue (R171). -/
def SceneReportDue (r : SceneReport) (t : State) : Prop :=
  r ∈ t.body.sequencer.owed ∨ sequencerMessage r ∈ t.tx.queue

/-- The operation of an entry is in flight, and no other entry holds its tag (R180). -/
def InFlight (d : Deferred) (s : State) : Prop :=
  d ∈ s.body.line.deferred ∧ d.complete = none ∧ (s.body.line.deferred.map Deferred.tag).Nodup

/-- A LINE report of an event is owed, or stands in the outgoing queue (R183). -/
def BreakDue (n : Nat) (t : State) : Prop :=
  t.body.line.breakOwed = some n ∨ { kind := .line, tag := 0, fields := [.code (some 0), num2 n] } ∈ t.tx.queue

def BadFrameDue (k : LineFault) (n : Nat) (t : State) : Prop :=
  t.body.line.badFrameOwed = some (k, n) ∨
    { kind := .line, tag := 0, fields := [.code (some 1), enum LineFault.all k, num2 n] } ∈ t.tx.queue

def OverrunDue (tag : Byte) (n : Nat) (t : State) : Prop :=
  t.body.line.overrunOwed = some (tag, n) ∨
    { kind := .line, tag := 0, fields := [.code (some 2), num1 tag.toNat, num2 n] } ∈ t.tx.queue

/-- The STATE report of a programme is owed for a cause, or a STATE report of that programme and cause stands in the
outgoing queue (R14). -/
def StateDue (p : Fin 16) (c : StateCause) (t : State) : Prop :=
  (t.body.programme p).stateOwed = some c ∨ stateMessage p (t.body.programme p) c ∈ t.tx.queue

/-- The command that a request is, by its tag (log 12). -/
def requestCommand (tag : Byte) : Request → Instr
  | .define p is => .define tag p is | .set t is => .set tag t is | .delay t n m => .delay tag t n m
  | .allocate p n => .allocate tag p n | .start p => .start tag p | .park p => .park tag p
  | .release p => .release tag p | .clear p => .clear tag p | .select p side => .select tag p side
  | .port q cls => .port tag q cls
  | .integrate p .start => .integrateStart tag p
  | .integrate p .pause => .integratePause tag p
  | .integrate p .reset => .integrateReset tag p
  | .histo p f n => .histo tag p f n | .alarmcfg e f => .alarmcfg tag e f | .ack e => .ack tag e
  | .contact k m => .contact tag k m | .sceneAppend n f rs => .sceneAppend tag n f rs
  | .sceneRead n f c => .sceneRead tag n f c | .take n t => .take tag n t | .cancel t => .cancel tag t
  | .resume => .resume tag | .abandon => .abandon tag | .watchAdd n p => .watchAdd tag n p
  | .watchRemove n => .watchRemove tag n | .watchEmpty => .watchEmpty tag | .identify => .identify tag
  | .lineReset => .lineReset tag | .restart => .restart tag | .peek n => .peek tag n

/-- What a commit of `w` over `old` at the boundary `frame` makes of its programme's gain stage (R125, R126; logs 50, 67), of its delay
(R8, R71, R74 to R76), and of the selector and the source in use (R13, R93, R94). `b` are the blocks before, `c` after. -/
def CommitEffects (b : Body) (p : Fin 16) (old : Settings) (w : Pending) (frame : Count) (c : Body) : Prop :=
  let new := w.settings
  let x := b.gain p
  let given (g : Int) (y : GainStage) : Prop := y.g = g ∧ y.applied = x.applied ∧ y.gr = x.gr ∧
    y.ramp = if (g : Rat) = x.applied then none else some { start := x.applied, stop := g, position := 0 }
  let l := b.lane p
  let m := c.lane p
  let carries : Prop :=
    (b.programme p).state = .priming ∨ (b.programme p).state = .running ∨ (b.programme p).state = .starved
  let change (phase : ChangePhase) : DelayChange :=
    { target := new.delayTarget, mode := new.delayMode, origin := w.delay, phase := phase, boundary := frame }
  (new.gainMode = .off → old.gainMode ≠ .off → given 0 (c.gain p) ∧ (c.gain p).rider = .off ∧ (c.gain p).desired = none) ∧
  (new.gainMode = .fixed → old.gainMode ≠ .fixed →
    given new.fixedGain (c.gain p) ∧ (c.gain p).rider = .off ∧ (c.gain p).desired = none) ∧
  (new.gainMode = .ride → old.gainMode ≠ .ride →
    (c.gain p).g = x.g ∧ (c.gain p).applied = x.applied ∧ (c.gain p).ramp = x.ramp ∧ (c.gain p).rider = .waiting ∧
    (c.gain p).desired = none) ∧
  (new.gainMode = .fixed → old.gainMode = .fixed → old.fixedGain ≠ new.fixedGain →
    given new.fixedGain (c.gain p) ∧ (c.gain p).rider = x.rider ∧ (c.gain p).desired = x.desired) ∧
  (new.gainMode = old.gainMode → (new.gainMode = .fixed → old.fixedGain = new.fixedGain) → c.gain p = x) ∧
  (old.delayTarget = new.delayTarget → m.target = l.target) ∧
  (old.delayTarget ≠ new.delayTarget →
    ((b.programme p).state ≠ .running → m.target = new.delayTarget) ∧
    ((b.programme p).state = .running →
      (new.delayMode = .cut → m.change = some (change .due) ∧ m.target = l.target) ∧
      (new.delayMode = .slew → m.change = some (change .slewing) ∧ m.target = new.delayTarget) ∧
      ∀ (y : DelayChange) (tag : Byte), l.change = some y → y.origin = some (.operation tag) →
        ∀ d ∈ c.line.deferred, d.tag = tag → d.complete.isSome = true)) ∧
  ((old.delayTarget = new.delayTarget ∨ (b.programme p).state ≠ .running) →
    ∀ tag : Byte, w.delay = some (.operation tag) → ∀ d ∈ c.line.deferred, d.tag = tag → d.complete.isSome = true) ∧
  (selectedSource new (b.programme p).selector = none →
    (c.programme p).selector = .main ∧ (carries → m.source = some new.main)) ∧
  (∀ src : Source, selectedSource new (b.programme p).selector = some src →
    (c.programme p).selector = (b.programme p).selector ∧
    (l.source = some src → m.source = some src ∧ m.marks = l.marks) ∧
    (¬ carries → m.source = l.source) ∧
    (carries → l.source ≠ some src →
      m.source = some src ∧ (c.programme p).guard = new.switchGuard ∧ (c.programme p).revertCount = new.revertHold ∧
      ((b.programme p).state = .running → m.marks.getLast? =
        some { seq := l.writeSeq, port := src.port, slot := src.slot, q := lockedQ b src.port })))

/-- The ALARM report of an entry is owed, or stands in the outgoing queue as the entry is (R153). -/
def AlarmDue (e : Fin 154) (t : State) : Prop :=
  (t.body.entry e).reportOwed = true ∨ alarmMessage e (t.body.entry e) ∈ t.tx.queue

/-- What the trigger of the head take makes of the sequencer (R161). -/
def Sequencer.started (q : Sequencer) (t : Take) : Sequencer :=
  { q with state := .applying, current := some t.scene, next := 0, chain := 0, applied := 0, refused := 0, commits := 0
           commitList := [], commitPoint := none }

/-- What the end of the running take leaves of the sequencer (R170, R161): the takes behind it, the next one ARMED. `c` is
the count of the latest frame boundary. -/
def Sequencer.afterEnd (q : Sequencer) (rest : List Take) (c : Count) : Sequencer :=
  { q with takes := rest, state := if rest = [] then .idle else .armed
           late := rest.head?.any fun t => framePassed c t.trigger
           current := none, next := 0, commitList := [], commitPoint := none, waitCount := 0, halt := none }

/-- A programme whose pending set the scene owns. -/
def Programme.sceneOwned (r : Programme) : Bool := r.pending.any fun w => w.owner = .scene

/-- What ABANDON leaves of the blocks (R169), `tk` the running take and `rest` the takes behind it: no set that the scene
owns, the sequencer at its end, and neither the take nor the DELAY operations of those sets in flight. -/
def Body.takeAbandoned (b : Body) (tk : Take) (rest : List Take) (c : Count) : Body :=
  { b with
    programmes := b.programmes.map fun r => if r.sceneOwned then { r with pending := none } else r
    sequencer := b.sequencer.afterEnd rest c
    line := { b.line with deferred := b.line.deferred.filter fun d =>
      d.tag != tk.tag && !(b.programmes.toList.any fun r =>
        r.sceneOwned && decide (r.pending.bind Pending.delay = some (.operation d.tag))) } }

end Sys2Proof.Machine
end

