-- ==== Sys2Proof/Certificates/Slice0/Obligations.lean ====
section
/-! DEFINITION. The statements about the model, each a proposition to be proved or refuted. -/

open Sys2Proof Sys2Proof.Machine

/-! ## Steps and resets -/

/-- Every step takes the command at the front of the queue and runs it on the state with the queue's rest.

The model's choice (log 2): with no command waiting the block idles. -/
def Obligations.StepRunsFrontCommand : Prop :=
  (∀ (s : State) (c : Instr) (rest : List Instr), s.pending = c :: rest →
     step s = exec c { s with pending := rest }) ∧
  (∀ s : State, s.pending = [] → step s = .next s)

/-- The reset columns of the chapters (R1, R28, R32, R62, R102, R123, R138, R156, R174): what the machine holds after device
reset. -/
def Obligations.ResetValues : Prop :=
  let b := State.reset.body
  (b.timing.href = .free ∧ b.timing.vref = .free ∧ b.timing.sampleCounter = 0 ∧ b.timing.tickCount = 0 ∧
    b.timing.frameCounter = 0 ∧ b.timing.measuredLength = none ∧ b.timing.generatedLength = 1920 ∧
    b.timing.hrefGlitches = 0 ∧ b.timing.vrefGlitches = 0 ∧ b.timing.boundary.map Boundary.frame = some 1) ∧
  (∀ q : Fin 8, (b.port q).presence = .noClock ∧ (b.port q).bitCount = 0 ∧ (b.port q).cls = .k48 ∧
    (b.port q).tracker.state = .absent ∧ (b.port q).tracker.q = none ∧ (b.port q).tracker.stamps = []) ∧
  (∀ p : Fin 16, (b.programme p).state = .vacant ∧ (b.programme p).active = none ∧ (b.programme p).pending = none ∧
    (b.programme p).selector = .main ∧ (b.programme p).line = none ∧ (b.programme p).slips = 0) ∧
  (∀ p : Fin 16, (b.lane p).writeSeq = 0 ∧ (b.lane p).readSeq = 0 ∧ (b.lane p).increment = 524288 ∧
    (b.lane p).source = none ∧ (b.lane p).marks = [] ∧ (b.lane p).tail = none) ∧
  (∀ k : Fin 4, (b.bank k).segments = List.replicate 512 none ∧ (b.bank k).queue = [] ∧ (b.bank k).jobs = []) ∧
  (∀ p : Fin 16, (b.meter p).ring = [] ∧ (b.meter p).integState = .idle ∧ (b.meter p).admitted = 0 ∧
    (b.meter p).integrated = none ∧ (b.gain p).g = 0 ∧ (b.gain p).gr = 0 ∧ (b.gain p).rider = .off) ∧
  (∀ e : Fin 154, (b.entry e).enabled = true ∧ (b.entry e).onsetHold = 0 ∧ (b.entry e).releaseHold = 25 ∧
    (b.entry e).latching = false ∧ (b.entry e).state = .clear) ∧
  (∀ k : Fin 8, (b.contact k).mode = .steady ∧ (b.contact k).closed = false) ∧
  (∀ n : Fin 32, (b.scene n).records = [] ∧ (b.scene n).stopOnRefusal = false) ∧
  (b.sequencer.takes = [] ∧ b.sequencer.state = .idle ∧ b.outputMap = List.replicate 64 none ∧ b.sweep = none) ∧
  (State.reset.rx.state = .hunting ∧ State.reset.rx.buffer = [] ∧ State.reset.rx.hold = false ∧
    State.reset.tx.queue = [] ∧ State.reset.dram = [] ∧ State.reset.pending = [])

/-- DEVICE_RESET gives everything in the part its reset value and takes the straps as sampled; the DRAM keeps its contents.
RESTART_PERFORMED, due when the answer to a RESTART is the oldest message, does the same but for the scene store and the
straps (00, Resets; R188). The model's count of free values drawn goes on (log 15), an access in progress is dropped (log 53)
and the GPI levels are low (log 26): choices of the model. -/
def Obligations.ResetsGiveResetValues : Prop :=
  ∀ s : State,
    let b := s.body
    (∀ lrate banks, exec (.deviceReset lrate banks) s =
      .next { s with body := { State.reset.body with lrate := lrate, banksStrap := banks, freeDraws := s.body.freeDraws }
                     rx := State.reset.rx, tx := State.reset.tx }) ∧
    (s.rx.restartPending = true →
      (∃ m rest, s.tx.queue = m :: rest ∧ m.kind = .answer ∧ m.fields.head? = some (num1 0x19)) →
      exec .restartPerformed s =
        .next { s with body := { State.reset.body with lrate := b.lrate, banksStrap := b.banksStrap, scenes := b.scenes,
                                                       freeDraws := b.freeDraws }
                       rx := State.reset.rx, tx := State.reset.tx })

/-! ## House timing -/

/-- HREF_EDGE in LOCKED: accepted at half a nominal house sample or later, it starts the next house sample and its
interval becomes the last HREF interval; sooner, it only counts a glitch. In FREE it returns the reference to LOCKED, its
interval is not taken, and the ticks are spaced at the nominal interval (R25, R27, R28, R33).

HREF_LOSS in LOCKED: the reference becomes FREE, and the oscillator starts a house sample with ticks at the nominal
interval (R26).

HOUSE_SAMPLE in FREE with no house sample owed: the oscillator starts the next one, as `SampleStarts` says, and its work is
taken in the same command, as `HouseSample` says of the machine `u` in which it has started (R26, R28; log 28). In LOCKED
nothing happens. -/
def Obligations.HrefEdgeAndLoss : Prop :=
  (∀ (s : State) (elapsed : Nat),
     (s.body.timing.href = .locked → Config.nominalInterval ≤ 2 * elapsed →
       ∃ t, exec (.hrefEdge elapsed) s = .next t ∧ SampleStarts s t elapsed ∧
         t.body.timing.href = .locked ∧ t.body.timing.lastInterval = elapsed) ∧
     (s.body.timing.href = .locked → 2 * elapsed < Config.nominalInterval →
       ∃ t, exec (.hrefEdge elapsed) s = .next t ∧
         Becomes s { s.body with timing := { s.body.timing with
           hrefGlitches := min 65535 (s.body.timing.hrefGlitches + 1) } } t) ∧
     (s.body.timing.href = .free →
       ∃ t, exec (.hrefEdge elapsed) s = .next t ∧ SampleStarts s t Config.nominalInterval ∧
         t.body.timing.href = .locked ∧ t.body.timing.lastInterval = s.body.timing.lastInterval)) ∧
  (∀ s : State, s.body.timing.href = .locked →
     ∃ t, exec .hrefLoss s = .next t ∧ SampleStarts s t Config.nominalInterval ∧
       t.body.timing.href = .free ∧ t.body.timing.lastInterval = s.body.timing.lastInterval) ∧
  (∀ s : State, s.body.timing.samplesOwed = 0 →
     (s.body.timing.href = .free →
       ∃ u : State, SampleStarts s u s.body.timing.tickSpacing ∧ u.tx = s.tx ∧
         u.body = { s.body with timing := u.body.timing, ports := u.body.ports, sweep := u.body.sweep
                                sending := s.body.formed } ∧
         u.body.timing.href = .free ∧ u.body.timing.lastInterval = s.body.timing.lastInterval ∧
         u.body.timing.samplesOwed = 1 ∧ exec .houseSample s = exec .houseSample u ∧
         ∃ t, exec .houseSample s = .next t ∧ t.body.timing = { u.body.timing with samplesOwed := 0 }) ∧
     (s.body.timing.href = .locked → ∃ t, exec .houseSample s = .next t ∧ Becomes s s.body t))

/-- A VREF edge in LOCKED, by the distance to the house sample that would become the boundary, and in FREE (R29, R31): a
glitch below 800; a boundary that measures from 800 to 2,000; one that does not from 2,001 to 2,099. The boundary itself
comes with the next house sample.

The house sample after a VREF edge is a frame boundary that will carry the next frame count; where the edge was
measured, its distance becomes the measured and the generated frame length (R29, R31, R32). One that no edge waits for only
adds to the distance. Said for every start of a house sample: HREF_EDGE, HREF_LOSS, HOUSE_SAMPLE in FREE (log 28). -/
def Obligations.VrefEdgeJudgedAndMade : Prop :=
  (∀ s : State,
     let d := s.body.timing.sinceBoundary + 1
     let becomes (x : Timing) := ∃ t, exec .vrefEdge s = .next t ∧ Becomes s { s.body with timing := x } t
     (s.body.timing.vref = .free → becomes { s.body.timing with vref := .locked, vrefWaiting := some none }) ∧
     (s.body.timing.vref = .locked → s.body.timing.vrefWaiting = none →
       (d < 800 → becomes { s.body.timing with vrefGlitches := min 65535 (s.body.timing.vrefGlitches + 1) }) ∧
       (800 ≤ d ∧ d ≤ 2000 → becomes { s.body.timing with vrefWaiting := some (some d) }) ∧
       (2001 ≤ d ∧ d ≤ 2099 → becomes { s.body.timing with vrefWaiting := some none })) ∧
     (s.body.timing.vref = .locked → s.body.timing.vrefWaiting.isSome = true → becomes s.body.timing)) ∧
  (∀ (s : State) (c : Instr) (elapsed : Nat),
     let t := s.body.timing
     (c = .hrefEdge elapsed ∧ (t.href = .free ∨ Config.nominalInterval ≤ 2 * elapsed)) ∨
       (c = .hrefLoss ∧ t.href = .locked) ∨ (c = .houseSample ∧ t.href = .free ∧ t.samplesOwed = 0) →
     ∃ u, exec c s = .next u ∧
       (∀ d : Option Nat, t.vrefWaiting = some d → t.boundary = none →
         u.body.timing.boundary = some { frame := t.frameCounter + 1 } ∧ u.body.timing.sinceBoundary = 0 ∧
         u.body.timing.vrefWaiting = none ∧ u.body.timing.measuredLength = d.or t.measuredLength ∧
         u.body.timing.generatedLength = d.getD t.generatedLength) ∧
       (t.vrefWaiting = none →
         u.body.timing.boundary = t.boundary ∧ u.body.timing.sinceBoundary = t.sinceBoundary + 1 ∧
         u.body.timing.vrefWaiting = none ∧ u.body.timing.measuredLength = t.measuredLength ∧
         u.body.timing.generatedLength = t.generatedLength))

/-- VREF_LOSS: 2,100 house samples without a boundary made by an edge make VREF FREE and generate a boundary there.
GENERATED_FRAME_BOUNDARY: in FREE a boundary follows every generated frame length. Both leave the lengths and everything
else (R30, R32). -/
def Obligations.BoundariesGenerated : Prop :=
  ∀ s : State, s.body.timing.boundary = none →
    let made (x : RefState) (n : Nat) : Body := { s.body with timing := { s.body.timing with
      vref := x, boundary := some { frame := s.body.timing.frameCounter + 1 },
      sinceBoundary := s.body.timing.sinceBoundary - n } }
    (s.body.timing.vref = .locked → 2100 ≤ s.body.timing.sinceBoundary →
      ∃ t, exec .vrefLoss s = .next t ∧ Becomes s (made .free 2100) t) ∧
    (s.body.timing.vref = .free → s.body.timing.generatedLength ≤ s.body.timing.sinceBoundary →
      ∃ t, exec .generatedFrameBoundary s = .next t ∧ Becomes s (made .free s.body.timing.generatedLength) t)

/-! ## The frame boundary -/

/-- FRAME_BOUNDARY, whatever order the blocks take it in: the house frame counter stands at the count the boundary carries
(R32), the boundary is closed, JUMP seen is cleared by the evaluation, but for a jump after an early one (R44), the running
marks are set for the RUNNING programmes alone (R141), and every DIRECT pending set that had not yet committed at this
boundary is the active set (R6). House timing, ports and the scene store are otherwise as they were, and contacts that stood
as R151 says still do.

At a FRAME_BOUNDARY whose first block is the alarm table, no scene committing, each entry not yet evaluated takes one step
of the table of R143 to R145 by its condition as it stands: CLEAR and ONSET go up, ACTIVE to LATCHED, CLEAR or RELEASE and
back; a disabled entry stays (R139). A report that the step owes is due.

The conditions (R44, R57, R65, R82, R140, R141, R142), one for each kind of entry.

Failover (R89, R146): an onset at that evaluation of a programme's SILENCE entry, policy ON_LOSS_OR_SILENCE, or of the LOSS
entry of its main port, policy not NEVER, takes it from MAIN to its backup source, that port LOCKED and its LOSS entry
neither ACTIVE nor LATCHED, the guard run out; the guard is loaded. Said with nothing pending or requested and revert MANUAL.

Whatever the order, a FRAME_BOUNDARY counts the watch list down and reloads what is due (R185), and leaves no carrying
programme a requested selector (R92). With the programmes first, a programme that nothing switches counts its guard down;
on BACKUP its revert countdown goes down while revert is satisfied and is reloaded otherwise (R88, R91). -/
def Obligations.FrameBoundary : Prop :=
  (∀ (s : State) (order : List BoundaryBlock) (d : Boundary), s.body.timing.boundary = some d →
     ∃ t, exec (.frameBoundary order) s = .next t ∧ Keeps s t ∧
       t.body.timing = { s.body.timing with frameCounter := d.frame, boundary := none } ∧
       t.body.scenes = s.body.scenes ∧
       (∀ q : Fin 8, t.body.port q = { s.body.port q with tracker := { (s.body.port q).tracker with
         jumpSeen := (s.body.port q).tracker.jumpSeen && (d.alarmsDone || d.evaluated.contains (portEntry q 2)) } }) ∧
       (∀ (p : Fin 16) (w : Pending) (old : Settings), (s.body.programme p).pending = some w → w.owner = .direct →
         (s.body.programme p).active = some old → p ∉ d.committed →
           (t.body.programme p).active = some w.settings ∧ (t.body.programme p).pending = none) ∧
       (d.alarmsDone = false → ∀ p : Fin 16, (t.body.programme p).runningMark = ((t.body.programme p).state == .running)) ∧
       (contactsRight s.body → contactsRight t.body)) ∧
  (∀ (s : State) (order : List BoundaryBlock) (d : Boundary) (e : Fin 154),
     s.body.timing.boundary = some d → d.alarmsDone = false → e ∉ d.evaluated →
     (s.body.sequencer.state ≠ .committing ∨ d.sequencerDone = true) →
     let x := s.body.entry e
     let owes (y : Entry) : Entry := { y with reportOwed := true, changeFrame := d.frame, withheld := false }
     let onset := owes { x with state := .active, unacked := true, countdown := 0, onsets := min 65535 (x.onsets + 1) }
     let down := owes { x with state := .clear, unacked := false }
     let becomes (y : Entry) : Prop := ∃ t, exec (.frameBoundary (.alarms :: order)) s = .next t ∧
       { t.body.entry e with reportOwed := false } = { y with reportOwed := false } ∧ (y.reportOwed = true → AlarmDue e t)
     (x.enabled = false → becomes x) ∧
     (x.enabled = true → condition s.body e = true →
       (x.state = .clear → (x.onsetHold = 0 → becomes onset) ∧
         (x.onsetHold ≠ 0 → becomes { x with state := .onset, countdown := x.onsetHold })) ∧
       (x.state = .onset → (x.countdown ≤ 1 → becomes onset) ∧
         (1 < x.countdown → becomes { x with countdown := x.countdown - 1 })) ∧
       (x.state = .active → becomes x) ∧ (x.state = .release → becomes { x with state := .active, countdown := 0 }) ∧
       (x.state = .latched → becomes (owes { x with state := .active }))) ∧
     (x.enabled = true → condition s.body e = false →
       (x.state = .clear → becomes x) ∧ (x.state = .onset → becomes { x with state := .clear, countdown := 0 }) ∧
       (x.state = .active → (x.latching = true → becomes (owes { x with state := .latched })) ∧
         (x.latching = false → (x.releaseHold = 0 → becomes down) ∧
           (x.releaseHold ≠ 0 → becomes { x with state := .release, countdown := x.releaseHold }))) ∧
       (x.state = .release → (x.countdown ≤ 1 → becomes down) ∧
         (1 < x.countdown → becomes { x with countdown := x.countdown - 1 })) ∧
       (x.state = .latched → becomes x))) ∧
  (∀ (b : Body),
     (∀ (p : Fin 16) (st : Settings), (b.programme p).active = some st →
       let r := b.programme p
       let m := b.meter p
       let l := b.lane p
       let running : Prop := r.state = .running
       let silence : Prop := ∀ v, m.shortTerm = some v → v < st.silenceThreshold
       let heeded (kind : Nat) (seen : Bool) : Prop := (r.state = .priming ∨ r.state = .running ∨ r.state = .starved) ∧ seen = true ∧
         ((r.ownMarks.lookup kind).getD r.runningMark = true ∨ running)
       (condition b (programmeEntry p 0) = true ↔ running ∧ silence) ∧
       (condition b (programmeEntry p 1) = true ↔ heeded 1 l.overloadSeen) ∧
       (condition b (programmeEntry p 2) = true ↔ running ∧ ∃ v, m.shortTerm = some v ∧ st.loudHigh < v) ∧
       (condition b (programmeEntry p 3) = true ↔ running ∧ ¬ silence ∧ ∃ v, m.shortTerm = some v ∧ v < st.loudLow) ∧
       (condition b (programmeEntry p 4) = true ↔ running ∧ ∃ v, m.correlation = some v ∧ v < st.phaseThreshold) ∧
       (condition b (programmeEntry p 5) = true ↔ heeded 5 l.slipSeen) ∧
       (condition b (programmeEntry p 6) = true ↔ r.state = .starved) ∧
       (condition b (programmeEntry p 7) = true ↔ heeded 7 r.memorySeen)) ∧
     (∀ (p : Fin 16) (kind : Fin 8), (b.programme p).active = none → condition b (programmeEntry p kind) = false) ∧
     (∀ q : Fin 8,
       let t := (b.port q).tracker
       (condition b (portEntry q 0) = true ↔ (t.state = .holdover ∨ t.state = .absent) ∧
         ∃ (p : Fin 16) (src : Source), (b.lane p).source = some src ∧ src.port = q ∧
           ((b.programme p).state = .priming ∨ (b.programme p).state = .running ∨ (b.programme p).state = .starved)) ∧
       (condition b (portEntry q 1) = true ↔ t.rangeHeld = true) ∧
       (condition b (portEntry q 2) = true ↔ t.jumpSeen = true)) ∧
     (condition b 152 = true ↔ b.timing.href = .free) ∧ (condition b 153 = true ↔ b.timing.vref = .free)) ∧
  (∀ (s : State) (order : List BoundaryBlock) (d : Boundary) (p : Fin 16) (st : Settings) (src : Source),
     let b := s.body
     let onsets (e : Fin 154) : Prop := (b.entry e).enabled = true ∧ condition b e = true ∧
       (((b.entry e).state = .clear ∧ (b.entry e).onsetHold = 0) ∨ ((b.entry e).state = .onset ∧ (b.entry e).countdown ≤ 1))
     let silence : Prop := onsets (programmeEntry p 0) ∧ st.failover = .onLossOrSilence
     let loss : Prop := onsets (portEntry st.main.port 0) ∧ st.failover ≠ .never
     let lossState := (b.entry (portEntry src.port 0)).state
     b.timing.boundary = some d → d.alarmsDone = false → d.evaluated = [] → d.actions = [] →
     (b.sequencer.state ≠ .committing ∨ d.sequencerDone = true) →
     ((b.programme p).state = .priming ∨ (b.programme p).state = .running ∨ (b.programme p).state = .starved) →
     (b.programme p).active = some st → (b.programme p).pending = none → (b.programme p).requested = none →
     (b.programme p).selector = .main → (b.lane p).source = some st.main → st.backup = some src → src ≠ st.main →
     (b.programme p).guard = 0 → st.revert = .manual → (b.port src.port).tracker.state = .locked →
     lossState ≠ .active → lossState ≠ .latched → (silence ∨ loss) →
     ∃ t, exec (.frameBoundary (.alarms :: order)) s = .next t ∧ (t.body.programme p).selector = .backup ∧
       (t.body.lane p).source = some src ∧
       (t.body.programme p).guard = (if p ∈ d.worked then st.switchGuard else st.switchGuard - 1) ∧
       (silence → StateDue p .silence t) ∧ (¬ silence → StateDue p .loss t)) ∧
  ((∀ (s : State) (order : List BoundaryBlock) (d : Boundary), s.body.timing.boundary = some d →
     ∃ t, exec (.frameBoundary order) s = .next t ∧
       t.body.line.watch = (if d.watchDone = true then s.body.line.watch else s.body.line.watch.map fun w =>
         { w with countdown := if w.countdown ≤ 1 then w.period else w.countdown - 1 }) ∧
       ∀ p : Fin 16, p ∉ d.worked →
         ((s.body.programme p).state = .priming ∨ (s.body.programme p).state = .running ∨
           (s.body.programme p).state = .starved) → (t.body.programme p).requested = none) ∧
   (∀ (s : State) (order : List BoundaryBlock) (d : Boundary) (p : Fin 16) (st : Settings),
     let r := s.body.programme p
     let satisfied : Prop := st.revert = .auto ∧ (s.body.port st.main.port).tracker.state = .locked ∧
       (s.body.entry (portEntry st.main.port 0)).state = .clear
     s.body.timing.boundary = some d → p ∉ d.worked → r.active = some st → r.pending = none → r.requested = none →
     (r.state = .priming ∨ r.state = .running ∨ r.state = .starved) → st.failover = .never →
     let counted (n : Nat) : Prop := ∃ t, exec (.frameBoundary (.programmes :: order)) s = .next t ∧
       (t.body.programme p).guard = r.guard - 1 ∧ (t.body.programme p).revertCount = n ∧
       (t.body.programme p).selector = r.selector ∧ (t.body.lane p).source = (s.body.lane p).source
     (r.selector = .main → counted r.revertCount) ∧ (r.selector = .backup → ¬ satisfied → counted st.revertHold) ∧
     (r.selector = .backup → satisfied → 2 ≤ r.revertCount → counted (r.revertCount - 1))))

/-- DIRECT_COMMIT at an open boundary: the pending set owned by DIRECT becomes the active set and the pending set becomes
absent (R6); no other programme's sets change. The output map is re-formed where the slot list changes and left otherwise
(R11).

What the commit does to the slots of its settings (R12): gain stage, delay, selector and source as `CommitEffects` says
(R13, R74, R75, R93, R125; RIDE keeps a ramp in progress: log 67); a changed layout clears the meter's filters and sums, MONO its correlation (R103, R108). The gain
stages of the other programmes stay.

The output map re-formed names, for a slot that one active list holds, that programme and the place in its list, and is
empty for a slot that none holds (R11). -/
def Obligations.DirectCommit : Prop :=
  (∀ (s : State) (p : Fin 16) (d : Boundary) (w : Pending) (old : Settings),
     s.body.timing.boundary = some d → p ∉ d.committed → (s.body.programme p).pending = some w → w.owner = .direct →
     (s.body.programme p).active = some old →
     ∃ t, exec (.directCommit p) s = .next t ∧ Keeps s t ∧
       t.body.timing = { s.body.timing with frameCounter := d.frame,
                                            boundary := some { d with committed := p :: d.committed } } ∧
       (t.body.programme p).active = some w.settings ∧ (t.body.programme p).pending = none ∧
       (∀ o : Fin 16, o ≠ p → (t.body.programme o).active = (s.body.programme o).active ∧
         (t.body.programme o).pending = (s.body.programme o).pending) ∧
       (old.slots = w.settings.slots → t.body.outputMap = s.body.outputMap) ∧
       (old.slots ≠ w.settings.slots → ∀ n : Fin 64, t.body.outputMap[n.val]? = some (slotEntry t.body n.val)) ∧
       t.body.ports = s.body.ports ∧ t.body.contacts = s.body.contacts ∧ t.body.scenes = s.body.scenes) ∧
  (∀ (s : State) (p : Fin 16) (d : Boundary) (w : Pending) (old : Settings),
     s.body.timing.boundary = some d → p ∉ d.committed → (s.body.programme p).pending = some w → w.owner = .direct →
     (s.body.programme p).active = some old →
     ∃ t, exec (.directCommit p) s = .next t ∧ CommitEffects s.body p old w d.frame t.body ∧
       (∀ o : Fin 16, o ≠ p → t.body.gain o = s.body.gain o) ∧
       (old.layout = w.settings.layout →
         { t.body.meter p with sceneResetOwed := none } = { s.body.meter p with sceneResetOwed := none }) ∧
       (old.layout ≠ w.settings.layout →
         let m := t.body.meter p
         m.filters = List.replicate 8 {} ∧ m.squares = List.replicate 8 0 ∧ m.sumLL = 0 ∧ m.sumRR = 0 ∧ m.sumLR = 0 ∧
           m.samples = 0 ∧ m.ring = (s.body.meter p).ring ∧ (w.settings.layout = .mono → m.correlation = none))) ∧
  (∀ (b : Body) (n : Nat),
     (∀ (p : Fin 16) (i : Nat) (l : List Nat), (b.programme p).active.bind Settings.slots = some l → l[i]? = some n →
       (∀ j, j < i → l[j]? ≠ some n) →
       (∀ (o : Fin 16) (m : List Nat), o < p → (b.programme o).active.bind Settings.slots = some m → n ∉ m) →
       slotEntry b n = some (p, i)) ∧
     ((∀ (o : Fin 16) (m : List Nat), (b.programme o).active.bind Settings.slots = some m → n ∉ m) →
       slotEntry b n = none))

/-- SELECT_APPLY at an open boundary, for a programme with a requested selector and no DIRECT set to commit: the guard
countdown goes down; a side the selector already names, or whose source is none, makes no switch; else the selector takes
the side, and where the source differs the lane takes it, the countdowns are loaded, and in RUNNING a splice mark is laid
at the write sequence (R88, R92, R94). Said where the revert test makes nothing more of it: the side is MAIN or the revert
policy MANUAL. The requested selector is absent after it.

REVERT at an open boundary: on BACKUP with the revert policy AUTO, the main source's port LOCKED and its LOSS entry
CLEAR, the countdown at 1 or 0 and the guard run out, the selector returns to MAIN and the lane to the main source (R88,
R91). -/
def Obligations.SelectorSwitches : Prop :=
  (∀ (s : State) (p : Fin 16) (d : Boundary) (st : Settings) (side : Selector),
     s.body.timing.boundary = some d → p ∉ d.worked → carrying (s.body.programme p).state = true →
     (s.body.programme p).requested = some side → (s.body.programme p).active = some st →
     (s.body.programme p).pending = none → (side = .main ∨ st.revert = .manual) →
     ∃ t, exec (.selectApply p) s = .next t ∧ Keeps s t ∧ t.body.timing.frameCounter = d.frame ∧
       (t.body.programme p).requested = none ∧ t.body.sets = s.body.sets ∧ t.body.ports = s.body.ports ∧
       t.body.contacts = s.body.contacts ∧ t.body.scenes = s.body.scenes ∧
       ((side = (s.body.programme p).selector ∨ selectedSource st side = none) →
         (t.body.programme p).selector = (s.body.programme p).selector ∧
         (t.body.programme p).guard = (s.body.programme p).guard - 1 ∧ (t.body.lane p).source = (s.body.lane p).source ∧
         (t.body.lane p).marks = (s.body.lane p).marks) ∧
       (∀ src : Source, side ≠ (s.body.programme p).selector → selectedSource st side = some src →
         (t.body.programme p).selector = side ∧
         ((s.body.lane p).source ≠ some src →
           (t.body.lane p).source = some src ∧ (t.body.programme p).guard = st.switchGuard ∧
           (t.body.programme p).revertCount = st.revertHold ∧
           ((s.body.programme p).state = .running →
             (t.body.lane p).marks.getLast? = some { seq := (s.body.lane p).writeSeq, port := src.port,
                                                     slot := src.slot, q := lockedQ s.body src.port })))) ∧
  (∀ (s : State) (p : Fin 16) (d : Boundary) (st : Settings),
     s.body.timing.boundary = some d → p ∉ d.worked → carrying (s.body.programme p).state = true →
     (s.body.programme p).requested = none → (s.body.programme p).active = some st → (s.body.programme p).pending = none →
     (s.body.programme p).selector = .backup → st.revert = .auto → isLocked s.body st.main.port = true →
     (s.body.entry (lossEntry st.main.port)).state = .clear → (s.body.programme p).revertCount ≤ 1 →
     (s.body.programme p).guard ≤ 1 →
     ∃ t, exec (.revert p) s = .next t ∧ Keeps s t ∧ t.body.timing.frameCounter = d.frame ∧
       (t.body.programme p).selector = .main ∧ (t.body.lane p).source = some st.main ∧
       ((s.body.lane p).source ≠ some st.main →
         (t.body.programme p).guard = st.switchGuard ∧ (t.body.programme p).revertCount = st.revertHold) ∧
       t.body.sets = s.body.sets ∧ t.body.ports = s.body.ports ∧ t.body.scenes = s.body.scenes)

/-- CUT_MADE at an open boundary other than that of the commit, with no tail active and no splice marks (R76, R77, R78). The
lane target is the change's and the setpoint follows it; with d = write sequence less setpoint: at d the change is complete;
otherwise a fade tail of 64 keeps the old place, accumulator and Q, and the reader stands at d, or at the floor, with the
limit override FAST, where d lies behind the reader and before the floor. The accumulator stays. -/
def Obligations.CutMade : Prop :=
  ∀ (s : State) (p : Fin 16) (d : Boundary) (c : DelayChange) (r : RatioRecord) (line : Line),
    let l := s.body.lane p
    let sp := setpointFor c.target r.q line
    let dest := l.writeSeq - cnt sp.1
    let floored := seqBefore dest l.readSeq && seqBefore dest (cutFloor l line)
    s.body.timing.boundary = some d → p ∉ d.cut → l.change = some c → c.phase = .due → c.boundary ≠ d.frame →
    l.tail = none → l.marks = [] → l.ratio = some r → (s.body.programme p).line = some line →
    (s.body.programme p).state = .running →
    ∃ t, exec (.cutMade p) s = .next t ∧ Keeps s t ∧ t.body.timing.frameCounter = d.frame ∧
      (t.body.lane p).target = c.target ∧ (t.body.lane p).setpoint = some sp.1 ∧
      (t.body.lane p).delayLimited = sp.2 ∧ (t.body.lane p).acc = l.acc ∧ (t.body.lane p).writeSeq = l.writeSeq ∧
      (dest = l.readSeq → (t.body.lane p).change = none ∧ (t.body.lane p).tail = none ∧
        (t.body.lane p).readSeq = l.readSeq) ∧
      (dest ≠ l.readSeq →
        (t.body.lane p).readSeq = (if floored then cutFloor l line else dest) ∧
        (t.body.lane p).tail = some { readSeq := l.readSeq, acc := l.acc, q := r.q, remaining := 64, stop := none,
                                      historyStart := l.historyStart } ∧
        (t.body.lane p).change = some { c with phase := .tail, floored := floored } ∧
        (t.body.lane p).overrideFast = (l.overrideFast || floored)) ∧
      t.body.sets = s.body.sets ∧ t.body.ports = s.body.ports ∧ t.body.contacts = s.body.contacts

/-- ONSET_HOLD_EXPIRY and RELEASE_HOLD_EXPIRY at an open boundary at which the entry has not been evaluated (R143, R144, R145,
R151, R153). An ONSET with its countdown run out, its condition holding, becomes ACTIVE with an onset; a RELEASE with its
countdown run out, its condition not holding, becomes CLEAR with its flag cleared. Both take the frame count of the
boundary as change frame, no other entry changes, and the contacts stand as R151 says. The entry's seen flag is taken, it
is not evaluated again at this boundary, its own running mark is set anew (R141), and no programme switches yet: the actions
raised wait for the rest of the table (log 23), and so does its report, owed and not placed, but where one was owed before
(log 63).

The reports of one evaluation enter the queue in entry order (R153): of the messages that such a FRAME_BOUNDARY places, the
ALARM reports name rising entries, those withheld among them (log 63), and no report of an
entry behind one that still owes is among them. -/
def Obligations.HoldsExpire : Prop :=
  (∀ (s : State) (e : Fin 154) (d : Boundary),
     s.body.timing.boundary = some d → d.alarmsDone = false → e ∉ d.evaluated → (s.body.entry e).enabled = true →
     (s.body.entry e).countdown ≤ 1 →
     let was := (s.body.entry e).reportOwed
     let after (x : Entry) (t : State) : Prop :=
       Keeps s t ∧ t.body.timing.frameCounter = d.frame ∧ contactsRight t.body ∧
       { t.body.entry e with reportOwed := true } = { x with reportOwed := true, withheld := !was } ∧
       (was = false → (t.body.entry e).reportOwed = true) ∧ AlarmDue e t ∧
       (∀ o : Fin 154, o ≠ e → { t.body.entry o with reportOwed := false } = { s.body.entry o with reportOwed := false }) ∧
       (∀ q : Fin 8, t.body.port q = { s.body.port q with tracker := { (s.body.port q).tracker with
         jumpSeen := (s.body.port q).tracker.jumpSeen && e != portEntry q 2 } }) ∧
       t.body.scenes = s.body.scenes ∧ t.body.sets = s.body.sets ∧
       t.body.timing.boundary.map Boundary.evaluated = some (e :: d.evaluated) ∧
       ∀ p : Fin 16, (t.body.lane p).slipSeen = ((s.body.lane p).slipSeen && e != programmeEntry p 5) ∧
         (t.body.lane p).overloadSeen = ((s.body.lane p).overloadSeen && e != programmeEntry p 1) ∧
         (t.body.programme p).memorySeen = ((s.body.programme p).memorySeen && e != programmeEntry p 7) ∧
         (t.body.programme p).selector = (s.body.programme p).selector ∧ (t.body.lane p).source = (s.body.lane p).source ∧
         (t.body.programme p).runningMark = (s.body.programme p).runningMark ∧
         ∀ k : Fin 8, (t.body.programme p).markOf k =
           if e = programmeEntry p k then (s.body.programme p).state == .running else (s.body.programme p).markOf k
     ((s.body.entry e).state = .onset → condition s.body e = true →
       ∃ t, exec (.onsetHoldExpiry e) s = .next t ∧
         after { s.body.entry e with state := .active, unacked := true, countdown := 0, reportOwed := true,
                                     onsets := min 65535 ((s.body.entry e).onsets + 1), changeFrame := d.frame } t) ∧
     ((s.body.entry e).state = .release → condition s.body e = false →
       ∃ t, exec (.releaseHoldExpiry e) s = .next t ∧
         after { s.body.entry e with state := .clear, unacked := false, reportOwed := true, changeFrame := d.frame } t)) ∧
  (∀ (s : State) (order : List BoundaryBlock) (d : Boundary),
     s.body.timing.boundary = some d → d.alarmsDone = false →
     (s.body.sequencer.state ≠ .committing ∨ d.sequencerDone = true) → (∀ m ∈ s.tx.carry, m.kind = .completion) →
     ∃ (t : State) (placed : List Message), exec (.frameBoundary (.alarms :: order)) s = .next t ∧
       t.tx.queue = s.tx.queue ++ placed ∧
       let names (m : Message) (e : Nat) : Prop := m.kind = .alarm ∧ m.fields.head? = some (num2 e)
       placed.Pairwise (fun m o => ∀ x y : Nat, names m x → names o y → x < y) ∧
       ∀ e : Fin 154, (t.body.entry e).reportOwed = true → ∀ m ∈ placed, ∀ y : Nat, names m y → y < e.val)

/-! ## The data path and its cadences -/

/-- HOUSE_SAMPLE with a house sample owed: each of its parts in terms of what the blocks hold after it. The lane of a
programme that is not RUNNING gives zeros marked as made outside RUNNING (R69). A meter outside VACANT takes its lane's
output frame (R105). A gain stage outside VACANT advances its ramp by one house sample (R126), an underrun first taking back
the rider's decision of this house sample and marking the step closed at it disturbed (R105, R129, log 44); in RUNNING the limiter settles the reduction (R131, log 14), and its
output frame is the lane's scaled by the applied gain and the reduction in RUNNING and zero otherwise (R124). Each slot carries what its
output map entry names, zero where the entry is empty or its programme is not RUNNING (R133). Settings, house timing but
for the owed count, ports, alarms, scenes and the frame now sent are as they were.

HOUSE_SAMPLE, owed, of a lane with no fade tail. RUNNING without marks: the stepper adds the increment (log 43) and consumes
a frame for each Q in the accumulator (R66); the output is the cubic sum of frames r − 1 to r + 2 (R68) under the fade-in,
rounded and limited (R69); a frame not held is zero, as before the history start, but then late, C memory errors (R58, R67).
Consumption that reaches the oldest mark stops there (R98). One that takes the occupancy below 4 is an underrun (R80; the
accumulator, log 38). A PRIMING lane, LOCKED and filled to its setpoint, enters RUNNING and is stepped (R73); another stays.
A frame that this stepping brings in is late where it is not held (log 19).

The frame of an output port (R134): 256 bit clocks, eight slots of 32, each with its 24 bits, most significant first, and
eight zeros; the sync marks the first. -/
def Obligations.HouseSample : Prop :=
  (∀ s : State, s.body.timing.samplesOwed ≠ 0 →
     ∃ t, exec .houseSample s = .next t ∧ Keeps s t ∧
       t.body.timing = { s.body.timing with samplesOwed := s.body.timing.samplesOwed - 1 } ∧
       t.body.ports = s.body.ports ∧ t.body.contacts = s.body.contacts ∧ t.body.scenes = s.body.scenes ∧
       t.body.sets = s.body.sets ∧ t.body.outputMap = s.body.outputMap ∧ t.body.sending = s.body.sending ∧
       (∀ e : Fin 154, { t.body.entry e with reportOwed := false } = { s.body.entry e with reportOwed := false }) ∧
       (∀ p : Fin 16,
         ((t.body.programme p).state ≠ .running → (t.body.lane p).output =
           { samples := List.replicate (channels t.body p) 0, disturbed := false, outside := true }) ∧
         ((t.body.programme p).state = .running → (t.body.lane p).output.outside = false) ∧
         ((t.body.programme p).active = none → (s.body.programme p).state ≠ .running → (s.body.programme p).state ≠ .priming →
           { t.body.meter p with sceneResetOwed := none } = { s.body.meter p with sceneResetOwed := none }) ∧
         (∀ st : Settings, (t.body.programme p).active = some st →
           (let m := s.body.meter p
            let takes (y : Meter) : Prop := { t.body.meter p with sceneResetOwed := none } =
              { y.take st.layout (t.body.lane p).output with sceneResetOwed := none }
            ((t.body.programme p).state = .running → takes m) ∧
            ((s.body.programme p).state ≠ .running → (s.body.programme p).state ≠ .priming → takes m) ∧
            ((s.body.programme p).state = .running → (t.body.programme p).state ≠ .running →
              takes (m.disturbClosed s.body.timing.sampleCounter)) ∧
            (m.closed.all (fun c => decide (c.sample ≠ s.body.timing.sampleCounter)) = true → takes m)) ∧
           (let x := s.body.gain p
            let back := x.takeBack s.body.timing.sampleCounter
            let stands (y : GainStage) : Prop := (t.body.gain p).applied = y.advance.applied ∧
              (t.body.gain p).ramp = y.advance.ramp ∧ (t.body.gain p).g = y.g ∧ (t.body.gain p).rider = y.rider ∧
              (t.body.gain p).desired = y.desired
            let peak := (t.body.lane p).output.samples.foldl (fun m v => max m v.toInt.natAbs) 0
            let most := ceilingValue st.ceiling
            let released := x.gr - 10 * st.limiterRelease
            let settled := if peakPasses peak (t.body.gain p).applied most released then released
              else smallestReduction peak (t.body.gain p).applied most
            ((t.body.programme p).state = .running → stands x ∧ (t.body.gain p).gr = settled ∧
              (t.body.gain p).activations =
                if x.gr = 0 ∧ settled ≠ 0 then min 65535 (x.activations + 1) else x.activations) ∧
            ((s.body.programme p).state ≠ .running → (s.body.programme p).state ≠ .priming → stands x) ∧
            ((s.body.programme p).state = .running → (t.body.programme p).state ≠ .running →
              stands back ∧ (t.body.gain p).gr = 0) ∧
            (x.judged.all (fun j => decide (j.sample ≠ s.body.timing.sampleCounter)) = true → stands x)) ∧
           (t.body.gain p).output =
             if (t.body.programme p).state = .running then
               (t.body.lane p).output.samples.map (scaleSample (t.body.gain p).applied (t.body.gain p).gr)
             else (t.body.lane p).output.samples.map fun _ => 0)) ∧
       (∀ n : Nat, n < s.body.outputMap.length → t.body.formed[n]? = some (
         match s.body.outputMap.getD n none with
         | none => 0
         | some (p, i) => if (t.body.programme p).state = .running then (t.body.gain p).output.getD i 0 else 0))) ∧
  (∀ (s : State) (p : Fin 16) (st : Settings),
     let l := s.body.lane p
     let r := s.body.programme p
     let c := channelsOf st.layout
     s.body.timing.samplesOwed ≠ 0 → r.active = some st → l.tail = none →
     (∀ x : RatioRecord, r.state = .running → l.ratio = some x → 0 < x.q →
       let acc := l.acc + l.stepIncrement
       let n := acc / x.q
       (l.marks = [] → (n = 0 ∨ n + 4 ≤ l.occupancy) →
         ∃ t, exec .houseSample s = .next t ∧
           (let m := t.body.lane p
            let frame (seq : Count) (i : Nat) : Int := if seqBefore seq l.historyStart then 0 else
              ((m.held seq).map fun f => (f.samples.getD i 0).toInt).getD 0
            let late (seq : Count) : Bool := !seqBefore seq l.historyStart && (m.held seq).isNone
            let window := [m.readSeq - 1, m.readSeq, m.readSeq + 1, m.readSeq + 2]
            let missing := (window.filter late).length
            let F : Int := (65536 * m.acc / x.q : Nat)
            let value (i : Nat) : Int :=
              (-F * 2 ^ 32 + 2 * F ^ 2 * 2 ^ 16 - F ^ 3) * frame (m.readSeq - 1) i +
              (2 ^ 49 - 5 * F ^ 2 * 2 ^ 16 + 3 * F ^ 3) * frame m.readSeq i +
              (F * 2 ^ 32 + 4 * F ^ 2 * 2 ^ 16 - 3 * F ^ 3) * frame (m.readSeq + 1) i +
              (-F ^ 2 * 2 ^ 16 + F ^ 3) * frame (m.readSeq + 2) i
            (t.body.programme p).state = .running ∧ m.readSeq = l.readSeq + cnt n ∧ m.acc = acc % x.q ∧ m.ratio = some x ∧
            m.increment = l.increment ∧ m.writeSeq = l.writeSeq ∧ m.historyStart = l.historyStart ∧ m.marks = [] ∧
            m.tail = none ∧ m.fadeIn = l.fadeIn - 1 ∧ (t.body.programme p).slips = r.slips ∧
            m.output.samples = ((List.range c).map fun i => toSample (clampInt (-8388607) 8388607
              (roundAway (value i * ((64 - l.fadeIn : Nat) : Int)) (2 ^ 55)))) ∧
            (m.output.disturbed = true ↔ l.fadeIn ≠ 0 ∨
              ∃ seq ∈ window, seqBefore seq l.historyStart = false ∧ (m.held seq).all HeldFrame.muted = true) ∧
            (t.body.programme p).memoryErrors =
              (if missing = 0 then r.memoryErrors else min 65535 (r.memoryErrors + missing * c)) ∧
            (t.body.programme p).memorySeen = (r.memorySeen || missing != 0))) ∧
       (∀ (k : SpliceMark) (rest : List SpliceMark),
         let q := ((lockedQ s.body k.port).or k.q).getD (8 * nominalSpan (s.body.port k.port).cls)
         l.marks = k :: rest → k.seq = l.readSeq + 1 → 1 ≤ n → 5 ≤ l.occupancy → 0 < q →
         ∃ t, exec .houseSample s = .next t ∧
           (let m := t.body.lane p
            (t.body.programme p).state = .running ∧ m.readSeq = k.seq ∧ m.historyStart = k.seq ∧ m.marks = rest ∧
            m.ratio = some { port := k.port, q := q } ∧ m.acc = q / 2 ∧ m.fadeIn = 63 ∧ m.increment = l.increment ∧
            m.output.samples = List.replicate c 0 ∧ m.output.disturbed = true ∧ (t.body.programme p).slips = r.slips)) ∧
       (l.marks = [] → n ≠ 0 → l.occupancy < n + 4 →
         ∃ t, exec .houseSample s = .next t ∧
           (let m := t.body.lane p
            let locked : Prop := ∃ src : Source, l.source = some src ∧ (s.body.port src.port).tracker.state = .locked
            (locked → (t.body.programme p).state = .priming ∧ StateDue p .underrun t) ∧
            (¬ locked → (t.body.programme p).state = .starved ∧ StateDue p .starved t) ∧
            m.readSeq = l.readSeq + cnt (l.occupancy - 4) ∧ m.acc = acc - (l.occupancy - 4) * x.q ∧
            m.writeSeq = l.writeSeq ∧ m.historyStart = l.historyStart ∧
            (t.body.programme p).slips = min 65535 (r.slips + 1) ∧ m.slipSeen = true ∧ m.stickySlip = true ∧
            m.fadeIn = 0 ∧ m.tail = none ∧ m.marks = [] ∧ m.readRequest = none ∧ m.change = none ∧
            m.target = (l.change.map DelayChange.target).getD l.target ∧
            m.output = { samples := List.replicate c 0, disturbed := false, outside := true } ∧
            (t.body.gain p).gr = 0))) ∧
     (r.state = .priming →
       (∀ (src : Source) (q n : Nat), l.source = some src → (s.body.port src.port).tracker.state = .locked →
         (s.body.port src.port).tracker.q = some q → 0 < q → l.setpoint = some n → n ≤ l.occupancy → l.marks = [] →
         let k := (q / 2 + 524288) / q
         (k = 0 ∨ k + 4 ≤ n) →
         ∃ t, exec .houseSample s = .next t ∧
           (let m := t.body.lane p
            (t.body.programme p).state = .running ∧ (t.body.programme p).runningMark = true ∧ StateDue p .primed t ∧
            m.ratio = some { port := src.port, q := q } ∧ m.increment = 524288 ∧
            m.readSeq = l.writeSeq - cnt n + cnt k ∧ m.acc = (q / 2 + 524288) % q ∧ m.fadeIn = 63 ∧
            m.writeSeq = l.writeSeq ∧ m.historyStart = l.historyStart ∧ m.output.outside = false ∧
            m.output.disturbed = true ∧ (t.body.programme p).slips = r.slips)) ∧
       (((∀ src : Source, l.source = some src → (s.body.port src.port).tracker.state ≠ .locked) ∨ l.setpoint = none ∨
           ∃ n, l.setpoint = some n ∧ l.occupancy < n) →
         ∃ t, exec .houseSample s = .next t ∧ (t.body.programme p).state = .priming ∧
           (t.body.lane p).readSeq = l.readSeq ∧ (t.body.lane p).output.outside = true))) ∧
  (∀ (b : Body) (q : Fin 8), b.sending.length = 64 →
     (portFrame b q).length = 256 ∧
     (∀ i : Nat, i < 256 → (portFrame b q)[i]? =
       some (decide (i % 32 < 24) && (b.sending.getD (8 * q.val + i / 32) 0).getLsbD (23 - i % 32))) ∧
     ∀ i : Nat, frameSync i = true ↔ i = 0)

/-- HOUSE_SAMPLE, owed, of a RUNNING lane with an active fade tail, a splice mark ahead, or both (R69, R77, R97): the reader and
the tail each step by their own accumulator and Q; the output is the reader's value under the fade-in and the dip, mixed
with the tail's under the dip of its stop by the remaining count, frames at or after a mark or stop counting as zero (log
20), those before the history start of each too (log 18); and the count goes down by 1. A tail that its next frame would
take below an occupancy of 4, or to its stop, is at 0, its remaining count and its sound gone.

FADE_TAIL_END of a tail whose remaining count is 0 (R77, R76, R78): the tail is gone; a change in TAIL phase goes on in
REMAINDER where its cut stopped at the floor, and otherwise completes, the override back at none and its DELAY operation
no longer in flight.

RAMP_END: a ramp that has reached 4,800 becomes absent, and the applied gain stays where the ramp left it (R126). -/
def Obligations.TailAndRampEnd : Prop :=
  (∀ (s : State) (p : Fin 16) (st : Settings) (x : RatioRecord),
     let l := s.body.lane p
     let c := channelsOf st.layout
     let acc := l.acc + l.stepIncrement
     let n := acc / x.q
     let stop := l.marks.head?.map SpliceMark.seq
     s.body.timing.samplesOwed ≠ 0 → (s.body.programme p).active = some st → (s.body.programme p).state = .running →
     l.ratio = some x → 0 < x.q → (n = 0 ∨ n + 4 ≤ l.occupancy) → (∀ z, stop = some z → n < (z - l.readSeq).toNat) →
     let F (acc q : Nat) : Int := (65536 * acc / q : Nat)
     let frame (w : Lane) (start : Count) (stop : Option Count) (seq : Count) (i : Nat) : Int :=
       if stop.any (fun z => seqUpTo z seq) = true ∨ seqBefore seq start = true then 0
       else ((w.held seq).map fun f => (f.samples.getD i 0).toInt).getD 0
     let value (w : Lane) (r : Count) (F : Int) (start : Count) (stop : Option Count) (i : Nat) : Int :=
       (-F * 2 ^ 32 + 2 * F ^ 2 * 2 ^ 16 - F ^ 3) * frame w start stop (r - 1) i +
       (2 ^ 49 - 5 * F ^ 2 * 2 ^ 16 + 3 * F ^ 3) * frame w start stop r i +
       (F * 2 ^ 32 + 4 * F ^ 2 * 2 ^ 16 - 3 * F ^ 3) * frame w start stop (r + 1) i +
       (-F ^ 2 * 2 ^ 16 + F ^ 3) * frame w start stop (r + 2) i
     let dip (r : Count) (stop : Option Count) : Int := (stop.map fun z => (min 64 (z - r).toNat : Int)).getD 64
     let mixed (m : Lane) (old : Nat → Int) (k : Nat) : Prop :=
       m.output.samples = (List.range c).map fun i => toSample (clampInt (-8388607) 8388607 (roundAway
         (value m m.readSeq (F m.acc x.q) m.historyStart stop i * ((64 - l.fadeIn : Nat) * dip m.readSeq stop * (64 - k : Nat)) +
           old i * (64 * k)) (2 ^ 67)))
     let stepped (m : Lane) : Prop := m.readSeq = l.readSeq + cnt n ∧ m.acc = acc % x.q ∧ m.ratio = some x ∧
       m.marks = l.marks ∧ m.writeSeq = l.writeSeq ∧ m.historyStart = l.historyStart ∧ m.fadeIn = l.fadeIn - 1
     (l.tail = none →
       ∃ t, exec .houseSample s = .next t ∧ stepped (t.body.lane p) ∧ (t.body.lane p).tail = none ∧
         mixed (t.body.lane p) (fun _ => 0) 0 ∧
         (dip (t.body.lane p).readSeq stop < 64 → (t.body.lane p).output.disturbed = true)) ∧
     (∀ k : FadeTail, l.tail = some k → k.remaining ≠ 0 → 0 < k.q →
       let sum := k.acc + 524288
       let j := sum / k.q
       ((j = 0 ∨ j + 4 ≤ (l.writeSeq - k.readSeq).toNat) → (∀ z, k.stop = some z → j < (z - k.readSeq).toNat) →
         ∃ t, exec .houseSample s = .next t ∧ stepped (t.body.lane p) ∧
           (let m := t.body.lane p
            let y := { k with readSeq := k.readSeq + cnt j, acc := sum % k.q }
            m.tail = some { y with remaining := k.remaining - 1 } ∧ m.output.disturbed = true ∧
            mixed m (fun i => value m y.readSeq (F y.acc k.q) k.historyStart k.stop i * dip y.readSeq k.stop)
              k.remaining)) ∧
       ((j ≠ 0 ∧ (l.writeSeq - k.readSeq).toNat < j + 4 ∨
           ∃ z, k.stop = some z ∧ 1 ≤ (z - k.readSeq).toNat ∧ (z - k.readSeq).toNat ≤ j) →
         ∃ t, exec .houseSample s = .next t ∧ stepped (t.body.lane p) ∧
           (t.body.lane p).tail.map FadeTail.remaining = some 0 ∧ mixed (t.body.lane p) (fun _ => 0) 0))) ∧
  (∀ (s : State) (p : Fin 16) (x : FadeTail), (s.body.lane p).tail = some x → x.remaining = 0 →
     let made (b : Body) := ∃ t, exec (.fadeTailEnd p) s = .next t ∧ Becomes s b t
     let ended := s.body.onLane p fun l => { l with tail := none, change := none, overrideFast := false }
     ((s.body.lane p).change = none → made (s.body.onLane p fun l => { l with tail := none })) ∧
     (∀ c : DelayChange, (s.body.lane p).change = some c →
       (c.phase ≠ .tail → made (s.body.onLane p fun l => { l with tail := none })) ∧
       (c.phase = .tail → c.floored = true →
         made (s.body.onLane p fun l => { l with tail := none, change := some { c with phase := .remainder } })) ∧
       (c.phase = .tail → c.floored = false → (∀ tag, c.origin ≠ some (.operation tag)) → made ended) ∧
       (∀ tag : Byte, c.phase = .tail → c.floored = false → c.origin = some (.operation tag) →
         made (ended.onLine fun l => { l with deferred := l.deferred.filter fun d => d.tag ≠ tag })))) ∧
  (∀ (s : State) (p : Fin 16) (r : Ramp), (s.body.gain p).ramp = some r → 4800 ≤ r.position →
     ∃ t, exec (.rampEnd p) s = .next t ∧ Becomes s (s.body.onGain p fun x => { x with ramp := none }) t)

/-- REGULATION_TICK, due: for a RUNNING lane with no ended tail the ratio record takes the Q of its port's tracker where
that is LOCKED, the setpoint is computed from it, and the increment is 524,288 where the error is from -1 to +1, else
524,288 + 16 × error within the limit in force (R70, R71, R72). A lane that is not RUNNING keeps what it holds. Every
other block is as it was; of the deferred table, the DELAY operations whose change is over, and no others, are no longer in
flight, and complete SUCCESS (R75, R77). -/
def Obligations.RegulationTick : Prop :=
  ∀ s : State, s.body.timing.regulationDue = true →
    ∃ t, exec .regulationTick s = .next t ∧
      (let ended (d : Deferred) : Bool := (List.finRange 16).any fun p =>
         (s.body.lane p).change.any (fun c => c.origin = some (.operation d.tag)) && (t.body.lane p).change.isNone
       Becomes s { s.body with
         timing := { s.body.timing with regulationDue := false }, lanes := t.body.lanes
         line := { s.body.line with deferred := s.body.line.deferred.filter fun d => !ended d } } t ∧
       ∀ d : Deferred, InFlight d s → ended d = true → CompletionDue d .success [] t) ∧
      (∀ p : Fin 16, (s.body.programme p).state ≠ .running →
        { t.body.lane p with sceneDelayOwed := none } = { s.body.lane p with sceneDelayOwed := none }) ∧
      (∀ (p : Fin 16) (r : RatioRecord) (line : Line) (st : Settings), (s.body.programme p).state = .running →
        (s.body.lane p).tail.all (fun x => x.remaining ≠ 0) = true → (s.body.lane p).ratio = some r →
        (s.body.programme p).line = some line → (s.body.programme p).active = some st →
        let tracker := (s.body.port r.port).tracker
        let q := if tracker.state = .locked then tracker.q.getD r.q else r.q
        let sp := setpointFor (s.body.lane p).target q line
        let error : Int := (s.body.lane p).occupancy - sp.1
        let limit : Int := if (s.body.lane p).overrideFast then 524 else
          match st.slewLimit with
          | .fine => 131
          | .normal => 262
          | .fast => 524
        (t.body.lane p).ratio = some { r with q := q } ∧ (t.body.lane p).setpoint = some sp.1 ∧
        (t.body.lane p).delayLimited = sp.2 ∧
        ((t.body.lane p).increment : Int) =
          (if -1 ≤ error ∧ error ≤ 1 then 524288 else 524288 + max (-limit) (min limit (16 * error))) ∧
        (t.body.lane p).change =
          (if -1 ≤ error ∧ error ≤ 1 ∧ (s.body.lane p).change.any (fun c => c.phase = .slewing || c.phase = .remainder)
            then none else (s.body.lane p).change) ∧
        (t.body.lane p).readSeq = (s.body.lane p).readSeq ∧ (t.body.lane p).acc = (s.body.lane p).acc ∧
        (t.body.lane p).tail = (s.body.lane p).tail ∧ (t.body.lane p).window = (s.body.lane p).window)

/-- STEP_BOUNDARY, due, for each meter that has not yet taken it. A meter not yet started becomes started, its sums and
disturbed mark cleared, and its ring is left (R103). A started one puts the energy and disturbed mark of its step into its
ring, dropping the oldest of thirty, and works out the figures (R106 to R108); the energy of a step without a house sample
is a free value (log 15). In RIDE the rider judges by them (R127, R128), and no other gain stage changes. Everything that is not a meter, a gain stage,
the sweep engine, the deferred table or the step boundary itself is as it was.

The gating block of a step boundary (R110 to R114, R117), said of a programme beside which no other offers one. A block of
four undisturbed steps at -700 decilu or above, in INTEGRATING, belongs to bin min(749, loudness + 700). With no sweep of the
programme it is admitted: its bin and the count go up by 1. In a sweep it joins the pending blocks. Where four are pending
the sweep is abandoned and counted, and the five are admitted in order, as far as the limit. The count at 16,777,215 makes
the state FULL. The programme joins the request queue, once, and an idle engine starts at its lowest occupied bin. Any other
block leaves no trace. -/
def Obligations.StepBoundary : Prop :=
  (∀ (s : State) (done : List (Fin 16)), s.body.timing.stepDue = some done →
     ∃ t, exec .stepBoundary s = .next t ∧
       Becomes s { s.body with timing := { s.body.timing with stepDue := none }
                               meters := t.body.meters, gains := t.body.gains, sweep := t.body.sweep
                               sweepQueue := t.body.sweepQueue, line := t.body.line, freeDraws := t.body.freeDraws } t ∧
       (∀ p : Fin 16, p ∉ done → ∀ st : Settings, (s.body.programme p).active = some st →
         let m := s.body.meter p
         let n := t.body.meter p
         n.samples = 0 ∧ n.squares = List.replicate 8 0 ∧ n.sumLL = 0 ∧ n.sumRR = 0 ∧ n.sumLR = 0 ∧
         n.disturbed = false ∧ n.started = true ∧ n.filters = m.filters ∧
         (m.started = false → n.ring = m.ring ∧ n.momentary = m.momentary ∧ n.shortTerm = m.shortTerm ∧
           n.correlation = m.correlation ∧ t.body.gain p = s.body.gain p) ∧
         (m.started = true →
           (∃ e : Nat, (m.samples ≠ 0 → e = stepEnergy st.layout m) ∧
             n.ring = (if 30 ≤ m.ring.length then m.ring.drop 1 else m.ring) ++
               [{ energy := e, disturbed := m.disturbed }]) ∧
           n.momentary = ringLoudness n.ring 4 ∧ n.shortTerm = ringLoudness n.ring 30 ∧
           n.correlation = (if st.layout = .mono then none else correlationOf m.sumLL m.sumRR m.sumLR) ∧
           (st.gainMode ≠ .ride → t.body.gain p = s.body.gain p) ∧
           (st.gainMode = .ride →
             (∀ v : Int, (s.body.programme p).state = .running → m.disturbed = false → n.shortTerm = some v →
               st.riderGate ≤ v →
               let g := (s.body.gain p).g
               let want := max (-2000) (min 1200 (10 * (st.rideTarget - v)))
               let away := want - g
               (t.body.gain p).desired = some want ∧
               ((away.natAbs : Int) ≤ 10 * st.rideTolerance →
                 (t.body.gain p).rider = .settled ∧ (t.body.gain p).g = g ∧ (t.body.gain p).ramp = (s.body.gain p).ramp) ∧
               (10 * (st.rideTolerance : Int) < away.natAbs →
                 (t.body.gain p).rider = .moving ∧
                 (t.body.gain p).g = g + max (-(st.rideRate : Int)) (min st.rideRate away))) ∧
             (((s.body.programme p).state ≠ .running ∨ m.disturbed = true ∨ n.shortTerm = none ∨
                 n.shortTerm.any (fun v => v < st.riderGate) = true) →
               t.body.gain p = { s.body.gain p with rider := .gated, desired := none })))) ∧
       (∀ p : Fin 16, p ∈ done → t.body.gain p = s.body.gain p ∧ (t.body.meter p).ring = (s.body.meter p).ring)) ∧
  (∀ (s : State) (done : List (Fin 16)) (p : Fin 16) (st : Settings),
     let m := s.body.meter p
     let queue := s.body.sweepQueue
     let newest := m.ring.drop (m.ring.length - 3)
     let swept : Prop := ∃ w : Sweep, s.body.sweep = some w ∧ w.programme = p
     s.body.timing.stepDue = some done → p ∉ done → (s.body.programme p).active = some st → m.started = true →
     m.resetDue = none → m.countsAgree = true → m.admitted < 16777215 →
     (∀ o : Fin 16, o ≠ p → o ∈ done ∨
       ((s.body.meter o).integState ≠ .integrating ∧ (s.body.meter o).resetDue = none)) →
     ∃ t, exec .stepBoundary s = .next t ∧
       (let n := t.body.meter p
        let kept : Prop := n.histogram = m.histogram ∧ n.admitted = m.admitted ∧ n.integState = m.integState
        let quiet : Prop := m.integState ≠ .integrating ∨ m.ring.length < 3 ∨ (∃ e ∈ newest, e.disturbed = true) ∨
          m.disturbed = true ∨ ∀ v, n.momentary = some v → v < -700
        let enters (blocks : List Nat) : Prop :=
          let entered := blocks.take (16777215 - m.admitted)
          n.histogram = entered.foldl (fun h k => h.modify k (· + 1)) m.histogram ∧
          n.admitted = m.admitted + entered.length ∧ n.pendingBlocks = [] ∧
          n.integState = if n.admitted = 16777215 then .full else .integrating
        let asked : List (Fin 16) := if p ∈ queue then queue else queue ++ [p]
        let starts : Prop := t.body.sweepQueue = [] ∧ ∃ lo hi : Nat,
          t.body.sweep = some { programme := p, secondPass := false, lowest := lo, highest := hi, next := lo, blocks := 0
                                energy := 0, threshold := none, visited := 0 } ∧
          (∀ i, n.histogram.getD i 0 ≠ 0 → lo ≤ i ∧ i ≤ hi) ∧ n.histogram.getD lo 0 ≠ 0 ∧ n.histogram.getD hi 0 ≠ 0
        (quiet → kept ∧ n.pendingBlocks = m.pendingBlocks ∧ t.body.sweep = s.body.sweep ∧ t.body.sweepQueue = queue) ∧
        (∀ v : Int, ¬ quiet → n.momentary = some v →
          let k := min 749 (v + 700).toNat
          (¬ swept → m.pendingBlocks = [] → enters [k] ∧ n.abandoned = m.abandoned ∧
            (s.body.sweep ≠ none → t.body.sweep = s.body.sweep ∧ t.body.sweepQueue = asked) ∧
            (s.body.sweep = none → queue = [] → starts)) ∧
          (swept → m.pendingBlocks.length < 4 → kept ∧ n.pendingBlocks = m.pendingBlocks ++ [k] ∧
            n.abandoned = m.abandoned ∧ t.body.sweep = s.body.sweep ∧ t.body.sweepQueue = asked) ∧
          (swept → 4 ≤ m.pendingBlocks.length → enters (m.pendingBlocks ++ [k]) ∧
            n.abandoned = min 65535 (m.abandoned + 1) ∧ n.integrated = m.integrated ∧
            (asked = [p] → starts)))))

/-- INTEGRATION_RESET_APPLY at a step boundary that the meter has not taken: what the reset clears is clear, the state is
IDLE, the reset is no longer due and its operations are no longer in flight, and no sweep is in flight or asked for on the
programme (R119). The meter has taken the boundary, which stays due for the others.

SWEEP_VISIT_END after sixteen house samples of a visit: the bin's count and its centre's energy join the sums, and the
engine goes to the next bin; past the highest bin of pass 1 it starts pass 2 at the greater of T + 700 and the lowest of the
span, T being 100 decilu below the loudness of the mean; past the highest of pass 2 the mean of pass 2 is the integrated
loudness, the pending blocks are admitted and, with no other request, the engine is idle (R114, R115, R116). -/
def Obligations.ResetAppliedAndSweepVisit : Prop :=
  (∀ (s : State) (p : Fin 16) (done : List (Fin 16)) (due : ResetDue) (st : Settings),
     s.body.timing.stepDue = some done → p ∉ done → (s.body.meter p).resetDue = some due →
     (s.body.programme p).active = some st →
     ∃ t, exec (.integrationResetApply p) s = .next t ∧ Keeps s t ∧
       t.body.timing = { s.body.timing with stepDue := some (p :: done) } ∧
       (let n := t.body.meter p
        n.histogram = List.replicate 750 0 ∧ n.admitted = 0 ∧ n.pendingBlocks = [] ∧ n.integrated = none ∧ n.abandoned = 0 ∧
          n.integState = .idle ∧ n.resetDue = none ∧ n.started = true ∧ n.samples = 0) ∧
       (∀ w : Sweep, t.body.sweep = some w → w.programme ≠ p) ∧ p ∉ t.body.sweepQueue ∧
       (∀ x ∈ t.body.line.deferred, x.tag ∈ due.tags → x.complete.isSome = true) ∧
       t.body.sets = s.body.sets ∧ t.body.ports = s.body.ports ∧ t.body.scenes = s.body.scenes ∧
       (∀ q : Fin 16, q ≠ p → t.body.gain q = s.body.gain q ∧ (t.body.meter q).ring = (s.body.meter q).ring) ∧
       (s.body.sweepQueue.filter (· ≠ p) = [] → ∀ q : Fin 16, q ≠ p →
         { t.body.meter q with sceneResetOwed := none } = { s.body.meter q with sceneResetOwed := none })) ∧
  (∀ (s : State) (w : Sweep), s.body.sweep = some w → 16 ≤ w.visited →
     let n := (s.body.meter w.programme).histogram.getD w.next 0
     let blocks := w.blocks + n
     let energy := w.energy + n * centreEnergy w.next
     let figure := if blocks = 0 then none else loudness (energy / blocks)
     let made (b : Body) := ∃ t, exec .sweepVisitEnd s = .next t ∧ Becomes s b t
     (w.next + 1 ≤ w.highest →
       made { s.body with sweep := some { w with blocks := blocks, energy := energy, next := w.next + 1
                                                 visited := w.visited - 16 } }) ∧
     (w.highest < w.next + 1 → w.secondPass = false → ∀ l : Int, figure = some l →
       made { s.body with sweep := some { w with blocks := 0, energy := 0, next := max (l - 100 + 700).toNat w.lowest
                                                 visited := w.visited - 16, secondPass := true
                                                 threshold := some (l - 100) } }) ∧
     (w.highest < w.next + 1 → w.secondPass = true → s.body.sweepQueue = [] →
       made ({ s.body with sweep := none }.onMeter w.programme fun m =>
         { m with integrated := figure }.admitPending)))

/-! ## Ports and trackers -/

/-- PORT_FRAME_EDGE where an edge can arrive (R34, R38, R39, R40, R41, R42, R43): the port is SYNCED with nothing counted or
assembled, and its tracker, by the presence and state it had: from ABSENT, or once presence was lost, the edge is the first
stamp of an empty history; otherwise the edge is counted up to 255, and the 256th closes a window of span d. A good window
becomes D_prev and with nine stamps Q, LOCKED; a bad one leaves both, with RANGE held where it is out of range, and its
third JUMP clears the history. In HOLDOVER and ABSENT of a SYNCED port nothing is stamped. The model's reading: the sync that
makes presence SYNCED is itself the first stamp (log 7), and span, jump run and RANGE have outlasted ABSENT (log 40).

The lane of the one programme that takes the frames of a port, at its frame edge (R35, R52, R53, R63): with a place in
the write queue of its bank the frame is written, its C slots from the source's first slot on as the newest entry at the
lane's write sequence, which goes up; with the queue full the frame goes to the holding place and the lane to the end of
the waiting order, the older held frame counted as dropped. The sync that makes presence SYNCED delivers too (the model's
reading, log 7).

What such a write makes of the lane where the programme stays in its state (R64, R65, R81, R77, R99). Each channel's overload
run goes up to 3 at full scale and back to 0 otherwise; runs that reach 3 are counted and set the seen flag. In PRIMING and
STARVED an occupancy beyond L - 64 is held there, no slip. In RUNNING it is an overrun: a slip, and the reader stands a
setpoint behind the writer, a tail keeping its old place where none was active; the marks on the way are consumed, the last
setting ratio record, accumulator and history start, the fade-in 64 where a tail went on. -/
def Obligations.PortFrameEdge : Prop :=
  (∀ (s : State) (q : Fin 8) (elapsed : Nat) (slots : Vector Sample 8),
     let x := s.body.port q
     let u := x.tracker
     let tick := tickAt s.body.timing elapsed
     let nominal := nominalSpan x.cls
     let after (v : Tracker) : Prop :=
       ∃ t, exec (.portFrameEdge q elapsed slots) s = .next t ∧ Keeps s t ∧
         t.body.port q = { x with presence := .synced, bitCount := 0, assembly := [], tracker := v } ∧
         (∀ o : Fin 8, o ≠ q → t.body.port o = s.body.port o) ∧ t.body.timing = s.body.timing ∧
         t.body.sets = s.body.sets ∧ t.body.contacts = s.body.contacts ∧ t.body.scenes = s.body.scenes
     x.clockPresent = true → x.syncSeen = true → x.bitCount ≠ 257 →
       (x.presence ≠ .synced → u.state = .absent →
         after { u with state := .acquiring, stamps := [tick], frameCount := 0, lossSince := none }) ∧
       (x.presence ≠ .synced → u.state ≠ .absent →
         after { u with state := .acquiring, stamps := [tick], frameCount := 0, span := none, prevSpan := none, q := none
                        jumpRun := 0, rangeHeld := false, lossSince := none
                        holdover := if u.state = .holdover then none else u.holdover }) ∧
       (x.presence = .synced → (u.state = .holdover ∨ u.state = .absent) → after u) ∧
       (x.presence = .synced → (u.state = .acquiring ∨ u.state = .locked) →
         (u.stamps = [] → after { u with stamps := [tick], frameCount := 0 }) ∧
         (u.stamps ≠ [] → u.frameCount < 255 → after { u with frameCount := u.frameCount + 1 }) ∧
         (∀ last : Count, u.stamps.getLast? = some last → 255 ≤ u.frameCount →
           let kept := (if 9 ≤ u.stamps.length then u.stamps.drop 1 else u.stamps) ++ [tick]
           let d := (tick - last).toNat
           let outOfRange := nominal / 200 < d - nominal ∨ nominal / 200 < nominal - d
           let jumps := ∃ e, u.prevSpan = some e ∧ (e / 512 < d - e ∨ e / 512 < e - d)
           let stamped : Tracker := { u with stamps := kept, frameCount := 0, span := some d }
           (¬outOfRange → ¬jumps →
             (kept.length ≠ 9 → after { stamped with prevSpan := some d, jumpRun := 0, rangeHeld := false }) ∧
             (∀ oldest : Count, kept.length = 9 → kept.head? = some oldest →
               after { stamped with prevSpan := some d, jumpRun := 0, rangeHeld := false
                                    q := some (tick - oldest).toNat, state := .locked })) ∧
           (outOfRange → ¬jumps → after { stamped with rangeHeld := true }) ∧
           (jumps → u.jumpRun < 2 → ∀ held : Bool, (held = true ↔ u.rangeHeld = true ∨ outOfRange) →
             after { stamped with rangeHeld := held, jumpSeen := true, jumpRun := u.jumpRun + 1 }) ∧
           (jumps → u.jumpRun = 2 →
             after { u with state := .acquiring, stamps := [], frameCount := 255, span := none, prevSpan := none, q := none
                            jumpRun := 0, rangeHeld := false, jumpSeen := true })))) ∧
  (∀ (s : State) (q : Fin 8) (elapsed : Nat) (slots : Vector Sample 8) (p : Fin 16) (src : Source) (line : Line)
     (st : Settings),
     (s.body.port q).clockPresent = true → (s.body.port q).syncSeen = true → (s.body.port q).bitCount ≠ 257 →
     ((s.body.programme p).state = .priming ∨ (s.body.programme p).state = .running ∨
       (s.body.programme p).state = .starved) →
     (s.body.lane p).source = some src → src.port = q → (s.body.programme p).line = some line →
     (s.body.programme p).active = some st → (∀ o : Fin 16, o ≠ p → takesFrom s.body o q = false) →
     let samples := (slots.toList.drop src.slot.val).take (channelsOf st.layout)
     let k := s.body.bank line.bank
     ∃ t, exec (.portFrameEdge q elapsed slots) s = .next t ∧ Keeps s t ∧
       (k.queue.length < 16 →
         (t.body.lane p).writeSeq = (s.body.lane p).writeSeq + 1 ∧ (t.body.lane p).holding = (s.body.lane p).holding ∧
         (t.body.bank line.bank).queue = k.queue ++
           [{ lane := p, seq := (s.body.lane p).writeSeq, samples := samples
              position := (s.body.lane p).writeSeq.toNat % line.length }]) ∧
       (16 ≤ k.queue.length →
         (t.body.lane p).writeSeq = (s.body.lane p).writeSeq ∧ (t.body.lane p).holding = some samples ∧
         (t.body.bank line.bank).queue = k.queue ∧
         (t.body.bank line.bank).waiting = k.waiting.filter (· ≠ p) ++ [p] ∧
         (t.body.programme p).writeDrops =
           (if (s.body.lane p).holding = none then (s.body.programme p).writeDrops
            else min 65535 ((s.body.programme p).writeDrops + 1)) ∧
         (t.body.programme p).slips = (s.body.programme p).slips)) ∧
  (∀ (s : State) (q : Fin 8) (elapsed : Nat) (slots : Vector Sample 8) (p : Fin 16) (src : Source) (line : Line)
     (st : Settings),
     (s.body.port q).clockPresent = true → (s.body.port q).syncSeen = true → (s.body.port q).bitCount ≠ 257 →
     ((s.body.programme p).state = .priming ∨ (s.body.programme p).state = .running ∨
       (s.body.programme p).state = .starved) →
     (s.body.lane p).source = some src → src.port = q → (s.body.programme p).line = some line →
     (s.body.programme p).active = some st → (∀ o : Fin 16, o ≠ p → takesFrom s.body o q = false) →
     (s.body.bank line.bank).queue.length < 16 → (s.body.lane p).overloadRun.length = 8 →
     let l := s.body.lane p
     let r := s.body.programme p
     let samples := (slots.toList.drop src.slot.val).take (channelsOf st.layout)
     let run (i : Nat) : Nat := l.overloadRun.getD i 0
     let next (i : Nat) : Nat := (samples[i]?.map fun x => if 8388607 ≤ x.toInt.natAbs then min 3 (run i + 1) else 0).getD (run i)
     let events := ((List.range 8).filter fun i => run i < 3 ∧ next i = 3).length
     let most := line.length - 64
     let written := l.writeSeq + 1
     let beyond : Prop := most < (written - l.readSeq).toNat
     ∃ t, exec (.portFrameEdge q elapsed slots) s = .next t ∧
       (let m := t.body.lane p
        let slips (k : Nat) (hit : Bool) : Prop := (t.body.programme p).slips = min 65535 (r.slips + k) ∧
          m.slipSeen = (l.slipSeen || hit) ∧ m.stickySlip = (l.stickySlip || hit)
        (t.body.programme p).state = r.state → m.writeSeq = written ∧
          (∀ i, i < 8 → m.overloadRun[i]? = some (next i)) ∧
          (t.body.programme p).overloads = min 65535 (r.overloads + events) ∧
          m.overloadSeen = (l.overloadSeen || decide (events ≠ 0)) ∧
          (r.state ≠ .running → (r.slips ≤ 65535 → slips 0 false) ∧ m.marks = l.marks ∧
            (beyond → m.readSeq = written - cnt most) ∧ (¬ beyond → m.readSeq = l.readSeq)) ∧
          (r.state = .running → ¬ beyond → (r.slips ≤ 65535 → slips 0 false) ∧ m.readSeq = l.readSeq ∧ m.marks = l.marks ∧
            m.tail = l.tail ∧ m.ratio = l.ratio ∧ m.acc = l.acc ∧ m.fadeIn = l.fadeIn) ∧
          (∀ (n : Nat) (x : RatioRecord), r.state = .running → beyond → l.setpoint = some n → l.ratio = some x →
            l.tail.all (fun y => y.remaining ≠ 0) = true → seqBefore l.readSeq (written - cnt n) = true →
            let dest := written - cnt n
            let gone := l.marks.filter fun k => seqUpTo k.seq dest
            slips 1 true ∧ m.readSeq = dest ∧ m.change = l.change ∧ m.marks = l.marks.drop gone.length ∧
            (l.tail = none → m.fadeIn = l.fadeIn ∧ ∃ start : Count, m.tail =
              some { readSeq := l.readSeq, acc := l.acc, q := x.q, remaining := 64
                     stop := l.marks.head?.map SpliceMark.seq, historyStart := start }) ∧
            (l.tail ≠ none → m.tail = l.tail ∧ m.fadeIn = if gone = [] then l.fadeIn else 64) ∧
            (gone = [] → m.ratio = l.ratio ∧ m.acc = l.acc) ∧
            (∀ k : SpliceMark, gone.getLast? = some k →
              let locked := if k.port = q ∧ (s.body.port q).presence ≠ .synced then none else lockedQ s.body k.port
              let y := (locked.or k.q).getD (8 * nominalSpan (s.body.port k.port).cls)
              m.ratio = some { port := k.port, q := y } ∧ m.acc = y / 2 ∧ m.historyStart = k.seq))))

/-- With the clock present, PORT_SYNC_MISALIGNED, PORT_SYNC_ABSENT and PORT_CLOCK_LOSS take presence to NO_SYNC, NO_SYNC and
NO_CLOCK, lose the frame in assembly, set the bit count to 0, 257 and 0, and start the loss timer where presence was
SYNCED; with it absent, PORT_CLOCK_RETURN makes it present and presence NO_SYNC with no sync seen (R34, R42). Nothing else
changes.

TRACKER_LOSS_TIMEOUT with the loss timer at 4,096 house ticks or more: LOCKED goes to HOLDOVER with Q and D_prev kept and
the holdover timer at 0, ACQUIRING to ABSENT with the history cleared; the loss timer is absent. HOLDOVER_TIMEOUT with the
holdover timer at 48,000: ABSENT, with Q, D_prev, the history and the timer cleared (R42, R43), and, the model's reading, the
current span, jump run and RANGE condition left (log 40). Of the lanes, those in PRIMING on the port take their setpoint anew
(R71), and no other changes. -/
def Obligations.PresenceAndTimeouts : Prop :=
  (∀ (s : State) (q : Fin 8) (elapsed : Nat),
     let x := s.body.port q
     let lost : Tracker := if x.presence = .synced then { x.tracker with lossSince := some (tickAt s.body.timing elapsed) }
       else x.tracker
     let made (c : Instr) (y : Port) := ∃ t, exec c s = .next t ∧ Becomes s (s.body.setPort q y) t
     (x.clockPresent = true →
       made (.portSyncMisaligned q elapsed)
         { x with presence := .noSync, assembly := [], bitCount := 0, syncSeen := true, tracker := lost } ∧
       made (.portSyncAbsent q elapsed) { x with presence := .noSync, assembly := [], bitCount := 257, tracker := lost } ∧
       made (.portClockLoss q elapsed)
         { x with presence := .noClock, assembly := [], bitCount := 0, clockPresent := false, syncSeen := false
                  tracker := lost }) ∧
     (x.clockPresent = false →
       made (.portClockReturn q)
         { x with presence := .noSync, bitCount := 0, clockPresent := true, syncSeen := false })) ∧
  (∀ (s : State) (q : Fin 8) (elapsed : Nat),
     let x := s.body.port q
     let u := x.tracker
     let after (c : Instr) (v : Tracker) : Prop :=
       ∃ t, exec c s = .next t ∧
         Becomes s { s.body.setPort q { x with tracker := v } with lanes := t.body.lanes } t ∧
         ∀ p : Fin 16, (s.body.programme p).state ≠ .priming ∨ (∀ src, (s.body.lane p).source = some src → src.port ≠ q) →
           { t.body.lane p with sceneDelayOwed := none } = { s.body.lane p with sceneDelayOwed := none }
     (∀ since : Count, u.lossSince = some since → 4096 ≤ (tickAt s.body.timing elapsed - since).toNat →
       (u.state = .locked →
         after (.trackerLossTimeout q elapsed) { u with state := .holdover, holdover := some 0, lossSince := none }) ∧
       (u.state = .acquiring →
         after (.trackerLossTimeout q elapsed)
           { u with state := .absent, stamps := [], frameCount := 255, span := none, prevSpan := none, q := none
                    jumpRun := 0, rangeHeld := false, lossSince := none })) ∧
     (∀ n : Nat, u.state = .holdover → u.holdover = some n → 48000 ≤ n →
       after (.holdoverTimeout q) { u with state := .absent, q := none, prevSpan := none, stamps := [], holdover := none }))

/-! ## The delay store -/

/-- DRAIN_COMPLETE of a drain in the bank (R49, R55): the words of the frame are the sample words of its samples, every byte
outside them is as it was, and a frame still queued leaves the queue, whose freed place goes to nobody where no lane waits.

DRAIN_COMPLETE at a full write queue with lanes waiting (R54, R55): the place that the drained frame leaves goes to the lane
that has waited longest: its held frame is the newest of the queue, at the lane's write sequence, which goes up; the holding
place is empty, and the lanes behind it wait on, their frames held. Nothing is dropped.

ZERO_FILL_ACCESS_COMPLETE (R49, R50, R51, R17): 64 words are 00000020h and every byte outside them is as it was; a live
access adds 64 to the written count of the oldest job or, with the run full, takes the job away, parks its programme, and
its ALLOCATE is no longer in flight; one whose job has gone has no effect on any job.

The arbiter (R59), with what the granted access names (R46, R50, R55): with no access in progress, a drain of the oldest frame
where 8 or more are queued; else the read of the claiming lane that comes first from the read pointer on, which then names
the lane after it; else a drain; else the oldest job's next access. With one in progress nothing is granted. A completion
with no lane waiting, of a drain or of what has gone, frees the bank and grants. -/
def Obligations.BankWrites : Prop :=
  (∀ (s : State) (k : Fin 4) (p : Fin 16) (word : Nat) (samples : List Sample) (live : Bool),
     s.dram.wf = true → (s.body.bank k).access = some (.drain p word samples live) → word + samples.length ≤ 2097152 →
     ∃ t, exec (.drainComplete k) s = .next t ∧ t.rx = s.rx ∧ t.pending = s.pending ∧ s.tx.queue <+: t.tx.queue ∧
       (∀ (i : Nat) (x : Sample), samples[i]? = some x → t.dram.readWord k (word + i) = sampleWord x) ∧
       (∀ a : Nat, a < byteAddress k word ∨ byteAddress k (word + samples.length) ≤ a → t.dram.read a = s.dram.read a) ∧
       ((s.body.bank k).waiting = [] → (t.body.bank k).queue =
         if live = true then (s.body.bank k).queue.drop 1 else (s.body.bank k).queue) ∧
       t.body.timing = s.body.timing ∧ t.body.ports = s.body.ports ∧ t.body.sets = s.body.sets ∧
       t.body.scenes = s.body.scenes ∧ t.body.contacts = s.body.contacts) ∧
  (∀ (s : State) (k : Fin 4) (o : Fin 16) (word : Nat) (old : List Sample) (p : Fin 16) (rest : List (Fin 16))
     (line : Line) (samples : List Sample),
     (s.body.bank k).access = some (.drain o word old true) → word + old.length ≤ 2097152 →
     (s.body.bank k).queue.length = 16 → (s.body.bank k).waiting = p :: rest → (s.body.lane p).holding = some samples →
     (s.body.programme p).line = some line → line.bank = k →
     ∃ t, exec (.drainComplete k) s = .next t ∧
       (let seq := (s.body.lane p).writeSeq
        (t.body.bank k).queue = (s.body.bank k).queue.drop 1 ++
          [{ lane := p, seq := seq, position := seq.toNat % line.length, samples := samples }] ∧
        (t.body.bank k).waiting = rest ∧ (t.body.lane p).holding = none ∧ (t.body.lane p).writeSeq = seq + 1 ∧
        (t.body.programme p).writeDrops = (s.body.programme p).writeDrops) ∧
       ∀ x : Fin 16, x ≠ p → (t.body.lane x).holding = (s.body.lane x).holding ∧
         (t.body.lane x).writeSeq = (s.body.lane x).writeSeq ∧
         (t.body.programme x).writeDrops = (s.body.programme x).writeDrops) ∧
  (∀ (s : State) (k : Fin 4) (p : Fin 16) (word : Nat) (live : Bool),
     s.dram.wf = true → (s.body.bank k).access = some (.fill p word live) → word + 64 ≤ 2097152 →
     ∃ t, exec (.zeroFillAccessComplete k) s = .next t ∧ t.rx = s.rx ∧ t.pending = s.pending ∧
       s.tx.queue <+: t.tx.queue ∧
       (∀ i : Nat, i < 64 → t.dram.readWord k (word + i) = 0x00000020#32) ∧
       (∀ a : Nat, a < byteAddress k word ∨ byteAddress k (word + 64) ≤ a → t.dram.read a = s.dram.read a) ∧
       (live = false → (t.body.bank k).jobs = (s.body.bank k).jobs ∧
         ∀ o : Fin 16, (t.body.programme o).state = (s.body.programme o).state) ∧
       (∀ (j : FillJob) (rest : List FillJob), live = true → (s.body.bank k).jobs = j :: rest →
         (j.written + 64 < j.words → (t.body.bank k).jobs = { j with written := j.written + 64 } :: rest ∧
           ∀ o : Fin 16, (t.body.programme o).state = (s.body.programme o).state) ∧
         (j.words ≤ j.written + 64 → (t.body.bank k).jobs = rest ∧ (t.body.programme j.programme).state = .parked ∧
           (∀ o : Fin 16, o ≠ j.programme → (t.body.programme o).state = (s.body.programme o).state) ∧
           ∀ x ∈ t.body.line.deferred, x.kind = .allocate → x.subject = j.programme.val → x.complete.isSome = true)) ∧
       t.body.timing = s.body.timing ∧ t.body.ports = s.body.ports ∧ t.body.sets = s.body.sets ∧
       t.body.scenes = s.body.scenes ∧ t.body.contacts = s.body.contacts) ∧
  ((∀ (b : Body) (k : Fin 4),
     let x := b.bank k
     let claims (p : Fin 16) (line : Line) (r : ReadRequest) : Prop := (b.programme p).line = some line ∧ line.bank = k ∧
       (b.lane p).readRequest = some r ∧ r.granted = false
     let nobody : Prop := ∀ p line r, ¬ claims p line r
     let drains : Prop := ∀ (f : QueuedFrame) (fs : List QueuedFrame) (line : Line), x.queue = f :: fs →
       (b.programme f.lane).line = some line →
       let drain : Access := .drain f.lane (4096 * line.first + f.samples.length * f.position) f.samples true
       grantBank k b = b.setBank k { x with access := some drain }
     (x.access ≠ none → grantBank k b = b) ∧
     (x.access = none →
       (8 ≤ x.queue.length → drains) ∧
       (x.queue.length < 8 → ∀ (p : Fin 16) (line : Line) (r : ReadRequest) (st : Settings), claims p line r →
         (b.programme p).active = some st → (∀ o line' r', claims o line' r' → p - x.readNext ≤ o - x.readNext) →
         let c := channelsOf st.layout
         let read : Access := .read p r.seq (4096 * line.first + c * (r.seq.toNat % line.length)) c true
         grantBank k b = (b.setLane p { b.lane p with readRequest := some { r with granted := true } }).setBank k
           { x with readNext := p + 1, access := some read }) ∧
       (nobody → x.queue ≠ [] → drains) ∧
       (nobody → x.queue = [] →
         let fill := x.jobs.head?.map fun j => Access.fill j.programme (j.firstWord + j.written) true
         grantBank k b = b.setBank k { x with access := fill }))) ∧
   (∀ (s : State) (k : Fin 4),
     let x := s.body.bank k
     let grants (c : Instr) (y : Bank) : Prop := ∃ t, exec c s = .next t ∧
       t.body.quiet = (grantBank k (s.body.setBank k { y with access := none })).quiet
     (∀ (p : Fin 16) (word : Nat) (samples : List Sample) (live : Bool), x.access = some (.drain p word samples live) →
       word + samples.length ≤ 2097152 → x.waiting = [] →
       grants (.drainComplete k) { x with queue := if live = true then x.queue.drop 1 else x.queue }) ∧
     (∀ (p : Fin 16) (seq : Count) (word c : Nat), x.access = some (.read p seq word c false) → word + c ≤ 2097152 →
       ∀ damage : List Word, grants (.readComplete k damage) x) ∧
     (∀ (p : Fin 16) (word : Nat), x.access = some (.fill p word false) → word + 64 ≤ 2097152 →
       grants (.zeroFillAccessComplete k) x)))

/-- READ_COMPLETE of a live read, with no bits gone wrong, of a frame the window of a RUNNING lane wants and does not hold
(R56, R57): the window holds the samples, each word that fails its check as zero and one memory error; the DRAM is as it
was. A read whose owner has gone returns nothing. -/
def Obligations.ReadComplete : Prop :=
  ∀ (s : State) (k : Fin 4) (p : Fin 16) (seq : Count) (word c : Nat),
    word + c ≤ 2097152 →
    let words := s.dram.readWords k word c
    let failing := (words.filter fun w => !wordPasses w).length
    ((s.body.bank k).access = some (.read p seq word c true) → (s.body.programme p).state = .running →
      (s.body.lane p).held seq = none → (∃ x ∈ (s.body.lane p).wanted, x.1 = seq) →
      ∃ t, exec (.readComplete k []) s = .next t ∧ Keeps s t ∧
        (t.body.lane p).held seq =
          some { seq := seq, samples := words.map fun w => if wordPasses w then wordSample w else 0
                 muted := failing != 0 } ∧
        (t.body.programme p).memoryErrors =
          (if failing = 0 then (s.body.programme p).memoryErrors else
            min 65535 ((s.body.programme p).memoryErrors + failing)) ∧
        (t.body.programme p).memorySeen = ((s.body.programme p).memorySeen || failing != 0) ∧
        t.body.timing = s.body.timing ∧ t.body.ports = s.body.ports ∧ t.body.sets = s.body.sets ∧
        t.body.scenes = s.body.scenes ∧ t.body.contacts = s.body.contacts) ∧
    ((s.body.bank k).access = some (.read p seq word c false) →
      ∃ t, exec (.readComplete k []) s = .next t ∧
        Becomes s { s.body with banks := t.body.banks, lanes := t.body.lanes } t ∧
        ∀ o : Fin 16, (t.body.lane o).window = (s.body.lane o).window)

/-- The sample word (R49, R191): bits 31 to 8 the sample, bit 7 and bit 6 even parity over its upper and lower twelve bits,
bit 5 set, bits 4 to 0 clear; the check passes exactly where both parities agree and bit 5 is set; what passes gives its
sample back; and a zero sample is 00000020h. -/
def Obligations.SampleWordLayout : Prop :=
  (∀ x : Sample,
    let ones (from_ : Nat) := ((List.range 12).filter fun i => x.getLsbD (from_ + i)).length
    (sampleWord x).extractLsb' 8 24 = x ∧
    (ones 12 + ((sampleWord x).getLsbD 7).toNat) % 2 = 0 ∧ (ones 0 + ((sampleWord x).getLsbD 6).toNat) % 2 = 0 ∧
    (sampleWord x).extractLsb' 0 6 = 0x20#6 ∧ wordPasses (sampleWord x) = true ∧ wordSample (sampleWord x) = x) ∧
  (∀ w : Word,
    let ones (from_ : Nat) := ((List.range 12).filter fun i => w.getLsbD (8 + from_ + i)).length
    (wordPasses w = true ↔ (ones 12 + (w.getLsbD 7).toNat) % 2 = 0 ∧ (ones 0 + (w.getLsbD 6).toNat) % 2 = 0 ∧
      w.getLsbD 5 = true)) ∧
  sampleWord 0 = 0x00000020#32

/-! ## Requests on the programmes -/

/-- DEFINE of a VACANT programme, its settings in range, in agreement and unclaimed (R2, R3, R10, R15): the record holds the
set made of the settings carried over the defaults, with everything else as R15 lists it; the lane's target is 0 (R62), the
gain stage stands as R123 gives, the output map is re-formed where the set names slots; and the answer carries
the programme and DEFINED.

The set a DEFINE makes (R15): of a layout and a main source alone, every setting not carried at the default of section
1.2; and without a layout, or without a main source, there is none, the refusal being BAD_FIELD before any setting carried is
judged (the model's choice, log 48). -/
def Obligations.Define : Prop :=
  (∀ (s : State) (tag : Byte) (p : Fin 16) (items : List SettingItem) (st : Settings),
     LineFree s → (s.body.programme p).state = .vacant → definedSet s.body p items = .ok st →
     ∃ t, exec (.define tag p.val items) s = .next t ∧
       Answers s ((Answer.answer [num1 p.val, enum ProgState.all .defined]).message 0x01 tag) t ∧
       Becomes s { s.body with programmes := t.body.programmes, lanes := t.body.lanes, gains := t.body.gains
                               outputMap := t.body.outputMap } t ∧
       (let r := t.body.programme p
        r.state = .defined ∧ r.active = some st ∧ r.pending = none ∧ r.selector = .main ∧ r.guard = 0 ∧ r.revertCount = 0 ∧
          r.requested = none ∧ r.line = none ∧ r.memoryErrors = 0 ∧ r.slips = 0 ∧ r.writeDrops = 0 ∧ r.overloads = 0) ∧
       (t.body.lane p).target = 0 ∧ (t.body.lane p).stickySlip = false ∧
       (let x := t.body.gain p
        x.g = (if st.gainMode = .fixed then st.fixedGain else 0) ∧ x.applied = x.g ∧ x.ramp = none ∧ x.gr = 0 ∧
          x.rider = (if st.gainMode = .ride then .waiting else .off) ∧ x.desired = none ∧ x.activations = 0) ∧
       (st.slots = none → t.body.outputMap = s.body.outputMap) ∧
       (st.slots ≠ none → ∀ n : Fin 64, t.body.outputMap[n.val]? = some (slotEntry t.body n.val)) ∧
       (∀ o : Fin 16, o ≠ p →
         { t.body.programme o with stateOwed := none } = { s.body.programme o with stateOwed := none } ∧
         { t.body.lane o with sceneDelayOwed := none } = { s.body.lane o with sceneDelayOwed := none } ∧
         t.body.gain o = s.body.gain o)) ∧
  ((∀ (b : Body) (p : Fin 16) (layout : Layout) (port slot : Fin 8), slot.val + channelsOf layout ≤ 8 →
     definedSet b p [.layout layout, .mainSource port.val slot.val] =
       .ok { layout := layout, main := { port := port, slot := slot }
             backup := none, failover := .never, revert := .manual, switchGuard := 25, revertHold := 250, delayTarget := 0
             delayMode := .cut, slewLimit := .normal, gainMode := .off, fixedGain := 0, rideTarget := -230
             rideTolerance := 10, rideRate := 10, riderGate := -500, ceiling := -10, limiterRelease := 20, slots := none
             linkGroup := none, silenceThreshold := -600, loudHigh := -180, loudLow := -320, phaseThreshold := -30 }) ∧
   (∀ (b : Body) (p : Fin 16) (items : List SettingItem),
     ((∀ l, SettingItem.layout l ∉ items) ∨ (∀ port slot, SettingItem.mainSource port slot ∉ items)) →
       definedSet b p items = .error .badField))

/-- The checks of a write to a settings set, in the order of R5 (`named` says whether the form may name the settings; a scene
skips the owner check, R7): the first that fails gives the reason, and where none fails there is no refusal. -/
def Obligations.WriteChecks : Prop :=
  ∀ (b : Body) (p : Fin 16) (byScene named : Bool) (items : List SettingItem),
    let r := b.programme p
    let layoutWritten := ∃ l, SettingItem.layout l ∈ items
    (named = false → writeRefusal b p byScene named items = some .badField) ∧
    (named = true →
      ((r.state = .vacant ∨ r.effectiveNext = none ∨ (layoutWritten ∧ r.state ≠ .defined)) →
        writeRefusal b p byScene named items = some .wrongState) ∧
      (∀ st : Settings, r.state ≠ .vacant → r.effectiveNext = some st → (layoutWritten → r.state = .defined) →
        ((byScene = false ∧ ∃ w, r.pending = some w ∧ w.owner = .scene) →
          writeRefusal b p byScene named items = some .sceneBusy) ∧
        ((byScene = true ∨ ∀ w, r.pending = some w → w.owner ≠ .scene) →
          ((∃ i ∈ items, itemInRange i = false) ∨ (st.writeAll items).agrees = false →
            writeRefusal b p byScene named items = some .badField) ∧
          ((∀ i ∈ items, itemInRange i = true) → (st.writeAll items).agrees = true →
            ((∃ l, SettingItem.outputSlots l ∈ items ∧ ∃ o : Fin 16, o ≠ p ∧ ∃ n ∈ l, n ∈ (b.programme o).claims) →
              writeRefusal b p byScene named items = some .slotClaimed) ∧
            ((∀ l, SettingItem.outputSlots l ∈ items → ∀ o : Fin 16, o ≠ p → ∀ n ∈ l, n ∉ (b.programme o).claims) →
              writeRefusal b p byScene named items = none)))))

/-- SET of one programme that passes the checks of R5: the pending set, a copy of the active set where there was none, holds
the values written, owned by DIRECT; nothing else changes. The answer carries, for each setting, its code, the value before
from the active set and the value in force at the commit; for a layout also a slot list that no longer fits, as changed to
none (R4, R5).

SET of a link group (R9): every member that its own checks let pass is written as SET would write it, and no other
programme changes; the answer is an ANSWER that lists the members in programme order, the refused ones with their reason. -/
def Obligations.SetRequest : Prop :=
  (∀ (s : State) (tag : Byte) (p : Fin 16) (items : List SettingItem) (old st : Settings),
     LineFree s → setForm items = true → writeRefusal s.body p false (setNames items) items = none →
     (s.body.programme p).active = some old → (s.body.programme p).effectiveNext = some st →
     ∃ t, exec (.set tag (.programme p.val) items) s = .next t ∧
       Becomes s (s.body.onProgramme p fun r =>
         { r with pending := some { settings := st.writeAll items, owner := .direct, delay := r.pending.bind (·.delay) } }) t ∧
       ((∀ i ∈ items, itemCode i ≠ 0) →
         Answers s ((Answer.answer (items.flatMap fun i =>
           num1 (itemCode i) :: (itemValue (old.item i) ++ itemValue ((st.writeAll items).item i)))).message 0x02 tag) t) ∧
       (∀ l : Layout, items = [.layout l] →
         Answers s ((Answer.answer ([num1 0, enum Layout.all old.layout, enum Layout.all l] ++
           if st.slots.any (fun x => x.length ≠ channelsOf l) then
             num1 18 :: (itemValue (.outputSlots (old.slots.getD [])) ++ itemValue (.outputSlots []))
           else [])).message 0x02 tag) t)) ∧
  (∀ (s : State) (tag : Byte) (g : Nat) (items : List SettingItem),
     LineFree s → setForm items = true → g ≤ 3 → groupNames items = true →
     let members := (List.finRange 16).filter fun p => (s.body.programme p).active.any fun st => st.linkGroup = some g
     let refusal (p : Fin 16) := writeRefusal s.body p false (setNames items) items
     ∃ t, exec (.set tag (.group g) items) s = .next t ∧
       Becomes s { s.body with programmes := t.body.programmes } t ∧
       (∀ p : Fin 16,
         { t.body.programme p with stateOwed := none, pending := none } =
           { s.body.programme p with stateOwed := none, pending := none } ∧
         (t.body.programme p).pending =
           match (s.body.programme p).effectiveNext with
           | some st =>
             if p ∈ members ∧ refusal p = none then
               some { settings := st.writeAll items, owner := .direct
                      delay := (s.body.programme p).pending.bind (·.delay) }
             else (s.body.programme p).pending
           | none => (s.body.programme p).pending) ∧
       Answers s ((Answer.answer (num1 members.length :: members.flatMap fun p =>
         match refusal p, (s.body.programme p).active, (s.body.programme p).effectiveNext with
         | some r, _, _ => [num1 p.val, num1 r.code]
         | none, some a, some st => [num1 p.val, num1 0] ++
             items.flatMap fun i => itemValue (a.item i) ++ itemValue ((st.writeAll items).item i)
         | none, _, _ => [num1 p.val, num1 0])).message 0x02 tag) t)

/-- DELAY that passes the checks of R5 and finds a free entry for its tag (R8, R180): ACCEPTED; target and mode stand in the
pending set, DIRECT, with the operation as their origin; the operation is in flight, and one whose target it replaces is no
longer. -/
def Obligations.DelayAccepted : Prop :=
  ∀ (s : State) (tag : Byte) (p : Fin 16) (target : Nat) (mode : DelayMode) (st : Settings),
    LineFree s → writeRefusal s.body p false true [.delayTarget target, .delayMode mode] = none →
    deferredFree tag s.body = true → (s.body.programme p).effectiveNext = some st →
    let replaced := (s.body.programme p).pending.bind Pending.delay
    let entry : Deferred := { tag := tag, kind := .delay, subject := p.val }
    let table := (s.body.line.deferred ++ [entry]).filter fun d => replaced ≠ some (.operation d.tag)
    let set : Pending :=
      { settings := { st with delayTarget := target, delayMode := mode }, owner := .direct
        delay := some (.operation tag) }
    ∃ t, exec (.delay tag (.programme p.val) target mode) s = .next t ∧ Answers s (Answer.accepted.message 0x03 tag) t ∧
      Becomes s { s.body.setProgramme p { s.body.programme p with pending := some set } with
                  line := { s.body.line with deferred := table } } t

/-- ALLOCATE in DEFINED with no other layout pending, a count from 1 to 512 and a free entry for its tag: ACCEPTED. Where a run
is found its segments belong to the programme, the descriptor names them with L = floor(segments × 4,096 / C), a zero-fill
job for all of its words stands last in its bank, the programme is FILLING with both sequences 0, and the operation is in
flight; where none is found the programme stays DEFINED and the operation is over (R16, R48, R50, R62).

First fit (R48): the run found lies in a fitted bank whose lowest n segments from it on are FREE, and no fitted bank before
it, and nothing lower in its own bank, holds n FREE segments in a row; none is found only where no fitted bank holds n in a
row. -/
def Obligations.Allocate : Prop :=
  (∀ (s : State) (tag : Byte) (p : Fin 16) (n : Nat) (st : Settings),
     LineFree s → 1 ≤ n → n ≤ 512 → (s.body.programme p).state = .defined → (s.body.programme p).active = some st →
     (∀ w, (s.body.programme p).pending = some w → w.settings.layout = st.layout) → deferredFree tag s.body = true →
     ∃ t, exec (.allocate tag p.val n) s = .next t ∧ Answers s (Answer.accepted.message 0x04 tag) t ∧
       (findRun s.body n = none → Becomes s s.body t) ∧
       (∀ (k : Fin 4) (first : Nat), findRun s.body n = some (k, first) →
         Becomes s { s.body with programmes := t.body.programmes, banks := t.body.banks, lanes := t.body.lanes
                                 line := t.body.line } t ∧
         (t.body.programme p).state = .filling ∧
         (t.body.programme p).line =
           some { bank := k, first := first, count := n, length := n * 4096 / channelsOf st.layout } ∧
         (t.body.bank k).jobs = (s.body.bank k).jobs ++
           [{ programme := p, firstWord := 4096 * first, words := 4096 * n, written := 0 }] ∧
         (∀ i : Nat, (t.body.bank k).segments[i]? = (s.body.bank k).segments[i]?.map fun o =>
           if first ≤ i ∧ i < first + n then some p else o) ∧
         (t.body.lane p).writeSeq = 0 ∧ (t.body.lane p).readSeq = 0 ∧
         (∃ d ∈ t.body.line.deferred, d.tag = tag ∧ d.kind = .allocate ∧ d.subject = p.val ∧ d.complete = none) ∧
         (∀ o : Fin 4, o ≠ k → (t.body.bank o).segments = (s.body.bank o).segments ∧
           (t.body.bank o).jobs = (s.body.bank o).jobs) ∧
         (∀ o : Fin 16, o ≠ p →
           { t.body.programme o with stateOwed := none } = { s.body.programme o with stateOwed := none }))) ∧
  (∀ (b : Body) (n : Nat), 1 ≤ n →
     let fitted (k : Fin 4) := k.val < (if b.banksStrap = .two then 2 else 4)
     let free (k : Fin 4) (first : Nat) := ∀ i, first ≤ i → i < first + n → (b.bank k).segments[i]? = some none
     (∀ (k : Fin 4) (first : Nat), findRun b n = some (k, first) →
       fitted k ∧ free k first ∧ (∀ (o : Fin 4) (f : Nat), o < k → ¬free o f) ∧ ∀ f, f < first → ¬free k f) ∧
     (findRun b n = none → ∀ (k : Fin 4) (first : Nat), fitted k → ¬free k first))

/-- START in PARKED: selector, countdowns, requested selector and state as R18 and R86 say, the main source in use, the line
empty from the write sequence (R73), the setpoint from the tracker's Q where it has one (R71), and the overload runs at 0
(R65). Nothing else changes, and the answer carries PRIMING.

PARK in PRIMING, RUNNING or STARVED (R22, R54, R58, R79, R85): PARKED, with the line emptied from the write sequence, marks,
tail, window, held frame, open read, ratio record and delay change gone, the limiter's reduction 0, the meter's step
disturbed, a rider's decision of this house sample taken back and the step closed at it disturbed with its block (R129, log
44); a DELAY operation of the change is no longer in flight. Overload seen and slip seen stay (log 66). Descriptor, selector, countdowns, settings, counts and else the
integration are kept, and no other programme changes. The answer carries PARKED.

PARK at the house sample of a step boundary, taken after STEP_BOUNDARY (R105, R110, R129; log 44), whether or not the house
sample itself has been taken between: in RIDE the rider is GATED with g as it was before the boundary, the ramp that stood
before it going on, the newest ring entry is marked disturbed. Where the block went to the histogram or waits, histogram,
count, pending blocks and integration state are as before the boundary (from FULL too: log 65); where it was let go at the
limit, they stay as the boundary left them, FULL (R111, R116). Both said with no reset due. -/
def Obligations.StartAndPark : Prop :=
  (∀ (s : State) (tag : Byte) (p : Fin 16) (st : Settings) (line : Line),
     LineFree s → (s.body.programme p).state = .parked → (s.body.programme p).active = some st →
     (s.body.programme p).line = some line →
     let sp := (s.body.port st.main.port).tracker.q.map fun q => setpointFor (s.body.lane p).target q line
     ∃ t, exec (.start tag p.val) s = .next t ∧
       Answers s ((Answer.answer [enum ProgState.all .priming]).message 0x05 tag) t ∧
       Becomes s ((s.body.onProgramme p fun r =>
         { r with state := .priming, selector := .main, guard := 0, revertCount := st.revertHold
                  requested := none }).onLane p fun l =>
         { l with source := some st.main, readSeq := l.writeSeq, historyStart := l.writeSeq
                  overloadRun := List.replicate 8 0, setpoint := sp.map Prod.fst
                  delayLimited := (sp.map Prod.snd).getD false }) t) ∧
  (∀ (s : State) (tag : Byte) (p : Fin 16),
     LineFree s →
     ((s.body.programme p).state = .priming ∨ (s.body.programme p).state = .running ∨
       (s.body.programme p).state = .starved) →
     ∃ t, exec (.park tag p.val) s = .next t ∧
       Answers s ((Answer.answer [enum ProgState.all .parked]).message 0x06 tag) t ∧
       (let l := s.body.lane p
        let lane : Lane :=
          { l with readSeq := l.writeSeq, historyStart := l.writeSeq, fadeIn := 0, tail := none, window := [], marks := []
                   ratio := none, increment := 524288, setpoint := none, delayLimited := false, holding := none
                   readRequest := none, overloadRun := List.replicate 8 0, change := none
                   target := (l.change.map DelayChange.target).getD l.target
                   overrideFast := if l.change = none then l.overrideFast else false }
        let parked := s.body.onProgramme p fun r => { r with state := .parked, requested := none }
        let calmed := ((parked.setLane p lane).onGain p fun x =>
          { x.takeBack s.body.timing.sampleCounter with gr := 0 }).onMeter p fun m =>
          { m.disturbClosed s.body.timing.sampleCounter with disturbed := true }
        let table := s.body.line.deferred.filter fun d => l.change.bind DelayChange.origin ≠ some (.operation d.tag)
        Becomes s { calmed with banks := t.body.banks, line := { s.body.line with deferred := table } } t) ∧
       (∀ k : Fin 4, (t.body.bank k).segments = (s.body.bank k).segments ∧ (t.body.bank k).queue = (s.body.bank k).queue ∧
         (t.body.bank k).jobs = (s.body.bank k).jobs ∧ (t.body.bank k).waiting = (s.body.bank k).waiting.filter (· ≠ p))) ∧
  (∀ (s : State) (done : List (Fin 16)) (tag : Byte) (p : Fin 16) (st : Settings),
     let x := s.body.gain p
     let m := s.body.meter p
     let now := s.body.timing.sampleCounter
     s.body.timing.stepDue = some done → p ∉ done → (s.body.programme p).state = .running →
     (s.body.programme p).active = some st → st.gainMode = .ride → m.started = true →
     x.judged.all (fun j => decide (j.sample ≠ now)) = true →
     let parked (t : State) (y : GainStage) : Prop := LineFree t →
       ∃ u, exec (.park tag p.val) t = .next u ∧
         (let z := u.body.gain p
          z.g = x.g ∧ z.applied = y.applied ∧ z.ramp = y.ramp ∧ z.rider = .gated ∧ z.desired = none ∧ z.gr = 0) ∧
         (let n := u.body.meter p
          n.ring.getLast?.map RingEntry.disturbed = some true ∧
          (m.resetDue = none → m.histogram.length = 750 → m.admitted < 16777215 →
            (m.pendingBlocks = [] ∨ (m.pendingBlocks.length < 4 ∧ ∃ w : Sweep, s.body.sweep = some w ∧ w.programme = p)) →
            n.histogram = m.histogram ∧ n.admitted = m.admitted ∧ n.pendingBlocks = m.pendingBlocks ∧
              n.integState = m.integState) ∧
          (m.resetDue = none → m.admitted < 16777215 → 16777215 ≤ m.admitted + 4 → m.pendingBlocks.length = 4 →
            (∃ w : Sweep, s.body.sweep = some w ∧ w.programme = p) →
            let b := t.body.meter p
            n.histogram = b.histogram ∧ n.admitted = b.admitted ∧ n.pendingBlocks = b.pendingBlocks ∧
              n.integState = b.integState))
     ∃ t, exec .stepBoundary s = .next t ∧ parked t x ∧
       (s.body.timing.samplesOwed = 1 → ∃ u, exec .houseSample t = .next u ∧
         ((u.body.programme p).state = .running → parked u x.advance)))

/-- RELEASE in FILLING or PARKED (R23, R51, R55): DEFINED with no line descriptor, its segments FREE and all others as they were,
no zero-fill job and no queued frame of it left; in FILLING its ALLOCATE is no longer in flight. Settings, selector and
counts are kept, and the answer carries DEFINED.

CLEAR in any state but VACANT, the pending set not owned by SCENE (R24, R62, R120, R123): the record, the lane, the meter and
the gain stage hold their reset values (but for marks and reports owed elsewhere), no sweep is in flight or asked for on the
programme, its segments are FREE, the output map is re-formed and names it nowhere, and no ALLOCATE, DELAY or RESET of it is
in flight. The answer carries VACANT. -/
def Obligations.ReleaseAndClear : Prop :=
  (∀ (s : State) (tag : Byte) (p : Fin 16) (line : Line),
     LineFree s → ((s.body.programme p).state = .filling ∨ (s.body.programme p).state = .parked) →
     (s.body.programme p).line = some line → (s.body.bank line.bank).waiting.filter (· ≠ p) = [] →
     ∃ t, exec (.release tag p.val) s = .next t ∧
       Answers s ((Answer.answer [enum ProgState.all .defined]).message 0x07 tag) t ∧
       (let freed := s.body.onProgramme p fun r => { r with state := .defined, line := none }
        Becomes s { freed with banks := t.body.banks, lanes := t.body.lanes, line := t.body.line } t) ∧
       (∀ i : Nat, (t.body.bank line.bank).segments[i]? = (s.body.bank line.bank).segments[i]?.map fun o =>
         if line.first ≤ i ∧ i < line.first + line.count then none else o) ∧
       (t.body.bank line.bank).jobs = (s.body.bank line.bank).jobs.filter (·.programme ≠ p) ∧
       (t.body.bank line.bank).queue = (s.body.bank line.bank).queue.filter (·.lane ≠ p) ∧
       (∀ k : Fin 4, k ≠ line.bank → (t.body.bank k).segments = (s.body.bank k).segments ∧
         (t.body.bank k).jobs = (s.body.bank k).jobs ∧ (t.body.bank k).queue = (s.body.bank k).queue) ∧
       ((s.body.programme p).state = .filling →
         ∀ d ∈ t.body.line.deferred, d.kind = .allocate → d.subject = p.val → d.complete.isSome = true) ∧
       (t.body.lane p).writeSeq = (s.body.lane p).writeSeq) ∧
  (∀ (s : State) (tag : Byte) (p : Fin 16),
     LineFree s → (s.body.programme p).state ≠ .vacant → (∀ w, (s.body.programme p).pending = some w → w.owner ≠ .scene) →
     ∃ t, exec (.clear tag p.val) s = .next t ∧
       Answers s ((Answer.answer [enum ProgState.all .vacant]).message 0x08 tag) t ∧ Keeps s t ∧
       { t.body.programme p with stateOwed := none } =
         { memorySeen := (s.body.programme p).memorySeen, runningMark := (s.body.programme p).runningMark } ∧
       { t.body.lane p with sceneDelayOwed := none } = {} ∧ { t.body.meter p with sceneResetOwed := none } = {} ∧
       t.body.gain p = {} ∧ (∀ w, t.body.sweep = some w → w.programme ≠ p) ∧ p ∉ t.body.sweepQueue ∧
       (∀ n : Fin 64, ∃ e, t.body.outputMap[n.val]? = some e ∧ e = slotEntry t.body n.val ∧ ∀ i, e ≠ some (p, i)) ∧
       (∀ line : Line, (s.body.programme p).line = some line → ∀ i, line.first ≤ i → i < line.first + line.count →
         ∀ o, (t.body.bank line.bank).segments[i]? = some o → o = none) ∧
       (∀ d ∈ t.body.line.deferred, d.subject = p.val → (d.kind = .allocate ∨ d.kind = .delay) →
         d.complete.isSome = true) ∧
       (∀ due, (s.body.meter p).resetDue = some due → ∀ d ∈ t.body.line.deferred, d.tag ∈ due.tags →
         d.complete.isSome = true) ∧
       t.body.timing = s.body.timing ∧ t.body.ports = s.body.ports ∧ t.body.contacts = s.body.contacts ∧
       t.body.scenes = s.body.scenes ∧
       (∀ o : Fin 16, o ≠ p →
         { t.body.programme o with stateOwed := none } = { s.body.programme o with stateOwed := none } ∨
           ∃ k : Fin 4, o ∈ (s.body.bank k).waiting))

/-! ## Requests on selectors, ports, integration and points -/

/-- SELECT of a side that the active set gives a source, in PRIMING, RUNNING or STARVED (R92): the requested selector is that
side and nothing else changes; the answer carries the programme, the selector as it stands and the side. A side without a
source is refused BAD_FIELD. -/
def Obligations.Select : Prop :=
  ∀ (s : State) (tag : Byte) (p : Fin 16) (side : Selector) (st : Settings),
    LineFree s →
    ((s.body.programme p).state = .priming ∨ (s.body.programme p).state = .running ∨
      (s.body.programme p).state = .starved) →
    (s.body.programme p).active = some st →
    let taken := ∃ t, exec (.select tag p.val side) s = .next t ∧
      Answers s ((Answer.answer [num1 p.val, enum Selector.all (s.body.programme p).selector,
        enum Selector.all side]).message 0x09 tag) t ∧
      Becomes s (s.body.onProgramme p fun r => { r with requested := some side }) t
    (side = .main → taken) ∧ (side = .backup → st.backup ≠ none → taken) ∧
    (side = .backup → st.backup = none →
      ∃ t, exec (.select tag p.val side) s = .next t ∧ Answers s ((refuse .badField).message 0x09 tag) t ∧
        Becomes s s.body t)

/-- PORT (R36): a class already declared changes nothing; another becomes the declared class, clears the tracker's history and
timers, and makes it ACQUIRING where the port is SYNCED and ABSENT otherwise. The answer carries port, class before, class
now and the tracker's state. Of the lanes, only those in PRIMING on the port may change (R71). -/
def Obligations.PortRequest : Prop :=
  ∀ (s : State) (tag : Byte) (q : Fin 8) (cls : PortClass),
    LineFree s →
    let x := s.body.port q
    let answered (u : TrackerState) (t : State) := Answers s ((Answer.answer [num1 q.val, enum PortClass.all x.cls,
      enum PortClass.all cls, enum TrackerState.all u]).message 0x0A tag) t
    let state : TrackerState := if x.presence = .synced then .acquiring else .absent
    (x.cls = cls → ∃ t, exec (.port tag q.val cls) s = .next t ∧ answered x.tracker.state t ∧ Becomes s s.body t) ∧
    (x.cls ≠ cls → ∃ t, exec (.port tag q.val cls) s = .next t ∧ answered state t ∧
      (let y : Port := { x with cls := cls, tracker := { x.tracker with
         state := state, stamps := [], frameCount := 255, span := none, prevSpan := none, q := none, jumpRun := 0
         rangeHeld := false, lossSince := none, holdover := none } }
       Becomes s { s.body.setPort q y with lanes := t.body.lanes } t) ∧
      ∀ p : Fin 16, (s.body.programme p).state ≠ .priming ∨ (∀ src, (s.body.lane p).source = some src → src.port ≠ q) →
        { t.body.lane p with sceneDelayOwed := none } = { s.body.lane p with sceneDelayOwed := none })

/-- INTEGRATE START and PAUSE outside VACANT act at once by the table of R118: the integration state alone changes, and the
answer carries the programme and the state before and after.

INTEGRATE RESET outside VACANT with a free entry for its tag: ACCEPTED, the operation in flight and its tag in the meter's
reset due; nothing is reset yet (R119, R180). With the tag held or eight entries it is refused BUSY. -/
def Obligations.IntegrateRequests : Prop :=
  (∀ (s : State) (tag : Byte) (p : Fin 16),
     LineFree s → (s.body.programme p).state ≠ .vacant →
     let before := (s.body.meter p).integState
     let made (c : Instr) (after : IntegState) : Prop := ∃ t, exec c s = .next t ∧
       Answers s ((Answer.answer [num1 p.val, enum IntegState.all before, enum IntegState.all after]).message 0x0B tag) t ∧
       Becomes s (s.body.onMeter p fun m => { m with integState := after }) t
     (before = .full → made (.integrateStart tag p.val) .full ∧ made (.integratePause tag p.val) .full) ∧
     (before = .idle → made (.integrateStart tag p.val) .integrating ∧ made (.integratePause tag p.val) .idle) ∧
     (before = .integrating → made (.integrateStart tag p.val) .integrating ∧ made (.integratePause tag p.val) .paused) ∧
     (before = .paused → made (.integrateStart tag p.val) .integrating ∧ made (.integratePause tag p.val) .paused)) ∧
  (∀ (s : State) (tag : Byte) (p : Fin 16),
     LineFree s → (s.body.programme p).state ≠ .vacant →
     let due := (s.body.meter p).resetDue
     ((∀ d ∈ s.body.line.deferred, d.tag ≠ tag) → s.body.line.deferred.length < 8 →
       ∃ t, exec (.integrateReset tag p.val) s = .next t ∧ Answers s (Answer.accepted.message 0x0B tag) t ∧
         (let newDue : ResetDue :=
            { tags := (due.map ResetDue.tags).getD [] ++ [tag], scene := (due.map ResetDue.scene).getD false }
          let entry : Deferred := { tag := tag, kind := .integrateReset, subject := p.val, complete := none }
          Becomes s ((s.body.onMeter p fun m => { m with resetDue := some newDue }).onLine
            fun l => { l with deferred := l.deferred ++ [entry] }) t)) ∧
     (((∃ d ∈ s.body.line.deferred, d.tag = tag) ∨ 8 ≤ s.body.line.deferred.length) →
       ∃ t, exec (.integrateReset tag p.val) s = .next t ∧ Answers s ((refuse .busy).message 0x0B tag) t ∧
         Becomes s s.body t))

/-- HISTO (R121): a range within 0 to 749 of 1 to 50 bins of a programme that is not VACANT is answered with the programme, the
integration state, the admitted count, the pending blocks, the first bin and the count of each bin; another range or number
is refused BAD_FIELD, a VACANT programme WRONG_STATE. Nothing changes in any case. The 750 counts sum to the admitted count
wherever the counts agree, which every step keeps (`CountsKept`). -/
def Obligations.Histo : Prop :=
  ∀ (s : State) (tag : Byte) (p first n : Nat),
    LineFree s →
    let made (a : Answer) : Prop := ∃ t, exec (.histo tag p first n) s = .next t ∧ Answers s (a.message 0x0C tag) t ∧
      Becomes s s.body t
    ((15 < p ∨ 749 < first ∨ n < 1 ∨ 50 < n ∨ 750 < first + n) → made (refuse .badField)) ∧
    (∀ i : Fin 16, p = i.val → first ≤ 749 → 1 ≤ n → n ≤ 50 → first + n ≤ 750 →
      ((s.body.programme i).state = .vacant → made (refuse .wrongState)) ∧
      ((s.body.programme i).state ≠ .vacant →
        let m := s.body.meter i
        made (.answer ([num1 p, enum IntegState.all m.integState, num4 m.admitted, num2 m.pendingBlocks.length, num2 first] ++
          ((m.histogram.drop first).take n).map num4)) ∧
        (m.countsAgree = true → (m.histogram.length = 750 ∧ m.histogram.sum = m.admitted))))

/-- PEEK and IDENTIFY (R186): a PEEK of a point that the tables give is answered with the point, its value as it stands and both
counters, and changes nothing, but that of a lane's sticky slip flag clears it (R82); an unknown point is refused BAD_FIELD;
points of an unfitted bank read absent (R61). IDENTIFY gives 1648, the revision, the fitted banks and the line rate; the
revision is a free value (log 16).

The monitor points (R192), class by class, each table in its order from the class's first number on and nothing past its
end: the value as it stands, of the type of R190, absent where what it reads is absent; item layouts as logs 21, 49 and
64 (owed by class, triggers), flags for yes and no as log 45, absent items of a point of several as log 61 choose them, a
delay reported at an occupancy below 4 as log 62. The queue depth is read before the answer takes its place (log 73). -/
def Obligations.PeekIdentify : Prop :=
  (∀ (s : State) (tag : Byte),
     LineFree s →
     (∀ (n : Nat) (v : List Field), readPoint s n = some v →
       ∃ t, exec (.peek tag n) s = .next t ∧
         Answers s ((Answer.answer ([num2 n, num1 (fieldBytes v).length] ++ v ++
           [count4 s.body.timing.sampleCounter, count4 s.body.timing.frameCounter])).message 0x1A tag) t ∧
         (∀ p : Fin 16, n = 0x101B + 256 * p.val → Becomes s (s.body.onLane p fun l => { l with stickySlip := false }) t) ∧
         ((∀ p : Fin 16, n ≠ 0x101B + 256 * p.val) → Becomes s s.body t)) ∧
     (∀ n : Nat, readPoint s n = none →
       ∃ t, exec (.peek tag n) s = .next t ∧ Answers s ((refuse .badField).message 0x1A tag) t ∧ Becomes s s.body t) ∧
     (∀ (k : Fin 4) (i : Nat), s.body.banksStrap = .two → 2 ≤ k.val → i < 4 →
       readPoint s (0x200 + 16 * k.val + i) = some [.n2 none]) ∧
     (∃ t, exec (.identify tag) s = .next t ∧ Becomes s s.body t ∧
       Answers s ((Answer.answer [num2 1648, num2 Config.revision.toNat,
         num2 (if s.body.banksStrap = .two then 2 else 4),
         num4 (match s.body.lrate with
           | .r115200 => 115200
           | .r460800 => 460800
           | .r1000000 => 1000000
           | .r3000000 => 3000000)]).message 0x17 tag) t)) ∧
  (∀ s : State,
     let b := s.body
     let t := b.timing
     let q := b.sequencer
     let l := b.line
     let code (v : Option Nat) : Field := .code v
     let flag (v : Bool) : Field := .flag v
     let count (xs : List Bool) : Field := num2 (xs.filter id).length
     let part : List (List Field) :=
       [[enum [.locked, .free] t.href], [enum [.locked, .free] t.vref], [count4 t.sampleCounter], [count4 t.frameCounter],
        [.n2 t.measuredLength], [num2 t.generatedLength], [num2 t.hrefGlitches], [num2 t.vrefGlitches],
        [num2 (if b.banksStrap = .two then 2 else 4)],
        [.n1 (b.sweep.map fun w => w.programme.val), .n1 (b.sweep.map fun w => if w.secondPass then 2 else 1)],
        num1 b.sweepQueue.length :: b.sweepQueue.map fun p => num1 p.val,
        [num2 (1024 - (b.scenes.toList.map fun x => x.records.length).sum)],
        num1 q.takes.length :: q.takes.flatMap fun k => num1 k.scene.val :: triggerFields k.trigger ++ [num1 k.tag.toNat],
        [enum [.idle, .armed, .applying, .committing, .waiting, .halted] q.state],
        [.n1 (q.current.map Fin.val), .n1 (q.current.map fun _ => q.next)], [num2 q.chain], [num2 q.commitList.length],
        [num2 q.waitCount],
        [.n1 (q.halt.map fun h => h.scene.val), .n1 (q.halt.map Halt.index), code (q.halt.map fun h => h.reason.code),
         num2 ((q.halt.map Halt.countdown).getD 0)],
        [num2 q.applied, num2 q.refused, num2 q.commits], [count (b.entries.toList.map Entry.reportOwed)],
        [num2 s.rx.buffer.length], [enum [true, false] s.rx.hold], [enum [.hunting, .inFrame, .discarding] s.rx.state],
        [num2 s.tx.queue.length], [num2 s.tx.carry.length],
        num1 l.deferred.length :: l.deferred.flatMap fun d => [num1 d.tag.toNat,
         enum [.allocate, .delay, .integrateReset, .take] d.kind, num1 d.subject, enum [false, true] d.complete.isSome],
        num1 l.watch.length :: l.watch.flatMap fun w => [num2 w.point, num1 w.period],
        [num2 (if s.rx.buffer ≠ [] ∧ s.rx.restartPending = false then 1 else 0),
         num2 (s.tx.carry.length + (l.deferred.filter fun d => d.complete.isSome).length),
         count (b.entries.toList.map Entry.reportOwed), count (b.programmes.toList.map fun r => r.stateOwed.isSome),
         num2 (q.owed.length + (b.lanes.toList.filter fun x => x.sceneDelayOwed.isSome).length +
           (b.meters.toList.filter fun x => x.sceneResetOwed.isSome).length),
         count [l.breakOwed.isSome, l.badFrameOwed.isSome, l.overrunOwed.isSome]],
        [num2 l.badFrames], [num2 l.overruns], [num2 l.breaks], [num2 l.meterDrops]]
     let port (i : Fin 8) : List (List Field) :=
       let x := b.port i
       let u := x.tracker
       [[enum [.noClock, .noSync, .synced] x.presence], [enum [.k32, .k44, .k48, .k88, .k96] x.cls],
        [enum [.absent, .acquiring, .locked, .holdover] u.state], [num2 u.stamps.length], [.n4 u.span], [.n4 u.prevSpan],
        [.n4 u.q], [num2 u.jumpRun], [flag u.rangeHeld]]
     let bank (k : Fin 4) : List (List Field) :=
       let shown (v : Nat) : List Field := [.n2 (if b.banksStrap = .two ∧ 2 ≤ k.val then none else some v)]
       [shown (b.bank k).freeSegments, shown (b.bank k).largestRun, shown (b.bank k).queue.length,
        shown (b.bank k).jobs.length]
     let programme (p : Fin 16) : List (List (List Field)) :=
       let r := b.programme p
       let x := b.lane p
       let m := b.meter p
       let g := b.gain p
       let job := r.line.bind fun y => (b.bank y.bank).jobs.find? fun j => j.programme = p
       let delay := if r.state = .running then x.ratio.map fun y => (x.occupancy - 4) * y.q / 524288 else none
       [[[enum [.vacant, .defined, .filling, .parked, .priming, .running, .starved] r.state], [num2 r.memoryErrors],
         [num2 r.writeDrops], [.n4 (job.map FillJob.written), .n4 (job.map FillJob.words)], [flag x.holding.isSome]],
        [[count4 x.writeSeq], [count4 x.readSeq], [num4 x.occupancy], [.n4 x.setpoint], [flag x.delayLimited], [.n4 delay],
         [num4 x.increment], [.n1 (x.ratio.map fun y => y.port.val), .n4 (x.ratio.map RatioRecord.q)],
         [code (x.change.map fun y => [ChangePhase.slewing, .due, .tail, .remainder].idxOf y.phase)],
         [num2 ((x.tail.map FadeTail.remaining).getD 0)], [num2 x.marks.length], [flag x.stickySlip], [num2 r.slips],
         [num2 r.overloads]],
        [[enum [.main, .backup] r.selector], [code (r.requested.map fun y => [Selector.main, .backup].idxOf y)],
         [.n1 (x.source.map fun y => y.port.val), .n1 (x.source.map fun y => y.slot.val)], [num2 r.guard],
         [num2 r.revertCount],
         num1 x.marks.length :: x.marks.flatMap fun y => [count4 y.seq, num1 y.port.val, num1 y.slot.val, .n4 y.q],
         [.n4 (x.marks.head?.map fun y => (y.seq - x.readSeq).toNat)]],
        [[.s2 m.momentary], [.s2 m.shortTerm], [.s1 m.correlation], [.s2 m.integrated],
         [enum [.idle, .integrating, .paused, .full] m.integState], [num4 m.admitted], [num2 m.pendingBlocks.length],
         [num2 m.ring.length], [code (m.ring.getLast?.map fun y => if y.disturbed then 0 else 1)], [flag m.resetDue.isSome],
         [num2 m.abandoned]],
        [[.s2 (some g.g)], [.s2 (some g.applied.floor)], [num2 ((g.ramp.map fun y => 4800 - y.position).getD 0)],
         [enum [.off, .waiting, .gated, .settled, .moving] g.rider], [.s2 g.desired], [.s2 (some (g.gr / 48000 : Nat))],
         [num2 g.activations]],
        [[flag r.runningMark]]]
     let slot (i : Fin 64) : List (List Field) :=
       let e := b.outputMap.getD i.val none
       [[.n1 (e.map fun x => x.1.val), .n1 (e.map Prod.snd)],
        [flag (e.any fun x => decide ((b.programme x.1).state = .running))]]
     let entry (e : Fin 154) : List (List Field) :=
       let x := b.entry e
       [[enum [.clear, .onset, .active, .release, .latched] x.state], [num2 x.countdown], [flag x.unacked],
        [flag x.reportOwed], [num2 x.onsets], [count4 x.changeFrame],
        [flag x.enabled, num2 x.onsetHold, num2 x.releaseHold, flag x.latching, num1 x.contactMask.toNat]]
     (∀ n : Nat, n < 0x100 → readPoint s n = part[n]?) ∧
     (∀ (i : Fin 8) (n : Nat), n < 16 → readPoint s (0x100 + 16 * i.val + n) = (port i)[n]?) ∧
     (∀ (k : Fin 4) (n : Nat), n < 16 → readPoint s (0x200 + 16 * k.val + n) = (bank k)[n]?) ∧
     (∀ (p : Fin 16) (block n : Nat), block < 16 → n < 16 →
       readPoint s (0x1000 + 256 * p.val + 16 * block + n) = ((programme p).getD block [])[n]?) ∧
     (∀ (i : Fin 64) (n : Nat), n < 16 → readPoint s (0x2000 + 16 * i.val + n) = (slot i)[n]?) ∧
     (∀ (e : Fin 154) (n : Nat), n < 8 → readPoint s (0x3000 + 8 * e.val + n) = (entry e)[n]?) ∧
     (∀ k : Fin 8, readPoint s (0x3800 + 2 * k.val) = some [enum [false, true] (b.contact k).closed] ∧
       readPoint s (0x3801 + 2 * k.val) = some [enum [.steady, .unacked] (b.contact k).mode]) ∧
     (∀ i : Fin 32, readPoint s (0x3900 + 2 * i.val) = some [num2 (b.scene i).records.length] ∧
       readPoint s (0x3901 + 2 * i.val) = some [flag (b.scene i).stopOnRefusal]) ∧
     ∀ n : Nat, (0x180 ≤ n ∧ n < 0x200) ∨ (0x240 ≤ n ∧ n < 0x1000) ∨ (0x2400 ≤ n ∧ n < 0x3000) ∨
       (0x34D0 ≤ n ∧ n < 0x3800) ∨ (0x3810 ≤ n ∧ n < 0x3900) ∨ 0x3940 ≤ n → readPoint s n = none)

/-! ## Requests on alarms and contacts -/

/-- ALARMCFG of an entry, carrying a field at least, holds to 600 and a mask of one byte (R149, R150): the fields carried are
written; disabling an entry that is not CLEAR clears it, its flag and its countdown and owes a report at the latest frame
count; a changed hold reloads the countdown of an entry in its phase; the contacts stand as R151 says, and no other entry
changes. The answer carries the entry, its configuration before and after, and its state.

ALARMCFG refused BAD_FIELD, with nothing changed (R149): an entry above 153, no field carried, one of the three unused bits
set, a hold above 600, a mask above its byte.

ACK of one entry or of all (R147, R151): LATCHED goes to CLEAR with its flag cleared and a report owed at the latest frame
count, ACTIVE and RELEASE lose the flag alone, CLEAR and ONSET change nothing, and the contacts stand as R151 says. The
answer to one carries its state before and after and its flag before; to all, how many flags and how many LATCHED there
were. -/
def Obligations.AlarmcfgAndAck : Prop :=
  (∀ (s : State) (tag : Byte) (e : Fin 154) (f : AlarmFields),
     LineFree s → f ≠ {} → (∀ h, f.onsetHold = some h → h ≤ 600) → (∀ h, f.releaseHold = some h → h ≤ 600) →
     (∀ m, f.contactMask = some m → m ≤ 255) → f.reserved = 0 →
     let x := s.body.entry e
     let y : Entry :=
       { x with enabled := f.enabled.getD x.enabled, onsetHold := f.onsetHold.getD x.onsetHold
                releaseHold := f.releaseHold.getD x.releaseHold, latching := f.latching.getD x.latching
                contactMask := (f.contactMask.map (BitVec.ofNat 8)).getD x.contactMask }
     let config (z : Entry) : List Field :=
       [.flag z.enabled, num2 z.onsetHold, num2 z.releaseHold, .flag z.latching, num1 z.contactMask.toNat]
     let made (z : Entry) : Prop := ∃ t, exec (.alarmcfg tag e.val f) s = .next t ∧
       Answers s ((Answer.answer (num2 e.val :: (config x ++ config z ++ [enum EntryState.all z.state]))).message 0x0D tag) t ∧
       Becomes s { s.body.setEntry e z with contacts := t.body.contacts } t ∧ contactsRight t.body ∧
       ∀ k : Fin 8, (t.body.contact k).mode = (s.body.contact k).mode
     (y.enabled = false → x.state ≠ .clear →
       made { y with state := .clear, unacked := false, countdown := 0, reportOwed := true
                     changeFrame := s.body.timing.frameCounter, withheld := false }) ∧
     (y.enabled = false → x.state = .clear → made y) ∧
     (y.enabled = true → x.state = .onset → y.onsetHold ≠ x.onsetHold → made { y with countdown := y.onsetHold }) ∧
     (y.enabled = true → x.state = .release → y.releaseHold ≠ x.releaseHold → made { y with countdown := y.releaseHold }) ∧
     (y.enabled = true → (x.state = .onset → y.onsetHold = x.onsetHold) →
       (x.state = .release → y.releaseHold = x.releaseHold) → made y)) ∧
  (∀ (s : State) (tag : Byte) (e : Nat) (f : AlarmFields),
     LineFree s →
     (153 < e ∨ f = {} ∨ f.reserved ≠ 0 ∨ (∃ h, f.onsetHold = some h ∧ 600 < h) ∨
       (∃ h, f.releaseHold = some h ∧ 600 < h) ∨ ∃ m, f.contactMask = some m ∧ 255 < m) →
     ∃ t, exec (.alarmcfg tag e f) s = .next t ∧ Answers s ((refuse .badField).message 0x0D tag) t ∧ Becomes s s.body t) ∧
  (∀ (s : State) (tag : Byte),
     LineFree s →
     let acked (x : Entry) : Entry :=
       match x.state with
       | .latched => { x with state := .clear, unacked := false, reportOwed := true
                              changeFrame := s.body.timing.frameCounter, withheld := false }
       | .active | .release => { x with unacked := false }
       | .clear | .onset => x
     (∀ e : Fin 154, ∃ t, exec (.ack tag (some e.val)) s = .next t ∧
       Answers s ((Answer.answer [num2 e.val, enum EntryState.all (s.body.entry e).state,
         enum EntryState.all (acked (s.body.entry e)).state, .flag (s.body.entry e).unacked]).message 0x0E tag) t ∧
       Becomes s { s.body.setEntry e (acked (s.body.entry e)) with contacts := t.body.contacts } t ∧
       contactsRight t.body ∧ ∀ k : Fin 8, (t.body.contact k).mode = (s.body.contact k).mode) ∧
     (∃ t, exec (.ack tag none) s = .next t ∧
       Answers s ((Answer.answer [num2 (s.body.entries.toList.filter Entry.unacked).length,
         num2 (s.body.entries.toList.filter fun x => x.state = .latched).length]).message 0x0E tag) t ∧
       Becomes s { s.body with entries := s.body.entries.map acked, contacts := t.body.contacts } t ∧
       contactsRight t.body ∧ ∀ k : Fin 8, (t.body.contact k).mode = (s.body.contact k).mode))

/-- CONTACT (R152): a contact 0 to 7 takes the mode and its state is recomputed by R151 in the same event, also where the mode
is already set; the answer carries the contact, its mode before and after and its state after. A contact above 7 is refused
BAD_FIELD, and so is a frame of the request's kind with an unknown mode. The scene commands leave every contact's mode. -/
def Obligations.ContactRequest : Prop :=
  (∀ (s : State) (tag : Byte) (k : Fin 8) (mode : ContactMode), LineFree s →
    let closes : Bool :=
      match mode with
      | .steady => (List.finRange 154).any fun e => (s.body.entry e).contactMask.getLsbD k && (s.body.entry e).enabled &&
          ((s.body.entry e).state == .active || (s.body.entry e).state == .release || (s.body.entry e).state == .latched)
      | .unacked => (List.finRange 154).any fun e =>
          (s.body.entry e).contactMask.getLsbD k && (s.body.entry e).unacked
    ∃ t, exec (.contact tag k.val mode) s = .next t ∧
      Answers s ((Answer.answer [num1 k.val, enum ContactMode.all (s.body.contact k).mode, enum ContactMode.all mode,
        enum [false, true] closes]).message 0x0F tag) t ∧
      t.body.contact k = { mode := mode, closed := closes } ∧ contactsRight t.body ∧
      (∀ o : Fin 8, o ≠ k → (t.body.contact o).mode = (s.body.contact o).mode) ∧
      (contactsRight s.body → ∀ o : Fin 8, o ≠ k → t.body.contact o = s.body.contact o) ∧
      (contactsRight s.body → (s.body.contact k).mode = mode → t.body.contacts = s.body.contacts) ∧
      Becomes s { s.body with contacts := t.body.contacts } t) ∧
  (∀ (s : State) (tag : Byte) (k : Nat) (mode : ContactMode), LineFree s → 7 < k →
    ∃ t, exec (.contact tag k mode) s = .next t ∧ Answers s ((refuse .badField).message 0x0F tag) t ∧
      Becomes s s.body t) ∧
  (∀ (s : State) (tag k mode : Byte), LineFree s → 2 ≤ mode.toNat →
    ∃ t, exec (.frameChecked 0x0F tag [k, mode]) s = .next t ∧ Answers s ((refuse .badField).message 0x0F tag) t ∧
      t.body.contacts = s.body.contacts) ∧
  (∀ (s t : State) (c : Instr),
    c ∈ [.sceneSetRecord, .sceneDelayRecord, .sceneSlotsRecord, .sceneSourceRecord, .sceneAlarmcfgRecord,
      .sceneIntegrateRecord, .sceneWaitRecord, .sceneChainRecord, .sceneListEnd, .sceneCommit] →
    exec c s = .next t → ∀ k : Fin 8, (t.body.contact k).mode = (s.body.contact k).mode)

/-! ## The scene store and the take queue -/

/-- SCENE APPEND (R158), its checks in their order: an unknown scene, a flag beyond the three and a record whose form fails are
refused BAD_FIELD, with the index of the first such record; a busy scene SCENE_BUSY; a list above 128 or more records than
slots free, those of a list started fresh counted as free, NO_SPACE. None of these changes anything. Otherwise the list is
the kept records followed by those carried, in order, its flag the one carried, or clear for a fresh list that carries none;
the answer gives the scene, its length and the slots then free. The last clauses say what the form of a record asks: of a
SET, one setting or both limits of the loud window, and numbers that exist; an absent code in a value is a value there (log 76). -/
def Obligations.SceneAppend : Prop :=
  (∀ (s : State) (tag : Byte) (scene : Nat) (flags : Byte) (records : List (Option SceneRecord)),
    LineFree s →
    let turned (a : Answer) : Prop := ∃ t, exec (.sceneAppend tag scene flags records) s = .next t ∧
      Answers s (a.message 0x10 tag) t ∧ Becomes s s.body t
    ((32 ≤ scene ∨ 8 ≤ flags.toNat) → turned (.refused .badField [.n1 none])) ∧
    (∀ (good bad : List (Option SceneRecord)) (x : Option SceneRecord), scene < 32 → flags.toNat < 8 →
      records = good ++ x :: bad → (∀ g ∈ good, ∃ r, g = some r ∧ recordForm r = true) →
      (∀ r, x = some r → recordForm r = false) → turned (.refused .badField [.n1 (some good.length)]))) ∧
  (∀ (s : State) (tag : Byte) (n : Fin 32) (flags : Byte) (new : List SceneRecord),
    LineFree s → flags.toNat < 8 → (∀ r ∈ new, recordForm r = true) →
    let old := s.body.scene n
    let q := s.body.sequencer
    let busy : Prop := (∃ t ∈ q.takes, t.scene = n) ∨
      ((q.state = .applying ∨ q.state = .committing ∨ q.state = .waiting ∨ q.state = .halted) ∧ q.current = some n)
    let kept := if flags.getLsbD 0 then [] else old.records
    let free (b : Body) : Nat := 1024 - (b.scenes.toList.map fun l => l.records.length).sum
    let room := free s.body + (if flags.getLsbD 0 then old.records.length else 0)
    let stop := if flags.getLsbD 1 then flags.getLsbD 2 else !flags.getLsbD 0 && old.stopOnRefusal
    let list : SceneList := { records := kept ++ new, stopOnRefusal := stop }
    let made (a : Answer) (b : Body) : Prop := ∃ t, exec (.sceneAppend tag n.val flags (new.map some)) s = .next t ∧
      Answers s (a.message 0x10 tag) t ∧ Becomes s b t
    (busy → made (refuse .sceneBusy) s.body) ∧
    (¬ busy → (128 < kept.length + new.length ∨ room < new.length) → made (refuse .noSpace) s.body) ∧
    (¬ busy → kept.length + new.length ≤ 128 → new.length ≤ room →
      made (.answer [num1 n.val, num2 (kept.length + new.length), num2 (free (s.body.setScene n list))])
        (s.body.setScene n list))) ∧
  (∀ t is, recordForm (.set t is) = true ↔ (∀ p, t = .programme p → p ≤ 15) ∧ (∀ g, t = .group g → g ≤ 3) ∧
    ((∃ i, is = [i]) ∨ ∃ x y, is = [.loudHigh x, .loudLow y] ∨ is = [.loudLow y, .loudHigh x]) ∧
    ∀ i ∈ is, (∀ q k, i = .mainSource q k → q ≤ 7 ∧ k ≤ 63) ∧ (∀ q k, i = .backupSource (some (q, k)) → q ≤ 7 ∧ k ≤ 63) ∧
      (∀ l, i = .outputSlots l → ∀ k ∈ l, k ≤ 63) ∧ ∀ g, i = .linkGroup (some g) → g ≤ 3) ∧
  (∀ p a, recordForm (.integrate p a) = true ↔ p ≤ 15) ∧ (∀ e f, recordForm (.alarmcfg e f) = true ↔ e ≤ 153) ∧
  (∀ n, recordForm (.wait n) = true ↔ n ≤ 250) ∧ (∀ n, recordForm (.chain n) = true ↔ n ≤ 31) ∧
  (∀ p l, recordForm (.slots p l) = true ↔ p ≤ 15 ∧ ∀ k ∈ l, k ≤ 63) ∧
  (∀ p n m, recordForm (.delay (.programme p) n m) = true ↔ p ≤ 15) ∧
  (∀ g n m, recordForm (.delay (.group g) n m) = true ↔ g ≤ 3) ∧
  (∀ p side q k, recordForm (.source p side (some (q, k))) = true ↔ p ≤ 15 ∧ q ≤ 7 ∧ k ≤ 63) ∧
  (∀ p side, recordForm (.source p side none) = true ↔ p ≤ 15 ∧ side = .backup)

/-- SCENE READ (R159): a scene above 31, an index above 127 or a count outside 1 to 8 is refused BAD_FIELD; the answer
carries the scene's length, its flag, whether it is busy, the free slots, and the records of the range that exist, each
with its index. Nothing is disturbed, and a busy scene may be read. -/
def Obligations.SceneRead : Prop :=
  ∀ (s : State) (tag : Byte) (scene first count : Nat),
    LineFree s →
    let made (a : Answer) : Prop := ∃ t, exec (.sceneRead tag scene first count) s = .next t ∧
      Answers s (a.message 0x11 tag) t ∧ Becomes s s.body t
    ((31 < scene ∨ 127 < first ∨ count < 1 ∨ 8 < count) → made (refuse .badField)) ∧
    (∀ n : Fin 32, scene = n.val → first ≤ 127 → 1 ≤ count → count ≤ 8 →
      let l := s.body.scene n
      let q := s.body.sequencer
      let shown := (List.range count).filterMap fun i =>
        (l.records[first + i]?).map fun r => num1 (first + i) :: recordMessage r
      ∃ busy : Bool,
        (busy = true ↔ (∃ t ∈ q.takes, t.scene = n) ∨
          ((q.state = .applying ∨ q.state = .committing ∨ q.state = .waiting ∨ q.state = .halted) ∧ q.current = some n)) ∧
        made (.answer ([num2 l.records.length, .flag l.stopOnRefusal, .flag busy,
          num2 (1024 - (s.body.scenes.toList.map fun l => l.records.length).sum), num1 shown.length] ++ shown.flatten)))

/-- TAKE (R160, R161, R180): an unknown scene or trigger is refused BAD_FIELD, a full queue QUEUE_FULL, then a tag held or a full
deferred table BUSY. Otherwise it is ACCEPTED: the operation is in flight and the take is the newest of the queue; into an
empty queue of an IDLE sequencer it becomes ARMED at once, late where its count has passed at the latest boundary. AT_FRAME
FFFFFFFFh names that count (log 76). -/
def Obligations.TakeAccepted : Prop :=
  ∀ (s : State) (tag : Byte) (scene : Nat) (trigger : Trigger),
    LineFree s →
    let q := s.body.sequencer
    let l := s.body.line.deferred
    let known : Prop := ∀ k dir, trigger = .gpi k dir → k ≤ 3
    let made (a : Answer) (b : Body) : Prop := ∃ t, exec (.take tag scene trigger) s = .next t ∧
      Answers s (a.message 0x12 tag) t ∧ Becomes s b t
    ((31 < scene ∨ ¬ known) → made (refuse .badField) s.body) ∧
    (scene ≤ 31 → known → 4 ≤ q.takes.length → made (refuse .queueFull) s.body) ∧
    (scene ≤ 31 → known → q.takes.length < 4 → ((∃ d ∈ l, d.tag = tag) ∨ 8 ≤ l.length) → made (refuse .busy) s.body) ∧
    (∀ n : Fin 32, scene = n.val → known → q.takes.length < 4 → (∀ d ∈ l, d.tag ≠ tag) → l.length < 8 →
      let entry : Deferred := { tag := tag, kind := .take, subject := n.val, complete := none }
      let new : Take := { scene := n, trigger := trigger, tag := tag }
      let begun (x : Sequencer) : Body := { s.body with sequencer := x, line := { s.body.line with deferred := l ++ [entry] } }
      (q.state ≠ .idle → made .accepted (begun { q with takes := q.takes ++ [new] })) ∧
      (q.state = .idle → q.takes = [] → ∃ late : Bool,
        (late = true ↔ ∃ m, trigger = .atFrame m ∧ (s.body.timing.frameCounter - m).toNat < 2147483648) ∧
        made .accepted (begun { q with takes := [new], state := .armed, late := late })))

/-- CANCEL (R162): a take that is not running leaves the queue, those behind close up, and its operation completes CANCELLED;
the answer gives its scene and place. Cancelling the head leaves the sequencer IDLE, or ARMED on the next take, whose
trigger is judged afresh. The running take is refused WRONG_STATE, a tag that no take carries NOT_FOUND. -/
def Obligations.CancelTake : Prop :=
  ∀ (s : State) (tag takeTag : Byte),
    LineFree s →
    let q := s.body.sequencer
    let running : Prop := q.state = .applying ∨ q.state = .committing ∨ q.state = .waiting ∨ q.state = .halted
    let made (a : Answer) (b : Body) (also : State → Prop) : Prop := ∃ t, exec (.cancel tag takeTag) s = .next t ∧
      Answers s (a.message 0x13 tag) t ∧ Becomes s b t ∧ also t
    let nothing : State → Prop := fun _ => True
    ((∀ t ∈ q.takes, t.tag ≠ takeTag) → made (refuse .notFound) s.body nothing) ∧
    (∀ (tk : Take) (rest : List Take), q.takes = tk :: rest → tk.tag = takeTag → running →
      made (refuse .wrongState) s.body nothing) ∧
    (∀ (before rest : List Take) (tk : Take), q.takes = before ++ tk :: rest → tk.tag = takeTag →
      (∀ o ∈ before, o.tag ≠ takeTag) → (before ≠ [] ∨ ¬ running) →
      let left : Sequencer :=
        if before = [] then
          { q with takes := rest, state := if rest = [] then .idle else .armed
                   late := rest.head?.any fun o => framePassed s.body.timing.frameCounter o.trigger }
        else { q with takes := before ++ rest }
      made (.answer [num1 tk.scene.val, num1 before.length])
        { s.body with
          sequencer := left
          line := { s.body.line with deferred := s.body.line.deferred.filter fun d => d.tag != takeTag } }
        fun t => ∀ d : Deferred, InFlight d s → d.tag = takeTag → CompletionDue d .cancelled [] t)

/-- RESUME (R168): in HALTED the sequencer goes on APPLYING at the record after the refused one, in the list of the halt
record, which is cleared; the counts stay, and the answer carries the halt record as it stood. In any other state it is
refused WRONG_STATE. -/
def Obligations.ResumeTake : Prop :=
  ∀ (s : State) (tag : Byte),
    LineFree s →
    let q := s.body.sequencer
    let made (a : Answer) (b : Body) : Prop := ∃ t, exec (.resume tag) s = .next t ∧
      Answers s (a.message 0x14 tag) t ∧ Becomes s b t
    (q.state ≠ .halted → made (refuse .wrongState) s.body) ∧
    (∀ h : Halt, q.state = .halted → q.halt = some h →
      made (.answer [num1 h.scene.val, num1 h.index, .code (some h.reason.code)])
        { s.body with sequencer :=
            { q with state := .applying, current := some h.scene, next := h.index + 1, halt := none } })

/-- ABANDON while a take is running, and HALT_EXPIRY at an open boundary at which a halt countdown runs out (R169): the sets
that the scene owns are discarded, their DELAY operations and the take complete ABANDONED, the commit list, the halt record
and the wait are gone, and the sequencer is at the end of the take. ABANDON answers the commit number and the two counts; in
IDLE and ARMED it is refused WRONG_STATE. The chain count and the take counts stay as they were (log 56). -/
def Obligations.TakeAbandoned : Prop :=
  ∀ (s : State),
    let q := s.body.sequencer
    let completes (tk : Take) (t : State) : Prop :=
      (∀ d : Deferred, InFlight d s → d.tag = tk.tag →
        (∀ p : Fin 16, (s.body.programme p).pending.bind Pending.delay ≠ some (.operation d.tag)) →
        CompletionDue d .abandoned [num2 q.applied, num2 q.refused, num2 q.commits] t) ∧
      (∀ (d : Deferred) (p : Fin 16) (w : Pending), InFlight d s → (s.body.programme p).pending = some w →
        w.owner = .scene → w.delay = some (.operation d.tag) → CompletionDue d .abandoned [] t)
    (∀ tag : Byte, LineFree s → (q.state = .idle ∨ q.state = .armed) →
      ∃ t, exec (.abandon tag) s = .next t ∧ Answers s ((refuse .wrongState).message 0x15 tag) t ∧ Becomes s s.body t) ∧
    (∀ (tag : Byte) (tk : Take) (rest : List Take), LineFree s → q.takes = tk :: rest →
      (q.state = .applying ∨ q.state = .committing ∨ q.state = .waiting ∨ q.state = .halted) →
      ∃ t, exec (.abandon tag) s = .next t ∧
        Answers s ((Answer.answer [num2 q.commits, num2 q.applied, num2 q.refused]).message 0x15 tag) t ∧
        Becomes s (s.body.takeAbandoned tk rest s.body.timing.frameCounter) t ∧ completes tk t) ∧
    (∀ (tk : Take) (rest : List Take) (d : Boundary) (h : Halt), q.takes = tk :: rest → s.body.timing.boundary = some d →
      d.sequencerDone = false → q.state = .halted → q.halt = some h → h.countdown ≤ 1 →
      ∃ t, exec .haltExpiry s = .next t ∧
        Becomes s { s.body.takeAbandoned tk rest d.frame with timing :=
          { s.body.timing with frameCounter := d.frame, boundary := some { d with sequencerDone := true } } } t ∧
        completes tk t)

/-- The trigger of the ARMED head (R160, R161): TAKE_TRIGGER_MET at an open boundary starts a NEXT_BOUNDARY take, an AT_FRAME
take whose count is the boundary's, and a late one, but that one armed late at the very boundary it names waits for the next
(log 52), and a NEXT_BOUNDARY take armed there starts at it (log 68), as does one that names an earlier count (log 75); GPI_EDGE starts a take that waits for that edge of that input. The take
begins APPLYING at record 0 with every count at 0, and STARTED is due. Where the trigger is another, only the level of the
input is kept; an edge to the level held changes nothing. -/
def Obligations.TakeStarts : Prop :=
  ∀ (s : State),
    let q := s.body.sequencer
    (∀ (tk : Take) (rest : List Take) (d : Boundary), q.state = .armed → q.takes = tk :: rest →
      s.body.timing.boundary = some d → d.sequencerDone = false →
      (tk.trigger = .nextBoundary ∨ ∃ n, tk.trigger = .atFrame n ∧ (q.late = true ↔ n ≠ d.frame)) →
      ∃ t, exec .takeTriggerMet s = .next t ∧
        Becomes s { s.body with
          sequencer := q.started tk
          timing := { s.body.timing with frameCounter := d.frame, boundary := some { d with sequencerDone := true } } } t ∧
        SceneReportDue (.started tk.tag tk.scene q.late d.frame) t) ∧
    (∀ (tk : Take) (rest : List Take) (d : Boundary) (n : Count), q.state = .armed → q.takes = tk :: rest →
      s.body.timing.boundary = some d → tk.trigger = .atFrame n → (q.late = true ↔ n = d.frame) →
      ∃ t, exec .takeTriggerMet s = .next t ∧ Becomes s s.body t) ∧
    (∀ (k : Fin 4) (dir : EdgeDir),
      let level : Bool := decide (dir = .rising)
      let moved : Sequencer := { q with gpi := q.gpi.set k level }
      (q.gpi[k] = level → ∃ t, exec (.gpiEdge k dir) s = .next t ∧ Becomes s s.body t) ∧
      (∀ (tk : Take) (rest : List Take), q.gpi[k] ≠ level → q.state = .armed → q.takes = tk :: rest →
        tk.trigger = .gpi k.val dir →
        ∃ t, exec (.gpiEdge k dir) s = .next t ∧ Becomes s { s.body with sequencer := moved.started tk } t ∧
          SceneReportDue (.started tk.tag tk.scene q.late s.body.timing.frameCounter) t) ∧
      (q.gpi[k] ≠ level → (q.state = .armed → ∀ tk ∈ q.takes.head?, tk.trigger ≠ .gpi k.val dir) →
        ∃ t, exec (.gpiEdge k dir) s = .next t ∧ Becomes s { s.body with sequencer := moved } t))

/-! ## The records of a scene -/

/-- The four programme records in APPLYING (R163, R7, R165), `writes` saying what each writes. On a programme: the first
failing check of a write, the owner's left out, refuses the record; else the pending set is written, SCENE-owned, a DELAY
operation whose target it replaces ends SUPERSEDED, and the record counts as applied. On a group: each member is written
or not by its own checks, and the record is applied where all pass, refused with the first refused member's reason
otherwise; a group is not written in the settings it cannot name. A refused record is counted, and skipped where the list's
flag is clear; where it is set the sequencer halts with a halt record, 250 frame periods, and HALTED due, the next record
being the refused one (log 55). -/
def Obligations.SceneProgrammeRecords : Prop :=
  ∀ (s : State) (c : Instr) (r : SceneRecord) (target : Target) (delay : Option DelayOrigin) (named : Bool)
    (is : List SettingItem) (n : Fin 32) (tk : Take) (rest : List Take),
    let q := s.body.sequencer
    let writes : Prop :=
      (c = .sceneSetRecord ∧ r = .set target is ∧ delay = none ∧ named = (setForm is && setNames is)) ∨
      (named = true ∧ ((∃ d m, c = .sceneDelayRecord ∧ r = .delay target d m ∧ delay = some .scene ∧
          is = [.delayTarget d, .delayMode m]) ∨
        (delay = none ∧ ∃ p, target = .programme p ∧
          ((∃ l, c = .sceneSlotsRecord ∧ r = .slots p l ∧ is = [.outputSlots l]) ∨
           (c = .sceneSourceRecord ∧ ((∃ x, r = .source p .main (some x) ∧ is = [.mainSource x.1 x.2]) ∨
             ∃ x, r = .source p .backup x ∧ is = [.backupSource x]))))))
    let check (p : Fin 16) : Option Reason := writeRefusal s.body p true named is
    let kept (x : Programme) : Option DelayOrigin := x.pending.bind Pending.delay
    let written (x : Programme) (st : Settings) : Programme :=
      let w : Pending := { settings := st.writeAll is, owner := .scene, delay := if delay.isSome then delay else kept x }
      { x with pending := some w }
    let applied (t : State) : Prop := { t.body.sequencer with owed := [] } = { q with applied := q.applied + 1, next := q.next + 1, owed := [] }
    let refused (reason : Reason) (t : State) : Prop :=
      ((s.body.scene n).stopOnRefusal = false →
        { t.body.sequencer with owed := [] } = { q with refused := q.refused + 1, next := q.next + 1, owed := [] }) ∧
      ((s.body.scene n).stopOnRefusal = true →
        (let h : Halt := { scene := n, index := q.next, reason := reason, countdown := 250 }
         { t.body.sequencer with owed := [] } = { q with refused := q.refused + 1, state := .halted, halt := some h, owed := [] }) ∧
        SceneReportDue (.halted tk.tag n q.next reason (q.refused + 1)) t)
    let superseded (d : Deferred) (p : Fin 16) : Prop :=
      delay.isSome = true ∧ kept (s.body.programme p) = some (.operation d.tag)
    writes → q.state = .applying → q.current = some n → q.takes = tk :: rest → (s.body.scene n).records[q.next]? = some r →
    ∃ t, exec c s = .next t ∧ Becomes s { s.body with programmes := t.body.programmes, sequencer := t.body.sequencer
                                                      line := t.body.line } t ∧
      (∀ p : Fin 16, target = .programme p.val →
        (∀ o : Fin 16, o ≠ p → t.body.sets[o] = s.body.sets[o]) ∧
        (∀ reason, check p = some reason → refused reason t ∧ t.body.sets = s.body.sets) ∧
        (∀ st, check p = none → (s.body.programme p).effectiveNext = some st →
          applied t ∧ t.body.sets[p] = ((s.body.programme p).active, (written (s.body.programme p) st).pending) ∧
          ∀ d, InFlight d s → superseded d p → CompletionDue d .superseded [] t)) ∧
      (∀ g : Nat, target = .group g → groupNames is = true →
        let members := (List.finRange 16).filter fun p =>
          (s.body.programme p).active.any fun st => decide (st.linkGroup = some g)
        (∀ p : Fin 16, (p ∉ members ∨ (check p).isSome = true) → t.body.sets[p] = s.body.sets[p]) ∧
        (∀ (p : Fin 16) (st : Settings), p ∈ members → check p = none → (s.body.programme p).effectiveNext = some st →
          t.body.sets[p] = ((s.body.programme p).active, (written (s.body.programme p) st).pending)) ∧
        (members.findSome? check = none → applied t) ∧
        (∀ reason, members.findSome? check = some reason → refused reason t)) ∧
      (∀ g : Nat, target = .group g → groupNames is = false → refused .badField t ∧ t.body.sets = s.body.sets)

/-- The commit list records, the control records and the end of the list in APPLYING (R164, R165). A record that passes joins
the commit list and counts as applied; the 33rd is refused COMMIT_FULL, an ALARMCFG without a field, with an unused bit or out of range BAD_FIELD,
an INTEGRATE of a VACANT programme WRONG_STATE. A WAIT counts as applied and is a commit point; a CHAIN goes on at record 0
of its list, and one that would bring the chain count above 8 is refused CHAIN_LIMIT; the end of the list is a commit point.
A refusal is as R165 says; while HALTED the next record is the refused one (log 55). -/
def Obligations.SceneListRecords : Prop :=
  ∀ (s : State) (n : Fin 32) (tk : Take) (rest : List Take),
    let q := s.body.sequencer
    let record := (s.body.scene n).records[q.next]?
    let becomes (c : Instr) (x : Sequencer) : Prop := ∃ t, exec c s = .next t ∧ Becomes s { s.body with sequencer := x } t
    let refused (c : Instr) (reason : Reason) : Prop :=
      ((s.body.scene n).stopOnRefusal = false → becomes c { q with refused := q.refused + 1, next := q.next + 1 }) ∧
      ((s.body.scene n).stopOnRefusal = true →
        let h : Halt := { scene := n, index := q.next, reason := reason, countdown := 250 }
        ∃ t, exec c s = .next t ∧
          Becomes s { s.body with sequencer := { q with refused := q.refused + 1, state := .halted, halt := some h } } t ∧
          SceneReportDue (.halted tk.tag n q.next reason (q.refused + 1)) t)
    let joins (c : Instr) (i : CommitItem) : Prop :=
      (q.commitList.length < 32 →
        becomes c { q with commitList := q.commitList ++ [i], applied := q.applied + 1, next := q.next + 1 }) ∧
      (32 ≤ q.commitList.length → refused c .commitFull)
    q.state = .applying → q.current = some n → q.takes = tk :: rest →
    (∀ (e : Nat) (f : AlarmFields), record = some (.alarmcfg e f) →
      let passes : Prop := e < 154 ∧ f ≠ {} ∧ f.reserved = 0 ∧ (∀ h, f.onsetHold = some h → h ≤ 600) ∧
        (∀ h, f.releaseHold = some h → h ≤ 600) ∧ ∀ m, f.contactMask = some m → m ≤ 255
      (¬ passes → refused .sceneAlarmcfgRecord .badField) ∧
      (∀ x : Fin 154, e = x.val → passes → joins .sceneAlarmcfgRecord (.alarmcfg x f))) ∧
    (∀ (p : Fin 16) (a : IntegrateAction), record = some (.integrate p.val a) →
      ((s.body.programme p).state = .vacant → refused .sceneIntegrateRecord .wrongState) ∧
      ((s.body.programme p).state ≠ .vacant → joins .sceneIntegrateRecord (.integrate p a))) ∧
    (∀ k : Nat, record = some (.wait k) →
      becomes .sceneWaitRecord { q with applied := q.applied + 1, next := q.next + 1, state := .committing
                                        commitPoint := some k }) ∧
    (∀ m : Fin 32, record = some (.chain m.val) →
      (q.chain < 8 → becomes .sceneChainRecord { q with chain := q.chain + 1, applied := q.applied + 1
                                                        current := some m, next := 0 }) ∧
      (8 ≤ q.chain → refused .sceneChainRecord .chainLimit)) ∧
    (record = none → becomes .sceneListEnd { q with state := .committing, commitPoint := none })

/-- SCENE_COMMIT at an open boundary in COMMITTING (R166, R170): every pending set that the scene owns becomes the active set
of its programme, and no other programme's sets change. The commit list is applied in its order and emptied: each ALARMCFG
writes its fields, START and PAUSE act by R118, a RESET becomes due with the scene mark, and an INTEGRATE whose programme is
VACANT is let go and counted as refused. The commit number goes on and COMMITTED is due. After a WAIT of n above 0 the
sequencer is WAITING with n, after a WAIT of 0 APPLYING, after the end of a list the take ends DONE, its chain
count and take counts staying (log 56). WAIT_END, at the boundary that brings the countdown to 0, goes on APPLYING (R167).

What SCENE_COMMIT makes of the slots of the settings that each scene-owned set carries (R12, R13, R74, R75, R93, R125), the
delay of a set by scene or operation alike: gain stage, delay, selector and source of its programme as `CommitEffects` says
(a gain given as it stands ends the ramp and begins none: log 50; RIDE keeps the ramp: log 67); a gain stage of another programme stays. -/
def Obligations.SceneCommit : Prop :=
  ((∀ (s : State) (d : Boundary) (tk : Take) (rest : List Take),
     let q := s.body.sequencer
     let owned := (List.finRange 16).filter fun p => (s.body.programme p).sceneOwned
     let vacant (p : Fin 16) : Bool := (s.body.programme p).state == .vacant
     let letGo := (q.commitList.filter fun i => match i with
       | .integrate p _ => vacant p
       | .alarmcfg _ _ => false).length
     let fieldsOf (e : Fin 154) := q.commitList.filterMap fun i => match i with
       | .alarmcfg o f => if o = e then some f else none
       | .integrate _ _ => none
     let actionsOf (p : Fin 16) := q.commitList.filterMap fun i => match i with
       | .integrate o a => if o = p then some a else none
       | .alarmcfg _ _ => none
     let counted : Sequencer := { q with refused := q.refused + letGo, commits := q.commits + 1, commitList := [] }
     s.body.timing.boundary = some d → d.sequencerDone = false → q.state = .committing → q.takes = tk :: rest →
     ∃ t, exec .sceneCommit s = .next t ∧ Keeps s t ∧
       t.body.timing =
         { s.body.timing with frameCounter := d.frame, boundary := some { d with sequencerDone := true } } ∧
       t.body.ports = s.body.ports ∧ t.body.scenes = s.body.scenes ∧ (contactsRight s.body → contactsRight t.body) ∧
       (∀ p : Fin 16, (s.body.programme p).sceneOwned = false → t.body.sets[p] = s.body.sets[p]) ∧
       (∀ (p : Fin 16) (w : Pending) (old : Settings), (s.body.programme p).pending = some w → w.owner = .scene →
         (s.body.programme p).active = some old → t.body.sets[p] = (some w.settings, none)) ∧
       (∀ e : Fin 154, (t.body.entry e).enabled = (fieldsOf e).foldl (fun v f => f.enabled.getD v) (s.body.entry e).enabled ∧
         (t.body.entry e).onsetHold = (fieldsOf e).foldl (fun v f => f.onsetHold.getD v) (s.body.entry e).onsetHold ∧
         (t.body.entry e).releaseHold =
           (fieldsOf e).foldl (fun v f => f.releaseHold.getD v) (s.body.entry e).releaseHold ∧
         (t.body.entry e).latching = (fieldsOf e).foldl (fun v f => f.latching.getD v) (s.body.entry e).latching ∧
         (t.body.entry e).contactMask =
           (fieldsOf e).foldl (fun v f => (f.contactMask.map (BitVec.ofNat 8)).getD v) (s.body.entry e).contactMask) ∧
       (∀ p : Fin 16, vacant p = false →
         (t.body.meter p).integState =
           ((actionsOf p).filter fun a => a != .reset).foldl integrationNext (s.body.meter p).integState ∧
         (.reset ∈ actionsOf p → ((t.body.meter p).resetDue.map ResetDue.scene) = some true)) ∧
       SceneReportDue (.committed tk.tag (q.commits + 1) d.frame owned (q.commitList.length - letGo) letGo) t ∧
       (∀ k, q.commitPoint = some (k + 1) → { t.body.sequencer with owed := [] } =
         { counted with state := .waiting, waitCount := k + 1, commitPoint := none, owed := [] }) ∧
       (q.commitPoint = some 0 → { t.body.sequencer with owed := [] } =
         { counted with state := .applying, commitPoint := none, owed := [] }) ∧
       (q.commitPoint = none → { t.body.sequencer with owed := [] } = { counted.afterEnd rest d.frame with owed := [] } ∧
         ∀ x : Deferred, InFlight x s → x.tag = tk.tag →
           (∀ (p : Fin 16) (w : Pending), (s.body.programme p).pending = some w → w.delay ≠ some (.operation x.tag)) →
           (∀ (p : Fin 16) (c : DelayChange), (s.body.lane p).change = some c → c.origin ≠ some (.operation x.tag)) →
           CompletionDue x .done [num2 q.applied, num2 (q.refused + letGo), num2 (q.commits + 1)] t)) ∧
   (∀ (s : State) (d : Boundary), s.body.timing.boundary = some d → d.sequencerDone = false →
     s.body.sequencer.state = .waiting → s.body.sequencer.waitCount ≤ 1 →
     ∃ t, exec .waitEnd s = .next t ∧
       Becomes s { s.body with
         sequencer := { s.body.sequencer with state := .applying, waitCount := 0 }
         timing := { s.body.timing with frameCounter := d.frame, boundary := some { d with sequencerDone := true } } } t)) ∧
  (∀ (s : State) (d : Boundary),
     s.body.timing.boundary = some d → d.sequencerDone = false → s.body.sequencer.state = .committing →
     ∃ t, exec .sceneCommit s = .next t ∧
       (∀ (p : Fin 16) (w : Pending) (old : Settings), (s.body.programme p).pending = some w → w.owner = .scene →
         (s.body.programme p).active = some old → CommitEffects s.body p old w d.frame t.body) ∧
       ∀ p : Fin 16, (s.body.programme p).sceneOwned = false → t.body.gain p = s.body.gain p)

/-! ## The watch list -/

/-- The three WATCH actions (R184): ADD of an unknown point or of a period outside 1 to 250 is refused BAD_FIELD; a point in the
list takes the new period and countdown in place; with 16 entries ADD is refused NO_SPACE, else the entry is appended.
REMOVE of a point not listed is refused NOT_FOUND, FFFFh too (log 69), else the entries behind it close up. EMPTY removes every entry. The
answer carries the number of entries. A list of at most 16 entries without a point twice stays one. Line reset, device
reset and RESTART empty the list. -/
def Obligations.WatchList : Prop :=
  (∀ (s : State) (tag : Byte) (point period : Nat),
    LineFree s →
    let l := s.body.line.watch
    let holds (w : List Watch) : Body := { s.body with line := { s.body.line with watch := w } }
    let made (c : Instr) (a : Answer) (b : Body) : Prop := ∃ t, exec c s = .next t ∧ Answers s (a.message 0x16 tag) t ∧ Becomes s b t
    let counted (w : List Watch) : Answer := .answer [num2 w.length]
    let entry : Watch := { point := point, period := period, countdown := period }
    let add := Instr.watchAdd tag point period
    let remove := Instr.watchRemove tag point
    let known : Prop := (readPoint s point).isSome = true ∧ 1 ≤ period ∧ period ≤ 250
    (¬ known → made add (refuse .badField) s.body) ∧
    (known → (∀ w ∈ l, w.point ≠ point) → 16 ≤ l.length → made add (refuse .noSpace) s.body) ∧
    (known → (∀ w ∈ l, w.point ≠ point) → l.length < 16 → made add (counted (l ++ [entry])) (holds (l ++ [entry]))) ∧
    (∀ (before rest : List Watch) (w : Watch), known → l = before ++ w :: rest → w.point = point →
      (∀ o ∈ before ++ rest, o.point ≠ point) →
      made add (counted l) (holds (before ++ entry :: rest)) ∧
      made remove (counted (before ++ rest)) (holds (before ++ rest))) ∧
    ((∀ w ∈ l, w.point ≠ point) → made remove (refuse .notFound) s.body) ∧
    made (.watchEmpty tag) (counted []) (holds [])) ∧
  (∀ (s t : State) (tag : Byte) (point period : Nat) (c : Instr),
    c = .watchAdd tag point period ∨ c = .watchRemove tag point ∨ c = .watchEmpty tag →
    exec c s = .next t → (s.body.line.watch.map Watch.point).Nodup → s.body.line.watch.length ≤ 16 →
    (t.body.line.watch.map Watch.point).Nodup ∧ t.body.line.watch.length ≤ 16) ∧
  (∀ (s t : State) (lrate : LineRate) (banks : BankStrap) (tag : Byte),
    (exec (.deviceReset lrate banks) s = .next t → t.body.line.watch = []) ∧
    (exec .breakLine s = .next t → t.body.line.watch = []) ∧
    (LineFree s → exec (.lineReset tag) s = .next t → t.body.line.watch = []) ∧
    (s.rx.restartPending = true → (∃ m rest, s.tx.queue = m :: rest ∧ m.kind = .answer ∧ m.fields.head? = some (num1 0x19)) →
      exec .restartPerformed s = .next t → t.body.line.watch = []))

/-- WATCH_DUE at an open boundary at which an entry is due (R185, R181): every countdown goes down by 1 and those that reach 0
stand at their periods again. The readings of the due points, in list order, go into METER reports, a further one where
the next reading would take a report past the 250-byte body, each carrying the boundary's count; those that find 9 places free enter the queue in their order,
and the others are counted as dropped. Nothing else changes. -/
def Obligations.WatchDue : Prop :=
  (∀ (s : State) (d : Boundary),
    let l := s.body.line.watch
    let readings := (l.filter fun w => w.countdown ≤ 1).map fun w =>
      num2 w.point :: num1 (fieldBytes ((readPoint { s with body := enterBoundary d s.body } w.point).getD [])).length ::
        (readPoint { s with body := enterBoundary d s.body } w.point).getD []
    let reports := packReadings readings []
    let enter := min reports.length (24 - s.tx.queue.length)
    s.body.timing.boundary = some d → d.watchDone = false → (∃ w ∈ l, w.countdown ≤ 1) →
    ∃ t, exec .watchDue s = .next t ∧
      Becomes s { s.body with
        timing := { s.body.timing with frameCounter := d.frame, boundary := some { d with watchDone := true } }
        line := { s.body.line with
          watch := l.map fun w => { w with countdown := if w.countdown ≤ 1 then w.period else w.countdown - 1 }
          meterDrops := (List.range (reports.length - enter)).foldl (fun n _ => min 65535 (n + 1)) s.body.line.meterDrops } } t ∧
      s.tx.queue ++ (reports.take enter).map (fun r => { kind := .meter, tag := 0, fields := count4 d.frame :: r })
        <+: t.tx.queue) ∧
  (∀ rs : List (List Field), (packReadings rs []).flatten = rs.flatten ∧
    ((∀ r ∈ rs, 6 + (fieldBytes r).length ≤ 250) → ∀ r ∈ packReadings rs [], 6 + (fieldBytes r).length ≤ 250))

/-! ## The control line -/

/-- LINE RESET as a request, and a break, with no restart pending (R177, R187, R154): assembly and receive buffer are empty, HOLD
released, the watch list empty, the receiver HUNTING after the request and DISCARDING after the break; the completions of the
outgoing queue go to the end of the carry list, every other message is removed, the place pointer is LINE, and every entry not
CLEAR owes its report, with none withheld (log 63); marks, deferred table and counts are kept. The request's answer is then the first message of the
emptied queue; a break is counted and its report owed. The places left are then granted (R182). With restart pending see
`Restart`. -/
def Obligations.LineReset : Prop :=
  ∀ (s : State),
    let completion (m : Message) : Bool := m.kind == .completion
    let left (after : RxState) (line : LineBlock) : State :=
      { s with
        body := { s.body with
          line := { line with watch := [] }
          entries := s.body.entries.map fun e =>
            { e with reportOwed := e.reportOwed || e.state != .clear, withheld := false } }
        rx := { state := after, assembly := none, buffer := [], hold := false, restartPending := false }
        tx := { queue := [], carry := s.tx.carry ++ s.tx.queue.filter completion, pointer := .line } }
    let n := min 65535 (s.body.line.breaks + 1)
    s.rx.restartPending = false →
    (∀ tag : Byte, LineFree s →
      exec (.lineReset tag) s =
        .next (placeReports (putMessage .answer ((Answer.answer []).message 0x18 tag) (left .hunting s.body.line)))) ∧
    exec .breakLine s =
      .next (placeReports (left .discarding { s.body.line with breaks := n, breakOwed := some n })) ∧
    ((∀ m ∈ s.tx.carry, m.kind = .completion) → ∀ (c : Instr) (t : State),
      ((∃ tag, c = .lineReset tag ∧ LineFree s) ∨ c = .breakLine) → exec c s = .next t →
      (s.tx.carry ++ s.tx.queue.filter completion <+: t.tx.queue.filter completion ++ t.tx.carry) ∧
      (∀ m ∈ t.tx.queue, m.kind ≠ .meter) ∧ (∀ e : Fin 154, (s.body.entry e).state ≠ .clear → AlarmDue e t) ∧
      (c = .breakLine → BreakDue n t ∧ ∀ m ∈ t.tx.queue, m.kind ≠ .answer ∧ m.kind ≠ .accepted ∧ m.kind ≠ .refused) ∧
      ∀ tag, c = .lineReset tag → ∃ rest, t.tx.queue = (Answer.answer []).message 0x18 tag :: rest ∧
        ∀ m ∈ rest, m.kind ≠ .answer ∧ m.kind ≠ .accepted ∧ m.kind ≠ .refused)

/-- RESTART (R188): it is answered, and restart pending is set with everything else as it was; while it is set a request that
arrives is not taken but fills the buffer. A break while it is set performs the RESTART in its event, whole: every block at
its reset value but the scene store and the straps (and the model's count of free values, log 15), with an access in
progress dropped (log 53) and the GPI levels low (log 26); the break is then counted from the reset value (log 41). The
departure of the answer does what RESTART_PERFORMED does. -/
def Obligations.Restart : Prop :=
  (∀ (s : State) (tag : Byte), LineFree s →
    exec (.restart tag) s = .next (placeReports (putMessage .answer ((Answer.answer []).message 0x19 tag)
      { s with rx := { s.rx with restartPending := true } }))) ∧
  (∀ (s : State) (tag : Byte) (r : Request), s.rx.restartPending = true → s.rx.buffer = [] → s.rx.state ≠ .discarding →
    let f : RxFrame := { kind := BitVec.ofNat 8 r.kind, tag := tag, request := some r }
    exec (requestCommand tag r) s = .next (placeReports { s with rx := { s.rx with buffer := [f] } })) ∧
  (∀ (s : State) (m : Message) (rest : List Message), s.rx.restartPending = true → s.tx.queue = m :: rest →
    m.kind = .answer → m.fields.head? = some (num1 0x19) → exec .messageDeparture s = exec .restartPerformed s) ∧
  (∀ (s : State), s.rx.restartPending = true →
    exec .breakLine s = .next (placeReports
      { s with
        body := { State.reset.body with
          lrate := s.body.lrate, banksStrap := s.body.banksStrap, scenes := s.body.scenes, freeDraws := s.body.freeDraws
          line := { State.reset.body.line with breaks := 1, breakOwed := some 1 } }
        rx := { State.reset.rx with state := .discarding }
        tx := State.reset.tx }))

/-- A fault (R176), found while IN_FRAME: the frame in assembly is discarded, the bad frame count increments, BADFRAME is due with
the fault's kind and the count, and the receiver is DISCARDING, or after a truncation HUNTING. In DISCARDING every byte
received is ignored, and the receiver returns to HUNTING when the line has been idle for two byte times. A fault in another
state is ignored. -/
def Obligations.ReceiveFaults : Prop :=
  (∀ (s : State) (c : Instr) (k : LineFault), c = .receiveFault k ∨ (c = .truncatedFrame ∧ k = .truncated) →
    s.rx.state = .inFrame →
    ∃ t, exec c s = .next t ∧ s.tx.queue <+: t.tx.queue ∧ t.dram = s.dram ∧ t.pending = s.pending ∧
      t.rx = { s.rx with assembly := none, state := if k = .truncated then .hunting else .discarding } ∧
      t.body.quiet = ({ s.body with line := { s.body.line with
        badFrames := min 65535 (s.body.line.badFrames + 1) } } : Body).quiet ∧
      BadFrameDue k (min 65535 (s.body.line.badFrames + 1)) t) ∧
  (∀ (s : State) (v : Byte), s.rx.state = .discarding → exec (.byteReceived v) s = .next s) ∧
  (∀ s : State, s.rx.state = .discarding →
    exec .receiverIdle s = .next { s with rx := { s.rx with state := .hunting, assembly := none } }) ∧
  (∀ (s : State) (k : LineFault), s.rx.state ≠ .inFrame →
    exec (.receiveFault k) s = .next s ∧ exec .truncatedFrame s = .next s)

/-- The receiver, byte by byte (R175): in HUNTING a byte A5 starts a frame and any other is ignored; a length below 2 or above 250
is a fault of kind LENGTH; a byte short of the end is kept; the second CRC byte of a frame as the transmitter forms it makes
the frame checked, and any other last two bytes are a fault of kind CRC. -/
def Obligations.BytesReceived : Prop :=
  (∀ (s : State) (v : Byte), s.rx.state = .hunting →
    (v = 0xA5 → exec (.byteReceived v) s = .next { s with rx := { s.rx with state := .inFrame, assembly := some [v] } }) ∧
    (v ≠ 0xA5 → exec (.byteReceived v) s = .next s)) ∧
  (∀ (s : State) (n : Byte), s.rx.state = .inFrame → s.rx.assembly = some [0xA5] →
    ((n.toNat < 2 ∨ 250 < n.toNat) → exec (.byteReceived n) s = exec (.receiveFault .length) s) ∧
    (2 ≤ n.toNat → n.toNat ≤ 250 → exec (.byteReceived n) s = .next { s with rx := { s.rx with assembly := some [0xA5, n] } })) ∧
  (∀ (s : State) (kind tag v : Byte) (fields start rest : List Byte), s.rx.state = .inFrame →
    fields.length ≤ 248 → frameBytes (kind :: tag :: fields) = start ++ v :: rest → s.rx.assembly = some start →
    2 ≤ start.length →
    (rest = [] → exec (.byteReceived v) s = exec (.frameChecked kind tag fields) s) ∧
    (rest ≠ [] → exec (.byteReceived v) s = .next { s with rx := { s.rx with assembly := some (start ++ [v]) } })) ∧
  (∀ (s : State) (kind tag x y : Byte) (fields : List Byte), s.rx.state = .inFrame → fields.length ≤ 248 →
    let body := 0xA5 :: BitVec.ofNat 8 (fields.length + 2) :: kind :: tag :: fields
    frameBytes (kind :: tag :: fields) ≠ body ++ [x, y] → s.rx.assembly = some (body ++ [x]) →
    exec (.byteReceived y) s = exec (.receiveFault .crc) s)

/-- A checked frame (R178, R179), the receiver not DISCARDING. With the line free a kind that is no request kind is refused
UNKNOWN_KIND and fields that do not match the layout BAD_FIELD (absent codes: log 76), a short SCENE APPEND without an index (log 70), with
nothing changed; a frame that says a request acts as that
request's command does, from HUNTING; FRAME_CHECKED leaves the receiver HUNTING with nothing in assembly (log 42). Not taken
at once: with a place free it waits in the buffer, HOLD asserted with the second; with both occupied it is discarded, counted,
and OVERRUN is due with its tag. In DISCARDING its bytes are ignored and nothing happens (R176). -/
def Obligations.CheckedFrames : Prop :=
  ∀ (s : State) (kind tag : Byte) (fields : List Byte),
    let hunting : State := { s with rx := { s.rx with state := .hunting, assembly := none } }
    let taken (r : Reason) : Prop :=
      ∃ t, exec (.frameChecked kind tag fields) s = .next t ∧
        Answers hunting ((refuse r).message kind.toNat tag) t ∧ Becomes hunting s.body t
    (LineFree s → (kind.toNat < 1 ∨ 0x1A < kind.toNat) →
      taken .unknownKind ∧
      ∃ t, exec (.unknownKindRequest kind tag fields) s = .next t ∧
        Answers s ((refuse .unknownKind).message kind.toNat tag) t ∧ Becomes s s.body t) ∧
    (LineFree s → 1 ≤ kind.toNat → kind.toNat ≤ 0x1A → readRequest kind.toNat fields = none → taken .badField) ∧
    (∀ r : Request, s.rx.state ≠ .discarding → readRequest kind.toNat fields = some r →
      exec (.frameChecked kind tag fields) s = exec (requestCommand tag r) hunting) ∧
    (s.rx.state = .hunting → s.rx.assembly = none →
      exec (.unknownKindRequest kind tag fields) s = exec (.frameChecked kind tag fields) s) ∧
    (s.rx.state = .discarding → exec (.frameChecked kind tag fields) s = .next s ∧
      exec (.unknownKindRequest kind tag fields) s = .next s ∧ ∀ r : Request, exec (requestCommand tag r) s = .next s) ∧
    (s.rx.state ≠ .discarding → (s.rx.buffer ≠ [] ∨ 32 ≤ s.tx.queue.length ∨ s.rx.restartPending = true) →
      ∃ t, exec (.frameChecked kind tag fields) s = .next t ∧ t.dram = s.dram ∧ t.pending = s.pending ∧
        s.tx.queue <+: t.tx.queue ∧
        (s.rx.buffer.length < 2 → t.body.quiet = s.body.quiet ∧
          ∃ f : RxFrame, f.kind = kind ∧ f.tag = tag ∧ f.request = readRequest kind.toNat fields ∧
            t.rx = { hunting.rx with buffer := s.rx.buffer ++ [f]
                                     hold := s.rx.hold || decide (s.rx.buffer.length = 1) }) ∧
        (2 ≤ s.rx.buffer.length → t.rx = hunting.rx ∧
          t.body.quiet = ({ s.body with line := { s.body.line with
            overruns := min 65535 (s.body.line.overruns + 1) } } : Body).quiet ∧
          OverrunDue tag (min 65535 (s.body.line.overruns + 1)) t))

/-- MESSAGE_DEPARTURE (R181, R182): the oldest message leaves and its place is free. With a full queue and a waiter, the place goes
to the first class after the place pointer that waits, whose name the pointer takes, and within the class to the lowest
entry, the lowest programme, the oldest scene report of the sequencer, then the lowest lane, then the lowest meter, BREAK before
BADFRAME before OVERRUN, the oldest completion carried, then the first of the operations that completed;
for ANSWER the oldest frame is taken, HOLD is released, and its answer, by its tag, has the place. Where nothing waits the
place stays free. On an empty queue nothing happens. A report owed by an evaluation ahead of the rest of the table alone
does not wait for a place yet (log 63). -/
def Obligations.Departure : Prop :=
  ∀ (s : State),
    let ready := syncCompletions s
    let waits (c : OwnerClass) : Prop :=
      match c with
      | .answer => s.rx.buffer ≠ [] ∧ s.rx.restartPending = false
      | .completion => s.tx.carry ≠ [] ∨ (completionOf ready.body.line).isSome = true
      | .alarm => ∃ e : Fin 154, (s.body.entry e).reportOwed = true ∧ reportWithheld s.body e = false
      | .state => ∃ p : Fin 16, (s.body.programme p).stateOwed.isSome = true
      | .scene => s.body.sequencer.owed ≠ [] ∨ ∃ p : Fin 16, (s.body.lane p).sceneDelayOwed.isSome = true ∨
          (s.body.meter p).sceneResetOwed.isSome = true
      | .line => s.body.line.breakOwed.isSome = true ∨ s.body.line.badFrameOwed.isSome = true ∨
          s.body.line.overrunOwed.isSome = true
    (s.tx.queue = [] → exec .messageDeparture s = .next s) ∧
    (∀ (m : Message) (rest : List Message), s.tx.queue = m :: rest →
      ¬ (s.rx.restartPending = true ∧ m.kind = .answer ∧ m.fields.head? = some (num1 0x19)) →
      ((∀ c, ¬ waits c) → ∃ t, exec .messageDeparture s = .next t ∧ t.tx = { s.tx with queue := rest } ∧ t.rx = s.rx ∧
        t.dram = s.dram ∧ t.pending = s.pending ∧ t.body.quiet = s.body.quiet) ∧
      (∀ (before after : List OwnerClass) (c : OwnerClass), rest.length = 31 →
        classesAfter s.tx.pointer = before ++ c :: after → (∀ o ∈ before, ¬ waits o) → waits c →
        ∃ t, exec .messageDeparture s = .next t ∧
          (c ≠ .answer → ∃ r, t.tx.queue = rest ++ [r] ∧ t.tx.pointer = c ∧ t.rx = s.rx ∧ t.dram = s.dram ∧
            t.pending = s.pending ∧ t.body.quiet = s.body.quiet ∧
            (c = .alarm → ∃ e : Fin 154, r = alarmMessage e (s.body.entry e) ∧ (s.body.entry e).reportOwed = true ∧
              reportWithheld s.body e = false ∧
              ∀ o : Fin 154, o < e → (s.body.entry o).reportOwed = true → reportWithheld s.body o = true) ∧
            (c = .state → ∃ (p : Fin 16) (x : StateCause), r = stateMessage p (s.body.programme p) x ∧
              (s.body.programme p).stateOwed = some x ∧ ∀ o : Fin 16, o < p → (s.body.programme o).stateOwed = none) ∧
            (c = .scene → (∀ x xs, s.body.sequencer.owed = x :: xs → r = sequencerMessage x ∧ t.body.sequencer.owed = xs) ∧
              (s.body.sequencer.owed = [] →
                (∀ (p : Fin 16) (x : DelayReport), (s.body.lane p).sceneDelayOwed = some x →
                  (∀ o : Fin 16, o < p → (s.body.lane o).sceneDelayOwed = none) → r = delayMessage x) ∧
                ((∀ o : Fin 16, (s.body.lane o).sceneDelayOwed = none) →
                  ∀ (p : Fin 16) (x : OpOutcome), (s.body.meter p).sceneResetOwed = some x →
                    (∀ o : Fin 16, o < p → (s.body.meter o).sceneResetOwed = none) → r = resetMessage p x))) ∧
            (c = .line →
              let x := s.body.line
              let owes (a : Option Nat) (b : Option (LineFault × Nat)) (d : Option (Byte × Nat)) : Prop :=
                t.body.line.breakOwed = a ∧ t.body.line.badFrameOwed = b ∧ t.body.line.overrunOwed = d
              (∀ n, x.breakOwed = some n → r = { kind := .line, tag := 0, fields := [.code (some 0), num2 n] } ∧
                owes none x.badFrameOwed x.overrunOwed) ∧
              (∀ k n, x.breakOwed = none → x.badFrameOwed = some (k, n) →
                r = { kind := .line, tag := 0, fields := [.code (some 1), enum LineFault.all k, num2 n] } ∧
                owes none none x.overrunOwed) ∧
              (∀ (tag : Byte) n, x.breakOwed = none → x.badFrameOwed = none → x.overrunOwed = some (tag, n) →
                r = { kind := .line, tag := 0, fields := [.code (some 2), num1 tag.toNat, num2 n] } ∧ owes none none none)) ∧
            (c = .completion → (∀ x xs, s.tx.carry = x :: xs → r = x ∧ t.tx.carry = xs) ∧
              (s.tx.carry = [] → ∀ (d : Deferred) (o : OpOutcome) (data : List Field) (tags : List Byte),
                ready.body.line.completions = d.tag :: tags → d ∈ s.body.line.deferred → d.complete = some (o, data) →
                (s.body.line.deferred.map Deferred.tag).Nodup → r = completionMessage d o data ∧
                  d ∉ t.body.line.deferred))) ∧
          (c = .answer → ∀ (f : RxFrame) (fs : List RxFrame), s.rx.buffer = f :: fs → f.request ≠ some .lineReset →
            ∃ r, t.tx.queue = rest ++ [r] ∧ t.tx.pointer = .answer ∧ r.tag = f.tag ∧
              (r.kind = .answer ∨ r.kind = .accepted ∨ r.kind = .refused) ∧ t.rx.buffer = fs ∧ t.rx.hold = false)))

/-! ## Requests refused -/

/-- Requests refused, with nothing changed (R179; R2, R5, R8, R9, R15, R16, R18, R22 to R24, R36, R92, R118, R119, R147, R149): a
programme above 15, a port above 7, an entry above 153 or a segment count outside 1 to 512 is refused BAD_FIELD, and so are
a DELAY of a link group, a SET of a group above 3 or of one of the four settings a group does not take; a programme in a
state in which the request is not taken WRONG_STATE; a CLEAR of a programme whose pending set the scene owns SCENE_BUSY; a
SET, DELAY or DEFINE that fails a check of its own for that check's reason; a deferred operation without a free entry BUSY. A
value that is an absent code is judged as a value (log 76). -/
def Obligations.RequestsRefused : Prop :=
  ∀ (s : State) (tag : Byte),
    LineFree s →
    let refused (c : Instr) (kind : Nat) (r : Reason) : Prop := ∃ t, exec c s = .next t ∧
      Answers s ((refuse r).message kind tag) t ∧ Becomes s s.body t
    (∀ p : Nat, 15 < p →
      refused (.start tag p) 0x05 .badField ∧ refused (.park tag p) 0x06 .badField ∧
      refused (.release tag p) 0x07 .badField ∧ refused (.clear tag p) 0x08 .badField ∧
      (∀ side, refused (.select tag p side) 0x09 .badField) ∧ (∀ n, refused (.allocate tag p n) 0x04 .badField) ∧
      refused (.integrateStart tag p) 0x0B .badField ∧ refused (.integratePause tag p) 0x0B .badField ∧
      refused (.integrateReset tag p) 0x0B .badField ∧
      (∀ is, refused (.define tag p is) 0x01 .badField ∧ refused (.set tag (.programme p) is) 0x02 .badField) ∧
      ∀ n m, refused (.delay tag (.programme p) n m) 0x03 .badField) ∧
    (∀ (q : Nat) (cls : PortClass), 7 < q → refused (.port tag q cls) 0x0A .badField) ∧
    (∀ (e : Nat) (f : AlarmFields), 153 < e →
      refused (.alarmcfg tag e f) 0x0D .badField ∧ refused (.ack tag (some e)) 0x0E .badField) ∧
    (∀ p n : Nat, (n < 1 ∨ 512 < n) → refused (.allocate tag p n) 0x04 .badField) ∧
    (∀ g n m, refused (.delay tag (.group g) n m) 0x03 .badField) ∧
    (∀ g is, (3 < g ∨ setForm is = false ∨ groupNames is = false) → refused (.set tag (.group g) is) 0x02 .badField) ∧
    (∀ p is, setForm is = false → refused (.set tag (.programme p) is) 0x02 .badField) ∧
    ∀ p : Fin 16,
      let st := (s.body.programme p).state
      let carries : Prop := st = .priming ∨ st = .running ∨ st = .starved
      (st ≠ .parked → refused (.start tag p.val) 0x05 .wrongState) ∧
      (¬ carries → refused (.park tag p.val) 0x06 .wrongState ∧
        ∀ side, refused (.select tag p.val side) 0x09 .wrongState) ∧
      (st ≠ .filling → st ≠ .parked → refused (.release tag p.val) 0x07 .wrongState) ∧
      (st = .vacant → refused (.clear tag p.val) 0x08 .wrongState ∧
        refused (.integrateStart tag p.val) 0x0B .wrongState ∧ refused (.integratePause tag p.val) 0x0B .wrongState ∧
        refused (.integrateReset tag p.val) 0x0B .wrongState) ∧
      (st ≠ .vacant → (s.body.programme p).sceneOwned = true → refused (.clear tag p.val) 0x08 .sceneBusy) ∧
      (st ≠ .defined → ∀ n, 1 ≤ n → n ≤ 512 → refused (.allocate tag p.val n) 0x04 .wrongState) ∧
      (∀ n, st = .defined → 1 ≤ n → n ≤ 512 →
        ((∃ w a, (s.body.programme p).pending = some w ∧ (s.body.programme p).active = some a ∧
            w.settings.layout ≠ a.layout) → refused (.allocate tag p.val n) 0x04 .wrongState) ∧
        ((∀ w a, (s.body.programme p).pending = some w → (s.body.programme p).active = some a →
            w.settings.layout = a.layout) → deferredFree tag s.body = false →
          refused (.allocate tag p.val n) 0x04 .busy)) ∧
      (st ≠ .vacant → ∀ is, refused (.define tag p.val is) 0x01 .wrongState) ∧
      (st = .vacant → ∀ is r, definedSet s.body p is = .error r → refused (.define tag p.val is) 0x01 r) ∧
      (∀ is r, setForm is = true → writeRefusal s.body p false (setNames is) is = some r →
        refused (.set tag (.programme p.val) is) 0x02 r) ∧
      ∀ n m,
        let check := writeRefusal s.body p false true [.delayTarget n, .delayMode m]
        (∀ r, check = some r → refused (.delay tag (.programme p.val) n m) 0x03 r) ∧
        (check = none → deferredFree tag s.body = false → refused (.delay tag (.programme p.val) n m) 0x03 .busy)

/-! ## What every step keeps -/

/-- A step stops only at the completion of an access whose words the bank does not have: where every granted access lies in its
bank (R46), every command completes, and an empty queue idles. -/
def Obligations.EveryStepCompletes : Prop :=
  ∀ s : State, accessesInBanks s = true → Completes s

/-- What every step keeps holds at reset: the DRAM in its canonical form, both queues of the control line within their places
with HOLD as it should be, nothing waiting, the contacts as R151 says, every meter's counts agreeing, and every granted
access in its bank. -/
def Obligations.ResetHoldsInvariants : Prop :=
  State.reset.sound = true ∧ State.reset.served ∧ contactsRight State.reset.body ∧
  (∀ p : Fin 16, (State.reset.body.meter p).countsAgree = true) ∧ accessesInBanks State.reset = true

/-- Every step keeps the DRAM in its canonical form, the receive buffer within two frames with HOLD asserted exactly while two
are held (R178), the outgoing queue within 32 messages (R181), and this: at a moment at which a place of the outgoing queue
is free, nothing waits for one (R181, R182), the report of an entry evaluated ahead of the rest of its table aside (log 63). -/
def Obligations.QueuesKept : Prop :=
  ∀ s t : State, s.sound = true → s.served → step s = .next t → t.sound = true ∧ t.served

/-- Every step keeps each contact as R151 says: closed in STEADY while an enabled entry of its mask is ACTIVE, RELEASE or
LATCHED, in UNACKED while an entry of its mask has its flag set, and open otherwise. -/
def Obligations.ContactsKept : Prop :=
  ∀ s t : State, contactsRight s.body → step s = .next t → contactsRight t.body

/-- Every step keeps each histogram's counts in agreement: the bin counts of a programme sum to its admitted count, which never
exceeds 16,777,215 (R111). -/
def Obligations.CountsKept : Prop :=
  ∀ s t : State, (∀ p : Fin 16, (s.body.meter p).countsAgree = true) → step s = .next t →
    ∀ p : Fin 16, (t.body.meter p).countsAgree = true

/-- Every step keeps the delay store within its banks: each line inside the bank's segments with its L frames inside the line,
held and queued frames of a line and within its channels, zero-fill jobs of a line and of whole accesses inside the bank, the
active set present exactly outside VACANT (R1), and with these every granted access (R46, R48 to R52, R59): so no step from
reset stops. The grants need the whole of it. -/
def Obligations.AccessesInBanksKept : Prop :=
  storeSound State.reset = true ∧ (∀ s : State, storeSound s = true → accessesInBanks s = true) ∧
  ∀ s t : State, storeSound s = true → step s = .next t → storeSound t = true
end

