-- ==== Sys2Proof/Laws/Memory.lean ====
section
/-! SUPPORT. The DRAM: reading after writing, and the canonical form kept by every operation that writes. -/

namespace Sys2Proof.Machine

/-- The canonical form, as a proposition. -/
theorem Memory.wf_iff (m : Memory) :
    m.wf = true ↔ (m.Pairwise fun a b => a.1 < b.1) ∧ ∀ c ∈ m, c.2 ≠ unwrittenByte := by
  simp [Memory.wf]

theorem Memory.wf_nil : Memory.wf [] = true := rfl

/-- Addresses below every listed one read as unwritten. -/
theorem Memory.read_below (m : Memory) (a : Nat) (h : ∀ c ∈ m, a < c.1) : m.read a = unwrittenByte := by
  induction m with
  | nil => rfl
  | cons c m ih =>
    have hc : a < c.1 := h c (by simp)
    rw [Memory.read, if_neg (by omega)]
    exact ih fun d hd => h d (by simp [hd])

/-- A listed address after a write is one listed before, or the address written. -/
theorem Memory.mem_write (m : Memory) (a : Nat) (v : BitVec 8) (c : Host.Cell) (h : c ∈ m.write a v) :
    c ∈ m ∨ (c = (a, v) ∧ v ≠ unwrittenByte) := by
  induction m with
  | nil => simp only [Memory.write] at h; split at h <;> simp_all
  | cons d m ih =>
    simp only [Memory.write] at h
    split at h
    · split at h <;> (simp_all; try tauto)
    · split at h
      · split at h <;> (simp_all; try tauto)
      · rcases List.mem_cons.mp h with h | h
        · exact .inl (by simp [h])
        · rcases ih h with h | h
          · exact .inl (by simp [h])
          · exact .inr h

/-- Writing a byte keeps the canonical form. -/
theorem Memory.wf_write (m : Memory) (a : Nat) (v : BitVec 8) (h : m.wf = true) : (m.write a v).wf = true := by
  induction m with
  | nil => simp only [Memory.write]; split <;> simp_all [Memory.wf]
  | cons d m ih =>
    rw [Memory.wf_iff] at h
    obtain ⟨hs, hv⟩ := h
    have hm : Memory.wf m = true := (Memory.wf_iff m).mpr ⟨(List.pairwise_cons.mp hs).2, fun c hc => hv c (by simp [hc])⟩
    have hd := (List.pairwise_cons.mp hs).1
    have hdv := hv d (by simp)
    rw [Memory.wf_iff] at hm
    simp only [Memory.write]
    split
    · split
      · exact (Memory.wf_iff _).mpr ⟨hs, hv⟩
      · rename_i hlt hne
        refine (Memory.wf_iff _).mpr ⟨List.pairwise_cons.mpr ⟨?_, hs⟩, ?_⟩
        · intro c hc
          rcases List.mem_cons.mp hc with hc | hc
          · simpa [hc] using hlt
          · exact Nat.lt_trans hlt (hd c hc)
        · intro c hc
          rcases List.mem_cons.mp hc with hc | hc
          · simpa [hc] using hne
          · exact hv c hc
    · split
      · split
        · exact (Memory.wf_iff _).mpr hm
        · rename_i hnlt heq hne
          refine (Memory.wf_iff _).mpr ⟨List.pairwise_cons.mpr ⟨?_, hm.1⟩, ?_⟩
          · intro c hc; simpa [heq] using hd c hc
          · intro c hc
            rcases List.mem_cons.mp hc with hc | hc
            · simpa [hc] using hne
            · exact hm.2 c hc
      · rename_i hnlt hne
        have hw := (Memory.wf_iff _).mp (ih ((Memory.wf_iff _).mpr hm))
        refine (Memory.wf_iff _).mpr ⟨List.pairwise_cons.mpr ⟨?_, hw.1⟩, ?_⟩
        · intro c hc
          rcases Memory.mem_write m a v c hc with hc | hc
          · exact hd c hc
          · rw [hc.1]; show d.1 < a; omega
        · intro c hc
          rcases List.mem_cons.mp hc with hc | hc
          · simpa [hc] using hdv
          · exact hw.2 c hc

/-- Reading after writing a byte. -/
theorem Memory.read_write (m : Memory) (a x : Nat) (v : BitVec 8) (h : m.wf = true) :
    (m.write a v).read x = if x = a then v else m.read x := by
  induction m with
  | nil =>
    simp only [Memory.write]
    split
    · rename_i hu
      rw [hu]; simp [Memory.read]
    · by_cases hx : x = a
      · simp [Memory.read, hx]
      · simpa [Memory.read, hx] using fun h' : a = x => absurd h'.symm hx
  | cons d m ih =>
    rw [Memory.wf_iff] at h
    obtain ⟨hs, hv⟩ := h
    have hm : Memory.wf m = true := (Memory.wf_iff m).mpr ⟨(List.pairwise_cons.mp hs).2, fun c hc => hv c (by simp [hc])⟩
    have hd := (List.pairwise_cons.mp hs).1
    simp only [Memory.write]
    split
    · rename_i hlt
      have below : Memory.read (d :: m) a = unwrittenByte := by
        refine Memory.read_below _ _ fun c hc => ?_
        rcases List.mem_cons.mp hc with hc | hc
        · simpa [hc] using hlt
        · exact Nat.lt_trans hlt (hd c hc)
      split
      · rename_i hu
        by_cases hx : x = a
        · rw [if_pos hx, hx, below, hu]
        · rw [if_neg hx]
      · by_cases hx : x = a
        · simp [Memory.read, hx]
        · rw [if_neg hx, Memory.read, if_neg (fun h' => hx h'.symm)]
    · split
      · rename_i hnlt heq
        have below : Memory.read m a = unwrittenByte :=
          Memory.read_below _ _ fun c hc => by rw [heq]; exact hd c hc
        split
        · rename_i hu
          by_cases hx : x = a
          · rw [if_pos hx, hx, below, hu]
          · rw [if_neg hx, Memory.read, if_neg (by omega)]
        · by_cases hx : x = a
          · simp [Memory.read, hx]
          · rw [if_neg hx, Memory.read, Memory.read, if_neg (fun h' => hx h'.symm), if_neg (by omega)]
      · rename_i hnlt hne
        rw [Memory.read, Memory.read, ih hm]
        by_cases hx : d.1 = x
        · rw [if_pos hx, if_pos hx, if_neg (by omega)]
        · rw [if_neg hx, if_neg hx]

theorem Memory.wf_writeWord (m : Memory) (k : Fin 4) (w : Nat) (v : Word) (h : m.wf = true) :
    (m.writeWord k w v).wf = true := by
  simp only [Memory.writeWord]
  exact Memory.wf_write _ _ _ (Memory.wf_write _ _ _ (Memory.wf_write _ _ _ (Memory.wf_write _ _ _ h)))

/-- Every run of words written keeps the canonical form. -/
theorem Memory.wf_writeWords (vs : List Word) (m : Memory) (k : Fin 4) (w : Nat) (h : m.wf = true) :
    (m.writeWords k w vs).wf = true := by
  induction vs generalizing m w with
  | nil => exact h
  | cons v vs ih => exact ih _ _ (Memory.wf_writeWord m k w v h)

/-- A byte outside the word written reads as before. -/
theorem Memory.read_writeWord_other (m : Memory) (k : Fin 4) (w x : Nat) (v : Word) (h : m.wf = true)
    (hx : x < byteAddress k w ∨ byteAddress k w + 4 ≤ x) : (m.writeWord k w v).read x = m.read x := by
  have h1 := Memory.wf_write m (byteAddress k w) (v.extractLsb' 24 8) h
  have h2 := Memory.wf_write _ (byteAddress k w + 1) (v.extractLsb' 16 8) h1
  have h3 := Memory.wf_write _ (byteAddress k w + 2) (v.extractLsb' 8 8) h2
  simp only [Memory.writeWord]
  rw [Memory.read_write _ _ _ _ h3, if_neg (by omega), Memory.read_write _ _ _ _ h2, if_neg (by omega),
    Memory.read_write _ _ _ _ h1, if_neg (by omega), Memory.read_write _ _ _ _ h, if_neg (by omega)]

/-- A word reads back as written. -/
theorem Memory.readWord_writeWord (m : Memory) (k : Fin 4) (w : Nat) (v : Word) (h : m.wf = true) :
    (m.writeWord k w v).readWord k w = v := by
  have h1 := Memory.wf_write m (byteAddress k w) (v.extractLsb' 24 8) h
  have h2 := Memory.wf_write _ (byteAddress k w + 1) (v.extractLsb' 16 8) h1
  have h3 := Memory.wf_write _ (byteAddress k w + 2) (v.extractLsb' 8 8) h2
  simp only [Memory.writeWord, Memory.readWord]
  simp only [Memory.read_write _ _ _ _ h3, Memory.read_write _ _ _ _ h2, Memory.read_write _ _ _ _ h1,
    Memory.read_write _ _ _ _ h]
  simp only [↓reduceIte, Nat.reduceAdd, Nat.add_right_cancel_iff, Nat.left_eq_add]
  show v.extractLsb' 24 8 ++ v.extractLsb' 16 8 ++ v.extractLsb' 8 8 ++ v.extractLsb' 0 8 = v
  apply BitVec.eq_of_toNat_eq
  simp only [BitVec.toNat_append, BitVec.extractLsb'_toNat, Nat.shiftRight_eq_div_pow]
  have hv := v.isLt
  rw [← Nat.shiftLeft_add_eq_or_of_lt (by omega), ← Nat.shiftLeft_add_eq_or_of_lt (by omega),
    ← Nat.shiftLeft_add_eq_or_of_lt (by omega)]
  simp only [Nat.shiftLeft_eq]
  omega

/-- A byte outside the run of words written reads as before. -/
theorem Memory.read_writeWords_other (vs : List Word) (m : Memory) (k : Fin 4) (w x : Nat) (h : m.wf = true)
    (hx : x < byteAddress k w ∨ byteAddress k (w + vs.length) ≤ x) : (m.writeWords k w vs).read x = m.read x := by
  induction vs generalizing m w with
  | nil => rfl
  | cons v vs ih =>
    simp only [Memory.writeWords]
    have e : ∀ n, byteAddress k n = (k.val * Config.bankWords + n) * 4 := fun _ => rfl
    simp only [e, List.length_cons] at hx
    rw [ih _ _ (Memory.wf_writeWord _ _ _ _ h) (by simp only [e]; omega),
      Memory.read_writeWord_other _ _ _ _ _ h (by simp only [e]; omega)]

/-- A word is its four bytes. -/
theorem Memory.readWord_congr {m n : Memory} {k : Fin 4} {w : Nat}
    (h : ∀ x, byteAddress k w ≤ x → x < byteAddress k w + 4 → n.read x = m.read x) : n.readWord k w = m.readWord k w := by
  unfold Memory.readWord
  simp only
  rw [h _ (by omega) (by omega), h _ (by omega) (by omega), h _ (by omega) (by omega), h _ (by omega) (by omega)]

/-- Each word of a run reads back as written. -/
theorem Memory.readWord_writeWords (vs : List Word) (m : Memory) (k : Fin 4) (w i : Nat) (v : Word) (h : m.wf = true)
    (hi : vs[i]? = some v) : (m.writeWords k w vs).readWord k (w + i) = v := by
  induction vs generalizing m w i with
  | nil => simp at hi
  | cons a vs ih =>
    simp only [Memory.writeWords]
    cases i with
    | zero =>
      simp only [List.getElem?_cons_zero, Option.some.injEq] at hi
      subst hi
      have e : ∀ n, byteAddress k n = (k.val * Config.bankWords + n) * 4 := fun _ => rfl
      rw [Memory.readWord_congr (m := m.writeWord k w a), Nat.add_zero, Memory.readWord_writeWord _ _ _ _ h]
      intro x h1 h2
      exact Memory.read_writeWords_other _ _ _ _ _ (Memory.wf_writeWord _ _ _ _ h) (Or.inl (by simp only [e] at *; omega))
    | succ i =>
      have := ih (m.writeWord k w a) (w + 1) i (Memory.wf_writeWord _ _ _ _ h) (by simpa using hi)
      rw [← this]; congr 1; omega

end Sys2Proof.Machine
end

