-- ==== Sys2Proof/Laws/State.lean ====
section
/-! SUPPORT. What each update of one block leaves of the others, and what it puts in its place. -/

namespace Sys2Proof.Machine.Body

variable (b : Body)

/-! ### programme -/

@[simp] theorem onProgramme_eq (p : Fin 16) (f : Programme → Programme) : b.onProgramme p f = b.setProgramme p (f (b.programme p)) := rfl
@[simp] theorem programme_setProgramme_same (p : Fin 16) (x : Programme) : (b.setProgramme p x).programme p = x := by
  simp [setProgramme, programme]
theorem programme_setProgramme (p q : Fin 16) (x : Programme) :
    (b.setProgramme p x).programme q = if p = q then x else b.programme q := by
  simp only [setProgramme, programme, Fin.getElem_fin, Vector.getElem_set, Fin.ext_iff]
@[simp] theorem programme_setProgramme_other (p q : Fin 16) (x : Programme) (h : p ≠ q) : (b.setProgramme p x).programme q = b.programme q := by
  simp [programme_setProgramme, h]
@[simp] theorem lane_setProgramme (p : Fin 16) (x : Programme) (q : Fin 16) : (b.setProgramme p x).lane q = b.lane q := rfl
@[simp] theorem meter_setProgramme (p : Fin 16) (x : Programme) (q : Fin 16) : (b.setProgramme p x).meter q = b.meter q := rfl
@[simp] theorem gain_setProgramme (p : Fin 16) (x : Programme) (q : Fin 16) : (b.setProgramme p x).gain q = b.gain q := rfl
@[simp] theorem port_setProgramme (p : Fin 16) (x : Programme) (q : Fin 8) : (b.setProgramme p x).port q = b.port q := rfl
@[simp] theorem bank_setProgramme (p : Fin 16) (x : Programme) (q : Fin 4) : (b.setProgramme p x).bank q = b.bank q := rfl
@[simp] theorem entry_setProgramme (p : Fin 16) (x : Programme) (q : Fin 154) : (b.setProgramme p x).entry q = b.entry q := rfl
@[simp] theorem scene_setProgramme (p : Fin 16) (x : Programme) (q : Fin 32) : (b.setProgramme p x).scene q = b.scene q := rfl
@[simp] theorem lrate_setProgramme (p : Fin 16) (x : Programme) : (b.setProgramme p x).lrate = b.lrate := rfl
@[simp] theorem banksStrap_setProgramme (p : Fin 16) (x : Programme) : (b.setProgramme p x).banksStrap = b.banksStrap := rfl
@[simp] theorem timing_setProgramme (p : Fin 16) (x : Programme) : (b.setProgramme p x).timing = b.timing := rfl
@[simp] theorem outputMap_setProgramme (p : Fin 16) (x : Programme) : (b.setProgramme p x).outputMap = b.outputMap := rfl
@[simp] theorem sweep_setProgramme (p : Fin 16) (x : Programme) : (b.setProgramme p x).sweep = b.sweep := rfl
@[simp] theorem sweepQueue_setProgramme (p : Fin 16) (x : Programme) : (b.setProgramme p x).sweepQueue = b.sweepQueue := rfl
@[simp] theorem formed_setProgramme (p : Fin 16) (x : Programme) : (b.setProgramme p x).formed = b.formed := rfl
@[simp] theorem sending_setProgramme (p : Fin 16) (x : Programme) : (b.setProgramme p x).sending = b.sending := rfl
@[simp] theorem contacts_setProgramme (p : Fin 16) (x : Programme) : (b.setProgramme p x).contacts = b.contacts := rfl
@[simp] theorem sequencer_setProgramme (p : Fin 16) (x : Programme) : (b.setProgramme p x).sequencer = b.sequencer := rfl
@[simp] theorem line_setProgramme (p : Fin 16) (x : Programme) : (b.setProgramme p x).line = b.line := rfl
@[simp] theorem freeDraws_setProgramme (p : Fin 16) (x : Programme) : (b.setProgramme p x).freeDraws = b.freeDraws := rfl

/-! ### lane -/

@[simp] theorem onLane_eq (p : Fin 16) (f : Lane → Lane) : b.onLane p f = b.setLane p (f (b.lane p)) := rfl
@[simp] theorem lane_setLane_same (p : Fin 16) (x : Lane) : (b.setLane p x).lane p = x := by
  simp [setLane, lane]
theorem lane_setLane (p q : Fin 16) (x : Lane) :
    (b.setLane p x).lane q = if p = q then x else b.lane q := by
  simp only [setLane, lane, Fin.getElem_fin, Vector.getElem_set, Fin.ext_iff]
@[simp] theorem lane_setLane_other (p q : Fin 16) (x : Lane) (h : p ≠ q) : (b.setLane p x).lane q = b.lane q := by
  simp [lane_setLane, h]
@[simp] theorem programme_setLane (p : Fin 16) (x : Lane) (q : Fin 16) : (b.setLane p x).programme q = b.programme q := rfl
@[simp] theorem meter_setLane (p : Fin 16) (x : Lane) (q : Fin 16) : (b.setLane p x).meter q = b.meter q := rfl
@[simp] theorem gain_setLane (p : Fin 16) (x : Lane) (q : Fin 16) : (b.setLane p x).gain q = b.gain q := rfl
@[simp] theorem port_setLane (p : Fin 16) (x : Lane) (q : Fin 8) : (b.setLane p x).port q = b.port q := rfl
@[simp] theorem bank_setLane (p : Fin 16) (x : Lane) (q : Fin 4) : (b.setLane p x).bank q = b.bank q := rfl
@[simp] theorem entry_setLane (p : Fin 16) (x : Lane) (q : Fin 154) : (b.setLane p x).entry q = b.entry q := rfl
@[simp] theorem scene_setLane (p : Fin 16) (x : Lane) (q : Fin 32) : (b.setLane p x).scene q = b.scene q := rfl
@[simp] theorem lrate_setLane (p : Fin 16) (x : Lane) : (b.setLane p x).lrate = b.lrate := rfl
@[simp] theorem banksStrap_setLane (p : Fin 16) (x : Lane) : (b.setLane p x).banksStrap = b.banksStrap := rfl
@[simp] theorem timing_setLane (p : Fin 16) (x : Lane) : (b.setLane p x).timing = b.timing := rfl
@[simp] theorem outputMap_setLane (p : Fin 16) (x : Lane) : (b.setLane p x).outputMap = b.outputMap := rfl
@[simp] theorem sweep_setLane (p : Fin 16) (x : Lane) : (b.setLane p x).sweep = b.sweep := rfl
@[simp] theorem sweepQueue_setLane (p : Fin 16) (x : Lane) : (b.setLane p x).sweepQueue = b.sweepQueue := rfl
@[simp] theorem formed_setLane (p : Fin 16) (x : Lane) : (b.setLane p x).formed = b.formed := rfl
@[simp] theorem sending_setLane (p : Fin 16) (x : Lane) : (b.setLane p x).sending = b.sending := rfl
@[simp] theorem contacts_setLane (p : Fin 16) (x : Lane) : (b.setLane p x).contacts = b.contacts := rfl
@[simp] theorem sequencer_setLane (p : Fin 16) (x : Lane) : (b.setLane p x).sequencer = b.sequencer := rfl
@[simp] theorem line_setLane (p : Fin 16) (x : Lane) : (b.setLane p x).line = b.line := rfl
@[simp] theorem freeDraws_setLane (p : Fin 16) (x : Lane) : (b.setLane p x).freeDraws = b.freeDraws := rfl

/-! ### meter -/

@[simp] theorem onMeter_eq (p : Fin 16) (f : Meter → Meter) : b.onMeter p f = b.setMeter p (f (b.meter p)) := rfl
@[simp] theorem meter_setMeter_same (p : Fin 16) (x : Meter) : (b.setMeter p x).meter p = x := by
  simp [setMeter, meter]
theorem meter_setMeter (p q : Fin 16) (x : Meter) :
    (b.setMeter p x).meter q = if p = q then x else b.meter q := by
  simp only [setMeter, meter, Fin.getElem_fin, Vector.getElem_set, Fin.ext_iff]
@[simp] theorem meter_setMeter_other (p q : Fin 16) (x : Meter) (h : p ≠ q) : (b.setMeter p x).meter q = b.meter q := by
  simp [meter_setMeter, h]
@[simp] theorem programme_setMeter (p : Fin 16) (x : Meter) (q : Fin 16) : (b.setMeter p x).programme q = b.programme q := rfl
@[simp] theorem lane_setMeter (p : Fin 16) (x : Meter) (q : Fin 16) : (b.setMeter p x).lane q = b.lane q := rfl
@[simp] theorem gain_setMeter (p : Fin 16) (x : Meter) (q : Fin 16) : (b.setMeter p x).gain q = b.gain q := rfl
@[simp] theorem port_setMeter (p : Fin 16) (x : Meter) (q : Fin 8) : (b.setMeter p x).port q = b.port q := rfl
@[simp] theorem bank_setMeter (p : Fin 16) (x : Meter) (q : Fin 4) : (b.setMeter p x).bank q = b.bank q := rfl
@[simp] theorem entry_setMeter (p : Fin 16) (x : Meter) (q : Fin 154) : (b.setMeter p x).entry q = b.entry q := rfl
@[simp] theorem scene_setMeter (p : Fin 16) (x : Meter) (q : Fin 32) : (b.setMeter p x).scene q = b.scene q := rfl
@[simp] theorem lrate_setMeter (p : Fin 16) (x : Meter) : (b.setMeter p x).lrate = b.lrate := rfl
@[simp] theorem banksStrap_setMeter (p : Fin 16) (x : Meter) : (b.setMeter p x).banksStrap = b.banksStrap := rfl
@[simp] theorem timing_setMeter (p : Fin 16) (x : Meter) : (b.setMeter p x).timing = b.timing := rfl
@[simp] theorem outputMap_setMeter (p : Fin 16) (x : Meter) : (b.setMeter p x).outputMap = b.outputMap := rfl
@[simp] theorem sweep_setMeter (p : Fin 16) (x : Meter) : (b.setMeter p x).sweep = b.sweep := rfl
@[simp] theorem sweepQueue_setMeter (p : Fin 16) (x : Meter) : (b.setMeter p x).sweepQueue = b.sweepQueue := rfl
@[simp] theorem formed_setMeter (p : Fin 16) (x : Meter) : (b.setMeter p x).formed = b.formed := rfl
@[simp] theorem sending_setMeter (p : Fin 16) (x : Meter) : (b.setMeter p x).sending = b.sending := rfl
@[simp] theorem contacts_setMeter (p : Fin 16) (x : Meter) : (b.setMeter p x).contacts = b.contacts := rfl
@[simp] theorem sequencer_setMeter (p : Fin 16) (x : Meter) : (b.setMeter p x).sequencer = b.sequencer := rfl
@[simp] theorem line_setMeter (p : Fin 16) (x : Meter) : (b.setMeter p x).line = b.line := rfl
@[simp] theorem freeDraws_setMeter (p : Fin 16) (x : Meter) : (b.setMeter p x).freeDraws = b.freeDraws := rfl

/-! ### gain -/

@[simp] theorem onGain_eq (p : Fin 16) (f : GainStage → GainStage) : b.onGain p f = b.setGain p (f (b.gain p)) := rfl
@[simp] theorem gain_setGain_same (p : Fin 16) (x : GainStage) : (b.setGain p x).gain p = x := by
  simp [setGain, gain]
theorem gain_setGain (p q : Fin 16) (x : GainStage) :
    (b.setGain p x).gain q = if p = q then x else b.gain q := by
  simp only [setGain, gain, Fin.getElem_fin, Vector.getElem_set, Fin.ext_iff]
@[simp] theorem gain_setGain_other (p q : Fin 16) (x : GainStage) (h : p ≠ q) : (b.setGain p x).gain q = b.gain q := by
  simp [gain_setGain, h]
@[simp] theorem programme_setGain (p : Fin 16) (x : GainStage) (q : Fin 16) : (b.setGain p x).programme q = b.programme q := rfl
@[simp] theorem lane_setGain (p : Fin 16) (x : GainStage) (q : Fin 16) : (b.setGain p x).lane q = b.lane q := rfl
@[simp] theorem meter_setGain (p : Fin 16) (x : GainStage) (q : Fin 16) : (b.setGain p x).meter q = b.meter q := rfl
@[simp] theorem port_setGain (p : Fin 16) (x : GainStage) (q : Fin 8) : (b.setGain p x).port q = b.port q := rfl
@[simp] theorem bank_setGain (p : Fin 16) (x : GainStage) (q : Fin 4) : (b.setGain p x).bank q = b.bank q := rfl
@[simp] theorem entry_setGain (p : Fin 16) (x : GainStage) (q : Fin 154) : (b.setGain p x).entry q = b.entry q := rfl
@[simp] theorem scene_setGain (p : Fin 16) (x : GainStage) (q : Fin 32) : (b.setGain p x).scene q = b.scene q := rfl
@[simp] theorem lrate_setGain (p : Fin 16) (x : GainStage) : (b.setGain p x).lrate = b.lrate := rfl
@[simp] theorem banksStrap_setGain (p : Fin 16) (x : GainStage) : (b.setGain p x).banksStrap = b.banksStrap := rfl
@[simp] theorem timing_setGain (p : Fin 16) (x : GainStage) : (b.setGain p x).timing = b.timing := rfl
@[simp] theorem outputMap_setGain (p : Fin 16) (x : GainStage) : (b.setGain p x).outputMap = b.outputMap := rfl
@[simp] theorem sweep_setGain (p : Fin 16) (x : GainStage) : (b.setGain p x).sweep = b.sweep := rfl
@[simp] theorem sweepQueue_setGain (p : Fin 16) (x : GainStage) : (b.setGain p x).sweepQueue = b.sweepQueue := rfl
@[simp] theorem formed_setGain (p : Fin 16) (x : GainStage) : (b.setGain p x).formed = b.formed := rfl
@[simp] theorem sending_setGain (p : Fin 16) (x : GainStage) : (b.setGain p x).sending = b.sending := rfl
@[simp] theorem contacts_setGain (p : Fin 16) (x : GainStage) : (b.setGain p x).contacts = b.contacts := rfl
@[simp] theorem sequencer_setGain (p : Fin 16) (x : GainStage) : (b.setGain p x).sequencer = b.sequencer := rfl
@[simp] theorem line_setGain (p : Fin 16) (x : GainStage) : (b.setGain p x).line = b.line := rfl
@[simp] theorem freeDraws_setGain (p : Fin 16) (x : GainStage) : (b.setGain p x).freeDraws = b.freeDraws := rfl

/-! ### port -/

@[simp] theorem onPort_eq (p : Fin 8) (f : Port → Port) : b.onPort p f = b.setPort p (f (b.port p)) := rfl
@[simp] theorem port_setPort_same (p : Fin 8) (x : Port) : (b.setPort p x).port p = x := by
  simp [setPort, port]
theorem port_setPort (p q : Fin 8) (x : Port) :
    (b.setPort p x).port q = if p = q then x else b.port q := by
  simp only [setPort, port, Fin.getElem_fin, Vector.getElem_set, Fin.ext_iff]
@[simp] theorem port_setPort_other (p q : Fin 8) (x : Port) (h : p ≠ q) : (b.setPort p x).port q = b.port q := by
  simp [port_setPort, h]
@[simp] theorem programme_setPort (p : Fin 8) (x : Port) (q : Fin 16) : (b.setPort p x).programme q = b.programme q := rfl
@[simp] theorem lane_setPort (p : Fin 8) (x : Port) (q : Fin 16) : (b.setPort p x).lane q = b.lane q := rfl
@[simp] theorem meter_setPort (p : Fin 8) (x : Port) (q : Fin 16) : (b.setPort p x).meter q = b.meter q := rfl
@[simp] theorem gain_setPort (p : Fin 8) (x : Port) (q : Fin 16) : (b.setPort p x).gain q = b.gain q := rfl
@[simp] theorem bank_setPort (p : Fin 8) (x : Port) (q : Fin 4) : (b.setPort p x).bank q = b.bank q := rfl
@[simp] theorem entry_setPort (p : Fin 8) (x : Port) (q : Fin 154) : (b.setPort p x).entry q = b.entry q := rfl
@[simp] theorem scene_setPort (p : Fin 8) (x : Port) (q : Fin 32) : (b.setPort p x).scene q = b.scene q := rfl
@[simp] theorem lrate_setPort (p : Fin 8) (x : Port) : (b.setPort p x).lrate = b.lrate := rfl
@[simp] theorem banksStrap_setPort (p : Fin 8) (x : Port) : (b.setPort p x).banksStrap = b.banksStrap := rfl
@[simp] theorem timing_setPort (p : Fin 8) (x : Port) : (b.setPort p x).timing = b.timing := rfl
@[simp] theorem outputMap_setPort (p : Fin 8) (x : Port) : (b.setPort p x).outputMap = b.outputMap := rfl
@[simp] theorem sweep_setPort (p : Fin 8) (x : Port) : (b.setPort p x).sweep = b.sweep := rfl
@[simp] theorem sweepQueue_setPort (p : Fin 8) (x : Port) : (b.setPort p x).sweepQueue = b.sweepQueue := rfl
@[simp] theorem formed_setPort (p : Fin 8) (x : Port) : (b.setPort p x).formed = b.formed := rfl
@[simp] theorem sending_setPort (p : Fin 8) (x : Port) : (b.setPort p x).sending = b.sending := rfl
@[simp] theorem contacts_setPort (p : Fin 8) (x : Port) : (b.setPort p x).contacts = b.contacts := rfl
@[simp] theorem sequencer_setPort (p : Fin 8) (x : Port) : (b.setPort p x).sequencer = b.sequencer := rfl
@[simp] theorem line_setPort (p : Fin 8) (x : Port) : (b.setPort p x).line = b.line := rfl
@[simp] theorem freeDraws_setPort (p : Fin 8) (x : Port) : (b.setPort p x).freeDraws = b.freeDraws := rfl

/-! ### bank -/

@[simp] theorem onBank_eq (p : Fin 4) (f : Bank → Bank) : b.onBank p f = b.setBank p (f (b.bank p)) := rfl
@[simp] theorem bank_setBank_same (p : Fin 4) (x : Bank) : (b.setBank p x).bank p = x := by
  simp [setBank, bank]
theorem bank_setBank (p q : Fin 4) (x : Bank) :
    (b.setBank p x).bank q = if p = q then x else b.bank q := by
  simp only [setBank, bank, Fin.getElem_fin, Vector.getElem_set, Fin.ext_iff]
@[simp] theorem bank_setBank_other (p q : Fin 4) (x : Bank) (h : p ≠ q) : (b.setBank p x).bank q = b.bank q := by
  simp [bank_setBank, h]
@[simp] theorem programme_setBank (p : Fin 4) (x : Bank) (q : Fin 16) : (b.setBank p x).programme q = b.programme q := rfl
@[simp] theorem lane_setBank (p : Fin 4) (x : Bank) (q : Fin 16) : (b.setBank p x).lane q = b.lane q := rfl
@[simp] theorem meter_setBank (p : Fin 4) (x : Bank) (q : Fin 16) : (b.setBank p x).meter q = b.meter q := rfl
@[simp] theorem gain_setBank (p : Fin 4) (x : Bank) (q : Fin 16) : (b.setBank p x).gain q = b.gain q := rfl
@[simp] theorem port_setBank (p : Fin 4) (x : Bank) (q : Fin 8) : (b.setBank p x).port q = b.port q := rfl
@[simp] theorem entry_setBank (p : Fin 4) (x : Bank) (q : Fin 154) : (b.setBank p x).entry q = b.entry q := rfl
@[simp] theorem scene_setBank (p : Fin 4) (x : Bank) (q : Fin 32) : (b.setBank p x).scene q = b.scene q := rfl
@[simp] theorem lrate_setBank (p : Fin 4) (x : Bank) : (b.setBank p x).lrate = b.lrate := rfl
@[simp] theorem banksStrap_setBank (p : Fin 4) (x : Bank) : (b.setBank p x).banksStrap = b.banksStrap := rfl
@[simp] theorem timing_setBank (p : Fin 4) (x : Bank) : (b.setBank p x).timing = b.timing := rfl
@[simp] theorem outputMap_setBank (p : Fin 4) (x : Bank) : (b.setBank p x).outputMap = b.outputMap := rfl
@[simp] theorem sweep_setBank (p : Fin 4) (x : Bank) : (b.setBank p x).sweep = b.sweep := rfl
@[simp] theorem sweepQueue_setBank (p : Fin 4) (x : Bank) : (b.setBank p x).sweepQueue = b.sweepQueue := rfl
@[simp] theorem formed_setBank (p : Fin 4) (x : Bank) : (b.setBank p x).formed = b.formed := rfl
@[simp] theorem sending_setBank (p : Fin 4) (x : Bank) : (b.setBank p x).sending = b.sending := rfl
@[simp] theorem contacts_setBank (p : Fin 4) (x : Bank) : (b.setBank p x).contacts = b.contacts := rfl
@[simp] theorem sequencer_setBank (p : Fin 4) (x : Bank) : (b.setBank p x).sequencer = b.sequencer := rfl
@[simp] theorem line_setBank (p : Fin 4) (x : Bank) : (b.setBank p x).line = b.line := rfl
@[simp] theorem freeDraws_setBank (p : Fin 4) (x : Bank) : (b.setBank p x).freeDraws = b.freeDraws := rfl

/-! ### entry -/

@[simp] theorem onEntry_eq (p : Fin 154) (f : Entry → Entry) : b.onEntry p f = b.setEntry p (f (b.entry p)) := rfl
@[simp] theorem entry_setEntry_same (p : Fin 154) (x : Entry) : (b.setEntry p x).entry p = x := by
  simp [setEntry, entry]
theorem entry_setEntry (p q : Fin 154) (x : Entry) :
    (b.setEntry p x).entry q = if p = q then x else b.entry q := by
  simp only [setEntry, entry, Fin.getElem_fin, Vector.getElem_set, Fin.ext_iff]
@[simp] theorem entry_setEntry_other (p q : Fin 154) (x : Entry) (h : p ≠ q) : (b.setEntry p x).entry q = b.entry q := by
  simp [entry_setEntry, h]
@[simp] theorem programme_setEntry (p : Fin 154) (x : Entry) (q : Fin 16) : (b.setEntry p x).programme q = b.programme q := rfl
@[simp] theorem lane_setEntry (p : Fin 154) (x : Entry) (q : Fin 16) : (b.setEntry p x).lane q = b.lane q := rfl
@[simp] theorem meter_setEntry (p : Fin 154) (x : Entry) (q : Fin 16) : (b.setEntry p x).meter q = b.meter q := rfl
@[simp] theorem gain_setEntry (p : Fin 154) (x : Entry) (q : Fin 16) : (b.setEntry p x).gain q = b.gain q := rfl
@[simp] theorem port_setEntry (p : Fin 154) (x : Entry) (q : Fin 8) : (b.setEntry p x).port q = b.port q := rfl
@[simp] theorem bank_setEntry (p : Fin 154) (x : Entry) (q : Fin 4) : (b.setEntry p x).bank q = b.bank q := rfl
@[simp] theorem scene_setEntry (p : Fin 154) (x : Entry) (q : Fin 32) : (b.setEntry p x).scene q = b.scene q := rfl
@[simp] theorem lrate_setEntry (p : Fin 154) (x : Entry) : (b.setEntry p x).lrate = b.lrate := rfl
@[simp] theorem banksStrap_setEntry (p : Fin 154) (x : Entry) : (b.setEntry p x).banksStrap = b.banksStrap := rfl
@[simp] theorem timing_setEntry (p : Fin 154) (x : Entry) : (b.setEntry p x).timing = b.timing := rfl
@[simp] theorem outputMap_setEntry (p : Fin 154) (x : Entry) : (b.setEntry p x).outputMap = b.outputMap := rfl
@[simp] theorem sweep_setEntry (p : Fin 154) (x : Entry) : (b.setEntry p x).sweep = b.sweep := rfl
@[simp] theorem sweepQueue_setEntry (p : Fin 154) (x : Entry) : (b.setEntry p x).sweepQueue = b.sweepQueue := rfl
@[simp] theorem formed_setEntry (p : Fin 154) (x : Entry) : (b.setEntry p x).formed = b.formed := rfl
@[simp] theorem sending_setEntry (p : Fin 154) (x : Entry) : (b.setEntry p x).sending = b.sending := rfl
@[simp] theorem contacts_setEntry (p : Fin 154) (x : Entry) : (b.setEntry p x).contacts = b.contacts := rfl
@[simp] theorem sequencer_setEntry (p : Fin 154) (x : Entry) : (b.setEntry p x).sequencer = b.sequencer := rfl
@[simp] theorem line_setEntry (p : Fin 154) (x : Entry) : (b.setEntry p x).line = b.line := rfl
@[simp] theorem freeDraws_setEntry (p : Fin 154) (x : Entry) : (b.setEntry p x).freeDraws = b.freeDraws := rfl

/-! ### scene -/

@[simp] theorem scene_setScene_same (p : Fin 32) (x : SceneList) : (b.setScene p x).scene p = x := by
  simp [setScene, scene]
theorem scene_setScene (p q : Fin 32) (x : SceneList) :
    (b.setScene p x).scene q = if p = q then x else b.scene q := by
  simp only [setScene, scene, Fin.getElem_fin, Vector.getElem_set, Fin.ext_iff]
@[simp] theorem scene_setScene_other (p q : Fin 32) (x : SceneList) (h : p ≠ q) : (b.setScene p x).scene q = b.scene q := by
  simp [scene_setScene, h]
@[simp] theorem programme_setScene (p : Fin 32) (x : SceneList) (q : Fin 16) : (b.setScene p x).programme q = b.programme q := rfl
@[simp] theorem lane_setScene (p : Fin 32) (x : SceneList) (q : Fin 16) : (b.setScene p x).lane q = b.lane q := rfl
@[simp] theorem meter_setScene (p : Fin 32) (x : SceneList) (q : Fin 16) : (b.setScene p x).meter q = b.meter q := rfl
@[simp] theorem gain_setScene (p : Fin 32) (x : SceneList) (q : Fin 16) : (b.setScene p x).gain q = b.gain q := rfl
@[simp] theorem port_setScene (p : Fin 32) (x : SceneList) (q : Fin 8) : (b.setScene p x).port q = b.port q := rfl
@[simp] theorem bank_setScene (p : Fin 32) (x : SceneList) (q : Fin 4) : (b.setScene p x).bank q = b.bank q := rfl
@[simp] theorem entry_setScene (p : Fin 32) (x : SceneList) (q : Fin 154) : (b.setScene p x).entry q = b.entry q := rfl
@[simp] theorem lrate_setScene (p : Fin 32) (x : SceneList) : (b.setScene p x).lrate = b.lrate := rfl
@[simp] theorem banksStrap_setScene (p : Fin 32) (x : SceneList) : (b.setScene p x).banksStrap = b.banksStrap := rfl
@[simp] theorem timing_setScene (p : Fin 32) (x : SceneList) : (b.setScene p x).timing = b.timing := rfl
@[simp] theorem outputMap_setScene (p : Fin 32) (x : SceneList) : (b.setScene p x).outputMap = b.outputMap := rfl
@[simp] theorem sweep_setScene (p : Fin 32) (x : SceneList) : (b.setScene p x).sweep = b.sweep := rfl
@[simp] theorem sweepQueue_setScene (p : Fin 32) (x : SceneList) : (b.setScene p x).sweepQueue = b.sweepQueue := rfl
@[simp] theorem formed_setScene (p : Fin 32) (x : SceneList) : (b.setScene p x).formed = b.formed := rfl
@[simp] theorem sending_setScene (p : Fin 32) (x : SceneList) : (b.setScene p x).sending = b.sending := rfl
@[simp] theorem contacts_setScene (p : Fin 32) (x : SceneList) : (b.setScene p x).contacts = b.contacts := rfl
@[simp] theorem sequencer_setScene (p : Fin 32) (x : SceneList) : (b.setScene p x).sequencer = b.sequencer := rfl
@[simp] theorem line_setScene (p : Fin 32) (x : SceneList) : (b.setScene p x).line = b.line := rfl
@[simp] theorem freeDraws_setScene (p : Fin 32) (x : SceneList) : (b.setScene p x).freeDraws = b.freeDraws := rfl

/-! ### timing -/

@[simp] theorem timing_onTiming_same (f : Timing → Timing) : (b.onTiming f).timing = f b.timing := rfl
@[simp] theorem programme_onTiming (f : Timing → Timing) (q : Fin 16) : (b.onTiming f).programme q = b.programme q := rfl
@[simp] theorem lane_onTiming (f : Timing → Timing) (q : Fin 16) : (b.onTiming f).lane q = b.lane q := rfl
@[simp] theorem meter_onTiming (f : Timing → Timing) (q : Fin 16) : (b.onTiming f).meter q = b.meter q := rfl
@[simp] theorem gain_onTiming (f : Timing → Timing) (q : Fin 16) : (b.onTiming f).gain q = b.gain q := rfl
@[simp] theorem port_onTiming (f : Timing → Timing) (q : Fin 8) : (b.onTiming f).port q = b.port q := rfl
@[simp] theorem bank_onTiming (f : Timing → Timing) (q : Fin 4) : (b.onTiming f).bank q = b.bank q := rfl
@[simp] theorem entry_onTiming (f : Timing → Timing) (q : Fin 154) : (b.onTiming f).entry q = b.entry q := rfl
@[simp] theorem scene_onTiming (f : Timing → Timing) (q : Fin 32) : (b.onTiming f).scene q = b.scene q := rfl
@[simp] theorem lrate_onTiming (f : Timing → Timing) : (b.onTiming f).lrate = b.lrate := rfl
@[simp] theorem banksStrap_onTiming (f : Timing → Timing) : (b.onTiming f).banksStrap = b.banksStrap := rfl
@[simp] theorem outputMap_onTiming (f : Timing → Timing) : (b.onTiming f).outputMap = b.outputMap := rfl
@[simp] theorem sweep_onTiming (f : Timing → Timing) : (b.onTiming f).sweep = b.sweep := rfl
@[simp] theorem sweepQueue_onTiming (f : Timing → Timing) : (b.onTiming f).sweepQueue = b.sweepQueue := rfl
@[simp] theorem formed_onTiming (f : Timing → Timing) : (b.onTiming f).formed = b.formed := rfl
@[simp] theorem sending_onTiming (f : Timing → Timing) : (b.onTiming f).sending = b.sending := rfl
@[simp] theorem contacts_onTiming (f : Timing → Timing) : (b.onTiming f).contacts = b.contacts := rfl
@[simp] theorem sequencer_onTiming (f : Timing → Timing) : (b.onTiming f).sequencer = b.sequencer := rfl
@[simp] theorem line_onTiming (f : Timing → Timing) : (b.onTiming f).line = b.line := rfl
@[simp] theorem freeDraws_onTiming (f : Timing → Timing) : (b.onTiming f).freeDraws = b.freeDraws := rfl

/-! ### sequencer -/

@[simp] theorem sequencer_onSequencer_same (f : Sequencer → Sequencer) : (b.onSequencer f).sequencer = f b.sequencer := rfl
@[simp] theorem programme_onSequencer (f : Sequencer → Sequencer) (q : Fin 16) : (b.onSequencer f).programme q = b.programme q := rfl
@[simp] theorem lane_onSequencer (f : Sequencer → Sequencer) (q : Fin 16) : (b.onSequencer f).lane q = b.lane q := rfl
@[simp] theorem meter_onSequencer (f : Sequencer → Sequencer) (q : Fin 16) : (b.onSequencer f).meter q = b.meter q := rfl
@[simp] theorem gain_onSequencer (f : Sequencer → Sequencer) (q : Fin 16) : (b.onSequencer f).gain q = b.gain q := rfl
@[simp] theorem port_onSequencer (f : Sequencer → Sequencer) (q : Fin 8) : (b.onSequencer f).port q = b.port q := rfl
@[simp] theorem bank_onSequencer (f : Sequencer → Sequencer) (q : Fin 4) : (b.onSequencer f).bank q = b.bank q := rfl
@[simp] theorem entry_onSequencer (f : Sequencer → Sequencer) (q : Fin 154) : (b.onSequencer f).entry q = b.entry q := rfl
@[simp] theorem scene_onSequencer (f : Sequencer → Sequencer) (q : Fin 32) : (b.onSequencer f).scene q = b.scene q := rfl
@[simp] theorem lrate_onSequencer (f : Sequencer → Sequencer) : (b.onSequencer f).lrate = b.lrate := rfl
@[simp] theorem banksStrap_onSequencer (f : Sequencer → Sequencer) : (b.onSequencer f).banksStrap = b.banksStrap := rfl
@[simp] theorem timing_onSequencer (f : Sequencer → Sequencer) : (b.onSequencer f).timing = b.timing := rfl
@[simp] theorem outputMap_onSequencer (f : Sequencer → Sequencer) : (b.onSequencer f).outputMap = b.outputMap := rfl
@[simp] theorem sweep_onSequencer (f : Sequencer → Sequencer) : (b.onSequencer f).sweep = b.sweep := rfl
@[simp] theorem sweepQueue_onSequencer (f : Sequencer → Sequencer) : (b.onSequencer f).sweepQueue = b.sweepQueue := rfl
@[simp] theorem formed_onSequencer (f : Sequencer → Sequencer) : (b.onSequencer f).formed = b.formed := rfl
@[simp] theorem sending_onSequencer (f : Sequencer → Sequencer) : (b.onSequencer f).sending = b.sending := rfl
@[simp] theorem contacts_onSequencer (f : Sequencer → Sequencer) : (b.onSequencer f).contacts = b.contacts := rfl
@[simp] theorem line_onSequencer (f : Sequencer → Sequencer) : (b.onSequencer f).line = b.line := rfl
@[simp] theorem freeDraws_onSequencer (f : Sequencer → Sequencer) : (b.onSequencer f).freeDraws = b.freeDraws := rfl

/-! ### line -/

@[simp] theorem line_onLine_same (f : LineBlock → LineBlock) : (b.onLine f).line = f b.line := rfl
@[simp] theorem programme_onLine (f : LineBlock → LineBlock) (q : Fin 16) : (b.onLine f).programme q = b.programme q := rfl
@[simp] theorem lane_onLine (f : LineBlock → LineBlock) (q : Fin 16) : (b.onLine f).lane q = b.lane q := rfl
@[simp] theorem meter_onLine (f : LineBlock → LineBlock) (q : Fin 16) : (b.onLine f).meter q = b.meter q := rfl
@[simp] theorem gain_onLine (f : LineBlock → LineBlock) (q : Fin 16) : (b.onLine f).gain q = b.gain q := rfl
@[simp] theorem port_onLine (f : LineBlock → LineBlock) (q : Fin 8) : (b.onLine f).port q = b.port q := rfl
@[simp] theorem bank_onLine (f : LineBlock → LineBlock) (q : Fin 4) : (b.onLine f).bank q = b.bank q := rfl
@[simp] theorem entry_onLine (f : LineBlock → LineBlock) (q : Fin 154) : (b.onLine f).entry q = b.entry q := rfl
@[simp] theorem scene_onLine (f : LineBlock → LineBlock) (q : Fin 32) : (b.onLine f).scene q = b.scene q := rfl
@[simp] theorem lrate_onLine (f : LineBlock → LineBlock) : (b.onLine f).lrate = b.lrate := rfl
@[simp] theorem banksStrap_onLine (f : LineBlock → LineBlock) : (b.onLine f).banksStrap = b.banksStrap := rfl
@[simp] theorem timing_onLine (f : LineBlock → LineBlock) : (b.onLine f).timing = b.timing := rfl
@[simp] theorem outputMap_onLine (f : LineBlock → LineBlock) : (b.onLine f).outputMap = b.outputMap := rfl
@[simp] theorem sweep_onLine (f : LineBlock → LineBlock) : (b.onLine f).sweep = b.sweep := rfl
@[simp] theorem sweepQueue_onLine (f : LineBlock → LineBlock) : (b.onLine f).sweepQueue = b.sweepQueue := rfl
@[simp] theorem formed_onLine (f : LineBlock → LineBlock) : (b.onLine f).formed = b.formed := rfl
@[simp] theorem sending_onLine (f : LineBlock → LineBlock) : (b.onLine f).sending = b.sending := rfl
@[simp] theorem contacts_onLine (f : LineBlock → LineBlock) : (b.onLine f).contacts = b.contacts := rfl
@[simp] theorem sequencer_onLine (f : LineBlock → LineBlock) : (b.onLine f).sequencer = b.sequencer := rfl
@[simp] theorem freeDraws_onLine (f : LineBlock → LineBlock) : (b.onLine f).freeDraws = b.freeDraws := rfl

end Sys2Proof.Machine.Body
end

