-- ==== Sys2Proof/Laws/Events.lean ====
section
/-! SUPPORT. What the end of an event can do: reports move from the blocks to the outgoing queue, and nothing else changes. -/

namespace Sys2Proof.Machine

/-- What taking a report out of its class leaves: the DRAM, the receive side, the commands that wait, the outgoing queue. -/
def SameOutside (s t : State) : Prop :=
  t.dram = s.dram ∧ t.rx = s.rx ∧ t.pending = s.pending ∧ t.tx.queue = s.tx.queue ∧ t.tx.pointer = s.tx.pointer

theorem SameOutside.refl (s : State) : SameOutside s s := ⟨rfl, rfl, rfl, rfl, rfl⟩

theorem completionReport_same {s t : State} {m : Message} (h : completionReport s = some (m, t)) : SameOutside s t := by
  unfold completionReport at h
  split at h
  · cases h; exact ⟨rfl, rfl, rfl, rfl, rfl⟩
  · rw [Option.map_eq_some_iff] at h
    obtain ⟨x, _, hx⟩ := h
    cases hx; exact ⟨rfl, rfl, rfl, rfl, rfl⟩

theorem alarmReport_same {s t : State} {m : Message} (h : alarmReport s = some (m, t)) : SameOutside s t := by
  unfold alarmReport at h
  rw [Option.map_eq_some_iff] at h
  obtain ⟨x, _, hx⟩ := h
  cases hx; exact ⟨rfl, rfl, rfl, rfl, rfl⟩

theorem stateReport_same {s t : State} {m : Message} (h : stateReport s = some (m, t)) : SameOutside s t := by
  unfold stateReport at h
  obtain ⟨p, _, hp⟩ := List.exists_of_findSome?_eq_some h
  rw [Option.map_eq_some_iff] at hp
  obtain ⟨x, _, hx⟩ := hp
  cases hx; exact ⟨rfl, rfl, rfl, rfl, rfl⟩

theorem laneReport_same {s t : State} {m : Message} (h : laneReport s = some (m, t)) : SameOutside s t := by
  unfold laneReport at h
  obtain ⟨p, _, hp⟩ := List.exists_of_findSome?_eq_some h
  rw [Option.map_eq_some_iff] at hp
  obtain ⟨x, _, hx⟩ := hp
  cases hx; exact ⟨rfl, rfl, rfl, rfl, rfl⟩

theorem meterReport_same {s t : State} {m : Message} (h : meterReport s = some (m, t)) : SameOutside s t := by
  unfold meterReport at h
  obtain ⟨p, _, hp⟩ := List.exists_of_findSome?_eq_some h
  rw [Option.map_eq_some_iff] at hp
  obtain ⟨x, _, hx⟩ := hp
  cases hx; exact ⟨rfl, rfl, rfl, rfl, rfl⟩

theorem sceneReport_same {s t : State} {m : Message} (h : sceneReport s = some (m, t)) : SameOutside s t := by
  unfold sceneReport at h
  split at h
  · cases h; exact ⟨rfl, rfl, rfl, rfl, rfl⟩
  · rw [Option.or_eq_some_iff] at h
    rcases h with h | ⟨_, h⟩
    · exact laneReport_same h
    · exact meterReport_same h

theorem lineReport_same {s t : State} {m : Message} (h : lineReport s = some (m, t)) : SameOutside s t := by
  unfold lineReport at h
  simp only at h
  split at h <;> (cases h; try exact ⟨rfl, rfl, rfl, rfl, rfl⟩)

/-- Every class's report leaves the rest of the machine as it is. -/
theorem classReport_same {s t : State} {m : Message} {c : OwnerClass} (h : classReport s c = some (m, t)) :
    SameOutside s t := by
  cases c
  · cases h
  · exact completionReport_same h
  · exact alarmReport_same h
  · exact stateReport_same h
  · exact sceneReport_same h
  · exact lineReport_same h

/-- Placing one report: a place was free, one message joins the queue, the DRAM, the receive side and the commands stay. -/
theorem placeOne_spec {s t : State} (h : placeOne s = some t) :
    s.tx.queue.length < Config.outgoingPlaces ∧ t.tx.queue.length = s.tx.queue.length + 1 ∧
      t.dram = s.dram ∧ t.rx = s.rx ∧ t.pending = s.pending := by
  unfold placeOne at h
  split at h
  · cases h
  · rename_i hlt
    obtain ⟨c, _, hc⟩ := List.exists_of_findSome?_eq_some h
    rw [Option.map_eq_some_iff] at hc
    obtain ⟨x, hx, rfl⟩ := hc
    obtain ⟨h1, h2, h3, h4, _⟩ := classReport_same (m := x.1) (t := x.2) hx
    refine ⟨by omega, ?_, h1, h2, h3⟩
    simp [putMessage, h4]

theorem placeLoop_spec (n : Nat) (s : State) :
    (placeLoop n s).dram = s.dram ∧ (placeLoop n s).rx = s.rx ∧ (placeLoop n s).pending = s.pending ∧
      (s.tx.queue.length ≤ Config.outgoingPlaces → (placeLoop n s).tx.queue.length ≤ Config.outgoingPlaces) := by
  induction n generalizing s with
  | zero => exact ⟨rfl, rfl, rfl, id⟩
  | succ n ih =>
    unfold placeLoop
    split
    · exact ⟨rfl, rfl, rfl, id⟩
    · rename_i t ht
      obtain ⟨h0, h1, h2, h3, h4⟩ := placeOne_spec ht
      obtain ⟨i1, i2, i3, i4⟩ := ih t
      exact ⟨i1.trans h2, i2.trans h3, i3.trans h4, fun _ => i4 (by omega)⟩

/-- The end of an event leaves the DRAM, the receive side and the commands that wait, and keeps the queue within its
places. -/
theorem placeReports_spec (s : State) :
    (placeReports s).dram = s.dram ∧ (placeReports s).rx = s.rx ∧ (placeReports s).pending = s.pending ∧
      (s.tx.queue.length ≤ Config.outgoingPlaces → (placeReports s).tx.queue.length ≤ Config.outgoingPlaces) :=
  placeLoop_spec _ (syncCompletions s)

@[simp] theorem placeReports_dram (s : State) : (placeReports s).dram = s.dram := (placeReports_spec s).1
@[simp] theorem placeReports_rx (s : State) : (placeReports s).rx = s.rx := (placeReports_spec s).2.1
@[simp] theorem placeReports_pending (s : State) : (placeReports s).pending = s.pending := (placeReports_spec s).2.2.1

/-- An event of the blocks always completes, and leaves the DRAM, the receive side and the commands that wait. -/
theorem bodyEvent_spec (f : Body → Body) (s : State) :
    ∃ t, bodyEvent f s = .next t ∧ t.dram = s.dram ∧ t.rx = s.rx ∧ t.pending = s.pending :=
  ⟨_, rfl, by simp, by simp, by simp⟩

end Sys2Proof.Machine
end

