-- ==== Sys2Proof/Laws/Reports.lean ====
section
/-! SUPPORT. The blocks apart from what they owe the control line: placing reports changes nothing there. -/

namespace Sys2Proof.Machine

/-- Replacing a record by one that a projection does not tell apart leaves the projected vector. -/
theorem map_set_same {α β : Type} {n : Nat} (v : Vector α n) (f : α → β) (i : Fin n) (x : α) (h : f x = f v[i]) :
    (v.set i x).map f = v.map f := by
  ext j hj
  simp only [Vector.getElem_map, Vector.getElem_set]
  split
  · rename_i hij; subst hij; exact h
  · rfl

theorem completionReport_quiet {s t : State} {m : Message} (h : completionReport s = some (m, t)) :
    t.body.quiet = s.body.quiet := by
  unfold completionReport at h
  split at h
  · cases h; rfl
  · rw [Option.map_eq_some_iff] at h
    obtain ⟨x, hx, he⟩ := h
    cases he
    unfold completionOf at hx
    split at hx
    · cases hx
    · split at hx
      · rename_i tag rest _ d hd
        rw [Option.map_eq_some_iff] at hx
        obtain ⟨c, hc, he⟩ := hx
        cases he
        simp only [Body.quiet, List.filter_filter]
        congr 2
        apply List.filter_congr
        intro d _
        cases d.complete <;> simp
      · cases hx

theorem alarmReport_quiet {s t : State} {m : Message} (h : alarmReport s = some (m, t)) :
    t.body.quiet = s.body.quiet := by
  unfold alarmReport at h
  rw [Option.map_eq_some_iff] at h
  obtain ⟨e, _, hx⟩ := h
  cases hx
  simp only [Body.onEntry, Body.setEntry, Body.quiet]
  rw [map_set_same]
  rfl

theorem stateReport_quiet {s t : State} {m : Message} (h : stateReport s = some (m, t)) :
    t.body.quiet = s.body.quiet := by
  unfold stateReport at h
  obtain ⟨p, _, hp⟩ := List.exists_of_findSome?_eq_some h
  rw [Option.map_eq_some_iff] at hp
  obtain ⟨x, _, hx⟩ := hp
  cases hx
  simp only [Body.onProgramme, Body.setProgramme, Body.quiet]
  rw [map_set_same]
  rfl

theorem laneReport_quiet {s t : State} {m : Message} (h : laneReport s = some (m, t)) :
    t.body.quiet = s.body.quiet := by
  unfold laneReport at h
  obtain ⟨p, _, hp⟩ := List.exists_of_findSome?_eq_some h
  rw [Option.map_eq_some_iff] at hp
  obtain ⟨x, _, hx⟩ := hp
  cases hx
  simp only [Body.onLane, Body.setLane, Body.quiet]
  rw [map_set_same]
  rfl

theorem meterReport_quiet {s t : State} {m : Message} (h : meterReport s = some (m, t)) :
    t.body.quiet = s.body.quiet := by
  unfold meterReport at h
  obtain ⟨p, _, hp⟩ := List.exists_of_findSome?_eq_some h
  rw [Option.map_eq_some_iff] at hp
  obtain ⟨x, _, hx⟩ := hp
  cases hx
  simp only [Body.onMeter, Body.setMeter, Body.quiet]
  rw [map_set_same]
  rfl

theorem sceneReport_quiet {s t : State} {m : Message} (h : sceneReport s = some (m, t)) :
    t.body.quiet = s.body.quiet := by
  unfold sceneReport at h
  split at h
  · cases h; rfl
  · rw [Option.or_eq_some_iff] at h
    rcases h with h | ⟨_, h⟩
    · exact laneReport_quiet h
    · exact meterReport_quiet h

theorem lineReport_quiet {s t : State} {m : Message} (h : lineReport s = some (m, t)) :
    t.body.quiet = s.body.quiet := by
  unfold lineReport at h
  simp only at h
  split at h <;> (cases h; try rfl)

/-- Taking a report out of its class changes nothing but what the class owes. -/
theorem classReport_quiet {s t : State} {m : Message} {c : OwnerClass} (h : classReport s c = some (m, t)) :
    t.body.quiet = s.body.quiet := by
  cases c
  · cases h
  · exact completionReport_quiet h
  · exact alarmReport_quiet h
  · exact stateReport_quiet h
  · exact sceneReport_quiet h
  · exact lineReport_quiet h

/-- Placing one report changes nothing in the blocks but what they owe, and adds one message behind the others. -/
theorem placeOne_quiet {s t : State} (h : placeOne s = some t) :
    t.body.quiet = s.body.quiet ∧ s.tx.queue <+: t.tx.queue := by
  unfold placeOne at h
  split at h
  · cases h
  · obtain ⟨c, _, hc⟩ := List.exists_of_findSome?_eq_some h
    rw [Option.map_eq_some_iff] at hc
    obtain ⟨x, hx, rfl⟩ := hc
    refine ⟨classReport_quiet (m := x.1) (t := x.2) hx, ?_⟩
    obtain ⟨_, _, _, h4, _⟩ := classReport_same (m := x.1) (t := x.2) hx
    simp [putMessage, h4]

theorem placeLoop_quiet (n : Nat) (s : State) :
    (placeLoop n s).body.quiet = s.body.quiet ∧ s.tx.queue <+: (placeLoop n s).tx.queue := by
  induction n generalizing s with
  | zero => exact ⟨rfl, List.prefix_rfl⟩
  | succ n ih =>
    unfold placeLoop
    split
    · exact ⟨rfl, List.prefix_rfl⟩
    · rename_i t ht
      obtain ⟨h1, h2⟩ := placeOne_quiet ht
      obtain ⟨i1, i2⟩ := ih t
      exact ⟨i1.trans h1, h2.trans i2⟩

@[simp] theorem syncCompletions_quiet (s : State) : (syncCompletions s).body.quiet = s.body.quiet := rfl

/-- The end of an event changes nothing in the blocks but what they owe. -/
@[simp] theorem placeReports_quiet (s : State) : (placeReports s).body.quiet = s.body.quiet :=
  (placeLoop_quiet _ (syncCompletions s)).1

/-- The messages of the outgoing queue keep their places. -/
theorem placeReports_prefix (s : State) : s.tx.queue <+: (placeReports s).tx.queue :=
  (placeLoop_quiet _ (syncCompletions s)).2

/-- An event of the blocks: the body becomes what the event's function gives, but for the reports owed. -/
theorem bodyEvent_becomes (f : Body → Body) (s : State) : ∃ t, bodyEvent f s = .next t ∧ Becomes s (f s.body) t :=
  ⟨_, rfl, ⟨by simp, by simp, by simp, placeReports_prefix { s with body := f s.body }⟩, by simp⟩

/-- The same, where what the event's function gives is known. -/
theorem bodyEvent_result {f : Body → Body} {s : State} {b : Body} (h : f s.body = b) :
    ∃ t, bodyEvent f s = .next t ∧ Becomes s b t := h ▸ bodyEvent_becomes f s

end Sys2Proof.Machine
end

