-- ==== Sys2Proof/Laws/Requests.lean ====
section
/-! SUPPORT. What the arrival of a request can do: with the line free it is taken and answered in the same event. -/

namespace Sys2Proof.Machine

@[simp] theorem idOf_val {n : Nat} (p : Fin n) : idOf n p.val = some p := by simp [idOf, p.isLt]

theorem idOf_eq_none {n k : Nat} (h : n ≤ k) : idOf n k = none := by
  unfold idOf; rw [dif_neg (by omega)]

theorem LineFree.takenAtOnce {s : State} (h : LineFree s) : takenAtOnce s = true := by
  obtain ⟨-, h1, h2, h3⟩ := h
  simp [Machine.takenAtOnce, h1, h2, h3]

theorem requestKind_kind (r : Request) : requestKind r.kind = true := by cases r <;> rfl

theorem kind_toNat (r : Request) : (BitVec.ofNat 8 r.kind).toNat = r.kind := by cases r <;> rfl

/-- With the line free, a request is acted on and its answer takes the next place. -/
theorem arriveRequest_free (tag : Byte) (r : Request) {s : State} (h : LineFree s) :
    arriveRequest tag r s =
      placeReports (putMessage .answer ((carryOut tag r s).1.message r.kind tag) (carryOut tag r s).2) := by
  unfold arriveRequest arrive
  rw [if_neg h.1, if_pos h.takenAtOnce]
  simp only [answerFrame, answerTo, kind_toNat, requestKind_kind]
  rfl

/-- A message put at the end of the outgoing queue, and the end of the event. -/
theorem putMessage_answers (s : State) (m : Message) (b : Body) :
    Becomes s b (placeReports (putMessage .answer m { s with body := b })) ∧
      Answers s m (placeReports (putMessage .answer m { s with body := b })) := by
  have hp := placeReports_prefix (putMessage .answer m { s with body := b })
  refine ⟨⟨⟨by simp [putMessage], by simp [putMessage], by simp [putMessage], ?_⟩, by simp [putMessage]⟩, hp⟩
  exact (List.prefix_append s.tx.queue [m]).trans hp

/-- A request on the blocks, with the line free: the blocks become what its function gives, and it is answered. -/
theorem request_free {tag : Byte} {r : Request} {s : State} {f : Body → Answer × Body} (h : LineFree s)
    (hf : carryOut tag r s = onBlocks f s) :
    ∃ t, arriveRequest tag r s = t ∧ Becomes s (f s.body).2 t ∧ Answers s ((f s.body).1.message r.kind tag) t := by
  refine ⟨_, rfl, ?_⟩
  rw [arriveRequest_free tag r h, hf]
  exact putMessage_answers s _ _

/-- The same, where the function's result is known. -/
theorem request_result {tag : Byte} {r : Request} {s : State} {f : Body → Answer × Body} {a : Answer} {b : Body}
    (h : LineFree s) (hf : carryOut tag r s = onBlocks f s) (hr : f s.body = (a, b)) :
    Becomes s b (arriveRequest tag r s) ∧ Answers s (a.message r.kind tag) (arriveRequest tag r s) := by
  obtain ⟨t, rfl, h1, h2⟩ := request_free h hf
  rw [hr] at h1 h2
  exact ⟨h1, h2⟩

/-! ## Reading what `Becomes` says -/

variable {s t : State} {b : Body}

theorem Becomes.timing (h : Becomes s b t) : t.body.timing = b.timing := (congrArg Body.timing h.2 :)
theorem Becomes.ports (h : Becomes s b t) : t.body.ports = b.ports := (congrArg Body.ports h.2 :)
theorem Becomes.outputMap (h : Becomes s b t) : t.body.outputMap = b.outputMap := (congrArg Body.outputMap h.2 :)
theorem Becomes.banks (h : Becomes s b t) : t.body.banks = b.banks := (congrArg Body.banks h.2 :)
theorem Becomes.sweep (h : Becomes s b t) : t.body.sweep = b.sweep := (congrArg Body.sweep h.2 :)
theorem Becomes.sweepQueue (h : Becomes s b t) : t.body.sweepQueue = b.sweepQueue := (congrArg Body.sweepQueue h.2 :)
theorem Becomes.gains (h : Becomes s b t) : t.body.gains = b.gains := (congrArg Body.gains h.2 :)
theorem Becomes.formed (h : Becomes s b t) : t.body.formed = b.formed := (congrArg Body.formed h.2 :)
theorem Becomes.sending (h : Becomes s b t) : t.body.sending = b.sending := (congrArg Body.sending h.2 :)
theorem Becomes.contacts (h : Becomes s b t) : t.body.contacts = b.contacts := (congrArg Body.contacts h.2 :)
theorem Becomes.scenes (h : Becomes s b t) : t.body.scenes = b.scenes := (congrArg Body.scenes h.2 :)
theorem Becomes.freeDraws (h : Becomes s b t) : t.body.freeDraws = b.freeDraws := (congrArg Body.freeDraws h.2 :)

theorem Becomes.gain (h : Becomes s b t) (p : Fin 16) : t.body.gain p = b.gain p := by
  simp only [Body.gain, h.gains]

/-- A programme record but for the report it owes. -/
theorem Becomes.programme (h : Becomes s b t) (p : Fin 16) :
    { t.body.programme p with stateOwed := none } = { b.programme p with stateOwed := none } := by
  have := congrArg (fun x : Body => x.programmes[p]) h.2
  simpa [Body.quiet, Body.programme] using this

/-- A lane but for the report it owes. -/
theorem Becomes.lane (h : Becomes s b t) (p : Fin 16) :
    { t.body.lane p with sceneDelayOwed := none } = { b.lane p with sceneDelayOwed := none } := by
  have := congrArg (fun x : Body => x.lanes[p]) h.2
  simpa [Body.quiet, Body.lane] using this

/-- A meter but for the report it owes. -/
theorem Becomes.meter (h : Becomes s b t) (p : Fin 16) :
    { t.body.meter p with sceneResetOwed := none } = { b.meter p with sceneResetOwed := none } := by
  have := congrArg (fun x : Body => x.meters[p]) h.2
  simpa [Body.quiet, Body.meter] using this

/-- An alarm entry but for its report-owed mark. -/
theorem Becomes.entry (h : Becomes s b t) (e : Fin 154) :
    { t.body.entry e with reportOwed := false } = { b.entry e with reportOwed := false } := by
  have := congrArg (fun x : Body => x.entries[e]) h.2
  simpa [Body.quiet, Body.entry] using this

theorem Becomes.programme_state (h : Becomes s b t) (p : Fin 16) : (t.body.programme p).state = (b.programme p).state :=
  (congrArg Programme.state (h.programme p) :)

/-- What an operation still in flight came from. -/
theorem Becomes.inFlight (h : Becomes s b t) {d : Deferred} (hd : d ∈ t.body.line.deferred) (hc : d.complete = none) :
    d ∈ b.line.deferred := by
  have e : ∀ c : Body, c.quiet.line.deferred = c.line.deferred.filter fun d => d.complete.isNone := fun _ => rfl
  have : d ∈ t.body.quiet.line.deferred := by rw [e]; exact List.mem_filter.2 ⟨hd, by simp [hc]⟩
  rw [h.2, e] at this
  exact (List.mem_filter.1 this).1

/-- The blocks but for the lanes. -/
theorem Becomes.onLanes {c : Body} (h : Becomes s c t) (e : c = { b with lanes := c.lanes }) :
    Becomes s { b with lanes := t.body.lanes } t := by
  refine ⟨h.1, ?_⟩
  have hl := congrArg Body.lanes h.2
  simp only [Body.quiet] at hl
  rw [h.2, e]
  simp only [Body.quiet, hl]

/-- The blocks but for the programmes. -/
theorem Becomes.onProgrammes {c : Body} (h : Becomes s c t) (e : c = { b with programmes := c.programmes }) :
    Becomes s { b with programmes := t.body.programmes } t := by
  refine ⟨h.1, ?_⟩
  have hl := congrArg Body.programmes h.2
  simp only [Body.quiet] at hl
  rw [h.2, e]
  simp only [Body.quiet, hl]

/-- The blocks but for the banks and the lanes. -/
theorem Becomes.onStore {c : Body} (h : Becomes s c t) (e : c = { b with banks := c.banks, lanes := c.lanes }) :
    Becomes s { b with banks := t.body.banks, lanes := t.body.lanes } t := by
  refine ⟨h.1, ?_⟩
  have hl := congrArg Body.lanes h.2
  have hb := congrArg Body.banks h.2
  simp only [Body.quiet] at hl hb
  rw [h.2, e]
  simp only [Body.quiet, hl, hb]

end Sys2Proof.Machine
end

