-- ==== Sys2Proof/Laws/Blocks.lean ====
section
/-! SUPPORT. What the work of lanes, delay store, meters, gain stages and programme table never touches: house timing, ports,
alarm entries, contacts, scene store and sequencer. One lemma for each operation, so that no proof unfolds them. -/

namespace Sys2Proof.Machine

/-- The parts of the blocks that the audio path and the programme table never change. -/
structure Fixed where
  lrate      : LineRate
  banksStrap : BankStrap
  timing     : Timing
  ports      : Vector Port 8
  entries    : Vector Entry 154
  contacts   : Vector Contact 8
  scenes     : Vector SceneList 32
  sequencer  : Sequencer

def Body.fixed (b : Body) : Fixed :=
  { lrate := b.lrate, banksStrap := b.banksStrap, timing := b.timing, ports := b.ports, entries := b.entries
    contacts := b.contacts, scenes := b.scenes, sequencer := b.sequencer }

@[simp] theorem onLane_fixed (b : Body) (p f) : (b.onLane p f).fixed = b.fixed := rfl
@[simp] theorem onProgramme_fixed (b : Body) (p f) : (b.onProgramme p f).fixed = b.fixed := rfl
@[simp] theorem onBank_fixed (b : Body) (p f) : (b.onBank p f).fixed = b.fixed := rfl
@[simp] theorem onMeter_fixed (b : Body) (p f) : (b.onMeter p f).fixed = b.fixed := rfl
@[simp] theorem onGain_fixed (b : Body) (p f) : (b.onGain p f).fixed = b.fixed := rfl
@[simp] theorem onLine_fixed (b : Body) (f) : (b.onLine f).fixed = b.fixed := rfl
@[simp] theorem setLane_fixed (b : Body) (p x) : (b.setLane p x).fixed = b.fixed := rfl
@[simp] theorem setMeter_fixed (b : Body) (p x) : (b.setMeter p x).fixed = b.fixed := rfl
@[simp] theorem setGain_fixed (b : Body) (p x) : (b.setGain p x).fixed = b.fixed := rfl
@[simp] theorem setBank_fixed (b : Body) (p x) : (b.setBank p x).fixed = b.fixed := rfl
@[simp] theorem setProgramme_fixed (b : Body) (p x) : (b.setProgramme p x).fixed = b.fixed := rfl
@[simp] theorem setLine_fixed (b : Body) (x) : ({ b with line := x } : Body).fixed = b.fixed := rfl
@[simp] theorem setSweep_fixed (b : Body) (x) : ({ b with sweep := x } : Body).fixed = b.fixed := rfl
@[simp] theorem setSweepQueue_fixed (b : Body) (x) : ({ b with sweepQueue := x } : Body).fixed = b.fixed := rfl
@[simp] theorem setSweeps_fixed (b : Body) (x y) : ({ b with sweep := x, sweepQueue := y } : Body).fixed = b.fixed := rfl
@[simp] theorem setFormed_fixed (b : Body) (x) : ({ b with formed := x } : Body).fixed = b.fixed := rfl
@[simp] theorem setFreeDraws_fixed (b : Body) (x) : ({ b with freeDraws := x } : Body).fixed = b.fixed := rfl
@[simp] theorem setOutputMap_fixed (b : Body) (x) : ({ b with outputMap := x } : Body).fixed = b.fixed := rfl

/-- Work done for one after another. -/
theorem foldl_fixed {α : Type} (l : List α) (f : α → Body → Body) (h : ∀ a b, (f a b).fixed = b.fixed) (b : Body) :
    (l.foldl (fun b a => f a b) b).fixed = b.fixed := by
  induction l generalizing b with
  | nil => rfl
  | cons a l ih => exact (ih (f a b)).trans (h a b)

theorem eachProgramme_fixed (b : Body) (f : Fin 16 → Body → Body) (h : ∀ p b, (f p b).fixed = b.fixed) :
    (b.eachProgramme f).fixed = b.fixed := foldl_fixed _ f h b

/-! ## Ops, delay store, reader -/

@[simp] theorem completeTag_fixed (t o d b) : (completeTag t o d b).fixed = b.fixed := rfl
@[simp] theorem completeSubject_fixed (k n o d b) : (completeSubject k n o d b).fixed = b.fixed := rfl
@[simp] theorem beginDeferred_fixed (t k n b) : (beginDeferred t k n b).fixed = b.fixed := rfl
@[simp] theorem oweState_fixed (p c b) : (oweState p c b).fixed = b.fixed := rfl

@[simp] theorem grantRead_fixed (b k p) : (grantRead b k p).fixed = b.fixed := by
  unfold grantRead; split <;> simp

@[simp] theorem grantBank_fixed (k b) : (grantBank k b).fixed = b.fixed := by
  unfold grantBank; simp only; repeat' split
  all_goals simp

@[simp] theorem openReads_fixed (p n b) : (openReads p n b).fixed = b.fixed := by
  induction n generalizing b with
  | zero => rfl
  | succ n ih => unfold openReads; simp only; repeat' split
                 all_goals simp [ih]

@[simp] theorem pumpReads_fixed (p b) : (pumpReads p b).fixed = b.fixed := by
  unfold pumpReads; simp only; split <;> simp

@[simp] theorem killAccess_fixed (p r w b) : (killAccess p r w b).fixed = b.fixed :=
  foldl_fixed _ _ (by simp) b

@[simp] theorem closeRead_fixed (p b) : (closeRead p b).fixed = b.fixed := by simp [closeRead]

@[simp] theorem memoryErrors_fixed (p n b) : (memoryErrors p n b).fixed = b.fixed := by
  unfold memoryErrors; split <;> simp

@[simp] theorem returnFrame_fixed (p q ws b) : (returnFrame p q ws b).fixed = b.fixed := by simp [returnFrame]

@[simp] theorem placeLine_fixed (p k f n b) : (placeLine p k f n b).fixed = b.fixed := by simp [placeLine]

@[simp] theorem fillDone_fixed (p b) : (fillDone p b).fixed = b.fixed := by simp [fillDone]

@[simp] theorem fillAdvance_fixed (k b) : (fillAdvance k b).fixed = b.fixed := by
  unfold fillAdvance; repeat' split
  all_goals simp

@[simp] theorem refreshSetpoint_fixed (p b) : (refreshSetpoint p b).fixed = b.fixed := by
  unfold refreshSetpoint; split <;> simp

@[simp] theorem endChange_fixed (p o b) : (endChange p o b).fixed = b.fixed := by
  unfold endChange; repeat' split
  all_goals simp

@[simp] theorem endTail_fixed (p b) : (endTail p b).fixed = b.fixed := by
  unfold endTail; simp only; repeat' split
  all_goals simp

@[simp] theorem settleTail_fixed (p b) : (settleTail p b).fixed = b.fixed := by
  unfold settleTail; split <;> simp

@[simp] theorem reachMark_fixed (p m b) : (reachMark p m b).fixed = b.fixed := by simp [reachMark]

@[simp] theorem moveReader_fixed (p d b) : (moveReader p d b).fixed = b.fixed := by
  unfold moveReader; simp only; split <;> simp

@[simp] theorem makeTail_fixed (p b) : (makeTail p b).fixed = b.fixed := rfl

@[simp] theorem makeCut_fixed (p c b) : (makeCut p c b).fixed = b.fixed := by
  unfold makeCut; simp only; repeat' split
  all_goals simp

@[simp] theorem cutDue_fixed (p f b) : (cutDue p f b).fixed = b.fixed := by
  unfold cutDue; simp only; repeat' split
  all_goals simp

@[simp] theorem markSlip_fixed (p b) : (markSlip p b).fixed = b.fixed := rfl
@[simp] theorem countSlip_fixed (p b) : (countSlip p b).fixed = b.fixed := rfl

@[simp] theorem overrun_fixed (p b) : (overrun p b).fixed = b.fixed := by
  unfold overrun; simp only [pumpReads_fixed, countSlip_fixed]; split <;> simp

@[simp] theorem leaveRunning_fixed (p b) : (leaveRunning p b).fixed = b.fixed := by simp [leaveRunning]
@[simp] theorem underrun_fixed (p b) : (underrun p b).fixed = b.fixed := by simp [underrun]

@[simp] theorem enterRunning_fixed (p b) : (enterRunning p b).fixed = b.fixed := by
  unfold enterRunning; split <;> simp

@[simp] theorem stepLoop_fixed (p n b) : (stepLoop p n b).1.fixed = b.fixed := by
  induction n generalizing b with
  | zero => rfl
  | succ n ih => unfold stepLoop; simp only; repeat' split
                 all_goals simp [ih]

@[simp] theorem stepReader_fixed (p b) : (stepReader p b).1.fixed = b.fixed := by simp [stepReader]

@[simp] theorem silentLane_fixed (p b) : (silentLane p b).fixed = b.fixed := rfl

@[simp] theorem runLane_fixed (p b) : (runLane p b).fixed = b.fixed := by
  unfold runLane
  have h := stepReader_fixed p b
  split <;> (rename_i e; rw [e] at h; simpa using h)

@[simp] theorem sampleLane_fixed (p b) : (sampleLane p b).fixed = b.fixed := by
  unfold sampleLane; simp only; repeat' split
  all_goals simp

@[simp] theorem regulateLane_fixed (p b) : (regulateLane p b).fixed = b.fixed := by
  unfold regulateLane; simp only; repeat' split
  all_goals simp

/-! ## The write path -/

@[simp] theorem clearOverloadRuns_fixed (p b) : (clearOverloadRuns p b).fixed = b.fixed := rfl
@[simp] theorem watchOverload_fixed (p x b) : (watchOverload p x b).fixed = b.fixed := rfl

@[simp] theorem afterWrite_fixed (p b) : (afterWrite p b).fixed = b.fixed := by
  unfold afterWrite; simp only; repeat' split
  all_goals simp

@[simp] theorem enterQueue_fixed (p x b) : (enterQueue p x b).fixed = b.fixed := by
  unfold enterQueue; split <;> simp

@[simp] theorem handOver_fixed (p x b) : (handOver p x b).fixed = b.fixed := by
  unfold handOver; simp only; repeat' split
  all_goals simp

@[simp] theorem admitWaiting_fixed (k n b) : (admitWaiting k n b).fixed = b.fixed := by
  induction n generalizing b with
  | zero => rfl
  | succ n ih => unfold admitWaiting; repeat' split
                 all_goals simp [ih]

@[simp] theorem discardHeld_fixed (p b) : (discardHeld p b).fixed = b.fixed :=
  foldl_fixed _ _ (by simp) _

@[simp] theorem deliver_fixed (q x b) : (deliver q x b).fixed = b.fixed :=
  eachProgramme_fixed b _ (by intro p b; repeat' split
                              all_goals simp)

@[simp] theorem drainDone_fixed (k l b) : (drainDone k l b).fixed = b.fixed := by simp [drainDone]

@[simp] theorem readDone_fixed (k p q l w b) : (readDone k p q l w b).fixed = b.fixed := by
  unfold readDone; simp only [grantBank_fixed]; split <;> simp

@[simp] theorem fillAccessDone_fixed (k l b) : (fillAccessDone k l b).fixed = b.fixed := by
  unfold fillAccessDone; simp only [grantBank_fixed]; split <;> simp

@[simp] theorem releaseLine_fixed (p b) : (releaseLine p b).fixed = b.fixed := by
  unfold releaseLine; split <;> simp

/-! ## Trackers' effects on lanes, switching -/

@[simp] theorem resumeProgramme_fixed (p b) : (resumeProgramme p b).fixed = b.fixed := rfl

@[simp] theorem afterTracker_fixed (q b) : (afterTracker q b).fixed = b.fixed :=
  eachProgramme_fixed b _ (by intro p b; simp only; repeat' split
                              all_goals simp)

@[simp] theorem forcedJump_fixed (p b) : (forcedJump p b).fixed = b.fixed := by
  unfold forcedJump; simp only; repeat' split
  all_goals simp

@[simp] theorem placeMark_fixed (p s b) : (placeMark p s b).fixed = b.fixed := by
  unfold placeMark; simp only; repeat' split
  all_goals simp

@[simp] theorem emptyLine_fixed (p b) : (emptyLine p b).fixed = b.fixed := rfl

@[simp] theorem switchSource_fixed (p s c b) : (switchSource p s c b).fixed = b.fixed := by
  unfold switchSource; simp only; repeat' split
  all_goals simp

@[simp] theorem changeSelector_fixed (p s c b) : (changeSelector p s c b).fixed = b.fixed := by
  unfold changeSelector; simp only; repeat' split
  all_goals simp

@[simp] theorem reconcile_fixed (p b) : (reconcile p b).fixed = b.fixed := by
  unfold reconcile; simp only; repeat' split
  all_goals simp

@[simp] theorem takeFailover_fixed (a b) : (takeFailover a b).fixed = b.fixed := by
  unfold takeFailover; split <;> simp

@[simp] theorem takeActions_fixed (as b) : (takeActions as b).fixed = b.fixed :=
  foldl_fixed as takeFailover takeFailover_fixed b

@[simp] theorem guardStep_fixed (p b) : (guardStep p b).fixed = b.fixed := rfl

@[simp] theorem applyRequested_fixed (p b) : (applyRequested p b).fixed = b.fixed := by
  unfold applyRequested; simp only; repeat' split
  all_goals simp

@[simp] theorem revertTest_fixed (p b) : (revertTest p b).fixed = b.fixed := by
  unfold revertTest; simp only; repeat' split
  all_goals simp

@[simp] theorem switchingWork_fixed (p b) : (switchingWork p b).fixed = b.fixed := by
  unfold switchingWork; split <;> simp

/-! ## Meters, gain stages, output -/

@[simp] theorem sampleMeter_fixed (p b) : (sampleMeter p b).fixed = b.fixed := by
  unfold sampleMeter; split <;> simp

@[simp] theorem raiseRequest_fixed (p b) : (raiseRequest p b).fixed = b.fixed := by
  unfold raiseRequest; split <;> simp

@[simp] theorem startSweeps_fixed (n b) : (startSweeps n b).fixed = b.fixed := by
  induction n generalizing b with
  | zero => rfl
  | succ n ih => unfold startSweeps; simp only; repeat' split
                 all_goals simp [ih]

@[simp] theorem nextSweep_fixed (b) : (nextSweep b).fixed = b.fixed := startSweeps_fixed _ b

@[simp] theorem endSweep_fixed (w b) : (endSweep w b).fixed = b.fixed := by simp [endSweep]

@[simp] theorem visitBin_fixed (w b) : (visitBin w b).fixed = b.fixed := by
  unfold visitBin; simp only; repeat' split
  all_goals simp

@[simp] theorem sweepVisitWork_fixed (b) : (sweepVisitWork b).fixed = b.fixed := by
  unfold sweepVisitWork; repeat' split
  all_goals simp

@[simp] theorem offerBlock_fixed (p k b) : (offerBlock p k b).fixed = b.fixed := by
  unfold offerBlock; repeat' split
  all_goals simp

@[simp] theorem dropSweep_fixed (p b) : (dropSweep p b).fixed = b.fixed := by simp [dropSweep]

@[simp] theorem endResets_fixed (p d o b) : (endResets p d o b).fixed = b.fixed := by
  unfold endResets
  split
  · rfl
  · rename_i d
    simp only
    have h : (d.tags.foldl (fun b t => completeTag t o [] b) b).fixed = b.fixed :=
      foldl_fixed d.tags (fun t b => completeTag t o [] b) (by simp) b
    split <;> simp [h]

@[simp] theorem applyReset_fixed (p b) : (applyReset p b).fixed = b.fixed := by
  unfold applyReset; simp only; split <;> simp

@[simp] theorem clearMeter_fixed (p b) : (clearMeter p b).fixed = b.fixed := by
  unfold clearMeter; simp only [endResets_fixed, dropSweep_fixed, setMeter_fixed]

@[simp] theorem riderDecision_fixed (p s d b) : (riderDecision p s d b).fixed = b.fixed := by
  unfold riderDecision; repeat' split
  all_goals simp

@[simp] theorem drawStepEnergy_fixed (l m b) : (drawStepEnergy l m b).2.fixed = b.fixed := by
  unfold drawStepEnergy; split <;> simp

@[simp] theorem closeStep_fixed (p l b) : (closeStep p l b).fixed = b.fixed := by simp [closeStep]

@[simp] theorem meterBoundary_fixed (p b) : (meterBoundary p b).fixed = b.fixed := by
  unfold meterBoundary; simp only; repeat' split
  all_goals simp

@[simp] theorem sampleGain_fixed (p b) : (sampleGain p b).fixed = b.fixed := by
  unfold sampleGain; simp only; split <;> simp

@[simp] theorem rampEndWork_fixed (p b) : (rampEndWork p b).fixed = b.fixed := rfl
@[simp] theorem assemble_fixed (b) : (assemble b).fixed = b.fixed := rfl
@[simp] theorem reformMap_fixed (b) : (reformMap b).fixed = b.fixed := rfl

@[simp] theorem samplePipeline_fixed (b) : (samplePipeline b).fixed = b.fixed := by
  simp only [samplePipeline, assemble_fixed]
  exact eachProgramme_fixed b _ (by simp)

/-! ## The programme table -/

@[simp] theorem endDelayWrite_fixed (p n o b) : (endDelayWrite p n o b).fixed = b.fixed := by
  unfold endDelayWrite; split <;> simp

@[simp] theorem beginChange_fixed (p n o f b) : (beginChange p n o f b).fixed = b.fixed := by
  unfold beginChange; simp only; repeat' split
  all_goals simp

@[simp] theorem commitDelay_fixed (p x n o f b) : (commitDelay p x n o f b).fixed = b.fixed := by
  unfold commitDelay; repeat' split
  all_goals simp

@[simp] theorem commitSet_fixed (p f b) : (commitSet p f b).fixed = b.fixed := by
  unfold commitSet; simp only
  split
  · simp only [reconcile_fixed, commitDelay_fixed]
    repeat' split
    all_goals simp
  · rfl

@[simp] theorem commitDirect_fixed (p f b) : (commitDirect p f b).fixed = b.fixed := by
  unfold commitDirect; split <;> simp

@[simp] theorem writeSettings_fixed (p o d is b) : (writeSettings p o d is b).fixed = b.fixed := by
  unfold writeSettings; simp only [onProgramme_fixed]; split <;> simp

@[simp] theorem setMembers_fixed (is ps b) : (setMembers is ps b).2.fixed = b.fixed := by
  induction ps generalizing b with
  | nil => rfl
  | cons p ps ih => unfold setMembers; simp only; split <;> simp [ih]

@[simp] theorem defineProgramme_fixed (p st b) : (defineProgramme p st b).fixed = b.fixed := by
  unfold defineProgramme; simp only; split <;> simp

@[simp] theorem allocate_fixed (t p n b) : (allocate t p n b).fixed = b.fixed := by
  unfold allocate; split <;> simp

@[simp] theorem startProgramme_fixed (p b) : (startProgramme p b).fixed = b.fixed := by
  unfold startProgramme; split <;> simp

@[simp] theorem abandonChange_fixed (p b) : (abandonChange p b).fixed = b.fixed := by simp [abandonChange]
@[simp] theorem parkProgramme_fixed (p b) : (parkProgramme p b).fixed = b.fixed := by simp [parkProgramme]

@[simp] theorem releaseProgramme_fixed (p b) : (releaseProgramme p b).fixed = b.fixed := by
  unfold releaseProgramme; simp only [onProgramme_fixed, releaseLine_fixed]; split <;> simp

@[simp] theorem clearProgramme_fixed (p b) : (clearProgramme p b).fixed = b.fixed := by simp [clearProgramme]

@[simp] theorem integrateNow_fixed (p a b) : (integrateNow p a b).fixed = b.fixed := rfl

@[simp] theorem discardScene_fixed (p b) : (discardScene p b).fixed = b.fixed := by
  unfold discardScene; simp only; repeat' split
  all_goals simp

end Sys2Proof.Machine
end

