-- ==== Sys2Proof/Laws/Sets.lean ====
section
/-! SUPPORT. The settings sets of the programmes, and which operations leave them as they are: all but a commit, a write, DEFINE,
CLEAR and the discarding of a scene's sets. One lemma for each operation. -/

namespace Sys2Proof.Machine


theorem sets_get (b : Body) (p : Fin 16) : b.sets[p] = ((b.programme p).active, (b.programme p).pending) := by
  simp [Body.sets, Body.programme]

/-- Equal sets, read for one programme. -/
theorem sets_programme {b c : Body} (h : c.sets = b.sets) (p : Fin 16) :
    (c.programme p).active = (b.programme p).active ∧ (c.programme p).pending = (b.programme p).pending := by
  have h := congrArg (fun v => v[p]) h
  simp only [sets_get, Prod.mk.injEq] at h
  exact h

/-- A programme record replaced. -/
@[simp] theorem setProgramme_sets (b : Body) (p : Fin 16) (x : Programme) :
    (b.setProgramme p x).sets = b.sets.set p (x.active, x.pending) := by
  simp [Body.sets, Body.setProgramme]

/-- The sets of a programme put back. -/
@[simp] theorem sets_set_same (b : Body) (p : Fin 16) :
    b.sets.set p ((b.programme p).active, (b.programme p).pending) = b.sets := by
  ext1 i hi
  rw [Vector.getElem_set]
  split
  · rename_i h; subst h; exact (sets_get b p).symm
  · rfl

/-- An update of a programme record that leaves its sets. -/
theorem onProgramme_sets (b : Body) (p : Fin 16) (f : Programme → Programme)
    (h : ∀ r, (f r).active = r.active ∧ (f r).pending = r.pending) : (b.onProgramme p f).sets = b.sets := by
  rw [Body.onProgramme_eq, setProgramme_sets, (h _).1, (h _).2, sets_set_same]

@[simp] theorem onLane_sets (b : Body) (p f) : (b.onLane p f).sets = b.sets := rfl
@[simp] theorem onBank_sets (b : Body) (p f) : (b.onBank p f).sets = b.sets := rfl
@[simp] theorem onMeter_sets (b : Body) (p f) : (b.onMeter p f).sets = b.sets := rfl
@[simp] theorem onGain_sets (b : Body) (p f) : (b.onGain p f).sets = b.sets := rfl
@[simp] theorem onLine_sets (b : Body) (f) : (b.onLine f).sets = b.sets := rfl
@[simp] theorem setLane_sets (b : Body) (p x) : (b.setLane p x).sets = b.sets := rfl
@[simp] theorem setMeter_sets (b : Body) (p x) : (b.setMeter p x).sets = b.sets := rfl
@[simp] theorem setGain_sets (b : Body) (p x) : (b.setGain p x).sets = b.sets := rfl
@[simp] theorem setBank_sets (b : Body) (p x) : (b.setBank p x).sets = b.sets := rfl
@[simp] theorem setLine_sets (b : Body) (x) : ({ b with line := x } : Body).sets = b.sets := rfl
@[simp] theorem setSweep_sets (b : Body) (x) : ({ b with sweep := x } : Body).sets = b.sets := rfl
@[simp] theorem setSweepQueue_sets (b : Body) (x) : ({ b with sweepQueue := x } : Body).sets = b.sets := rfl
@[simp] theorem setSweeps_sets (b : Body) (x y) : ({ b with sweep := x, sweepQueue := y } : Body).sets = b.sets := rfl
@[simp] theorem setFormed_sets (b : Body) (x) : ({ b with formed := x } : Body).sets = b.sets := rfl
@[simp] theorem setFreeDraws_sets (b : Body) (x) : ({ b with freeDraws := x } : Body).sets = b.sets := rfl
@[simp] theorem setOutputMap_sets (b : Body) (x) : ({ b with outputMap := x } : Body).sets = b.sets := rfl

/-- Work done for one after another. -/
theorem foldl_sets {α : Type} (l : List α) (f : α → Body → Body) (h : ∀ a b, (f a b).sets = b.sets) (b : Body) :
    (l.foldl (fun b a => f a b) b).sets = b.sets := by
  induction l generalizing b with
  | nil => rfl
  | cons a l ih => exact (ih (f a b)).trans (h a b)

theorem eachProgramme_sets (b : Body) (f : Fin 16 → Body → Body) (h : ∀ p b, (f p b).sets = b.sets) :
    (b.eachProgramme f).sets = b.sets := foldl_sets _ f h b

/-! ## Ops, delay store, reader -/

@[simp] theorem completeTag_sets (t o d b) : (completeTag t o d b).sets = b.sets := rfl
@[simp] theorem completeSubject_sets (k n o d b) : (completeSubject k n o d b).sets = b.sets := rfl
@[simp] theorem beginDeferred_sets (t k n b) : (beginDeferred t k n b).sets = b.sets := rfl
@[simp] theorem oweState_sets (p c b) : (oweState p c b).sets = b.sets := by simp [oweState]

@[simp] theorem grantRead_sets (b k p) : (grantRead b k p).sets = b.sets := by
  unfold grantRead; split <;> simp

@[simp] theorem grantBank_sets (k b) : (grantBank k b).sets = b.sets := by
  unfold grantBank; simp only; repeat' split
  all_goals simp

@[simp] theorem openReads_sets (p n b) : (openReads p n b).sets = b.sets := by
  induction n generalizing b with
  | zero => rfl
  | succ n ih => unfold openReads; simp only; repeat' split
                 all_goals simp [ih]

@[simp] theorem pumpReads_sets (p b) : (pumpReads p b).sets = b.sets := by
  unfold pumpReads; simp only; split <;> simp

@[simp] theorem killAccess_sets (p r w b) : (killAccess p r w b).sets = b.sets :=
  foldl_sets _ _ (by simp) b

@[simp] theorem closeRead_sets (p b) : (closeRead p b).sets = b.sets := by simp [closeRead]

@[simp] theorem memoryErrors_sets (p n b) : (memoryErrors p n b).sets = b.sets := by
  unfold memoryErrors; split <;> simp

@[simp] theorem returnFrame_sets (p q ws b) : (returnFrame p q ws b).sets = b.sets := by simp [returnFrame]

@[simp] theorem placeLine_sets (p k f n b) : (placeLine p k f n b).sets = b.sets := by simp [placeLine]

@[simp] theorem fillDone_sets (p b) : (fillDone p b).sets = b.sets := by simp [fillDone]

@[simp] theorem fillAdvance_sets (k b) : (fillAdvance k b).sets = b.sets := by
  unfold fillAdvance; repeat' split
  all_goals simp

@[simp] theorem refreshSetpoint_sets (p b) : (refreshSetpoint p b).sets = b.sets := by
  unfold refreshSetpoint; split <;> simp

@[simp] theorem endChange_sets (p o b) : (endChange p o b).sets = b.sets := by
  unfold endChange; repeat' split
  all_goals simp

@[simp] theorem endTail_sets (p b) : (endTail p b).sets = b.sets := by
  unfold endTail; simp only; repeat' split
  all_goals simp

@[simp] theorem settleTail_sets (p b) : (settleTail p b).sets = b.sets := by
  unfold settleTail; split <;> simp

@[simp] theorem reachMark_sets (p m b) : (reachMark p m b).sets = b.sets := by simp [reachMark]

@[simp] theorem moveReader_sets (p d b) : (moveReader p d b).sets = b.sets := by
  unfold moveReader; simp only; split <;> simp

@[simp] theorem makeTail_sets (p b) : (makeTail p b).sets = b.sets := rfl

@[simp] theorem makeCut_sets (p c b) : (makeCut p c b).sets = b.sets := by
  unfold makeCut; simp only; repeat' split
  all_goals simp

@[simp] theorem cutDue_sets (p f b) : (cutDue p f b).sets = b.sets := by
  unfold cutDue; simp only; repeat' split
  all_goals simp

@[simp] theorem markSlip_sets (p b) : (markSlip p b).sets = b.sets := rfl
@[simp] theorem countSlip_sets (p b) : (countSlip p b).sets = b.sets := by simp [countSlip]

@[simp] theorem overrun_sets (p b) : (overrun p b).sets = b.sets := by
  unfold overrun; simp only [pumpReads_sets, countSlip_sets]; split <;> simp

@[simp] theorem leaveRunning_sets (p b) : (leaveRunning p b).sets = b.sets := by simp [leaveRunning]

@[simp] theorem underrun_sets (p b) : (underrun p b).sets = b.sets := by
  unfold underrun
  simp only [refreshSetpoint_sets, oweState_sets]
  rw [onProgramme_sets]
  · simp only [leaveRunning_sets, endChange_sets, onLane_sets, countSlip_sets, closeRead_sets]
  · exact fun _ => ⟨rfl, rfl⟩

@[simp] theorem enterRunning_sets (p b) : (enterRunning p b).sets = b.sets := by
  unfold enterRunning; split <;> simp

@[simp] theorem stepLoop_sets (p n b) : (stepLoop p n b).1.sets = b.sets := by
  induction n generalizing b with
  | zero => rfl
  | succ n ih => unfold stepLoop; simp only; repeat' split
                 all_goals simp [ih]

@[simp] theorem stepReader_sets (p b) : (stepReader p b).1.sets = b.sets := by simp [stepReader]

@[simp] theorem silentLane_sets (p b) : (silentLane p b).sets = b.sets := rfl

@[simp] theorem runLane_sets (p b) : (runLane p b).sets = b.sets := by
  unfold runLane
  have h := stepReader_sets p b
  split <;> (rename_i e; rw [e] at h; simpa using h)

@[simp] theorem sampleLane_sets (p b) : (sampleLane p b).sets = b.sets := by
  unfold sampleLane; simp only; repeat' split
  all_goals simp

@[simp] theorem regulateLane_sets (p b) : (regulateLane p b).sets = b.sets := by
  unfold regulateLane; simp only; repeat' split
  all_goals simp

/-! ## The write path -/

@[simp] theorem clearOverloadRuns_sets (p b) : (clearOverloadRuns p b).sets = b.sets := rfl
@[simp] theorem watchOverload_sets (p x b) : (watchOverload p x b).sets = b.sets := by simp [watchOverload]

@[simp] theorem afterWrite_sets (p b) : (afterWrite p b).sets = b.sets := by
  unfold afterWrite; simp only; repeat' split
  all_goals simp

@[simp] theorem enterQueue_sets (p x b) : (enterQueue p x b).sets = b.sets := by
  unfold enterQueue; split <;> simp

@[simp] theorem handOver_sets (p x b) : (handOver p x b).sets = b.sets := by
  unfold handOver; simp only; repeat' split
  all_goals simp

@[simp] theorem admitWaiting_sets (k n b) : (admitWaiting k n b).sets = b.sets := by
  induction n generalizing b with
  | zero => rfl
  | succ n ih => unfold admitWaiting; repeat' split
                 all_goals simp [ih]

@[simp] theorem discardHeld_sets (p b) : (discardHeld p b).sets = b.sets :=
  foldl_sets _ _ (by simp) _

@[simp] theorem deliver_sets (q : Fin 8) (x) (b : Body) : (deliver q x b).sets = b.sets :=
  eachProgramme_sets b _ (by intro p b; (repeat' split) <;> simp)

@[simp] theorem drainDone_sets (k l b) : (drainDone k l b).sets = b.sets := by simp [drainDone]

@[simp] theorem readDone_sets (k p q l w b) : (readDone k p q l w b).sets = b.sets := by
  unfold readDone; simp only [grantBank_sets]; split <;> simp

@[simp] theorem fillAccessDone_sets (k l b) : (fillAccessDone k l b).sets = b.sets := by
  unfold fillAccessDone; simp only [grantBank_sets]; split <;> simp

@[simp] theorem releaseLine_sets (p b) : (releaseLine p b).sets = b.sets := by
  unfold releaseLine
  split
  · rfl
  · simp only [grantBank_sets, admitWaiting_sets]
    rw [onProgramme_sets]
    · simp only [onBank_sets, discardHeld_sets, closeRead_sets, killAccess_sets]
    · exact fun _ => ⟨rfl, rfl⟩

/-! ## Trackers' effects on lanes, switching -/

@[simp] theorem resumeProgramme_sets (p b) : (resumeProgramme p b).sets = b.sets := by simp [resumeProgramme]

@[simp] theorem afterTracker_sets (q b) : (afterTracker q b).sets = b.sets :=
  eachProgramme_sets b _ (by intro p b; simp only; (repeat' split) <;> simp)

@[simp] theorem forcedJump_sets (p b) : (forcedJump p b).sets = b.sets := by
  unfold forcedJump; simp only; repeat' split
  all_goals simp

@[simp] theorem placeMark_sets (p s b) : (placeMark p s b).sets = b.sets := by
  unfold placeMark; simp only; repeat' split
  all_goals simp

@[simp] theorem emptyLine_sets (p b) : (emptyLine p b).sets = b.sets := rfl

@[simp] theorem switchSource_sets (p s c b) : (switchSource p s c b).sets = b.sets := by
  unfold switchSource
  extract_lets b1 b2 b3 b4 b5
  have h2 : b2.sets = b.sets := by
    rw [onProgramme_sets]
    · exact oweState_sets p c b
    · intro r; split <;> exact ⟨rfl, rfl⟩
  have h3 : b3.sets = b.sets := by
    show (if _ then _ else _ : Body).sets = _
    split <;> simp only [placeMark_sets, h2]
  have h4 : b4.sets = b.sets := by
    show (clearOverloadRuns p _).sets = _
    simp only [clearOverloadRuns_sets, onLane_sets, h3]
  (repeat' split) <;> simp only [refreshSetpoint_sets, oweState_sets, resumeProgramme_sets, emptyLine_sets,
    discardHeld_sets, h4, b5]

@[simp] theorem changeSelector_sets (p s c b) : (changeSelector p s c b).sets = b.sets := by
  unfold changeSelector; simp only; repeat' split
  all_goals simp

@[simp] theorem reconcile_sets (p b) : (reconcile p b).sets = b.sets := by
  unfold reconcile; simp only; repeat' split
  all_goals simp

@[simp] theorem takeFailover_sets (a b) : (takeFailover a b).sets = b.sets := by
  unfold takeFailover; split <;> simp

@[simp] theorem takeActions_sets (as b) : (takeActions as b).sets = b.sets :=
  foldl_sets as takeFailover takeFailover_sets b

@[simp] theorem guardStep_sets (p b) : (guardStep p b).sets = b.sets := by simp [guardStep]

@[simp] theorem applyRequested_sets (p b) : (applyRequested p b).sets = b.sets := by
  unfold applyRequested; simp only; repeat' split
  all_goals simp

@[simp] theorem revertTest_sets (p b) : (revertTest p b).sets = b.sets := by
  unfold revertTest; simp only; repeat' split
  all_goals simp

@[simp] theorem switchingWork_sets (p b) : (switchingWork p b).sets = b.sets := by
  unfold switchingWork; split <;> simp

/-! ## Meters, gain stages, output -/

@[simp] theorem sampleMeter_sets (p b) : (sampleMeter p b).sets = b.sets := by
  unfold sampleMeter; split <;> simp

@[simp] theorem raiseRequest_sets (p b) : (raiseRequest p b).sets = b.sets := by
  unfold raiseRequest; split <;> simp

@[simp] theorem startSweeps_sets (n b) : (startSweeps n b).sets = b.sets := by
  induction n generalizing b with
  | zero => rfl
  | succ n ih => unfold startSweeps; simp only; repeat' split
                 all_goals simp [ih]

@[simp] theorem nextSweep_sets (b) : (nextSweep b).sets = b.sets := startSweeps_sets _ b

@[simp] theorem endSweep_sets (w b) : (endSweep w b).sets = b.sets := by simp [endSweep]

@[simp] theorem visitBin_sets (w b) : (visitBin w b).sets = b.sets := by
  unfold visitBin; simp only; repeat' split
  all_goals simp

@[simp] theorem sweepVisitWork_sets (b) : (sweepVisitWork b).sets = b.sets := by
  unfold sweepVisitWork; repeat' split
  all_goals simp

@[simp] theorem offerBlock_sets (p k b) : (offerBlock p k b).sets = b.sets := by
  unfold offerBlock; repeat' split
  all_goals simp

@[simp] theorem dropSweep_sets (p b) : (dropSweep p b).sets = b.sets := by simp [dropSweep]

@[simp] theorem endResets_sets (p d o b) : (endResets p d o b).sets = b.sets := by
  unfold endResets
  split
  · rfl
  · rename_i d
    simp only
    have h : (d.tags.foldl (fun b t => completeTag t o [] b) b).sets = b.sets :=
      foldl_sets d.tags (fun t b => completeTag t o [] b) (by simp) b
    split <;> simp [h]

@[simp] theorem applyReset_sets (p b) : (applyReset p b).sets = b.sets := by
  unfold applyReset; simp only; split <;> simp

@[simp] theorem clearMeter_sets (p b) : (clearMeter p b).sets = b.sets := by
  unfold clearMeter; simp only [endResets_sets, dropSweep_sets, setMeter_sets]

@[simp] theorem riderDecision_sets (p s d b) : (riderDecision p s d b).sets = b.sets := by
  unfold riderDecision; repeat' split
  all_goals simp

@[simp] theorem drawStepEnergy_sets (l m b) : (drawStepEnergy l m b).2.sets = b.sets := by
  unfold drawStepEnergy; split <;> simp

@[simp] theorem closeStep_sets (p l b) : (closeStep p l b).sets = b.sets := by simp [closeStep]

@[simp] theorem meterBoundary_sets (p b) : (meterBoundary p b).sets = b.sets := by
  unfold meterBoundary; simp only; repeat' split
  all_goals simp

@[simp] theorem sampleGain_sets (p b) : (sampleGain p b).sets = b.sets := by
  unfold sampleGain; simp only; split <;> simp

@[simp] theorem rampEndWork_sets (p b) : (rampEndWork p b).sets = b.sets := rfl
@[simp] theorem assemble_sets (b) : (assemble b).sets = b.sets := rfl
@[simp] theorem reformMap_sets (b) : (reformMap b).sets = b.sets := rfl

@[simp] theorem samplePipeline_sets (b) : (samplePipeline b).sets = b.sets := by
  simp only [samplePipeline, assemble_sets]
  exact eachProgramme_sets b _ (by simp)

/-! ## The programme table -/

@[simp] theorem endDelayWrite_sets (p n o b) : (endDelayWrite p n o b).sets = b.sets := by
  unfold endDelayWrite; split <;> simp

@[simp] theorem beginChange_sets (p n o f b) : (beginChange p n o f b).sets = b.sets := by
  unfold beginChange; simp only; repeat' split
  all_goals simp

@[simp] theorem commitDelay_sets (p x n o f b) : (commitDelay p x n o f b).sets = b.sets := by
  unfold commitDelay; repeat' split
  all_goals simp

@[simp] theorem allocate_sets (t p n b) : (allocate t p n b).sets = b.sets := by
  unfold allocate; split <;> simp

@[simp] theorem startProgramme_sets (p b) : (startProgramme p b).sets = b.sets := by
  unfold startProgramme; split <;> simp

@[simp] theorem abandonChange_sets (p b) : (abandonChange p b).sets = b.sets := by simp [abandonChange]
@[simp] theorem parkProgramme_sets (p b) : (parkProgramme p b).sets = b.sets := by
  unfold parkProgramme
  simp only
  rw [onProgramme_sets]
  · simp only [onMeter_sets, leaveRunning_sets, onLane_sets, discardHeld_sets, closeRead_sets, abandonChange_sets]
  · exact fun _ => ⟨rfl, rfl⟩

@[simp] theorem releaseProgramme_sets (p b) : (releaseProgramme p b).sets = b.sets := by
  unfold releaseProgramme
  simp only
  rw [onProgramme_sets]
  · rw [releaseLine_sets]; split <;> simp only [completeSubject_sets]
  · exact fun _ => ⟨rfl, rfl⟩

@[simp] theorem integrateNow_sets (p a b) : (integrateNow p a b).sets = b.sets := rfl

end Sys2Proof.Machine
end

