-- ==== Sys2Proof/Laws/Boundary.lean ====
section
/-! SUPPORT. What the pieces of a frame boundary can do: to house timing, ports, scene store, contacts, settings sets. -/

namespace Sys2Proof.Machine

/-! ## Reading equal fixed parts -/

theorem fixed_timing {b c : Body} (h : c.fixed = b.fixed) : c.timing = b.timing := (congrArg Fixed.timing h :)
theorem fixed_ports {b c : Body} (h : c.fixed = b.fixed) : c.ports = b.ports := (congrArg Fixed.ports h :)
theorem fixed_entries {b c : Body} (h : c.fixed = b.fixed) : c.entries = b.entries := (congrArg Fixed.entries h :)
theorem fixed_contacts {b c : Body} (h : c.fixed = b.fixed) : c.contacts = b.contacts := (congrArg Fixed.contacts h :)
theorem fixed_scenes {b c : Body} (h : c.fixed = b.fixed) : c.scenes = b.scenes := (congrArg Fixed.scenes h :)
theorem fixed_sequencer {b c : Body} (h : c.fixed = b.fixed) : c.sequencer = b.sequencer := (congrArg Fixed.sequencer h :)

/-! ## Contacts -/

/-- Whether a contact closes does not depend on the reports owed. -/
theorem contactCloses_quiet (es : List Entry) (k : Fin 8) (m : ContactMode) :
    contactCloses (es.map fun e => { e with reportOwed := false }) k m = contactCloses es k m := by
  cases m <;> simp [contactCloses, List.any_map, Function.comp_def]

theorem contactsRight_quiet (b : Body) : contactsRight b.quiet ↔ contactsRight b := by
  have h : b.quiet.entries.toList = b.entries.toList.map fun e => { e with reportOwed := false } := by
    simp [Body.quiet, Vector.toList]
  simp only [contactsRight, h, contactCloses_quiet]
  rfl

theorem contactsRight_congr {b c : Body} (he : c.entries = b.entries) (hc : c.contacts = b.contacts) :
    contactsRight c ↔ contactsRight b := by simp only [contactsRight, he, hc]

theorem contactsRight_fixed {b c : Body} (h : c.fixed = b.fixed) : contactsRight c ↔ contactsRight b :=
  contactsRight_congr (fixed_entries h) (fixed_contacts h)

/-- Recomputed contacts stand as R151 says. -/
theorem contactsRight_recompute (b : Body) : contactsRight (recomputeContacts b) := by
  intro k; simp [recomputeContacts]

@[simp] theorem recomputeContacts_sets (b : Body) : (recomputeContacts b).sets = b.sets := rfl

/-! ## The marks of the boundary in progress -/

@[simp] theorem mark_timing (f : Boundary → Boundary) (b : Body) :
    (mark f b).timing = { b.timing with boundary := b.timing.boundary.map f } := rfl
@[simp] theorem mark_ports (f : Boundary → Boundary) (b : Body) : (mark f b).ports = b.ports := rfl
@[simp] theorem mark_scenes (f : Boundary → Boundary) (b : Body) : (mark f b).scenes = b.scenes := rfl
@[simp] theorem mark_entries (f : Boundary → Boundary) (b : Body) : (mark f b).entries = b.entries := rfl
@[simp] theorem mark_contacts (f : Boundary → Boundary) (b : Body) : (mark f b).contacts = b.contacts := rfl
@[simp] theorem mark_sequencer (f : Boundary → Boundary) (b : Body) : (mark f b).sequencer = b.sequencer := rfl
@[simp] theorem mark_sets (f : Boundary → Boundary) (b : Body) : (mark f b).sets = b.sets := rfl
@[simp] theorem enterBoundary_sets (d : Boundary) (b : Body) : (enterBoundary d b).sets = b.sets := rfl
@[simp] theorem enterBoundary_timing (d : Boundary) (b : Body) :
    (enterBoundary d b).timing = { b.timing with frameCounter := d.frame } := rfl

/-! ## Commits and the sets -/

/-- A commit makes the pending set the active one, and touches no other programme's sets. -/
theorem commitSet_sets {b : Body} {p : Fin 16} {f : Count} {w : Pending} {old : Settings}
    (hp : (b.programme p).pending = some w) (ha : (b.programme p).active = some old) :
    (commitSet p f b).sets = b.sets.set p (some w.settings, none) := by
  unfold commitSet
  simp only [hp, ha, reconcile_sets, commitDelay_sets]
  have h : (b.onProgramme p fun r => { r with active := some w.settings, pending := none }).sets =
      b.sets.set p (some w.settings, none) := by simp
  (repeat' split) <;> simp only [reformMap_sets, onMeter_sets, onGain_sets, h]

theorem ownedBy_iff (b : Body) (o : Owner) (p : Fin 16) :
    ownedBy b o p = true ↔ ∃ w, (b.programme p).pending = some w ∧ w.owner = o := by
  simp [ownedBy, Option.any_eq_true]

/-- Where nothing is pending of DIRECT, a direct commit does nothing. -/
theorem commitDirect_none {b : Body} {p : Fin 16} {f : Count} (h : ownedBy b .direct p = false) :
    commitDirect p f b = b := by simp [commitDirect, h]

/-- A commit leaves the sets of every other programme. -/
theorem commitSet_sets_other (b : Body) (p o : Fin 16) (f : Count) (h : o ≠ p) : (commitSet p f b).sets[o] = b.sets[o] := by
  cases hp : (b.programme p).pending with
  | none => unfold commitSet; simp [hp]
  | some w =>
    cases ha : (b.programme p).active with
    | none => unfold commitSet; simp [hp, ha]
    | some old =>
      rw [commitSet_sets hp ha, Fin.getElem_fin, Vector.getElem_set_ne]
      · rfl
      · exact fun e => h (Fin.ext e.symm)

theorem commitDirect_sets_other (b : Body) (p o : Fin 16) (f : Count) (h : o ≠ p) :
    (commitDirect p f b).sets[o] = b.sets[o] := by
  unfold commitDirect; split
  · exact commitSet_sets_other b p o f h
  · rfl

/-! ## The sequencer's part of a boundary -/

/-- Timing, ports and scene store stay, and contacts that stood right still do. -/
def Calm (b c : Body) : Prop :=
  c.timing = b.timing ∧ c.ports = b.ports ∧ c.scenes = b.scenes ∧ (contactsRight b → contactsRight c)

theorem Calm.refl (b : Body) : Calm b b := ⟨rfl, rfl, rfl, id⟩

theorem Calm.trans {b c d : Body} (h : Calm b c) (k : Calm c d) : Calm b d :=
  ⟨k.1.trans h.1, k.2.1.trans h.2.1, k.2.2.1.trans h.2.2.1, fun x => k.2.2.2 (h.2.2.2 x)⟩

theorem Calm.of_fixed {b c : Body} (h : c.fixed = b.fixed) : Calm b c :=
  ⟨fixed_timing h, fixed_ports h, fixed_scenes h, (contactsRight_fixed h).2⟩

theorem Calm.onSequencer (b : Body) (f : Sequencer → Sequencer) : Calm b (b.onSequencer f) := ⟨rfl, rfl, rfl, id⟩

theorem Calm.foldl {α : Type} (l : List α) (f : Body → α → Body) (h : ∀ b a, Calm b (f b a)) (b : Body) :
    Calm b (l.foldl f b) := by
  induction l generalizing b with
  | nil => exact Calm.refl b
  | cons a l ih => exact (h b a).trans (ih (f b a))

theorem configureEntry_calm (e : Fin 154) (f : AlarmFields) (n : Count) (b : Body) : Calm b (configureEntry e f n b) :=
  ⟨rfl, rfl, rfl, fun _ => contactsRight_recompute _⟩

theorem applyCommitItem_calm (n : Count) (i : CommitItem) (b : Body) : Calm b (applyCommitItem n i b).2 := by
  cases i with
  | alarmcfg e f => exact configureEntry_calm e f n b
  | integrate p a =>
    unfold applyCommitItem
    simp only
    split
    · exact Calm.onSequencer b _
    · split <;> exact ⟨rfl, rfl, rfl, id⟩

theorem applyCommitList_calm (n : Count) (is : List CommitItem) (b : Body) : Calm b (applyCommitList n is b).2 := by
  induction is generalizing b with
  | nil => exact Calm.refl b
  | cons i is ih => exact (applyCommitItem_calm n i b).trans (ih _)

theorem endTake_calm (o : OpOutcome) (n : Count) (b : Body) : Calm b (endTake o n b) := by
  unfold endTake
  simp only
  refine Calm.trans ?_ (Calm.onSequencer _ _)
  split
  · exact Calm.of_fixed (completeTag_fixed _ _ _ _)
  · exact Calm.refl b

theorem abandonTake_calm (n : Count) (b : Body) : Calm b (abandonTake n b) :=
  (Calm.of_fixed (eachProgramme_fixed b _ discardScene_fixed)).trans (endTake_calm _ _ _)

theorem commitSegment_calm (n : Count) (b : Body) : Calm b (commitSegment n b) := by
  unfold commitSegment
  simp only
  have h1 : Calm b ((programmeIds.filter (ownedBy b .scene)).foldl (fun b p => commitSet p n b) b) :=
    Calm.foldl _ _ (fun b p => Calm.of_fixed (commitSet_fixed p n b)) b
  have h2 : ∀ c, Calm c (afterCommit n c) := by
    intro c
    unfold afterCommit
    split
    · exact endTake_calm _ _ _
    · exact Calm.onSequencer _ _
    · exact Calm.onSequencer _ _
  refine Calm.trans (h1.trans (applyCommitList_calm n b.sequencer.commitList _)) ?_
  exact Calm.trans (Calm.onSequencer _ _) (h2 _)

theorem sequencerStep_calm (n : Count) (b : Body) : Calm b (sequencerStep n b) := by
  unfold sequencerStep
  simp only
  split
  · split <;> exact ⟨rfl, rfl, rfl, id⟩
  · exact commitSegment_calm n b
  · split <;> exact ⟨rfl, rfl, rfl, id⟩
  · split
    · split
      · exact abandonTake_calm n b
      · exact ⟨rfl, rfl, rfl, id⟩
    · exact Calm.refl b
  · exact Calm.refl b
  · exact Calm.refl b

/-! ## The sequencer and the sets -/

/-- A set owned by the scene is discarded. -/
theorem discardScene_sets {b : Body} {o : Fin 16} (h : ownedBy b .scene o = true) :
    (discardScene o b).sets = b.sets.set o ((b.programme o).active, none) := by
  have key : ∀ c : Body, c.sets = b.sets →
      (c.onProgramme o fun r => { r with pending := none }).sets = b.sets.set o ((b.programme o).active, none) := by
    intro c hc
    rw [Body.onProgramme_eq, setProgramme_sets, hc, (sets_programme hc o).1]
  unfold discardScene
  rw [if_pos h]
  simp only
  apply key
  split <;> rfl

/-- A set owned by DIRECT, or none at all, is left by the sequencer's part of a boundary. -/
theorem sequencerStep_sets (n : Count) (b : Body) (p : Fin 16) (h : ownedBy b .scene p = false) :
    (sequencerStep n b).sets[p] = b.sets[p] := by
  have hown : ∀ (b : Body), ownedBy b .scene p = (b.sets[p].2.any fun w => w.owner = .scene) := by
    intro b; rw [sets_get]; rfl
  have endT : ∀ o b, (endTake o n b).sets = b.sets := by
    intro o b; unfold endTake; simp only
    show (Body.onSequencer _ _).sets = _
    split <;> rfl
  have disc : ∀ o (b : Body), (b.sets[p].2.any fun w => w.owner = .scene) = false →
      (discardScene o b).sets[p] = b.sets[p] := by
    intro o b hb
    by_cases ho : ownedBy b .scene o = true
    · have hne : o ≠ p := by rintro rfl; rw [hown, hb] at ho; cases ho
      rw [discardScene_sets ho, Fin.getElem_fin, Vector.getElem_set_ne]
      · rfl
      · exact fun e => hne (Fin.ext e)
    · simp [discardScene, ho]
  have abandon : ∀ (b : Body), (b.sets[p].2.any fun w => w.owner = .scene) = false →
      (abandonTake n b).sets[p] = b.sets[p] := by
    intro b hb
    unfold abandonTake
    rw [endT]
    unfold Body.eachProgramme
    generalize programmeIds = l
    induction l generalizing b with
    | nil => rfl
    | cons o l ih =>
      have h1 := disc o b hb
      rw [List.foldl_cons, ih _ (by rw [h1]; exact hb), h1]
  have commit : (commitSegment n b).sets[p] = b.sets[p] := by
    unfold commitSegment
    simp only
    have after : ∀ b : Body, (afterCommit n b).sets = b.sets := by
      intro b; unfold afterCommit; split
      · exact endT _ _
      · rfl
      · rfl
    have items : ∀ is (b : Body), (applyCommitList n is b).2.sets = b.sets := by
      intro is
      induction is with
      | nil => intro b; rfl
      | cons i is ih =>
        intro b
        refine (ih _).trans ?_
        cases i with
        | alarmcfg e f => rfl
        | integrate p a => unfold applyCommitItem; simp only; split <;> (try rfl); split <;> rfl
    rw [after]
    show (applyCommitList n _ _).2.sets[p] = _
    rw [items]
    have hl : ∀ (l : List (Fin 16)) (b : Body), p ∉ l → (l.foldl (fun b p => commitSet p n b) b).sets[p] = b.sets[p] := by
      intro l
      induction l with
      | nil => intro b _; rfl
      | cons o l ih =>
        intro b hn
        rw [List.foldl_cons, ih _ (fun x => hn (List.mem_cons_of_mem _ x))]
        exact commitSet_sets_other b o p n (fun e => hn (by simp [e]))
    exact hl _ b (by simp [h])
  unfold sequencerStep
  simp only
  split
  · split <;> rfl
  · exact commit
  · split <;> rfl
  · split
    · split
      · exact abandon b (by rw [← hown]; exact h)
      · rfl
    · rfl
  · rfl
  · rfl

/-! ## The evaluation -/

/-- Evaluating entries changes entries alone. -/
theorem evaluateEntries_spec (n : Count) (es : List (Fin 154)) (b : Body) :
    (evaluateEntries n es b).1.timing = b.timing ∧ (evaluateEntries n es b).1.ports = b.ports ∧
      (evaluateEntries n es b).1.scenes = b.scenes ∧ (evaluateEntries n es b).1.sets = b.sets := by
  induction es generalizing b with
  | nil => exact ⟨rfl, rfl, rfl, rfl⟩
  | cons e es ih =>
    unfold evaluateEntries
    simp only
    obtain ⟨h1, h2, h3, h4⟩ := ih (evaluateEntry n e b).1
    rw [h1, h2, h3, h4]
    unfold evaluateEntry
    simp only
    split <;> exact ⟨rfl, rfl, rfl, rfl⟩

/-- Clearing the seen flags leaves the sets. -/
theorem clearSeen_sets (done : List (Fin 154)) (b : Body) : (clearSeen done b).sets = b.sets := by
  apply Vector.ext
  intro i hi
  simp [Body.sets, clearSeen, Body.programme]

/-- The evaluation of a boundary: timing, scene store and sets stay, a JUMP seen is cleared but where it came after an
early evaluation of its entry, the contacts are right. -/
theorem evaluate_spec (d : Boundary) (b : Body) :
    (evaluate d b).timing = b.timing ∧ (evaluate d b).scenes = b.scenes ∧ (evaluate d b).sets = b.sets ∧
      (∀ q : Fin 8, (evaluate d b).port q = { b.port q with tracker := { (b.port q).tracker with
        jumpSeen := (b.port q).tracker.jumpSeen && d.evaluated.contains (portEntry q 2) } }) ∧
      contactsRight (evaluate d b) := by
  unfold evaluate
  simp only
  obtain ⟨h1, h2, h3, h4⟩ := evaluateEntries_spec d.frame (entryIds.filter fun e => !d.evaluated.contains e) b
  generalize evaluateEntries d.frame (entryIds.filter fun e => !d.evaluated.contains e) b = x at *
  have hf := takeActions_fixed (d.actions ++ x.2) (clearSeen d.evaluated x.1)
  have hs := takeActions_sets (d.actions ++ x.2) (clearSeen d.evaluated x.1)
  refine ⟨(fixed_timing hf).trans h1, (fixed_scenes hf).trans h3, ?_, ?_, contactsRight_recompute _⟩
  · rw [recomputeContacts_sets, hs, clearSeen_sets, ← h4]
  · intro q
    have e : (clearSeen d.evaluated x.1).port q = { x.1.port q with tracker := { (x.1.port q).tracker with
        jumpSeen := (x.1.port q).tracker.jumpSeen && d.evaluated.contains (portEntry q 2) } } := by
      simp [clearSeen, Body.port]
    have hp : x.1.port q = b.port q := by simp [Body.port, h2]
    rw [← hp, ← e]
    exact congrArg (fun v : Vector Port 8 => v[q]) (fixed_ports hf : _ = (clearSeen d.evaluated x.1).ports)

end Sys2Proof.Machine
end

