-- ==== Sys2Proof/Laws/Due.lean ====
section
/-! SUPPORT. A report that is due stays due, or enters the outgoing queue, whatever is placed at the end of an event. -/

namespace Sys2Proof.Machine

/-- What a class's report leaves of the sequencer's owed reports: all of them, or all but the first, which it places. -/
theorem classReport_sequencer {s t : State} {m : Message} {c : OwnerClass} (h : classReport s c = some (m, t)) :
    t.body.sequencer.owed = s.body.sequencer.owed ∨
      ∃ r, s.body.sequencer.owed = r :: t.body.sequencer.owed ∧ m = sequencerMessage r := by
  cases c
  · cases h
  · left
    simp only [classReport, completionReport] at h
    split at h
    · cases h; rfl
    · rw [Option.map_eq_some_iff] at h; obtain ⟨x, _, hx⟩ := h; cases hx; rfl
  · left
    simp only [classReport, alarmReport, Option.map_eq_some_iff] at h
    obtain ⟨e, _, hx⟩ := h; cases hx; rfl
  · left
    simp only [classReport, stateReport] at h
    obtain ⟨p, _, hp⟩ := List.exists_of_findSome?_eq_some h
    rw [Option.map_eq_some_iff] at hp; obtain ⟨x, _, hx⟩ := hp; cases hx; rfl
  · simp only [classReport, sceneReport] at h
    split at h
    · rename_i r rest hr
      cases h; exact Or.inr ⟨r, hr, rfl⟩
    · left
      rw [Option.or_eq_some_iff] at h
      rcases h with h | ⟨_, h⟩ <;>
      · first | unfold laneReport at h | unfold meterReport at h
        obtain ⟨p, _, hp⟩ := List.exists_of_findSome?_eq_some h
        rw [Option.map_eq_some_iff] at hp; obtain ⟨x, _, hx⟩ := hp; cases hx; rfl
  · left
    simp only [classReport, lineReport] at h
    split at h <;> (cases h; try rfl)

theorem placeOne_classReport {s t : State} (h : placeOne s = some t) :
    ∃ c m u, classReport s c = some (m, u) ∧ t = putMessage c m u := by
  unfold placeOne at h
  split at h
  · cases h
  · obtain ⟨c, _, hc⟩ := List.exists_of_findSome?_eq_some h
    rw [Option.map_eq_some_iff] at hc
    obtain ⟨x, hx, rfl⟩ := hc
    exact ⟨c, x.1, x.2, hx, rfl⟩

theorem putMessage_queue (c : OwnerClass) (m : Message) (s : State) : (putMessage c m s).tx.queue = s.tx.queue ++ [m] := rfl

theorem placeOne_sceneDue {s t : State} {r : SceneReport} (h : placeOne s = some t) (hd : SceneReportDue r s) :
    SceneReportDue r t := by
  obtain ⟨c, m, u, hc, rfl⟩ := placeOne_classReport h
  have hq := (classReport_same hc).2.2.2.1
  have hs := classReport_sequencer hc
  simp only [SceneReportDue, putMessage_queue, hq, List.mem_append, List.mem_singleton] at hd ⊢
  rcases hd with hd | hd
  · rcases hs with hs | ⟨r', hs, hm⟩
    · left; rw [show (putMessage c m u).body = u.body from rfl, hs]; exact hd
    · rw [hs, List.mem_cons] at hd
      rcases hd with rfl | hd
      · exact Or.inr (Or.inr hm.symm)
      · exact Or.inl hd
  · exact Or.inr (Or.inl hd)

/-- A SCENE report that is due is due after the reports are placed. -/
theorem placeReports_sceneDue {s : State} {r : SceneReport} (hd : SceneReportDue r s) :
    SceneReportDue r (placeReports s) := by
  have loop : ∀ n (s : State), SceneReportDue r s → SceneReportDue r (placeLoop n s) := by
    intro n
    induction n with
    | zero => intro s h; exact h
    | succ n ih =>
      intro s h
      unfold placeLoop
      split
      · exact h
      · rename_i t ht; exact ih t (placeOne_sceneDue ht h)
  exact loop _ (syncCompletions s) hd

/-- What a class's report leaves of the deferred table: all of it, or all but the operation it reports. -/
theorem classReport_deferred {s t : State} {m : Message} {c : OwnerClass} (h : classReport s c = some (m, t)) :
    t.body.line.deferred = s.body.line.deferred ∨
      ∃ d ∈ s.body.line.deferred, ∃ x, d.complete = some x ∧ m = completionMessage d x.1 x.2 ∧
        t.body.line.deferred = s.body.line.deferred.filter fun y => !(y.tag == d.tag && y.complete.isSome) := by
  cases c
  · cases h
  · simp only [classReport, completionReport] at h
    split at h
    · left; cases h; rfl
    · rw [Option.map_eq_some_iff] at h
      obtain ⟨x, hx, he⟩ := h
      cases he
      unfold completionOf at hx
      split at hx
      · cases hx
      · split at hx
        · rename_i tag rest _ d hd
          rw [Option.map_eq_some_iff] at hx
          obtain ⟨c, hc, he⟩ := hx
          cases he
          have hp := List.find?_some hd
          simp only [Bool.and_eq_true, decide_eq_true_eq] at hp
          obtain ⟨rfl, _⟩ := hp
          exact Or.inr ⟨d, List.mem_of_find?_eq_some hd, c, hc, rfl, rfl⟩
        · cases hx
  · left
    simp only [classReport, alarmReport, Option.map_eq_some_iff] at h
    obtain ⟨e, _, hx⟩ := h; cases hx; rfl
  · left
    simp only [classReport, stateReport] at h
    obtain ⟨p, _, hp⟩ := List.exists_of_findSome?_eq_some h
    rw [Option.map_eq_some_iff] at hp; obtain ⟨x, _, hx⟩ := hp; cases hx; rfl
  · left
    simp only [classReport, sceneReport] at h
    split at h
    · cases h; rfl
    · rw [Option.or_eq_some_iff] at h
      rcases h with h | ⟨_, h⟩ <;>
      · first | unfold laneReport at h | unfold meterReport at h
        obtain ⟨p, _, hp⟩ := List.exists_of_findSome?_eq_some h
        rw [Option.map_eq_some_iff] at hp; obtain ⟨x, _, hx⟩ := hp; cases hx; rfl
  · left
    simp only [classReport, lineReport] at h
    split at h <;> (cases h; try rfl)

/-- Entries of one tag in a table without two of one tag are one entry. -/
theorem same_of_tag {l : List Deferred} (hn : (l.map Deferred.tag).Nodup) {d e : Deferred} (hd : d ∈ l) (he : e ∈ l)
    (ht : d.tag = e.tag) : d = e := by
  induction l with
  | nil => cases hd
  | cons a l ih =>
    simp only [List.map_cons, List.nodup_cons, List.mem_map, not_exists, not_and] at hn
    rcases List.mem_cons.1 hd with rfl | h1 <;> rcases List.mem_cons.1 he with rfl | h2
    · rfl
    · exact absurd ht.symm (hn.1 e h2)
    · exact absurd ht (hn.1 d h1)
    · exact ih hn.2 h1 h2

theorem placeOne_completionDue {s t : State} {d : Deferred} {o : OpOutcome} {data : List Field} (h : placeOne s = some t)
    (hn : (s.body.line.deferred.map Deferred.tag).Nodup) (hd : CompletionDue d o data s) :
    (t.body.line.deferred.map Deferred.tag).Nodup ∧ CompletionDue d o data t := by
  obtain ⟨c, m, u, hc, rfl⟩ := placeOne_classReport h
  have hq := (classReport_same hc).2.2.2.1
  have hs := classReport_deferred hc
  have hb : (putMessage c m u).body = u.body := rfl
  simp only [CompletionDue, putMessage_queue, hq, hb, List.mem_append, List.mem_singleton] at hd ⊢
  rcases hs with hs | ⟨e, he, x, hx, hm, hs⟩
  · rw [hs]
    exact ⟨hn, hd.imp id Or.inl⟩
  · rw [hs]
    refine ⟨(List.filter_sublist.map _).nodup hn, ?_⟩
    rcases hd with hd | hd
    · by_cases ht : d.tag = e.tag
      · have := same_of_tag hn hd he ht
        subst this
        cases hx
        exact Or.inr (Or.inr hm.symm)
      · left
        rw [List.mem_filter]
        exact ⟨hd, by simp [ht]⟩
    · exact Or.inr (Or.inl hd)

/-- A COMPLETION report that is due is due after the reports are placed. -/
theorem placeReports_completionDue {s : State} {d : Deferred} {o : OpOutcome} {data : List Field}
    (hn : (s.body.line.deferred.map Deferred.tag).Nodup) (hd : CompletionDue d o data s) :
    CompletionDue d o data (placeReports s) := by
  have loop : ∀ n (s : State), (s.body.line.deferred.map Deferred.tag).Nodup → CompletionDue d o data s →
      CompletionDue d o data (placeLoop n s) := by
    intro n
    induction n with
    | zero => intro s _ h; exact h
    | succ n ih =>
      intro s hn h
      unfold placeLoop
      split
      · exact h
      · rename_i t ht
        obtain ⟨h1, h2⟩ := placeOne_completionDue ht hn h
        exact ih t h1 h2
  exact loop _ (syncCompletions s) hn hd

/-! ## Ending an operation -/

theorem completeTag_tags (tag : Byte) (o : OpOutcome) (data : List Field) (b : Body) :
    ((completeTag tag o data b).line.deferred.map Deferred.tag) = b.line.deferred.map Deferred.tag := by
  simp only [completeTag, Body.onLine, List.map_map]
  apply List.map_congr_left
  intro d _
  simp only [Function.comp]
  split <;> rfl

/-- The operation of a tag in flight is complete after it is ended. -/
theorem completeTag_mem {tag : Byte} {o : OpOutcome} {data : List Field} {b : Body} {d : Deferred}
    (hd : d ∈ b.line.deferred) (hc : d.complete = none) (ht : d.tag = tag) :
    { d with complete := some (o, data) } ∈ (completeTag tag o data b).line.deferred := by
  simp only [completeTag, Body.onLine, List.mem_map]
  exact ⟨d, hd, by simp [hc, ht]⟩

/-- Ending a tag leaves the entries of other tags, and those that are complete. -/
theorem completeTag_other {tag : Byte} {o : OpOutcome} {data : List Field} {b : Body} {d : Deferred}
    (hd : d ∈ b.line.deferred) (h : d.tag ≠ tag ∨ d.complete ≠ none) : d ∈ (completeTag tag o data b).line.deferred := by
  simp only [completeTag, Body.onLine, List.mem_map]
  refine ⟨d, hd, ?_⟩
  rw [if_neg]
  rintro ⟨h1, h2⟩
  rcases h with h | h
  · exact h h1
  · exact h h2

/-- The operations in flight after a tag is ended. -/
theorem completeTag_inFlight (tag : Byte) (o : OpOutcome) (data : List Field) (b : Body) :
    ((completeTag tag o data b).line.deferred.filter fun d => d.complete.isNone) =
      b.line.deferred.filter fun d => d.complete.isNone && d.tag != tag := by
  simp only [completeTag, Body.onLine]
  generalize b.line.deferred = l
  induction l with
  | nil => rfl
  | cons d l ih =>
    simp only [List.map_cons, List.filter_cons, ih]
    by_cases ht : d.tag = tag <;> by_cases hc : d.complete = none <;> simp [ht, hc]

/-- Ending a tag, but for what is owed: its operation is no longer in flight. -/
theorem completeTag_quiet (b : Body) (tag : Byte) (o : OpOutcome) (d : List Field) :
    (completeTag tag o d b).quiet =
      ({ b with line := { b.line with deferred := b.line.deferred.filter fun d => d.tag != tag } } : Body).quiet := by
  have h := completeTag_inFlight tag o d b
  simp only [Body.quiet, completeTag, Body.onLine, List.filter_filter] at h ⊢
  simp only [h]

/-! ## Requests with the line free -/

/-- A request taken at once, where what its function gives is known but for what is owed. -/
theorem request_quiet {tag : Byte} {r : Request} {s : State} {f : Body → Answer × Body} {a : Answer} {b c : Body}
    (h : LineFree s) (hf : carryOut tag r s = onBlocks f s) (hr : f s.body = (a, c)) (hq : c.quiet = b.quiet) :
    Answers s (a.message r.kind tag) (arriveRequest tag r s) ∧ Becomes s b (arriveRequest tag r s) := by
  obtain ⟨h1, h2⟩ := request_result h hf hr
  exact ⟨h2, h1.1, h1.2.trans hq⟩

/-- A completion that the request's function makes due is due after the event. -/
theorem request_completionDue {tag : Byte} {r : Request} {s : State} {f : Body → Answer × Body} {a : Answer} {c : Body}
    {d : Deferred} {o : OpOutcome} {data : List Field}
    (h : LineFree s) (hf : carryOut tag r s = onBlocks f s) (hr : f s.body = (a, c))
    (hn : (c.line.deferred.map Deferred.tag).Nodup) (hd : { d with complete := some (o, data) } ∈ c.line.deferred) :
    CompletionDue d o data (arriveRequest tag r s) := by
  rw [arriveRequest_free tag r h, hf]
  refine placeReports_completionDue ?_ (Or.inl ?_)
  · simpa [putMessage, onBlocks, hr] using hn
  · simpa [putMessage, onBlocks, hr] using hd

end Sys2Proof.Machine
end

