-- ==== Sys2Proof/Laws/Line.lean ====
section
/-! SUPPORT. Bits on the wires: a byte sent on the control line is the byte received, ten bit times each (R174, R175), and a
port frame sent as an output port sends it is the frame an ingest port reads (R35, R134). -/

namespace Sys2Proof.Machine

@[simp] theorem byteBits_length (v : Byte) : (byteBits v).length = 10 := rfl

@[simp] theorem bitsByte_getLsbD (v : Byte) : bitsByte ((List.range 8).map fun i => v.getLsbD i) = v := by
  obtain ⟨x⟩ := v
  revert x
  decide +kernel

/-- What the line carries for a byte is received as that byte. -/
@[simp] theorem lineEvent_byteBits (v : Byte) : lineEvent (byteBits v) = some (.byteReceived v) := by
  have h : (byteBits v).all (!·) = false := by simp [byteBits]
  unfold lineEvent
  rw [if_neg (by simp [h])]
  exact congrArg (fun b => some (Instr.byteReceived b)) (bitsByte_getLsbD v)

/-- A byte whose stop bit is found low is a FRAMING fault, whatever its data bits. -/
theorem lineEvent_low_stop {ds : List Bool} (h : ds.length = 8) :
    lineEvent (false :: ds ++ [false]) = some (.receiveFault .framing) := by
  obtain ⟨a, b, c, d, e, f, g, i, rfl⟩ : ∃ a b c d e f g i, ds = [a, b, c, d, e, f, g, i] := by
    match ds, h with
    | [a, b, c, d, e, f, g, i], _ => exact ⟨a, b, c, d, e, f, g, i, rfl⟩
  unfold lineEvent
  simp

/-- A message takes ten bit times for each byte of its frame, for no gap lies between them. -/
theorem Message.bits_length (m : Message) : m.bits.length = 10 * m.frame.length := by
  simp [Message.bits, List.length_flatMap, Nat.mul_comm]

/-! ## Port frames -/

/-- The bits of a sample from the most significant on, read back as far as `k` of them. -/
theorem foldl_high_bits (x : Sample) (k : Nat) (h : k ≤ 24) :
    ((List.range k).map fun i => x.getLsbD (23 - i)).foldl (fun n d => 2 * n + d.toNat) 0 = x.toNat / 2 ^ (24 - k) := by
  induction k with
  | zero => simp [Nat.div_eq_of_lt x.isLt]
  | succ k ih =>
    have hp : 2 ^ (24 - k) = 2 ^ (24 - (k + 1)) * 2 := by rw [← Nat.pow_succ]; congr 1; omega
    have hb : (x.getLsbD (23 - k)).toNat = x.toNat / 2 ^ (24 - (k + 1)) % 2 := by
      rw [show 23 - k = 24 - (k + 1) by omega, BitVec.getLsbD, Nat.toNat_testBit]
    rw [List.range_succ, List.map_append, List.foldl_append, ih (by omega), hp, ← Nat.div_div_eq_div_mul]
    simp only [List.map_cons, List.map_nil, List.foldl_cons, List.foldl_nil, hb]
    omega

/-- A slot reads back the sample it was sent with. -/
@[simp] theorem slotSample_slotBits (x : Sample) : slotSample (slotBits x) = x := by
  have h := foldl_high_bits x 24 (Nat.le_refl _)
  unfold slotSample slotBits
  rw [List.take_left' (by simp), h]
  simp

/-- Nothing after the first 24 bit clocks of a slot is read (R35). -/
theorem slotSample_append {bits : List Bool} (rest : List Bool) (h : bits.length = 24) :
    slotSample (bits ++ rest) = slotSample bits := by
  unfold slotSample
  rw [List.take_left' h, List.take_of_length_le (by omega)]

/-- A port frame reads back the eight samples it was sent with, slot by slot. -/
@[simp] theorem frameSlots_slotBits (v : Vector Sample 8) : frameSlots (v.toList.flatMap slotBits) = v := by
  obtain ⟨⟨l⟩, hv⟩ := v
  match l, hv with
  | [a, b, c, d, e, f, g, i], _ =>
    refine Vector.ext fun k hk => ?_
    unfold frameSlots
    rw [Vector.getElem_ofFn]
    interval_cases k <;> exact slotSample_slotBits _

/-- The frame of an output port, closed by its next sync, is a frame edge that delivers its samples. -/
theorem syncEvent_slotBits (q : Fin 8) (elapsed : Nat) (v : Vector Sample 8) :
    syncEvent q elapsed (v.toList.flatMap slotBits) = .portFrameEdge q elapsed v := by
  unfold syncEvent
  rw [if_pos (by simp [List.length_flatMap, slotBits]), frameSlots_slotBits]

end Sys2Proof.Machine
end

