-- ==== Sys2Proof/Laws/Meters.lean ====
section
/-! SUPPORT. What admitting a block and taking a step back do to a meter: the counts stay in agreement, the ring keeps its
energies, and nothing else changes. -/

namespace Sys2Proof.Machine

/-- One block more in a bin: the sum is one more. -/
theorem sum_modify_succ (l : List Nat) (k : Nat) (h : k < l.length) : (l.modify k (· + 1)).sum = l.sum + 1 := by
  induction l generalizing k with
  | nil => simp at h
  | cons a l ih =>
    cases k with
    | zero => simp only [List.modify_zero_cons, List.sum_cons]; omega
    | succ k =>
      have := ih k (by simpa using h)
      simp only [List.modify_succ_cons, List.sum_cons]; omega

/-- A block admitted leaves all but histogram, count, integration state and what the closed step holds of its block. -/
theorem Meter.admitBlock_frame (m : Meter) (k : Nat) :
    ∃ h a i c, m.admitBlock k = { m with histogram := h, admitted := a, integState := i, closed := c } := by
  unfold admitBlock
  simp only
  (repeat' split) <;> exact ⟨_, _, _, _, rfl⟩

/-- At the limit a block changes neither histogram nor count nor state. -/
theorem Meter.admitBlock_full (m : Meter) (k : Nat) (h : Config.admittedLimit ≤ m.admitted) :
    m.admitBlock k = { m with closed := m.closed.map fun c => { c with block := none } } := by
  unfold admitBlock; rw [if_pos h]

theorem Meter.admitBlock_countsAgree (m : Meter) (k : Nat) (hk : k < 750) (h : m.countsAgree = true) :
    (m.admitBlock k).countsAgree = true := by
  have e := h
  simp only [countsAgree, Bool.and_eq_true, beq_iff_eq, decide_eq_true_eq] at h
  have hs := sum_modify_succ m.histogram k (by omega)
  unfold admitBlock
  simp only
  split
  · exact e
  · split <;>
    · simp only [countsAgree, Bool.and_eq_true, beq_iff_eq, decide_eq_true_eq, List.length_modify]
      exact ⟨⟨⟨h.1.1.1, by omega⟩, by omega⟩, h.2⟩

/-- One block fewer in a bin that holds one: the sum is one less. -/
theorem sum_modify_pred (l : List Nat) (k : Nat) (h : l.getD k 0 ≠ 0) : (l.modify k (· - 1)).sum + 1 = l.sum := by
  induction l generalizing k with
  | nil => simp at h
  | cons a l ih =>
    cases k with
    | zero =>
      have h : a ≠ 0 := h
      simp only [List.modify_zero_cons, List.sum_cons]; omega
    | succ k =>
      have h : l.getD k 0 ≠ 0 := by simpa using h
      have := ih k h
      simp only [List.modify_succ_cons, List.sum_cons]; omega

theorem Meter.withdrawBlock_countsAgree (m : Meter) (k : Nat) (i : IntegState) (h : m.countsAgree = true) :
    (m.withdrawBlock k i).countsAgree = true := by
  unfold withdrawBlock
  split
  · simp only [countsAgree, Bool.and_eq_true, List.all_eq_true] at h ⊢
    exact ⟨h.1, fun x hx => h.2 x (List.dropLast_subset _ hx)⟩
  · split
    · exact h
    · rename_i hn
      have hs := sum_modify_pred m.histogram k fun h0 => hn (.inl h0)
      simp only [countsAgree, Bool.and_eq_true, beq_iff_eq, decide_eq_true_eq, List.length_modify] at h ⊢
      exact ⟨⟨⟨h.1.1.1, by omega⟩, by omega⟩, h.2⟩

/-- The step closed is taken back without a change of what the histogram's counts agree on. -/
theorem Meter.disturbClosed_countsAgree (m : Meter) (now : Count) (h : m.countsAgree = true) :
    (m.disturbClosed now).countsAgree = true := by
  unfold disturbClosed
  (repeat' split) <;> first | exact h | exact withdrawBlock_countsAgree _ _ _ h

/-- The block taken back leaves all but histogram, count, integration state and pending blocks. -/
theorem Meter.withdrawBlock_frame (m : Meter) (k : Nat) (before : IntegState) :
    ∃ h a i q, m.withdrawBlock k before = { m with histogram := h, admitted := a, integState := i, pendingBlocks := q } := by
  unfold withdrawBlock
  (repeat' split) <;> exact ⟨_, _, _, _, rfl⟩

/-- The step taken back leaves its ring's energies, and all but ring, closed step and what the block's return changes. -/
theorem Meter.disturbClosed_frame (m : Meter) (now : Count) :
    ∃ r c h a i q, m.disturbClosed now =
      { m with ring := r, closed := c, histogram := h, admitted := a, integState := i, pendingBlocks := q } ∧
      r.map RingEntry.energy = m.ring.map RingEntry.energy := by
  have map : (m.ring.modify (m.ring.length - 1) fun e => { e with disturbed := true }).map RingEntry.energy =
      m.ring.map RingEntry.energy := by
    apply List.ext_getElem?; intro i
    simp only [List.getElem?_map, List.getElem?_modify]
    cases m.ring[i]? <;> simp
    split <;> rfl
  unfold disturbClosed
  simp only
  split
  · split
    · split
      · rename_i c _ _ _ k _
        obtain ⟨h, a, i, q, e⟩ := withdrawBlock_frame { m with
          ring := m.ring.modify (m.ring.length - 1) fun e => { e with disturbed := true }, closed := none } k c.before
        exact ⟨_, _, h, a, i, q, e, map⟩
      · exact ⟨_, _, _, _, _, _, rfl, map⟩
    · exact ⟨_, _, _, _, _, _, rfl, rfl⟩
  · exact ⟨_, _, _, _, _, _, rfl, rfl⟩

end Sys2Proof.Machine
end

