-- ==== Sys2Proof/Laws/OutputMap.lean ====
section
/-! SUPPORT. The operations of a commit that leave the output map as it is, and what a commit makes of it. -/

namespace Sys2Proof.Machine

@[simp] theorem onLane_outputMap (b : Body) (p f) : (b.onLane p f).outputMap = b.outputMap := rfl
@[simp] theorem onProgramme_outputMap (b : Body) (p f) : (b.onProgramme p f).outputMap = b.outputMap := rfl
@[simp] theorem onBank_outputMap (b : Body) (p f) : (b.onBank p f).outputMap = b.outputMap := rfl
@[simp] theorem onMeter_outputMap (b : Body) (p f) : (b.onMeter p f).outputMap = b.outputMap := rfl
@[simp] theorem onGain_outputMap (b : Body) (p f) : (b.onGain p f).outputMap = b.outputMap := rfl
@[simp] theorem onLine_outputMap (b : Body) (f) : (b.onLine f).outputMap = b.outputMap := rfl
@[simp] theorem setLane_outputMap (b : Body) (p x) : (b.setLane p x).outputMap = b.outputMap := rfl
@[simp] theorem setMeter_outputMap (b : Body) (p x) : (b.setMeter p x).outputMap = b.outputMap := rfl
@[simp] theorem setGain_outputMap (b : Body) (p x) : (b.setGain p x).outputMap = b.outputMap := rfl
@[simp] theorem setBank_outputMap (b : Body) (p x) : (b.setBank p x).outputMap = b.outputMap := rfl
@[simp] theorem setProgramme_outputMap (b : Body) (p x) : (b.setProgramme p x).outputMap = b.outputMap := rfl
@[simp] theorem setLine_outputMap (b : Body) (x) : ({ b with line := x } : Body).outputMap = b.outputMap := rfl
theorem foldl_outputMap {α : Type} (l : List α) (f : α → Body → Body) (h : ∀ a b, (f a b).outputMap = b.outputMap) (b : Body) :
    (l.foldl (fun b a => f a b) b).outputMap = b.outputMap := by
  induction l generalizing b with
  | nil => rfl
  | cons a l ih => exact (ih (f a b)).trans (h a b)

theorem eachProgramme_outputMap (b : Body) (f : Fin 16 → Body → Body) (h : ∀ p b, (f p b).outputMap = b.outputMap) :
    (b.eachProgramme f).outputMap = b.outputMap := foldl_outputMap _ f h b

@[simp] theorem completeTag_outputMap (t o d b) : (completeTag t o d b).outputMap = b.outputMap := rfl
@[simp] theorem oweState_outputMap (p c b) : (oweState p c b).outputMap = b.outputMap := rfl

@[simp] theorem grantRead_outputMap (b k p) : (grantRead b k p).outputMap = b.outputMap := by
  unfold grantRead; split <;> simp

@[simp] theorem grantBank_outputMap (k b) : (grantBank k b).outputMap = b.outputMap := by
  unfold grantBank; simp only; repeat' split
  all_goals simp

@[simp] theorem openReads_outputMap (p n b) : (openReads p n b).outputMap = b.outputMap := by
  induction n generalizing b with
  | zero => rfl
  | succ n ih => unfold openReads; simp only; repeat' split
                 all_goals simp [ih]

@[simp] theorem pumpReads_outputMap (p b) : (pumpReads p b).outputMap = b.outputMap := by
  unfold pumpReads; simp only; split <;> simp

@[simp] theorem killAccess_outputMap (p r w b) : (killAccess p r w b).outputMap = b.outputMap :=
  foldl_outputMap _ _ (by simp) b

@[simp] theorem closeRead_outputMap (p b) : (closeRead p b).outputMap = b.outputMap := by simp [closeRead]

@[simp] theorem refreshSetpoint_outputMap (p b) : (refreshSetpoint p b).outputMap = b.outputMap := by
  unfold refreshSetpoint; split <;> simp

@[simp] theorem endChange_outputMap (p o b) : (endChange p o b).outputMap = b.outputMap := by
  unfold endChange; repeat' split
  all_goals simp

@[simp] theorem endTail_outputMap (p b) : (endTail p b).outputMap = b.outputMap := by
  unfold endTail; simp only; repeat' split
  all_goals simp

@[simp] theorem reachMark_outputMap (p m b) : (reachMark p m b).outputMap = b.outputMap := by simp [reachMark]

@[simp] theorem clearOverloadRuns_outputMap (p b) : (clearOverloadRuns p b).outputMap = b.outputMap := rfl
@[simp] theorem discardHeld_outputMap (p b) : (discardHeld p b).outputMap = b.outputMap :=
  foldl_outputMap _ _ (by simp) _

@[simp] theorem resumeProgramme_outputMap (p b) : (resumeProgramme p b).outputMap = b.outputMap := rfl

@[simp] theorem forcedJump_outputMap (p b) : (forcedJump p b).outputMap = b.outputMap := by
  unfold forcedJump; simp only; repeat' split
  all_goals simp

@[simp] theorem placeMark_outputMap (p s b) : (placeMark p s b).outputMap = b.outputMap := by
  unfold placeMark; simp only; repeat' split
  all_goals simp

@[simp] theorem emptyLine_outputMap (p b) : (emptyLine p b).outputMap = b.outputMap := rfl

@[simp] theorem switchSource_outputMap (p s c b) : (switchSource p s c b).outputMap = b.outputMap := by
  unfold switchSource; simp only; repeat' split
  all_goals simp

@[simp] theorem changeSelector_outputMap (p s c b) : (changeSelector p s c b).outputMap = b.outputMap := by
  unfold changeSelector; simp only; repeat' split
  all_goals simp

@[simp] theorem reconcile_outputMap (p b) : (reconcile p b).outputMap = b.outputMap := by
  unfold reconcile; simp only; repeat' split
  all_goals simp

@[simp] theorem endDelayWrite_outputMap (p n o b) : (endDelayWrite p n o b).outputMap = b.outputMap := by
  unfold endDelayWrite; split <;> simp

@[simp] theorem beginChange_outputMap (p n o f b) : (beginChange p n o f b).outputMap = b.outputMap := by
  unfold beginChange; simp only; repeat' split
  all_goals simp

@[simp] theorem commitDelay_outputMap (p x n o f b) : (commitDelay p x n o f b).outputMap = b.outputMap := by
  unfold commitDelay; repeat' split
  all_goals simp


/-- The slot map depends on the active sets alone. -/
theorem slotEntry_sets {b c : Body} (h : c.sets = b.sets) (n : Nat) : slotEntry c n = slotEntry b n := by
  unfold slotEntry
  congr 1
  funext p
  rw [(sets_programme h p).1]

/-- What a commit makes of the output map (R11, R12). -/
theorem commitSet_outputMap {b : Body} {p : Fin 16} {f : Count} {w : Pending} {old : Settings}
    (hp : (b.programme p).pending = some w) (ha : (b.programme p).active = some old) :
    (old.slots = w.settings.slots → (commitSet p f b).outputMap = b.outputMap) ∧
      (old.slots ≠ w.settings.slots →
        (commitSet p f b).outputMap = (List.range 64).map (slotEntry (commitSet p f b))) := by
  have hs := commitSet_sets (f := f) hp ha
  refine ⟨fun h => ?_, fun h => ?_⟩
  · unfold commitSet
    simp only [hp, ha, reconcile_outputMap, commitDelay_outputMap, if_pos h]
    split <;> rfl
  · rw [show slotEntry (commitSet p f b) = slotEntry
        ((b.onProgramme p fun r => { r with active := some w.settings, pending := none })) from
      funext fun n => slotEntry_sets (by rw [hs]; simp) n]
    unfold commitSet
    simp only [hp, ha, reconcile_outputMap, commitDelay_outputMap, if_neg h]
    simp only [reformMap]
    congr 1
    funext n
    apply slotEntry_sets
    split <;> rfl

end Sys2Proof.Machine
end

