-- ==== Sys2Proof/Laws/Sound.lean ====
section
/-! SUPPORT. Both sides of the control line stay within their places, and the end of an event leaves nothing that waits for a
free place: the lemmas of the shared operations, cited command by command. -/

namespace Sys2Proof.Machine

/-- The parts of soundness: what every intermediate state of an event keeps. -/
def Within (s : State) : Prop := s.dram.wf = true ∧ s.rx.sound = true ∧ s.tx.queue.length ≤ Config.outgoingPlaces

/-- No frame waits for a place that is free. -/
def NoFrameWaits (s : State) : Prop :=
  s.tx.queue.length < Config.outgoingPlaces → s.rx.buffer = [] ∨ s.rx.restartPending = true

theorem sound_iff (s : State) : s.sound = true ↔ Within s := by
  simp [State.sound, Within, Sender.sound, and_assoc]

theorem State.served.noFrameWaits {s : State} (h : s.served) : NoFrameWaits s := fun hq => (h hq).1

/-- Where no report class has a waiter, nothing is owed. -/
theorem reports_none {s : State} (h : ∀ c, c ≠ .answer → classReport s c = none) :
    s.tx.carry = [] ∧ completionOf s.body.line = none ∧
    (∀ e : Fin 154, (s.body.entry e).reportOwed = true → reportWithheld s.body e = true) ∧ (∀ p : Fin 16, (s.body.programme p).stateOwed = none) ∧
    s.body.sequencer.owed = [] ∧ (∀ p : Fin 16, (s.body.lane p).sceneDelayOwed = none) ∧
    (∀ p : Fin 16, (s.body.meter p).sceneResetOwed = none) ∧
    s.body.line.breakOwed = none ∧ s.body.line.badFrameOwed = none ∧ s.body.line.overrunOwed = none := by
  have h1 := h .completion (by decide)
  have h2 := h .alarm (by decide)
  have h3 := h .state (by decide)
  have h4 := h .scene (by decide)
  have h5 := h .line (by decide)
  simp only [classReport] at h1 h2 h3 h4 h5
  refine ⟨?_, ?_, ?_, ?_, ?_, ?_, ?_, ?_⟩
  · unfold completionReport at h1
    split at h1
    · cases h1
    · assumption
  · unfold completionReport at h1
    split at h1
    · cases h1
    · simpa using h1
  · intro e
    unfold alarmReport at h2
    rw [Option.map_eq_none_iff, List.find?_eq_none] at h2
    simpa using h2 e (List.mem_finRange e)
  · intro p
    unfold stateReport at h3
    rw [List.findSome?_eq_none_iff] at h3
    simpa using h3 p (List.mem_finRange p)
  all_goals unfold sceneReport at h4
  · split at h4
    · cases h4
    · assumption
  · intro p
    split at h4
    · cases h4
    · rw [Option.or_eq_none_iff] at h4
      have := h4.1
      unfold laneReport at this
      rw [List.findSome?_eq_none_iff] at this
      simpa using this p (List.mem_finRange p)
  · intro p
    split at h4
    · cases h4
    · rw [Option.or_eq_none_iff] at h4
      have := h4.2
      unfold meterReport at this
      rw [List.findSome?_eq_none_iff] at this
      simpa using this p (List.mem_finRange p)
  · unfold lineReport at h5
    simp only at h5
    split at h5
    · cases h5
    · cases h5
    · cases h5
    · rename_i a b c; exact ⟨a, b, c⟩

/-- Where nothing is owed, no report class has a waiter. -/
theorem reports_of_nothing {s : State} (h : s.nothingWaits) (c : OwnerClass) : classReport (syncCompletions s) c = none := by
  obtain ⟨_, h1, h2, h3, h4, h5, h6, h7, h8, h9, h10⟩ := h
  cases c with
  | answer => rfl
  | completion =>
    have e : (syncCompletions s).tx.carry = [] := h1
    have e2 : completionOf (syncCompletions s).body.line = none := h2
    simp only [classReport, completionReport, e, e2]; rfl
  | alarm =>
    simp only [classReport, alarmReport, Option.map_eq_none_iff, List.find?_eq_none]
    intro e _
    have : ((syncCompletions s).body.entry e).reportOwed = true → reportWithheld (syncCompletions s).body e = true := h3 e
    simpa using this
  | state =>
    simp only [classReport, stateReport, List.findSome?_eq_none_iff, Option.map_eq_none_iff]
    intro p _; exact h4 p
  | scene =>
    have e : (syncCompletions s).body.sequencer.owed = [] := h5
    simp only [classReport, sceneReport, e, Option.or_eq_none_iff, laneReport, meterReport,
      List.findSome?_eq_none_iff, Option.map_eq_none_iff]
    exact ⟨fun p _ => h6 p, fun p _ => h7 p⟩
  | line =>
    have e1 : (syncCompletions s).body.line.breakOwed = none := h8
    have e2 : (syncCompletions s).body.line.badFrameOwed = none := h9
    have e3 : (syncCompletions s).body.line.overrunOwed = none := h10
    simp only [classReport, lineReport, e1, e2, e3]

theorem mem_classesAfter (c d : OwnerClass) : d ∈ classesAfter c := by cases c <;> cases d <;> decide

/-- Every operation that has completed has its place in the order of the completions. -/
def LineBlock.synced (l : LineBlock) : Prop := ∀ d ∈ l.deferred, d.complete.isSome = true → d.tag ∈ l.completions

theorem sync_synced (l : LineBlock) : l.sync.synced := by
  intro d hd hc
  simp only [LineBlock.sync, List.mem_append]
  by_cases hm : d.tag ∈ l.completions
  · exact Or.inl hm
  · exact Or.inr (List.mem_map.2 ⟨d, List.mem_filter.2 ⟨hd, by simp [hc, hm]⟩, rfl⟩)

theorem LineBlock.synced.sync {l : LineBlock} (h : l.synced) : l.sync = l := by
  have : (l.deferred.filter fun d => d.complete.isSome && !l.completions.contains d.tag) = [] := by
    rw [List.filter_eq_nil_iff]
    intro d hd
    simp only [Bool.and_eq_true, Bool.not_eq_true', not_and, Bool.not_eq_false]
    intro hc
    rw [List.contains_iff_mem]
    exact h d hd hc
  unfold LineBlock.sync; rw [this]; simp

/-- Taking a report leaves the completions in their order. -/
theorem classReport_synced {s t : State} {m : Message} {c : OwnerClass} (h : classReport s c = some (m, t))
    (hs : s.body.line.synced) : t.body.line.synced := by
  have same : t.body.line.deferred = s.body.line.deferred → t.body.line.completions = s.body.line.completions →
      t.body.line.synced := by
    intro h1 h2 d hd hc; rw [h2]; exact hs d (h1 ▸ hd) hc
  cases c
  · cases h
  · simp only [classReport, completionReport] at h
    split at h
    · cases h; exact hs
    · rw [Option.map_eq_some_iff] at h
      obtain ⟨x, hx, he⟩ := h
      cases he
      unfold completionOf at hx
      split at hx
      · cases hx
      · rename_i tag rest hcomp
        split at hx
        · rw [Option.map_eq_some_iff] at hx
          obtain ⟨c, _, he⟩ := hx
          cases he
          intro d hd hc
          obtain ⟨hd, hne⟩ := List.mem_filter.1 hd
          have := hs d hd hc
          rw [hcomp, List.mem_cons] at this
          rcases this with h1 | h1
          · simp [h1, hc] at hne
          · exact h1
        · cases hx
  · simp only [classReport, alarmReport, Option.map_eq_some_iff] at h
    obtain ⟨e, _, hx⟩ := h; cases hx; exact same rfl rfl
  · simp only [classReport, stateReport] at h
    obtain ⟨p, _, hp⟩ := List.exists_of_findSome?_eq_some h
    rw [Option.map_eq_some_iff] at hp; obtain ⟨x, _, hx⟩ := hp; cases hx; exact same rfl rfl
  · simp only [classReport, sceneReport] at h
    split at h
    · cases h; exact same rfl rfl
    · rw [Option.or_eq_some_iff] at h
      rcases h with h | ⟨_, h⟩ <;>
      · first | unfold laneReport at h | unfold meterReport at h
        obtain ⟨p, _, hp⟩ := List.exists_of_findSome?_eq_some h
        rw [Option.map_eq_some_iff] at hp; obtain ⟨x, _, hx⟩ := hp; cases hx; exact same rfl rfl
  · simp only [classReport, lineReport] at h
    split at h <;> first | (cases h; done) | (cases h; exact same rfl rfl)

theorem placeOne_synced {s t : State} (h : placeOne s = some t) (hs : s.body.line.synced) : t.body.line.synced := by
  obtain ⟨c, m, u, hc, rfl⟩ := placeOne_classReport h
  exact (classReport_synced hc hs :)

/-- Where nothing can be placed and a place is free, no report waits. -/
theorem nothing_of_none {s : State} (hs : s.body.line.synced)
    (hf : s.rx.buffer = [] ∨ s.rx.restartPending = true)
    (h : ∀ c, c ≠ .answer → classReport s c = none) : s.nothingWaits := by
  obtain ⟨h1, h2, h3⟩ := reports_none h
  exact ⟨hf, h1, by rw [hs.sync]; exact h2, h3⟩

/-- The loop that places reports ends with nothing waiting for a free place. -/
theorem placeLoop_served (n : Nat) (s : State) (hn : Config.outgoingPlaces ≤ s.tx.queue.length + n)
    (hs : s.body.line.synced) (hf : NoFrameWaits s) : (placeLoop n s).served := by
  induction n generalizing s with
  | zero => intro hq; exact absurd hq (by simp only [placeLoop]; omega)
  | succ n ih =>
    unfold placeLoop
    split
    · rename_i hnone
      intro hq
      refine nothing_of_none hs (hf hq) fun c _ => ?_
      unfold placeOne at hnone
      rw [if_neg (Nat.not_le.2 hq), List.findSome?_eq_none_iff] at hnone
      have := hnone c (mem_classesAfter _ _)
      simpa using this
    · rename_i t ht
      obtain ⟨h0, h1, _, h3, _⟩ := placeOne_spec ht
      refine ih t (by omega) (placeOne_synced ht hs) ?_
      intro hq
      rw [h3]
      exact hf h0

/-- At the end of an event nothing waits for a free place, where no frame waited for one. -/
theorem placeReports_served {s : State} (hf : NoFrameWaits s) : (placeReports s).served := by
  unfold placeReports
  simp only
  refine placeLoop_served _ _ ?_ (sync_synced _) hf
  omega

theorem placeOne_within {s t : State} (h : Within s) (ht : placeOne s = some t) : Within t := by
  obtain ⟨h0, h1, h2, h3, _⟩ := placeOne_spec ht
  exact ⟨by rw [h2]; exact h.1, by rw [h3]; exact h.2.1, by omega⟩

/-- The end of an event keeps the places. -/
theorem placeReports_within {s : State} (h : Within s) : Within (placeReports s) :=
  ⟨by simpa using h.1, by simpa using h.2.1, (placeReports_spec s).2.2.2 h.2.2⟩

/-- The end of an event keeps soundness, and leaves nothing waiting. -/
theorem placeReports_keeps_sound {s : State} (h : Within s) (hf : NoFrameWaits s) :
    (placeReports s).sound = true ∧ (placeReports s).served :=
  ⟨(sound_iff _).2 (placeReports_within h), placeReports_served hf⟩

/-! ## The grants to all classes -/

/-- What is not on the line's own sides: only a request acts on them, and LINE RESET empties both. -/
theorem answerTo_line (f : RxFrame) (s : State) :
    (answerTo f s).2.dram = s.dram ∧
    (((answerTo f s).2.tx = s.tx ∧ (answerTo f s).2.rx.buffer = s.rx.buffer ∧ (answerTo f s).2.rx.hold = s.rx.hold ∧
        (s.rx.restartPending = true → (answerTo f s).2.rx.restartPending = true)) ∨
      ((answerTo f s).2.tx.queue = [] ∧ (answerTo f s).2.rx.buffer = [] ∧ (answerTo f s).2.rx.hold = false)) := by
  unfold answerTo
  split
  · exact ⟨rfl, Or.inl ⟨rfl, rfl, rfl, id⟩⟩
  · split
    · exact ⟨rfl, Or.inl ⟨rfl, rfl, rfl, id⟩⟩
    · rename_i r _
      cases r with
      | lineReset =>
        simp only [carryOut, lineResetRequest, lineReset]
        split
        · exact ⟨rfl, Or.inr ⟨rfl, rfl, rfl⟩⟩
        · exact ⟨rfl, Or.inr ⟨rfl, rfl, rfl⟩⟩
      | restart => exact ⟨rfl, Or.inl ⟨rfl, rfl, rfl, fun _ => rfl⟩⟩
      | integrate p a => cases a <;> exact ⟨rfl, Or.inl ⟨rfl, rfl, rfl, id⟩⟩
      | watchAdd n p =>
        simp only [carryOut, watchAddRequest]
        repeat' split
        all_goals exact ⟨rfl, Or.inl ⟨rfl, rfl, rfl, id⟩⟩
      | watchRemove n =>
        simp only [carryOut, watchRemoveRequest]
        repeat' split
        all_goals exact ⟨rfl, Or.inl ⟨rfl, rfl, rfl, id⟩⟩
      | peek n =>
        simp only [carryOut, peekRequest]
        repeat' split
        all_goals exact ⟨rfl, Or.inl ⟨rfl, rfl, rfl, id⟩⟩
      | _ => exact ⟨rfl, Or.inl ⟨rfl, rfl, rfl, id⟩⟩

theorem rx_sound_iff (r : Receiver) : r.sound = true ↔ r.buffer.length ≤ 2 ∧ (r.hold = true ↔ r.buffer.length = 2) := by
  unfold Receiver.sound
  rw [Bool.and_eq_true, beq_iff_eq, decide_eq_true_iff, Bool.eq_iff_iff, decide_eq_true_iff]
  exact Iff.rfl

/-- Answering a frame where a place is free: one message more, or the answer to a LINE RESET alone. -/
theorem answerFrame_spec (f : RxFrame) {s : State} (h : Within s) (hq : s.tx.queue.length < Config.outgoingPlaces) :
    Within (answerFrame f s) ∧
      (((answerFrame f s).tx.queue.length = s.tx.queue.length + 1 ∧ (answerFrame f s).rx.buffer = s.rx.buffer) ∨
        ((answerFrame f s).tx.queue.length = 1 ∧ (answerFrame f s).rx.buffer = [])) := by
  obtain ⟨h1, h2⟩ := answerTo_line f s
  have hd : (answerFrame f s).dram = (answerTo f s).2.dram := rfl
  have hr : (answerFrame f s).rx = (answerTo f s).2.rx := rfl
  have ht : (answerFrame f s).tx.queue = (answerTo f s).2.tx.queue ++ [(answerTo f s).1.message f.kind.toNat f.tag] := rfl
  have hrx := (rx_sound_iff _).1 h.2.1
  rcases h2 with ⟨a1, a2, a3, _⟩ | ⟨a1, a2, a3⟩
  · refine ⟨⟨by rw [hd, h1]; exact h.1, ?_, ?_⟩, Or.inl ⟨?_, by rw [hr, a2]⟩⟩
    · rw [hr, rx_sound_iff, a2, a3]; exact hrx
    · rw [ht, a1]; simp; omega
    · rw [ht, a1]; simp
  · refine ⟨⟨by rw [hd, h1]; exact h.1, ?_, ?_⟩, Or.inr ⟨?_, by rw [hr, a2]⟩⟩
    · rw [hr, rx_sound_iff, a2, a3]; simp
    · rw [ht, a1]; simp [Config.outgoingPlaces]
    · rw [ht, a1]; rfl

theorem takeFrame_spec {s : State} (h : Within s) (hq : s.tx.queue.length < Config.outgoingPlaces) :
    Within (takeFrame s) ∧
      ((takeFrame s).tx.queue.length = s.tx.queue.length + 1 ∨
        ((takeFrame s).tx.queue.length = 1 ∧ (takeFrame s).rx.buffer = []) ∨ takeFrame s = s) := by
  unfold takeFrame
  split
  · exact ⟨h, Or.inr (Or.inr rfl)⟩
  · rename_i f rest hb
    have hrx := (rx_sound_iff _).1 h.2.1
    rw [hb, List.length_cons] at hrx
    have hw : Within { s with rx := { s.rx with buffer := rest, hold := false } } := by
      refine ⟨h.1, ?_, h.2.2⟩
      rw [rx_sound_iff]
      refine ⟨by simp only; omega, ?_⟩
      simp only [Bool.false_eq_true, false_iff]; omega
    obtain ⟨h1, h2⟩ := answerFrame_spec f hw hq
    refine ⟨h1, ?_⟩
    rcases h2 with h2 | h2
    · exact Or.inl h2.1
    · exact Or.inr (Or.inl h2)

/-- One grant: a report of a class in its place, or a frame taken. -/
theorem grantOne_spec {s t : State} (h : Within s) (ht : grantOne s = some t) :
    Within t ∧ s.tx.queue.length < Config.outgoingPlaces ∧
      ((t.tx.queue.length = s.tx.queue.length + 1 ∧ (s.rx.buffer = [] → t.rx.buffer = [])) ∨
        (t.tx.queue.length = 1 ∧ t.rx.buffer = [] ∧ s.rx.buffer ≠ [])) := by
  unfold grantOne at ht
  split at ht
  · cases ht
  · rename_i hq
    have hq : s.tx.queue.length < Config.outgoingPlaces := by omega
    obtain ⟨c, _, hc⟩ := List.exists_of_findSome?_eq_some ht
    unfold grantTo at hc
    split at hc
    · split at hc
      · rename_i hw
        have hne : s.rx.buffer ≠ [] := by
          simp only [answerWaits, Bool.and_eq_true, bne_iff_ne, ne_eq] at hw; exact hw.1
        cases hc
        obtain ⟨h1, h2⟩ := takeFrame_spec h hq
        refine ⟨h1, hq, ?_⟩
        rcases h2 with h2 | h2 | h2
        · exact Or.inl ⟨h2, fun e => absurd e hne⟩
        · exact Or.inr ⟨h2.1, h2.2, hne⟩
        · obtain ⟨f, rest, hb⟩ := List.exists_cons_of_ne_nil hne
          exfalso
          have h3 : (takeFrame s).tx.queue.length ≠ s.tx.queue.length ∨ (takeFrame s).rx.buffer ≠ s.rx.buffer := by
            unfold takeFrame
            rw [hb]
            simp only
            have hl := answerTo_line f { s with rx := { s.rx with buffer := rest, hold := false } }
            rcases hl.2 with ⟨_, a2, _⟩ | ⟨_, a2, _⟩
            · right; show (answerTo f _).2.rx.buffer ≠ _; rw [a2]; simp
            · right; show (answerTo f _).2.rx.buffer ≠ _; rw [a2]; simp
          rw [h2] at h3
          rcases h3 with h3 | h3 <;> exact h3 rfl
      · cases hc
    · rw [Option.map_eq_some_iff] at hc
      obtain ⟨x, hx, rfl⟩ := hc
      obtain ⟨h1, h2, h3, h4, _⟩ := classReport_same (m := x.1) (t := x.2) hx
      have hql : (putMessage c x.1 x.2).tx.queue.length = s.tx.queue.length + 1 := by simp [putMessage, h4]
      refine ⟨⟨?_, ?_, by omega⟩, hq, Or.inl ⟨hql, ?_⟩⟩
      · show x.2.dram.wf = true; rw [h1]; exact h.1
      · show x.2.rx.sound = true; rw [h2]; exact h.2.1
      · intro e; show x.2.rx.buffer = []; rw [h2]; exact e

/-- Where no grant can be made, nothing waits for a free place. -/
theorem grantOne_none {s : State} (hs : s.body.line.synced) (h : grantOne s = none) : s.served := by
  intro hq
  unfold grantOne at h
  rw [if_neg (Nat.not_le.2 hq), List.findSome?_eq_none_iff] at h
  refine nothing_of_none hs ?_ fun c hc => ?_
  · have := h .answer (mem_classesAfter _ _)
    simp only [grantTo, if_true] at this
    split at this
    · cases this
    · rename_i hw
      simp only [answerWaits, Bool.and_eq_true, bne_iff_ne, ne_eq, Bool.not_eq_true', not_and, Bool.not_eq_false] at hw
      by_cases hb : s.rx.buffer = []
      · exact Or.inl hb
      · exact Or.inr (hw hb)
  · have := h c (mem_classesAfter _ _)
    unfold grantTo at this
    rw [if_neg hc] at this
    simpa using this

/-- The loop of the grants ends with nothing waiting for a free place: with no frame held it takes a place each time; with
one it may first empty the queue once. -/
theorem grantLoop_spec (n : Nat) (s : State) (h : Within s)
    (hn : Config.outgoingPlaces ≤ s.tx.queue.length + n ∧
      (s.rx.buffer = [] ∨ 2 * Config.outgoingPlaces ≤ s.tx.queue.length + n)) :
    Within (grantLoop n s) ∧ (grantLoop n s).served := by
  induction n generalizing s with
  | zero =>
    refine ⟨h, fun hq => ?_⟩
    simp only [grantLoop] at hq ⊢
    omega
  | succ n ih =>
    unfold grantLoop
    have hw : Within (syncCompletions s) := h
    split
    · rename_i hnone
      exact ⟨hw, grantOne_none (sync_synced _) hnone⟩
    · rename_i t ht
      obtain ⟨h1, h2, h3⟩ := grantOne_spec hw ht
      have hq : s.tx.queue.length < Config.outgoingPlaces := h2
      refine ih t h1 ?_
      have e1 : (syncCompletions s).tx.queue.length = s.tx.queue.length := rfl
      have e2 : (syncCompletions s).rx.buffer = s.rx.buffer := rfl
      rw [e1, e2] at h3
      rcases h3 with ⟨h3, h4⟩ | ⟨h3, h4, h5⟩
      · refine ⟨by omega, ?_⟩
        rcases hn.2 with hb | hb
        · exact Or.inl (h4 hb)
        · exact Or.inr (by omega)
      · rcases hn.2 with hb | hb
        · exact absurd hb h5
        · exact ⟨by omega, Or.inl h4⟩

end Sys2Proof.Machine
end

