-- ==== Sys2Proof/Laws/Steps.lean ====
section
/-! SUPPORT. What a step can do to the blocks, said once: it is made of the functions of `BlockWork` and `RequestWork`, the
placing of reports, and the line; a property that each of them keeps is kept by every step. -/

namespace Sys2Proof.Machine

/-- The functions on the blocks that the commands, and the pieces of a frame boundary, are made of. -/
inductive BlockWork : (Body → Body) → Prop
  | hrefEdge (n) : BlockWork (hrefEdgeWork n)
  | hrefLoss : BlockWork hrefLossWork
  | houseSample : BlockWork houseSampleWork
  | settleTail (p) : BlockWork (settleTail p)
  | rampEnd (p) : BlockWork (rampEndWork p)
  | vrefEdge : BlockWork vrefEdgeWork
  | vrefLoss : BlockWork vrefLossWork
  | generated : BlockWork generatedWork
  | regulation : BlockWork regulationWork
  | stepBoundary : BlockWork stepBoundaryWork
  | resetApply (p) : BlockWork (resetApplyWork p)
  | sweepVisit : BlockWork sweepVisitWork
  | onsetExpiry (e) : BlockWork (onsetExpiryEvent e)
  | releaseExpiry (e) : BlockWork (releaseExpiryEvent e)
  | revert (p) : BlockWork (revertWork p)
  | selectApply (p) : BlockWork (selectApplyWork p)
  | directCommit (p) : BlockWork (directCommitWork p)
  | cutMade (p) : BlockWork (cutMadeWork p)
  | frameEdge (q n x) : BlockWork (frameEdgeWork q n x)
  | misaligned (q n) : BlockWork (misalignedWork q n)
  | syncAbsent (q n) : BlockWork (syncAbsentWork q n)
  | clockLoss (q n) : BlockWork (clockLossWork q n)
  | clockReturn (q) : BlockWork (clockReturnWork q)
  | lossTimeout (q n) : BlockWork (lossTimeoutWork q n)
  | holdoverTimeout (q) : BlockWork (holdoverTimeoutWork q)
  | drainDone (k l) : BlockWork (drainDone k l)
  | readDone (k p q l w) : BlockWork (readDone k p q l w)
  | fillAccessDone (k l) : BlockWork (fillAccessDone k l)
  | gpiEdge (k d) : BlockWork (gpiEdgeWork k d)
  | sequencer (f) : BlockWork (sequencerEvent f)
  | setRecord : BlockWork setRecordWork
  | delayRecord : BlockWork delayRecordWork
  | slotsRecord : BlockWork slotsRecordWork
  | sourceRecord : BlockWork sourceRecordWork
  | alarmcfgRecord : BlockWork alarmcfgRecordWork
  | integrateRecord : BlockWork integrateRecordWork
  | waitRecord : BlockWork waitRecordWork
  | chainRecord : BlockWork chainRecordWork
  | listEnd : BlockWork listEndWork
  | enterBoundary (d) : BlockWork (enterBoundary d)
  | commitPieces (d) : BlockWork (fun b => b.eachProgramme (commitPiece d))
  | sequencerPiece (d) : BlockWork (sequencerPiece d)
  | programmePieces (d) : BlockWork (fun b => b.eachProgramme (programmePiece d))
  | alarmPiece (d) : BlockWork (alarmPiece d)
  | cutPieces (d) : BlockWork (fun b => b.eachProgramme (cutPiece d))
  | mark (f) : BlockWork (mark f)
  | onTiming (f) : BlockWork (fun b => b.onTiming f)

/-- The functions of the requests that act on the blocks. -/
inductive RequestWork : (Body → Answer × Body) → Prop
  | define (p i) : RequestWork (defineRequest p i)
  | set (t i) : RequestWork (setRequest t i)
  | delay (a t n m) : RequestWork (delayRequest a t n m)
  | allocate (a p n) : RequestWork (allocateRequest a p n)
  | start (p) : RequestWork (startRequest p)
  | park (p) : RequestWork (parkRequest p)
  | release (p) : RequestWork (releaseRequest p)
  | clear (p) : RequestWork (clearRequest p)
  | select (p s) : RequestWork (selectRequest p s)
  | port (q c) : RequestWork (portRequest q c)
  | reset (a p) : RequestWork (resetRequest a p)
  | integrate (p a) : RequestWork (integrateRequest p a)
  | histo (p f n) : RequestWork (histoRequest p f n)
  | alarmcfg (e f) : RequestWork (alarmcfgRequest e f)
  | ack (e) : RequestWork (ackRequest e)
  | contact (k m) : RequestWork (contactRequest k m)
  | sceneAppend (n f r) : RequestWork (sceneAppendRequest n f r)
  | sceneRead (n f c) : RequestWork (sceneReadRequest n f c)
  | take (a n t) : RequestWork (takeRequest a n t)
  | cancel (t) : RequestWork (cancelRequest t)
  | resume : RequestWork resumeRequest
  | abandon : RequestWork abandonRequest
  | identify : RequestWork identifyRequest

/-- What a property of the blocks needs so that every step keeps it: it heeds no owed report nor its waiting for an evaluation,
no line block, and it holds of the reset value; each function of `BlockWork` and `RequestWork` keeps it; so does any change of lanes (PEEK clears flags) and
of the timing record. -/
structure Kept (P : Body → Prop) : Prop where
  quiet : ∀ {b c : Body}, c.quiet = b.quiet → P b → P c
  released : ∀ {b c : Body}, c = { b with entries := b.entries.map fun e => { e with withheld := false } } → P b → P c
  line : ∀ {b c : Body} (l), c = { b with line := l } → P b → P c
  lane : ∀ {b c : Body} (l), c = { b with lanes := l } → P b → P c
  time : ∀ {b c : Body} (l), c = { b with timing := l } → P b → P c
  reset : ∀ (l : LineRate) (k : BankStrap) (s : Vector SceneList 32) (n : Nat),
    P { lrate := l, banksStrap := k, scenes := s, freeDraws := n }
  work : ∀ f, BlockWork f → ∀ b, P b → P (f b)
  req : ∀ f, RequestWork f → ∀ b, P b → P (f b).2

variable {P : Body → Prop} (K : Kept P)
include K

/-- The placing of owed reports. -/
theorem Kept.place {s : State} (h : P s.body) : P (placeReports s).body := K.quiet (placeReports_quiet s) h

/-- A line reset (R178). -/
theorem Kept.lineReset (st : RxState) {s : State} (h : P s.body) : P (lineReset st s).body := by
  unfold Machine.lineReset
  simp only
  split
  · exact K.reset _ _ _ _
  · refine K.quiet ?_ (K.released (b := s.body.onLine fun l => { l with watch := [] }) rfl (K.line (b := s.body) _ rfl h))
    simp [Body.quiet, Body.onLine, Function.comp_def]

/-- A request acted on. -/
theorem Kept.carry (tag : Byte) (r : Request) {s : State} (h : P s.body) : P (carryOut tag r s).2.body := by
  have q : ∀ f, RequestWork f → P (onBlocks f s).2.body := fun f hf => K.req f hf _ h
  cases r with
  | integrate p a => cases a <;> exact q _ (by constructor)
  | watchAdd n p =>
    simp only [carryOut, watchAddRequest]
    repeat' split
    all_goals first | exact h | exact K.line (b := s.body) _ rfl h
  | watchRemove n =>
    simp only [carryOut, watchRemoveRequest]
    repeat' split
    all_goals first | exact h | exact K.line (b := s.body) _ rfl h
  | watchEmpty => exact K.line (b := s.body) _ rfl h
  | lineReset => exact K.lineReset _ h
  | restart => exact h
  | peek n =>
    simp only [carryOut, peekRequest]
    repeat' split
    all_goals first | exact h | exact K.lane (b := s.body) _ rfl h
  | _ => exact q _ (by constructor)

/-- A frame answered. -/
theorem Kept.answerFrame (f : RxFrame) {s : State} (h : P s.body) : P (answerFrame f s).body := by
  have : P (answerTo f s).2.body := by
    unfold answerTo
    repeat' split
    · exact h
    · exact h
    · exact K.carry _ _ h
  exact this

/-- A frame arrived. -/
theorem Kept.arrive (f : RxFrame) {s : State} (h : P s.body) : P (arrive f s).body := by
  unfold Machine.arrive
  split
  · exact h
  apply K.place
  split
  · exact K.answerFrame f h
  · unfold offerFrame; split
    · exact h
    · exact K.line (b := s.body) _ rfl h

/-- A frame checked. -/
theorem Kept.checked (kind tag : Byte) (fields : List Byte) {s : State} (h : P s.body) :
    P (frameCheckedWork kind tag fields s).body := by
  unfold frameCheckedWork
  split
  · exact h
  · exact K.arrive _ (s := hunt s) h

/-- A receive fault. -/
theorem Kept.fault (k : LineFault) {s : State} (h : P s.body) : P (faultWork k s).body := by
  unfold faultWork; split
  · exact K.place (K.line (b := s.body) _ rfl h)
  · exact h

/-- Places of the outgoing queue granted. -/
theorem Kept.grantLoop (n : Nat) {s : State} (h : P s.body) : P (grantLoop n s).body := by
  induction n generalizing s with
  | zero => exact h
  | succ n ih =>
    unfold Machine.grantLoop
    have h' : P (syncCompletions s).body := K.line (b := s.body) _ rfl h
    split
    · exact h'
    · rename_i u hu
      apply ih
      unfold grantOne at hu
      split at hu
      · cases hu
      · obtain ⟨c, _, hc⟩ := List.exists_of_findSome?_eq_some hu
        unfold grantTo at hc
        split at hc
        · split at hc
          · cases hc
            unfold takeFrame
            split
            · exact h'
            · exact K.answerFrame _ h'
          · cases hc
        · cases hr : classReport (syncCompletions s) c with
          | none => simp [hr] at hc
          | some x =>
            obtain ⟨m, w⟩ := x
            simp only [hr, Option.map_some, Option.some.injEq] at hc
            subst hc
            exact K.quiet (c := w.body) (classReport_quiet hr) h'

/-- The watch list at a frame boundary. -/
theorem Kept.watchWork (c : Count) {s : State} (h : P s.body) : P (watchWork c s).body := by
  unfold Machine.watchWork
  simp only
  generalize hs : ({ s with body := s.body.onLine _ } : State) = u
  have hu : P u.body := by rw [← hs]; exact K.line (b := s.body) _ rfl h
  generalize packReadings _ _ = l
  clear hs
  induction l generalizing u with
  | nil => exact hu
  | cons x xs ih =>
    apply ih
    unfold offerMeter
    split
    · exact hu
    · exact K.line (b := u.body) _ rfl hu

/-- One block's work at a frame boundary. -/
theorem Kept.block (k : BoundaryBlock) {s : State} (h : P s.body) : P (blockPiece k s).body := by
  unfold blockPiece
  split
  · exact h
  · rename_i d _
    cases k with
    | commits => exact K.work _ (.commitPieces d) _ h
    | sequencer => exact K.work _ (.sequencerPiece d) _ h
    | programmes => exact K.work _ (.programmePieces d) _ h
    | alarms => exact K.work _ (.alarmPiece d) _ h
    | cuts => exact K.work _ (.cutPieces d) _ h
    | watch =>
      simp only [watchPiece]
      split
      · exact h
      · refine K.work _ (.mark _) _ ?_
        exact K.watchWork d.frame h

/-- A step keeps what `Kept` says is kept. -/
theorem Kept.step {s t : State} (h : P s.body) (ht : step s = .next t) : P t.body := by
  unfold Machine.step at ht
  split at ht
  · cases ht; exact h
  · rename_i c rest hp
    have hu : P ({ s with pending := rest } : State).body := h
    generalize ({ s with pending := rest } : State) = u at *
    clear h hp
    have be : ∀ (f : Body → Body) (u : State), BlockWork f → P u.body → ∀ t, bodyEvent f u = .next t → P t.body := by
      intro f u hf h t ht
      cases ht
      exact K.place (K.work f hf _ h)
    have ar : ∀ (tag : Byte) (r : Request),
        (Host.Outcome.next (arriveRequest tag r u) : Host.Outcome State Fault Refusal) = .next t → P t.body := by
      intro tag r h; cases h; exact K.arrive _ hu
    cases c
    case deviceReset l b => cases ht; exact K.reset _ _ _ _
    case restartPerformed =>
      simp only [exec, execRestartPerformed, restartWork] at ht
      split at ht
      · cases ht; exact K.reset _ _ _ _
      · cases ht; exact hu
    case frameBoundary o =>
      cases ht
      apply K.place
      unfold frameBoundaryWork
      split
      · exact hu
      · rename_i d _
        refine K.time (b := ((o ++ usualOrder).foldl (fun s k => placeReports (blockPiece k s))
          (onBody (enterBoundary d) u)).body) _ rfl ?_
        have h0 : P (onBody (enterBoundary d) u).body := K.work _ (.enterBoundary d) _ hu
        generalize onBody (enterBoundary d) u = v at *
        generalize o ++ usualOrder = l
        clear hu
        induction l generalizing v with
        | nil => exact h0
        | cons k ks ih => exact ih _ (K.place (K.block k h0))
    case watchDue =>
      cases ht
      apply K.place
      unfold watchDueWork
      split
      · split
        · rename_i d _ _
          simp only [watchPiece]
          split
          · exact K.work _ (.enterBoundary d) _ hu
          · refine K.work _ (.mark _) _ ?_
            exact K.watchWork _ (s := onBody (enterBoundary d) u) (K.work _ (.enterBoundary d) _ hu)
        · exact hu
      · exact hu
    case drainComplete k =>
      simp only [exec, execDrainComplete] at ht
      split at ht
      · split at ht
        · exact be _ _ (by constructor) (by exact hu) t ht
        · cases ht
      · cases ht; exact hu
    case readComplete k d =>
      simp only [exec, execReadComplete] at ht
      split at ht
      · split at ht
        · exact be _ _ (by constructor) (by exact hu) t ht
        · cases ht
      · cases ht; exact hu
    case zeroFillAccessComplete k =>
      simp only [exec, execZeroFillAccessComplete] at ht
      split at ht
      · split at ht
        · exact be _ _ (by constructor) (by exact hu) t ht
        · cases ht
      · cases ht; exact hu
    case frameChecked k tg fs => cases ht; exact K.checked k tg fs hu
    case unknownKindRequest k tg fs => cases ht; exact K.arrive _ hu
    case receiveFault k => cases ht; exact K.fault _ hu
    case truncatedFrame => cases ht; exact K.fault _ hu
    case receiverIdle => cases ht; unfold idleWork; split <;> exact hu
    case breakLine => cases ht; exact K.place (K.line (b := (Machine.lineReset .discarding u).body) _ rfl (K.lineReset _ hu))
    case messageDeparture =>
      cases ht
      unfold departureWork
      split
      · exact hu
      · split
        · exact K.reset _ _ _ _
        · exact K.grantLoop _ hu
    case byteReceived v =>
      cases ht
      unfold byteWork
      split
      · split <;> exact hu
      · exact hu
      · simp only
        split
        · exact K.fault _ hu
        · split
          · split
            · exact K.checked _ _ _ (s := { u with rx := { u.rx with assembly := _ } }) hu
            · exact K.fault _ hu
          · exact hu
    case define => exact ar _ _ ht
    case set => exact ar _ _ ht
    case delay => exact ar _ _ ht
    case allocate => exact ar _ _ ht
    case start => exact ar _ _ ht
    case park => exact ar _ _ ht
    case release => exact ar _ _ ht
    case clear => exact ar _ _ ht
    case select => exact ar _ _ ht
    case port => exact ar _ _ ht
    case integrateStart => exact ar _ _ ht
    case integratePause => exact ar _ _ ht
    case integrateReset => exact ar _ _ ht
    case histo => exact ar _ _ ht
    case alarmcfg => exact ar _ _ ht
    case ack => exact ar _ _ ht
    case contact => exact ar _ _ ht
    case sceneAppend => exact ar _ _ ht
    case sceneRead => exact ar _ _ ht
    case take => exact ar _ _ ht
    case cancel => exact ar _ _ ht
    case resume => exact ar _ _ ht
    case abandon => exact ar _ _ ht
    case watchAdd => exact ar _ _ ht
    case watchRemove => exact ar _ _ ht
    case watchEmpty => exact ar _ _ ht
    case identify => exact ar _ _ ht
    case peek => exact ar _ _ ht
    case lineReset => exact ar _ _ ht
    case restart => exact ar _ _ ht
    all_goals exact be _ _ (by constructor) hu t ht

end Sys2Proof.Machine
end

