-- ==== Sys2Proof/Laws/Store.lean ====
section
/-! SUPPORT. The delay store's shared operations: what a grant leaves, the runs of FREE segments, the write side of a lane,
which nothing of the reader touches, and what a lane writer's frame does to it. -/

namespace Sys2Proof.Machine

/-! ## A grant (R59) -/

/-- A grant changes nothing but banks and lanes. -/
theorem grantBank_only (k : Fin 4) (b : Body) :
    grantBank k b = { b with banks := (grantBank k b).banks, lanes := (grantBank k b).lanes } := by
  unfold grantBank
  simp only
  repeat' split
  all_goals first | rfl | (unfold grantRead; split <;> rfl)

theorem grantBank_programme (k : Fin 4) (b : Body) (o : Fin 16) : (grantBank k b).programme o = b.programme o := by
  unfold grantBank; simp only; repeat' split
  all_goals first | rfl | (unfold grantRead; split <;> rfl)

/-- Of a bank it changes the access in progress and the read pointer alone. -/
theorem grantBank_bank (k : Fin 4) (b : Body) (o : Fin 4) :
    ((grantBank k b).bank o).queue = (b.bank o).queue ∧ ((grantBank k b).bank o).jobs = (b.bank o).jobs ∧
    ((grantBank k b).bank o).waiting = (b.bank o).waiting ∧ ((grantBank k b).bank o).segments = (b.bank o).segments := by
  have set : ∀ (c : Body) (x : Bank), x.queue = (c.bank k).queue → x.jobs = (c.bank k).jobs →
      x.waiting = (c.bank k).waiting → x.segments = (c.bank k).segments →
      ((c.setBank k x).bank o).queue = (c.bank o).queue ∧ ((c.setBank k x).bank o).jobs = (c.bank o).jobs ∧
      ((c.setBank k x).bank o).waiting = (c.bank o).waiting ∧
      ((c.setBank k x).bank o).segments = (c.bank o).segments := by
    intro c x h1 h2 h3 h4
    rw [Body.bank_setBank]
    split
    · rename_i h; subst h; exact ⟨h1, h2, h3, h4⟩
    · exact ⟨rfl, rfl, rfl, rfl⟩
  unfold grantBank
  simp only
  repeat' split
  · exact ⟨rfl, rfl, rfl, rfl⟩
  · exact set _ _ rfl rfl rfl rfl
  · unfold grantRead
    split
    · exact set (b.onLane _ _) _ rfl rfl rfl rfl
    · exact ⟨rfl, rfl, rfl, rfl⟩
  · exact set _ _ rfl rfl rfl rfl
  · exact set _ _ rfl rfl rfl rfl

/-- Of a lane it changes the mark of its read request alone. -/
theorem grantBank_lane (k : Fin 4) (b : Body) (o : Fin 16) :
    { (grantBank k b).lane o with readRequest := none } = { b.lane o with readRequest := none } := by
  unfold grantBank
  simp only
  repeat' split
  · rfl
  · rfl
  · unfold grantRead
    split
    · show { (b.setLane _ _).lane o with readRequest := none } = _
      rw [Body.lane_setLane]
      split
      · rename_i h; subst h; rfl
      · rfl
    · rfl
  · rfl
  · rfl

/-! ## The runs of FREE segments (R47, R48) -/

/-- Segments f to f + n - 1 are there and FREE. -/
def FreeAt (l : List (Option (Fin 16))) (f n : Nat) : Prop := ∀ i, f ≤ i → i < f + n → l[i]? = some none

/-- `freeRuns` over the segments after `pre`, with the run that stands open at its end. -/
theorem freeRuns_spec (pre rest : List (Option (Fin 16))) (open_ : Option (Nat × Nat))
    (ho : ∀ r, open_ = some r → r.1 + r.2 = pre.length ∧ FreeAt pre r.1 r.2 ∧ 1 ≤ r.2 ∧
      (r.1 = 0 ∨ ∃ o, pre[r.1 - 1]? = some (some o)))
    (hn : open_ = none → pre = [] ∨ ∃ o, pre[pre.length - 1]? = some (some o)) :
    (∀ r ∈ freeRuns rest pre.length open_, FreeAt (pre ++ rest) r.1 r.2 ∧ 1 ≤ r.2) ∧
    (freeRuns rest pre.length open_).Pairwise (fun a b => a.1 < b.1) ∧
    (∀ r ∈ freeRuns rest pre.length open_, (match open_ with | some x => x.1 | none => pre.length) ≤ r.1) ∧
    (∀ f n, 1 ≤ n → (match open_ with | some x => x.1 | none => pre.length) ≤ f → FreeAt (pre ++ rest) f n →
      ∃ r ∈ freeRuns rest pre.length open_, r.1 ≤ f ∧ f + n ≤ r.1 + r.2) := by
  induction rest generalizing pre open_ with
  | nil =>
    cases open_ with
    | none =>
      simp only [freeRuns, List.append_nil]
      refine ⟨by simp, by simp, by simp, fun f n hn' hf hfree => ?_⟩
      have := hfree f (le_refl _) (by omega)
      rw [List.getElem?_eq_none hf] at this; cases this
    | some r =>
      obtain ⟨h1, h2, h3, h4⟩ := ho r rfl
      simp only [freeRuns, List.append_nil]
      refine ⟨by simp; exact ⟨h2, h3⟩, by simp, by simp, fun f n hn' hf hfree => ⟨r, by simp, hf, ?_⟩⟩
      have := hfree (f + n - 1) (by omega) (by omega)
      rw [h1]; by_contra hc
      rw [List.getElem?_eq_none (by omega)] at this; cases this
  | cons x rest ih =>
    have hL : pre.length + 1 = (pre ++ [x]).length := by simp
    have hA : pre ++ x :: rest = (pre ++ [x]) ++ rest := by simp
    cases x with
    | none =>
      cases open_ with
      | none =>
        simp only [freeRuns]
        rw [hA, hL]
        have := ih (pre ++ [none]) (some (pre.length, 1)) (by
          intro r hr; cases hr
          refine ⟨by simp, ?_, by simp, ?_⟩
          · intro i h1 h2
            have : i = pre.length := by omega
            subst this; simp
          · rcases hn rfl with h | ⟨o, h⟩
            · left; simp [h]
            · right; refine ⟨o, ?_⟩
              have hl : pre.length - 1 < pre.length := by
                rcases Nat.lt_or_ge (pre.length - 1) pre.length with h' | h'
                · exact h'
                · rw [List.getElem?_eq_none h'] at h; cases h
              simp only [List.getElem?_append_left hl, h]) (by simp)
        exact this
      | some r =>
        obtain ⟨h1, h2, h3, h4⟩ := ho r rfl
        simp only [freeRuns]
        rw [hA, hL]
        have hlt : r.1 < pre.length := by omega
        have := ih (pre ++ [none]) (some (r.1, r.2 + 1)) (by
          intro r' hr; cases hr
          refine ⟨by simp; omega, ?_, by simp, ?_⟩
          · intro i h1' h2'
            by_cases e : i = pre.length
            · subst e; simp
            · rw [List.getElem?_append_left (by simp at h2'; omega)]; exact h2 i h1' (by simp at h2'; omega)
          · rcases h4 with h | ⟨o, h⟩
            · exact Or.inl h
            · right; refine ⟨o, ?_⟩
              simp only
              rw [List.getElem?_append_left (by omega)]; exact h) (by simp)
        exact this
    | some o =>
      have last : (pre ++ [some o])[(pre ++ [some o]).length - 1]? = some (some o) := by simp
      cases open_ with
      | none =>
        simp only [freeRuns]
        rw [hA, hL]
        obtain ⟨i1, i2, i3, i4⟩ := ih (pre ++ [some o]) none (by simp) (fun _ => Or.inr ⟨o, last⟩)
        refine ⟨i1, i2, fun r hr => ?_, fun f n hn' hf hfree => ?_⟩
        · have := i3 r hr; simp at this ⊢; omega
        · refine i4 f n hn' ?_ hfree
          simp only
          by_contra hc
          have : f = pre.length := by simp at hf hc; omega
          have hh := hfree f (le_refl _) (by omega)
          rw [this] at hh; simp at hh
      | some r =>
        obtain ⟨h1, h2, h3, h4⟩ := ho r rfl
        simp only [freeRuns]
        rw [hA, hL]
        obtain ⟨i1, i2, i3, i4⟩ := ih (pre ++ [some o]) none (by simp) (fun _ => Or.inr ⟨o, last⟩)
        refine ⟨fun r' hr' => ?_, ?_, fun r' hr' => ?_, fun f n hn' hf hfree => ?_⟩
        · rcases List.mem_cons.1 hr' with e | e
          · subst e; refine ⟨?_, h3⟩
            intro i a b
            rw [List.append_assoc, List.getElem?_append_left (by omega)]; exact h2 i a b
          · exact i1 r' e
        · rw [List.pairwise_cons]; refine ⟨fun r' hr' => ?_, i2⟩
          have := i3 r' hr'; simp at this; omega
        · rcases List.mem_cons.1 hr' with e | e
          · subst e; simp
          · have := i3 r' e; simp at this ⊢; omega
        · have key : ∀ i, f ≤ i → i < f + n → i ≠ pre.length := by
            intro i a b e
            have := hfree i a b
            rw [e] at this; simp at this
          by_cases hfp : f < pre.length
          · refine ⟨r, by simp, hf, ?_⟩
            by_contra hc
            exact key pre.length (by omega) (by omega) rfl
          · have : f ≠ pre.length := key f (le_refl _) (by omega)
            obtain ⟨r', hr', hx⟩ := i4 f n hn' (by simp; omega) hfree
            exact ⟨r', List.mem_cons_of_mem _ hr', hx⟩

/-- The runs of a bank: FREE throughout, in rising order, and no FREE segments lie outside them. -/
theorem runs_spec (k : Bank) :
    (∀ r ∈ k.runs, FreeAt k.segments r.1 r.2 ∧ 1 ≤ r.2) ∧ k.runs.Pairwise (fun a b => a.1 < b.1) ∧
    (∀ f n, 1 ≤ n → FreeAt k.segments f n → ∃ r ∈ k.runs, r.1 ≤ f ∧ f + n ≤ r.1 + r.2) := by
  obtain ⟨a, b, _, d⟩ := freeRuns_spec [] k.segments none (by simp) (by simp)
  exact ⟨a, b, fun f n h1 h2 => d f n h1 (by simp) h2⟩

/-! ## The write side of a lane, and what the reader leaves alone (R52, R53, R63) -/

/-- What the reader and the arbiter leave alone: of the lanes, the programmes and the banks. -/
structure WriteSide where
  lanes      : Vector (Option Source × Count × Option (List Sample)) 16
  programmes : Vector (ProgState × Nat × Option Line × Option Settings) 16
  banks      : Vector (List QueuedFrame × List (Fin 16)) 4

def Lane.writeSide (l : Lane) : Option Source × Count × Option (List Sample) := (l.source, l.writeSeq, l.holding)
def Programme.writeSide (r : Programme) : ProgState × Nat × Option Line × Option Settings :=
  (r.state, r.writeDrops, r.line, r.active)
def Bank.writeSide (k : Bank) : List QueuedFrame × List (Fin 16) := (k.queue, k.waiting)
def Body.writeSide (b : Body) : WriteSide :=
  ⟨b.lanes.map Lane.writeSide, b.programmes.map Programme.writeSide, b.banks.map Bank.writeSide⟩

theorem onLane_writeSide {b : Body} {p : Fin 16} {f : Lane → Lane} (h : ∀ l, (f l).writeSide = l.writeSide) :
    (b.onLane p f).writeSide = b.writeSide := by
  simp only [Body.writeSide, Body.onLane, Body.setLane]
  rw [map_set_same _ _ _ _ (h (b.lane p))]
theorem onProgramme_writeSide {b : Body} {p : Fin 16} {f : Programme → Programme}
    (h : ∀ r, (f r).writeSide = r.writeSide) : (b.onProgramme p f).writeSide = b.writeSide := by
  simp only [Body.writeSide, Body.onProgramme, Body.setProgramme]
  rw [map_set_same _ _ _ _ (h (b.programme p))]
theorem setBank_writeSide {b : Body} {k : Fin 4} {x : Bank} (h : x.writeSide = (b.bank k).writeSide) :
    (b.setBank k x).writeSide = b.writeSide := by
  simp only [Body.writeSide, Body.setBank]; rw [map_set_same _ _ _ _ h]

theorem grantRead_writeSide (b k p) : (grantRead b k p).writeSide = b.writeSide := by
  unfold grantRead; split
  · simp only [Body.onBank]
    refine (setBank_writeSide ?_).trans (onLane_writeSide ?_)
    · rfl
    · intro _; rfl
  · rfl

theorem grantBank_writeSide (k b) : (grantBank k b).writeSide = b.writeSide := by
  unfold grantBank; simp only; repeat' split
  · rfl
  · exact setBank_writeSide rfl
  · exact grantRead_writeSide _ _ _
  · exact setBank_writeSide rfl
  · exact setBank_writeSide rfl

theorem openReads_writeSide (p n b) : (openReads p n b).writeSide = b.writeSide := by
  induction n generalizing b with
  | zero => rfl
  | succ n ih =>
    unfold openReads; simp only; repeat' split
    · exact (ih _).trans (onLane_writeSide (by intro _; rfl))
    · exact (grantBank_writeSide _ _).trans (onLane_writeSide (by intro _; rfl))
    · rfl

theorem pumpReads_writeSide (p b) : (pumpReads p b).writeSide = b.writeSide := by
  unfold pumpReads; simp only; split
  · exact (openReads_writeSide _ _ _).trans (onLane_writeSide (by intro _; rfl))
  · exact onLane_writeSide (by intro _; rfl)

theorem completeTag_writeSide (t o d b) : (completeTag t o d b).writeSide = b.writeSide := rfl

theorem endChange_writeSide (p o b) : (endChange p o b).writeSide = b.writeSide := by
  unfold endChange; repeat' split
  · rfl
  · exact (completeTag_writeSide _ _ _ _).trans (onLane_writeSide (by intro _; rfl))
  · exact (onLane_writeSide (by intro _; rfl)).trans (onLane_writeSide (by intro _; rfl))
  · exact onLane_writeSide (by intro _; rfl)

theorem settleTail_writeSide (p b) : (settleTail p b).writeSide = b.writeSide := by
  unfold settleTail endTail; simp only; repeat' split
  · exact (onLane_writeSide (by intro _; rfl)).trans (onLane_writeSide (by intro _; rfl))
  · exact (endChange_writeSide _ _ _).trans (onLane_writeSide (by intro _; rfl))
  · exact onLane_writeSide (by intro _; rfl)
  · exact onLane_writeSide (by intro _; rfl)
  · rfl

theorem refreshSetpoint_writeSide (p b) : (refreshSetpoint p b).writeSide = b.writeSide := by
  unfold refreshSetpoint; split <;> exact onLane_writeSide (by intro _; rfl)

theorem moveReader_writeSide (p d b) : (moveReader p d b).writeSide = b.writeSide := by
  unfold moveReader; simp only; split
  · exact onLane_writeSide (by intro _; rfl)
  · exact (refreshSetpoint_writeSide _ _).trans
      ((onLane_writeSide (by intro _; rfl)).trans (onLane_writeSide (by intro _; rfl)))

theorem makeTail_writeSide (p b) : (makeTail p b).writeSide = b.writeSide := onLane_writeSide fun l => by
  cases hr : l.ratio <;> simp [Lane.writeSide]

theorem markSlip_writeSide (p b) : (markSlip p b).writeSide = b.writeSide := onLane_writeSide (by intro _; rfl)

theorem overrun_writeSide (p b) : (overrun p b).writeSide = b.writeSide := by
  unfold overrun countSlip; simp only
  refine (pumpReads_writeSide _ _).trans ((markSlip_writeSide _ _).trans
    ((onProgramme_writeSide (by intro _; rfl)).trans ?_))
  split
  · rw [moveReader_writeSide, makeTail_writeSide, settleTail_writeSide]
  · refine (onLane_writeSide (by intro _; rfl)).trans ?_
    rw [moveReader_writeSide, settleTail_writeSide]

theorem watchOverload_writeSide (p x b) : (watchOverload p x b).writeSide = b.writeSide :=
  (onProgramme_writeSide (by intro _; rfl)).trans (onLane_writeSide (by intro _; rfl))

theorem afterWrite_writeSide (p b) : (afterWrite p b).writeSide = b.writeSide := by
  unfold afterWrite
  cases (b.programme p).line with
  | none => rfl
  | some line =>
    simp only
    cases (b.programme p).state <;> simp only
    case running => split; exacts [overrun_writeSide _ _, pumpReads_writeSide _ _]
    case priming => split; exacts [onLane_writeSide (by intro _; rfl), rfl]
    case starved => split; exacts [onLane_writeSide (by intro _; rfl), rfl]

/-- Equal write sides, read for one lane, one programme, one bank. -/
theorem writeSide_lane {b c : Body} (h : c.writeSide = b.writeSide) (o : Fin 16) :
    (c.lane o).writeSide = (b.lane o).writeSide := by
  have := congrArg (fun x : WriteSide => x.lanes[o]) h
  simpa [Body.writeSide, Body.lane] using this
theorem writeSide_programme {b c : Body} (h : c.writeSide = b.writeSide) (o : Fin 16) :
    (c.programme o).writeSide = (b.programme o).writeSide := by
  have := congrArg (fun x : WriteSide => x.programmes[o]) h
  simpa [Body.writeSide, Body.programme] using this
theorem writeSide_bank {b c : Body} (h : c.writeSide = b.writeSide) (o : Fin 4) :
    (c.bank o).writeSide = (b.bank o).writeSide := by
  have := congrArg (fun x : WriteSide => x.banks[o]) h
  simpa [Body.writeSide, Body.bank] using this

/-! ## A frame handed over (R52, R53) -/

/-- With a place in the write queue a frame handed over is written (R52). -/
theorem handOver_writes {p : Fin 16} {x : List Sample} {b : Body} {line : Line}
    (hl : (b.programme p).line = some line)
    (h : (b.bank line.bank).queue.length < 16) :
    ((handOver p x b).lane p).writeSeq = (b.lane p).writeSeq + 1 ∧ ((handOver p x b).lane p).holding = (b.lane p).holding ∧
    ((handOver p x b).bank line.bank).queue = (b.bank line.bank).queue ++
      [{ lane := p, seq := (b.lane p).writeSeq, samples := x, position := (b.lane p).writeSeq.toNat % line.length }] := by
  have : handOver p x b = enterQueue p x b := by
    unfold handOver; rw [hl]; simp only; exact if_pos h
  rw [this]; unfold enterQueue; rw [hl]; simp only
  generalize hd : Body.onLane (b.onBank _ _) _ _ = d
  have m : (afterWrite p (watchOverload p x (grantBank line.bank d))).writeSide = d.writeSide := by
    rw [afterWrite_writeSide, watchOverload_writeSide, grantBank_writeSide]
  have m2 := writeSide_lane m p
  have m3 := writeSide_bank m line.bank
  generalize afterWrite _ _ = e at *
  simp only [Lane.writeSide, Bank.writeSide, Prod.mk.injEq] at m2 m3
  rw [m2.2.1, m2.2.2, m3.1, ← hd]
  simp

/-- With the queue full it goes to the holding place, and the lane to the end of the waiting order (R53). -/
theorem handOver_holds {p : Fin 16} {x : List Sample} {b : Body} {line : Line}
    (hl : (b.programme p).line = some line)
    (h : 16 ≤ (b.bank line.bank).queue.length) :
    ((handOver p x b).lane p).writeSeq = (b.lane p).writeSeq ∧ ((handOver p x b).lane p).holding = some x ∧
    ((handOver p x b).bank line.bank).queue = (b.bank line.bank).queue ∧
    ((handOver p x b).bank line.bank).waiting = (b.bank line.bank).waiting.filter (· ≠ p) ++ [p] ∧
    ((handOver p x b).programme p).writeDrops =
          (if (b.lane p).holding = none then (b.programme p).writeDrops
           else min 65535 ((b.programme p).writeDrops + 1)) ∧
    ((handOver p x b).programme p).slips = (b.programme p).slips := by
  have hf : ∀ l : List (Fin 16), l.filter (fun y => y != p) = l.filter (fun y => !decide (y = p)) := by
    intro l; congr 1
  unfold handOver; rw [hl]; simp only
  rw [if_neg (show ¬ (b.bank line.bank).queue.length < Config.writeQueuePlaces from Nat.not_lt.2 h)]
  rcases hh : (b.lane p).holding with _ | y
  · simp; exact hf _
  · simp [markSlip]; exact ⟨hf _, rfl⟩

end Sys2Proof.Machine
end

