-- ==== Sys2Proof/WellFormed.lean ====
section
/-! DEFINITION. When a command is well formed: every operand fits the field that R190 gives it, lists fit a body, a frame
of the table's unknown kind has a kind byte that is no request kind. A meaning is total all the same: what does not fit
is refused BAD_FIELD by the rules of the requests. -/

namespace Sys2Proof

/-- Fits one byte, two bytes, four bytes (R190). -/
def fits1 (n : Nat) : Bool := decide (n < 256)
def fits2 (n : Nat) : Bool := decide (n < 65536)
def fits4 (n : Nat) : Bool := decide (n < 4294967296)

/-- Fits two bytes, signed. -/
def fitsS2 (n : Int) : Bool := decide (-32768 ≤ n ∧ n ≤ 32767)

def Target.check : Target → Bool
  | .programme p => decide (p < 16)
  | .group g => decide (g < 4)

/-- A source in two bytes; port FFh is none, so no port is 255. -/
def sourceFits (s : Nat × Nat) : Bool := fits1 s.1 && fits1 s.2

def SettingItem.check : SettingItem → Bool
  | .layout _ | .failover _ | .revert _ | .delayMode _ | .slewLimit _ | .gainMode _ => true
  | .mainSource port slot => sourceFits (port, slot)
  | .backupSource v => v.all fun s => sourceFits s && s.1 != 255
  | .switchGuard v | .revertHold v | .rideTolerance v | .rideRate v | .limiterRelease v => fits2 v
  | .delayTarget v => fits4 v
  | .fixedGain v | .rideTarget v | .riderGate v | .ceiling v | .silenceThreshold v | .loudHigh v | .loudLow v
  | .phaseThreshold v => fitsS2 v
  | .outputSlots v => v.all fits1 && decide (v.length < 256)
  | .linkGroup v => v.all fun g => decide (g < 255)

/-- The bytes of a setting item, its code included (section 11.3). -/
def SettingItem.bytes : SettingItem → Nat
  | .layout _ | .failover _ | .revert _ | .delayMode _ | .slewLimit _ | .gainMode _ | .linkGroup _ => 2
  | .mainSource .. | .backupSource _ | .switchGuard _ | .revertHold _ | .rideTolerance _ | .rideRate _
  | .limiterRelease _ | .fixedGain _ | .rideTarget _ | .riderGate _ | .ceiling _ | .silenceThreshold _ | .loudHigh _
  | .loudLow _ | .phaseThreshold _ => 3
  | .delayTarget _ => 5
  | .outputSlots l => 2 + l.length

def itemsBytes (is : List SettingItem) : Nat := (is.map SettingItem.bytes).sum

/-- The items fit a body behind `before` bytes (section 11.1). -/
def itemsCheck (before : Nat) (is : List SettingItem) : Bool :=
  is.all SettingItem.check && decide (before + itemsBytes is ≤ Config.bodyLimit)

def AlarmFields.check (f : AlarmFields) : Bool :=
  f.onsetHold.all fits2 && f.releaseHold.all fits2 && f.contactMask.all fits1

def SceneRecord.check : SceneRecord → Bool
  | .set t is => t.check && itemsCheck 1 is
  | .delay t n _ => t.check && fits4 n
  | .slots p l => fits1 p && l.all fits1 && decide (l.length < 256)
  | .source p _ s => fits1 p && s.all fun s => sourceFits s && s.1 != 255
  | .alarmcfg e f => fits2 e && f.check
  | .integrate p _ => fits1 p
  | .wait n => fits1 n
  | .chain n => fits1 n

/-- The bytes of a record, its kind and field length included (section 11.4). -/
def SceneRecord.bytes : SceneRecord → Nat
  | .set _ is => 3 + itemsBytes is
  | .delay .. => 8
  | .slots _ l => 4 + l.length
  | .source .. => 6
  | .alarmcfg _ f => 5 + f.enabled.isSome.toNat + 2 * f.onsetHold.isSome.toNat + 2 * f.releaseHold.isSome.toNat +
      f.latching.isSome.toNat + f.contactMask.isSome.toNat
  | .integrate .. => 4
  | .wait _ | .chain _ => 3

/-- The records fit the body of a SCENE APPEND, behind kind, tag, scene and flags (R158); one that cannot be read has a
kind byte at least. -/
def recordsCheck (rs : List (Option SceneRecord)) : Bool :=
  rs.all (fun r => r.all SceneRecord.check) &&
    decide (4 + (rs.map fun r => (r.map SceneRecord.bytes).getD 1).sum ≤ Config.bodyLimit)

def Trigger.check : Trigger → Bool
  | .nextBoundary | .atFrame _ => true
  | .gpi k _ => fits4 k

/-- The operands of a command fit their fields. -/
def Instr.check : Instr → Bool
  | .deviceReset _ _ => true
  | .restartPerformed => true
  | .hrefEdge _ => true
  | .hrefLoss => true
  | .houseSample => true
  | .fadeTailEnd _ => true
  | .rampEnd _ => true
  | .vrefEdge => true
  | .vrefLoss => true
  | .generatedFrameBoundary => true
  | .frameBoundary order => decide order.Nodup
  | .onsetHoldExpiry _ => true
  | .releaseHoldExpiry _ => true
  | .revert _ => true
  | .selectApply _ => true
  | .directCommit _ => true
  | .cutMade _ => true
  | .regulationTick => true
  | .stepBoundary => true
  | .integrationResetApply _ => true
  | .sweepVisitEnd => true
  | .portFrameEdge _ _ _ => true
  | .portSyncMisaligned _ _ => true
  | .portSyncAbsent _ _ => true
  | .portClockLoss _ _ => true
  | .trackerLossTimeout _ _ => true
  | .holdoverTimeout _ => true
  | .drainComplete _ => true
  | .readComplete _ damage => decide (damage.length ≤ 8)
  | .zeroFillAccessComplete _ => true
  | .define _ p is => fits1 p && itemsCheck 3 is
  | .set _ t is => t.check && itemsCheck 3 is
  | .delay _ t n _ => t.check && fits4 n
  | .allocate _ p n => fits1 p && fits2 n
  | .start _ p => fits1 p
  | .park _ p => fits1 p
  | .release _ p => fits1 p
  | .clear _ p => fits1 p
  | .select _ p _ => fits1 p
  | .port _ q _ => fits1 q
  | .integrateStart _ p => fits1 p
  | .integratePause _ p => fits1 p
  | .integrateReset _ p => fits1 p
  | .histo _ p f n => fits1 p && fits2 f && fits1 n
  | .alarmcfg _ e f => fits2 e && f.check
  | .ack _ e => e.all fun e => decide (e < 65535)
  | .contact _ k _ => fits1 k
  | .sceneAppend _ n _ rs => fits1 n && recordsCheck rs
  | .sceneRead _ n f c => fits1 n && fits1 f && fits2 c
  | .take _ n t => fits1 n && t.check
  | .cancel _ _ => true
  | .resume _ => true
  | .abandon _ => true
  | .watchAdd _ n p => fits2 n && fits1 p
  | .watchRemove _ n => fits2 n
  | .watchEmpty _ => true
  | .identify _ => true
  | .peek _ n => fits2 n
  | .lineReset _ => true
  | .restart _ => true
  | .unknownKindRequest kind _ fields => !requestKind kind.toNat && decide (fields.length + 2 ≤ Config.bodyLimit)
  | .gpiEdge _ _ => true
  | .takeTriggerMet => true
  | .sceneSetRecord => true
  | .sceneDelayRecord => true
  | .sceneSlotsRecord => true
  | .sceneSourceRecord => true
  | .sceneAlarmcfgRecord => true
  | .sceneIntegrateRecord => true
  | .sceneWaitRecord => true
  | .sceneChainRecord => true
  | .sceneListEnd => true
  | .sceneCommit => true
  | .waitEnd => true
  | .haltExpiry => true
  | .watchDue => true
  | .frameChecked _ _ fields => decide (fields.length + 2 ≤ Config.bodyLimit)
  | .receiveFault _ => true
  | .truncatedFrame => true
  | .receiverIdle => true
  | .breakLine => true
  | .messageDeparture => true
  | .portClockReturn _ => true
  | .byteReceived _ => true

end Sys2Proof
end

