-- ==== Sys2Proof/Tests/Slice0.lean ====
section
/-! SUPPORT. Tests: an ill-formed term for each check of WellFormed, values that the manual gives, one step of a small state for
some commands, and for the statements of Obligations.lean states and operands that meet their hypotheses. -/

namespace Sys2Proof.Tests

/- One theorem at a time: the checks are many, and each takes a thread otherwise. -/
set_option Elab.async false

open Sys2Proof.Machine

/-! ## Ill-formed commands are refused by the check -/

theorem test_ill_formed_items :
    (SettingItem.check (.mainSource 256 0) = false ∧ SettingItem.check (.backupSource (some (255, 0))) = false ∧
      SettingItem.check (.switchGuard 65536) = false ∧ SettingItem.check (.delayTarget 4294967296) = false ∧
      SettingItem.check (.fixedGain (-32769)) = false ∧ SettingItem.check (.outputSlots [256]) = false ∧
      SettingItem.check (.linkGroup (some 255)) = false) ∧
    (Target.check (.programme 16) = false ∧ Target.check (.group 4) = false ∧
      AlarmFields.check { onsetHold := some 65536 } = false ∧ AlarmFields.check { releaseHold := some 65536 } = false ∧
      AlarmFields.check { contactMask := some 256 } = false ∧ Trigger.check (.gpi 4294967296 .rising) = false) ∧
    (SceneRecord.check (.set (.programme 16) []) = false ∧ SceneRecord.check (.delay (.group 4) 0 .cut) = false ∧
      SceneRecord.check (.slots 256 []) = false ∧ SceneRecord.check (.source 256 .main none) = false ∧
      SceneRecord.check (.alarmcfg 65536 {}) = false ∧ SceneRecord.check (.integrate 256 .start) = false ∧
      SceneRecord.check (.wait 256) = false ∧ SceneRecord.check (.chain 256) = false) := by decide

theorem test_ill_formed_commands :
    (Instr.check (.frameBoundary [.alarms, .alarms]) = false ∧ Instr.check (.readComplete 0 (List.replicate 9 0)) = false ∧
      Instr.check (.define 0 256 []) = false ∧ Instr.check (.set 0 (.programme 16) []) = false ∧
      Instr.check (.delay 0 (.programme 0) 4294967296 .cut) = false ∧ Instr.check (.allocate 0 0 65536) = false ∧
      Instr.check (.start 0 256) = false ∧ Instr.check (.park 0 256) = false ∧ Instr.check (.release 0 256) = false ∧
      Instr.check (.clear 0 256) = false ∧ Instr.check (.select 0 256 .main) = false ∧
      Instr.check (.port 0 256 .k48) = false ∧ Instr.check (.integrateStart 0 256) = false ∧
      Instr.check (.integratePause 0 256) = false ∧ Instr.check (.integrateReset 0 256) = false ∧
      Instr.check (.histo 0 0 0 256) = false) ∧
    (Instr.check (.alarmcfg 0 65536 {}) = false ∧ Instr.check (.ack 0 (some 65535)) = false ∧
      Instr.check (.contact 0 256 .steady) = false ∧ Instr.check (.sceneAppend 0 256 0 []) = false ∧
      Instr.check (.sceneRead 0 0 256 1) = false ∧ Instr.check (.take 0 256 .nextBoundary) = false ∧
      Instr.check (.watchAdd 0 65536 1) = false ∧ Instr.check (.watchRemove 0 65536) = false ∧
      Instr.check (.peek 0 65536) = false ∧ Instr.check (.unknownKindRequest 0x1A 0 []) = false ∧
      Instr.check (.frameChecked 0 0 (List.replicate 249 0)) = false) := by decide +kernel

/-- Items and records that do not fit a frame: 248 bytes are left for the fields of a request. -/
theorem test_ill_formed_lengths :
    Instr.check (.define 0 3 (List.replicate 124 (.switchGuard 1))) = false ∧
    Instr.check (.sceneAppend 0 5 0 (List.replicate 83 (some (.wait 1)))) = false ∧
    Instr.check (.sceneAppend 0 5 0 (List.replicate 82 (some (.wait 1)))) = true := by decide +kernel

theorem test_well_formed_commands :
    Instr.check (.frameBoundary [.alarms, .cuts]) = true ∧ Instr.check (.define 0 15 [.layout .stereo]) = true ∧
    Instr.check (.unknownKindRequest 0x1B 0 []) = true ∧ Instr.check (.frameChecked 0 0 (List.replicate 248 0)) = true := by
  decide +kernel

/-! ## Values the manual gives -/

/-- The CRC of the nine digits (section 10.2). -/
theorem test_crc_of_nine_digits : crc [0x31, 0x32, 0x33, 0x34, 0x35, 0x36, 0x37, 0x38, 0x39] = 0x29B1 := by decide +kernel

/-- A zero sample, and a word with its written mark clear (R191). -/
theorem test_sample_words :
    sampleWord 0 = 0x00000020 ∧ wordPasses 0 = false ∧ wordPasses 0x00000020 = true ∧ sampleWord 1 = 0x00000160 := by
  decide +kernel

/-- The gated mean of the example of chapter 6: the loudness of each bin's centre, and of a mean of two. -/
theorem test_bin_centres : loudness (centreEnergy 469) = some (-231) ∧ loudness (centreEnergy 180) = some (-520) := by
  decide +kernel

/-- The body of a SET of programme 3 (section 11.3), read as its layout says. -/
theorem test_read_set :
    readRequest 0x02 [3, 5, 0, 250] = some (.set (.programme 3) [.switchGuard 250]) ∧
    readRequest 0x02 [0x82, 11, 0xFF, 0xF6] = some (.set (.group 2) [.fixedGain (-10)]) ∧
    readRequest 0x05 [16] = some (.start 16) ∧ readRequest 0x05 [] = none ∧ readRequest 0x05 [1, 2] = none := by decide +kernel

/-- The count of SCENE READ has two bytes; an ALARMCFG record keeps the unused bits of its presence byte, takes no more bytes
than the fields it names, and reads back as it stood (sections 11.3, 11.4). -/
theorem test_read_scene_bodies :
    readRequest 0x11 [5, 0, 0, 8] = some (.sceneRead 5 0 8) ∧ readRequest 0x11 [5, 0, 8] = none ∧
    (let f : AlarmFields := { enabled := some true, reserved := 1 }
     readRecord 4 [0, 153, 0x21, 1] = some (.alarmcfg 153 f) ∧ readRecord 4 [0, 153, 0x21, 1, 7] = none ∧
       fieldBytes (recordMessage (.alarmcfg 153 f)) = [4, 4, 0, 153, 0x21, 1]) := by decide +kernel

/-! ## What the statements ask of a state: for each, states and operands that meet it -/

/-- The command answers a next state of which the test holds. -/
def leadsTo (c : Instr) (s : State) (holds : State → Bool) : Bool :=
  match exec c s with
  | .next t => holds t
  | _ => false

/-- The reset machine with its blocks changed. -/
def blocks (f : Body → Body) : State := { State.reset with body := f State.reset.body }

/-- The reset machine with its house timing changed. -/
def timed (f : Timing → Timing) : State := blocks fun b => b.onTiming f

/-- A stereo set from port 0, and a line of one segment. -/
def stereo : Settings := { layout := .stereo, main := { port := 0, slot := 0 } }
def oneSegment : Line := { bank := 0, first := 0, count := 1, length := 2048 }

/-- Programme 3 in a state, with a set and a line, and the blocks changed beside it. -/
def held (x : ProgState) (f : Body → Body := id) : State :=
  blocks fun b => f (b.setProgramme 3 { state := x, active := some stereo, line := some oneSegment })

/-- A pending set of programme 3. -/
def waits (o : Owner) (d : Option DelayOrigin := none) : Pending :=
  { settings := { stereo with slots := some [0, 63] }, owner := o, delay := d }

def pending3 (x : ProgState) (w : Pending) (f : Body → Body := id) : State :=
  held x fun b => f (b.onProgramme 3 fun r => { r with pending := some w })

/-- The sequencer of the reset machine changed. -/
def sequenced (f : Sequencer → Sequencer) (g : Body → Body := id) : State := blocks fun b => g (b.onSequencer f)

/-- A take of scene 5 by tag 9, and the operation of that tag. -/
def take5 : Take := { scene := 5, trigger := .nextBoundary, tag := 9 }
def takeOp : Deferred := { tag := 9, kind := .take, subject := 5 }

/-- The running take of scene 5 in a state of the sequencer, its operation in flight. -/
def running (x : SeqState) (f : Sequencer → Sequencer := id) (g : Body → Body := id) : State :=
  sequenced (fun q => f { q with state := x, takes := [take5], current := some 5 })
    fun b => g (b.onLine fun l => { l with deferred := [takeOp] })

/-- The answer to a RESTART. -/
def restartAnswer : Message := { kind := .answer, tag := 1, fields := [num1 0x19] }

/-- A restart pending, its answer the oldest message. -/
def restarting : State :=
  { State.reset with rx := { restartPending := true }, tx := { queue := [restartAnswer] } }

theorem test_witness_StepRunsFrontCommand :
    ({ State.reset with pending := [.vrefEdge, .hrefLoss] } : State).pending = .vrefEdge :: [.hrefLoss] ∧
      State.reset.pending = [] := by decide +kernel

theorem test_witness_ResetsGiveResetValues :
    restarting.rx.restartPending = true ∧ restarting.tx.queue = restartAnswer :: [] ∧ restartAnswer.kind = .answer ∧
      restartAnswer.fields.head? = some (num1 0x19) := by decide +kernel

/-- Half a nominal house sample is the first interval that an edge may end. -/
theorem test_witness_HrefEdgeAndLoss :
    (timed fun x => { x with href := .locked }).body.timing.href = .locked ∧
      Config.nominalInterval ≤ 2 * (Config.nominalInterval / 2) ∧
      2 * (Config.nominalInterval / 2 - 1) < Config.nominalInterval ∧ State.reset.body.timing.href = .free ∧
      (∀ x ∈ [RefState.free, .locked], let t := (timed fun t => { t with href := x, samplesOwed := 0 }).body.timing
        t.samplesOwed = 0 ∧ t.href = x) := by
  decide +kernel

/-- VREF LOCKED, `n` house samples from the previous boundary, no boundary open. -/
def sinceBoundary (n : Nat) (w : Option (Option Nat)) : State :=
  timed fun x => { x with href := .locked, vref := .locked, sinceBoundary := n, vrefWaiting := w, boundary := none }

theorem test_witness_VrefEdgeJudgedAndMade :
    State.reset.body.timing.vref = .free ∧
    ([798, 799, 1999, 2000, 2098].all fun n =>
      (sinceBoundary n none).body.timing.vref == .locked && (sinceBoundary n none).body.timing.vrefWaiting == none) = true ∧
    ([798, 799, 1999, 2000, 2098].map fun n =>
      let d := (sinceBoundary n none).body.timing.sinceBoundary + 1
      (decide (d < 800), decide (800 ≤ d ∧ d ≤ 2000), decide (2001 ≤ d ∧ d ≤ 2099))) =
      [(true, false, false), (false, true, false), (false, true, false), (false, false, true), (false, false, true)] ∧
    (sinceBoundary 1919 (some (some 1920))).body.timing.vrefWaiting.isSome = true ∧
    (let s := sinceBoundary 1919 (some (some 1920))
     s.body.timing.href = .locked ∧ Config.nominalInterval ≤ 2 * Config.nominalInterval ∧
       s.body.timing.vrefWaiting = some (some 1920) ∧ s.body.timing.boundary = none) ∧
    (∀ w ∈ [some none, none], ∀ x ∈ [RefState.free, .locked],
      let t := (timed fun t => { t with href := x, samplesOwed := 0, vrefWaiting := w, boundary := none }).body.timing
      t.href = x ∧ t.samplesOwed = 0 ∧ t.vrefWaiting = w ∧ t.boundary = none) := by decide +kernel

theorem test_witness_BoundariesGenerated :
    (let s := sinceBoundary 2100 none
     s.body.timing.boundary = none ∧ s.body.timing.vref = .locked ∧ 2100 ≤ s.body.timing.sinceBoundary) ∧
    (let s := timed fun x => { x with sinceBoundary := 1920, boundary := none }
     s.body.timing.boundary = none ∧ s.body.timing.vref = .free ∧
       s.body.timing.generatedLength ≤ s.body.timing.sinceBoundary) := by decide +kernel

/-- The boundary of count 1 is open at reset. -/
theorem test_witness_FrameBoundary :
    (let s := pending3 .running (waits .direct)
     s.body.timing.boundary = some { frame := 1 } ∧ (s.body.programme 3).pending = some (waits .direct) ∧
       (waits .direct).owner = .direct ∧ (s.body.programme 3).active = some stereo ∧
       (3 : Fin 16) ∉ ({ frame := 1 } : Boundary).committed) ∧ contactsRight State.reset.body := by
  unfold contactsRight
  decide +kernel

/-- An entry of each state at each end of its holds, with its condition holding and not. -/
theorem test_witness_BoundaryEvaluation :
    ∀ x ∈ [{ onsetHold := 0 }, { onsetHold := 1 }, { state := .onset, countdown := 1 }, { state := .onset, countdown := 2 },
        { state := .active, latching := true }, { state := .active, releaseHold := 0 }, { state := .active, releaseHold := 1 },
        { state := .release, countdown := 1 }, { state := .release, countdown := 2 }, { state := .latched },
        ({ enabled := false } : Entry)],
      let s := blocks fun b => b.setEntry 152 x
      s.body.entry 152 = x ∧ s.body.timing.boundary = some { frame := 1 } ∧ ({ frame := 1 } : Boundary).alarmsDone = false ∧
        (152 : Fin 154) ∉ ({ frame := 1 } : Boundary).evaluated ∧ s.body.sequencer.state ≠ .committing ∧
        condition s.body 152 = true ∧ condition (s.body.onTiming fun y => { y with href := .locked }) 152 = false := by
  decide +kernel

theorem test_witness_AlarmConditions :
    ((held .running).body.programme 3).active = some stereo ∧ (State.reset.body.programme 3).active = none := by decide +kernel

/-- A set whose slots differ from the active set's, one whose slots do not, and slots that a list holds and none holds. -/
theorem test_witness_DirectCommit :
    (let s := pending3 .running (waits .direct)
     s.body.timing.boundary = some { frame := 1 } ∧ (3 : Fin 16) ∉ ({ frame := 1 } : Boundary).committed ∧
       (s.body.programme 3).pending = some (waits .direct) ∧ (waits .direct).owner = .direct ∧
       (s.body.programme 3).active = some stereo ∧ stereo.slots ≠ (waits .direct).settings.slots) ∧
    (let s := pending3 .running { settings := stereo, owner := .direct }
     (s.body.programme 3).pending = some { settings := stereo, owner := .direct }) ∧
    (let b := State.reset.body.setProgramme 3 { state := .running, active := some (waits .direct).settings }
     (b.programme 3).active.bind Settings.slots = some [0, 63] ∧ [0, 63][1]? = some 63 ∧
       (∀ j, j < 1 → ([0, 63] : List Nat)[j]? ≠ some 63) ∧
       (∀ o : Fin 16, o < 3 → (b.programme o).active.bind Settings.slots = none) ∧
       ∀ o : Fin 16, ∀ m ∈ (b.programme o).active.bind Settings.slots, 1 ∉ m) := by decide +kernel

/-- Gain modes and fixed gains, delays and layouts that a commit changes and leaves; a change in flight that it supersedes; a
selector that it leaves without a source, and a source that it changes. -/
theorem test_witness_CommitEffects :
    (∀ new ∈ [{ stereo with gainMode := .fixed, fixedGain := 10 }, { stereo with gainMode := .ride },
        { stereo with delayTarget := 240000, delayMode := .cut }, { stereo with delayTarget := 1, delayMode := .slew },
        { stereo with layout := .mono }, { stereo with main := { port := 7, slot := 6 } }, stereo],
      ∀ o ∈ [Owner.direct, .scene],
        let w : Pending := { settings := new, owner := o, delay := some (.operation 8) }
        let c : DelayChange := { target := 5, mode := .cut, origin := some (.operation 7), phase := .due, boundary := 0 }
        let s := pending3 .running w fun b => b.onLane 3 fun l => { l with change := some c, source := some stereo.main }
        s.body.timing.boundary = some { frame := 1 } ∧ (s.body.programme 3).pending = some w ∧ w.owner = o ∧
          (s.body.programme 3).active = some stereo ∧ (s.body.programme 3).state = .running ∧
          (s.body.lane 3).change = some c ∧ c.origin = some (.operation 7) ∧ (s.body.lane 3).source = some stereo.main) ∧
    (let s := pending3 .parked { settings := stereo, owner := .direct } fun b =>
       (b.onProgramme 3 fun r => { r with selector := .backup, active := some { stereo with gainMode := .fixed } })
     selectedSource stereo (s.body.programme 3).selector = none ∧
       (s.body.programme 3).active = some { stereo with gainMode := .fixed }) := by decide +kernel

/-- Programme 3 RUNNING with a backup source and a requested selector. -/
def asked (side : Option Selector) (now : Selector) (count : Nat) (st : Settings) (f : Body → Body := id) : State :=
  blocks fun b => f (b.setProgramme 3
    { state := .running, active := some st, requested := side, selector := now, guard := count, revertCount := count })

def twoSources (r : RevertPolicy) : Settings := { stereo with backup := some { port := 7, slot := 6 }, revert := r }

/-- A side as it is, a side without a source, a switch to another source and one to the source in use; a revert whose
countdowns run out at this boundary. -/
theorem test_witness_SelectorSwitches :
    (let s := asked (some .backup) .main 0 (twoSources .manual)
     s.body.timing.boundary = some { frame := 1 } ∧ (3 : Fin 16) ∉ ({ frame := 1 } : Boundary).worked ∧
       carrying (s.body.programme 3).state = true ∧ (s.body.programme 3).requested = some .backup ∧
       (s.body.programme 3).active = some (twoSources .manual) ∧ (s.body.programme 3).pending = none ∧
       (twoSources .manual).revert = .manual ∧ Selector.backup ≠ (s.body.programme 3).selector ∧
       selectedSource (twoSources .manual) .backup = some { port := 7, slot := 6 } ∧
       (s.body.lane 3).source ≠ some { port := 7, slot := 6 }) ∧
    selectedSource stereo .backup = none ∧
    ((asked (some .main) .main 0 (twoSources .auto)).body.programme 3).requested = some .main ∧
    (let s := asked none .backup 1 (twoSources .auto) fun b => b.onPort 0 fun x =>
       { x with tracker := { state := .locked, q := some 524288 } }
     s.body.timing.boundary = some { frame := 1 } ∧ carrying (s.body.programme 3).state = true ∧
       (s.body.programme 3).requested = none ∧ (s.body.programme 3).active = some (twoSources .auto) ∧
       (s.body.programme 3).pending = none ∧ (s.body.programme 3).selector = .backup ∧ (twoSources .auto).revert = .auto ∧
       isLocked s.body (twoSources .auto).main.port = true ∧
       (s.body.entry (lossEntry (twoSources .auto).main.port)).state = .clear ∧ (s.body.programme 3).revertCount ≤ 1 ∧
       (s.body.programme 3).guard ≤ 1 ∧ (s.body.lane 3).source ≠ some (twoSources .auto).main) := by decide +kernel

/-- Programme 3 on MAIN with a backup source on port 7, whose tracker is LOCKED. -/
def failing (x : FailoverPolicy) (f : Body → Body := id) : State :=
  blocks fun b => f (((b.setProgramme 3
    { state := .running, active := some { stereo with backup := some { port := 7, slot := 6 }, failover := x } }).onLane 3
      fun l => { l with source := some stereo.main }).onPort 7 fun q =>
        { q with tracker := { state := .locked, q := some 524288 } })

/-- Failover by SILENCE and by LOSS; countdowns on MAIN, on BACKUP with revert satisfied and not. -/
theorem test_witness_BoundaryFailover :
    (∀ x ∈ [FailoverPolicy.onLossOrSilence, .onLoss],
      let s := failing x
      let st : Settings := { stereo with backup := some { port := 7, slot := 6 }, failover := x }
      s.body.timing.boundary = some { frame := 1 } ∧ s.body.sequencer.state ≠ .committing ∧
        (s.body.programme 3).state = .running ∧ (s.body.programme 3).active = some st ∧
        (s.body.programme 3).pending = none ∧ (s.body.programme 3).requested = none ∧
        (s.body.programme 3).selector = .main ∧ (s.body.lane 3).source = some st.main ∧
        st.backup = some { port := 7, slot := 6 } ∧ st.main ≠ { port := 7, slot := 6 } ∧
        (s.body.programme 3).guard = 0 ∧ st.revert = .manual ∧ (s.body.port 7).tracker.state = .locked ∧
        (s.body.entry (portEntry 7 0)).state = .clear ∧
        (∀ e ∈ [programmeEntry 3 0, portEntry 0 0],
          (s.body.entry e).enabled = true ∧ condition s.body e = true ∧ (s.body.entry e).state = .clear ∧
            (s.body.entry e).onsetHold = 0)) ∧
    (let s (n : Nat) := asked none .backup n (twoSources .auto) fun b => b.onPort 0 fun x =>
       { x with tracker := { state := .locked, q := some 524288 } }
     (∀ n ∈ [1, 2], (s n).body.timing.boundary = some { frame := 1 } ∧ ((s n).body.programme 3).requested = none ∧
       ((s n).body.programme 3).active.any (fun st => st.failover = .never ∧ st.revert = .auto) = true ∧
       ((s n).body.programme 3).selector = .backup ∧ ((s n).body.programme 3).revertCount = n) ∧
     ((s 2).body.port 0).tracker.state = .locked ∧ ((s 2).body.entry (portEntry 0 0)).state = .clear ∧
     (failing .never).body.line.watch = []) := by decide +kernel

/-- A change due since an earlier boundary, on a line in which `w` frames were written; the reader stands at `r`. -/
def cutting (w r : Count) (target : Nat) : State :=
  held .running fun b => b.setLane 3
    { writeSeq := w, readSeq := r, ratio := some { port := 0, q := 524288 }
      change := some { target := target, mode := .cut, origin := none, phase := .due, boundary := 0 } }

/-- A cut to where the reader stands, to a place before it, and to one behind it before the floor. -/
theorem test_witness_CutMade :
    let d : Boundary := { frame := 1 }
    let r : RatioRecord := { port := 0, q := 524288 }
    let sp (n : Nat) := setpointFor n r.q oneSegment
    (let s := cutting 100 (100 - cnt (sp 0).1) 0
     s.body.timing.boundary = some d ∧ (3 : Fin 16) ∉ d.cut ∧ (0 : Count) ≠ d.frame ∧ (s.body.lane 3).tail = none ∧
       (s.body.lane 3).marks = [] ∧ (s.body.lane 3).ratio = some r ∧ (s.body.programme 3).line = some oneSegment ∧
       (s.body.programme 3).state = .running ∧ (s.body.lane 3).writeSeq - cnt (sp 0).1 = (s.body.lane 3).readSeq) ∧
    (let s := cutting 100 0 0
     (s.body.lane 3).writeSeq - cnt (sp 0).1 ≠ (s.body.lane 3).readSeq ∧
       seqBefore ((s.body.lane 3).writeSeq - cnt (sp 0).1) (s.body.lane 3).readSeq = false) ∧
    (let s := cutting 100 64 240000
     let dest := (s.body.lane 3).writeSeq - cnt (sp 240000).1
     seqBefore dest (s.body.lane 3).readSeq = true ∧ seqBefore dest (cutFloor (s.body.lane 3) oneSegment) = true) := by
  decide +kernel

/-- The LOSS entry of port 0: in ONSET where a programme takes the port, in RELEASE where none does. -/
theorem test_witness_HoldsExpire :
    ∃ e : Fin 154,
      (let s := held .running fun b => (b.setLane 3 { source := some stereo.main }).setEntry e
         { state := .onset, countdown := 1 }
       s.body.timing.boundary = some { frame := 1 } ∧ ({ frame := 1 } : Boundary).alarmsDone = false ∧
         e ∉ ({ frame := 1 } : Boundary).evaluated ∧ (s.body.entry e).enabled = true ∧ (s.body.entry e).countdown ≤ 1 ∧
         (s.body.entry e).state = .onset ∧ condition s.body e = true) ∧
      (let s := blocks fun b => b.setEntry e { state := .release, countdown := 1 }
       (s.body.entry e).countdown ≤ 1 ∧ (s.body.entry e).enabled = true ∧ (s.body.entry e).state = .release ∧
         condition s.body e = false) :=
  ⟨lossEntry 0, by decide +kernel⟩

/-- A SILENCE entry with an onset at this boundary, and the LOSS entry of port 0 at the end of its onset hold. -/
def twoOnsets : State :=
  held .running fun b => (b.setLane 3 { source := some stereo.main }).setEntry (lossEntry 0) { state := .onset, countdown := 1 }

theorem test_witness_ReportsInEntryOrder :
    twoOnsets.body.timing.boundary = some { frame := 1 } ∧ ({ frame := 1 } : Boundary).alarmsDone = false ∧
      twoOnsets.body.sequencer.state ≠ .committing ∧ twoOnsets.tx.carry = [] := by decide +kernel

/-- The report of an entry evaluated ahead of the rest waits, owed, and enters in its place of the entry order. -/
theorem test_step_reports_in_entry_order :
    leadsTo (.onsetHoldExpiry (lossEntry 0)) twoOnsets (fun t =>
      t.tx.queue == [] && (t.body.entry (lossEntry 0)).reportOwed && (t.body.entry (lossEntry 0)).state == .active &&
      leadsTo (.frameBoundary []) t (fun u =>
        (u.tx.queue.filter fun m => m.kind == .alarm).map (fun m => m.fields.head?) ==
            [some (num2 24), some (num2 128), some (num2 152), some (num2 153)] &&
          !(u.body.entry (lossEntry 0)).reportOwed)) = true := by decide +kernel

/-- That machine with a full queue, entry 152 owing a report, and the LOSS entry owing one or not. -/
def queueFull (owed : Bool) : State :=
  { twoOnsets with
    body := (twoOnsets.body.onEntry (lossEntry 0) fun x => { x with reportOwed := owed }).onEntry 152 fun x =>
      { x with reportOwed := true }
    tx := { queue := List.replicate 32 { kind := .line, tag := 0, fields := [] } } }

/-- A place that frees before the rest of the table is evaluated goes to the entry evaluated ahead where it owed a report
before, and else to the next that owes one (R153, log 63). -/
theorem test_step_place_before_the_rest :
    (∀ owed : Bool, leadsTo (.onsetHoldExpiry (lossEntry 0)) (queueFull owed) (fun t =>
      leadsTo .messageDeparture t (fun u =>
        ((u.tx.queue.drop 31).map fun m => m.fields.head?) == [some (num2 (if owed then 128 else 152))])) = true) := by
  decide +kernel

/-- After a line reset every report owed comes in entry order, that of an entry evaluated ahead among them (R154). -/
theorem test_step_line_reset_releases :
    leadsTo (.onsetHoldExpiry (lossEntry 0)) (queueFull false) (fun t =>
      leadsTo (.lineReset 1) { t with tx := {} } (fun u =>
        ((u.tx.queue.drop 1).map fun m => m.fields.head?) == [some (num2 128), some (num2 152)])) = true := by decide +kernel

theorem test_witness_HouseSample :
    (let s := held .running
     s.body.timing.samplesOwed ≠ 0 ∧ (s.body.programme 3).state = .running ∧ (s.body.programme 3).active = some stereo ∧
       (s.body.programme 4).state ≠ .running ∧ (s.body.programme 4).state ≠ .priming ∧ (s.body.programme 4).active = none) ∧
    (let s := pending3 .running (waits .direct) fun b => { b with outputMap := b.outputMap.set 63 (some (3, 1)) }
     63 < s.body.outputMap.length ∧ s.body.outputMap.getD 63 none = some (3, 1) ∧ s.body.outputMap.getD 62 none = none) := by
  decide +kernel

/-- Programme 3 in a state with a lane, and the tracker of port 0. -/
def lined (x : ProgState) (l : Lane) (u : Tracker := {}) : State :=
  held x fun b => (b.setLane 3 { l with source := some stereo.main }).onPort 0 fun q => { q with tracker := u }

/-- A lane that reads at frame 100, `w` written, against a Q. -/
def reading (w : Count) (q : Nat) (marks : List SpliceMark := []) : Lane :=
  { writeSeq := w, readSeq := 100, ratio := some { port := 0, q := q }, marks := marks
    window := (List.range 4).map fun k => { seq := cnt (99 + k), samples := [cnt k |>.truncate 24, 5] } }

/-- No frame consumed, one that leaves four, one that would leave three, with the tracker LOCKED and not; one at a mark. -/
theorem test_witness_RunningLane :
    (∀ x ∈ [((101 : Count), 524289), (105, 524288), (104, 524288)],
      let s := lined .running (reading x.1 x.2)
      s.body.timing.samplesOwed ≠ 0 ∧ (s.body.programme 3).active = some stereo ∧ (s.body.lane 3).tail = none ∧
        (s.body.programme 3).state = .running ∧ (s.body.lane 3).marks = [] ∧
        (s.body.lane 3).ratio = some { port := 0, q := x.2 }) ∧
    (let n (w : Count) (q : Nat) := ((reading w q).acc + (reading w q).stepIncrement) / q
     n 101 524289 = 0 ∧ n 105 524288 = 1 ∧ 1 + 4 ≤ (reading 105 524288).occupancy ∧
       (reading 104 524288).occupancy < 1 + 4) ∧
    (let k : SpliceMark := { seq := 101, port := 7, slot := 6, q := none }
     (lined .running (reading 105 524288 [k])).body.lane 3 = { reading 105 524288 [k] with source := some stereo.main } ∧
       (reading 105 524288 [k]).marks = k :: [] ∧ k.seq = (reading 105 524288 [k]).readSeq + 1 ∧
       5 ≤ (reading 105 524288 [k]).occupancy) ∧
    (∀ n ∈ [5, 41], let u : Tracker := { state := .locked, q := some 524288 }
      let s := lined .priming { reading 140 524288 with setpoint := some n } u
      (s.body.programme 3).state = .priming ∧ (s.body.port 0).tracker = u ∧ (s.body.lane 3).setpoint = some n ∧
        (524288 / 2 + 524288) / 524288 + 4 ≤ n ∧ (n ≤ (s.body.lane 3).occupancy ↔ n = 5)) := by decide +kernel

/-- The frames of a house sample: the lane reads on, and the first sample comes through the cubic unchanged at f = 0. -/
theorem test_step_house_sample :
    leadsTo .houseSample (lined .running (reading 105 524288)) (fun t =>
      (t.body.lane 3).readSeq == 101 && (t.body.lane 3).acc == 0 && (t.body.lane 3).output.samples == [2, 5] &&
        (t.body.gain 3).output == [2, 5]) = true := by decide +kernel

/-- An ended tail of programme 3 with a change in flight beside it. -/
def ended (c : Option DelayChange) : State :=
  held .running fun b => b.onLane 3 fun l =>
    { l with tail := some { readSeq := 0, acc := 0, q := 524288, remaining := 0, historyStart := 0 }, change := c }

def inTail (x : ChangePhase) (o : Option DelayOrigin) (f : Bool) : DelayChange :=
  { target := 100, mode := .cut, origin := o, phase := x, boundary := 0, floored := f }

theorem test_witness_TailAndRampEnd :
    (∀ c ∈ [none, some (inTail .due none false), some (inTail .tail none true), some (inTail .tail none false),
       some (inTail .tail (some .scene) false), some (inTail .tail (some (.operation 9)) false)],
       ((ended c).body.lane 3).tail =
         some { readSeq := 0, acc := 0, q := 524288, remaining := 0, stop := none, historyStart := 0 } ∧
       ((ended c).body.lane 3).change = c) ∧
    ((State.reset.body.onGain 3 fun x => { x with ramp := some { start := 0, stop := 10, position := 4800 } }).gain 3).ramp =
      some { start := 0, stop := 10, position := 4800 } := by decide +kernel

/-- A mark ahead without a tail; a tail that goes on, one that its next frame would take too near, and one at its stop. -/
theorem test_witness_TailAndDip :
    (let k : SpliceMark := { seq := 150, port := 7, slot := 6, q := none }
     let s := lined .running (reading 200 524288 [k])
     s.body.timing.samplesOwed ≠ 0 ∧ (s.body.programme 3).active = some stereo ∧ (s.body.programme 3).state = .running ∧
       (s.body.lane 3).ratio = some { port := 0, q := 524288 } ∧ (s.body.lane 3).tail = none ∧
       1 + 4 ≤ (s.body.lane 3).occupancy ∧ 1 < (k.seq - (s.body.lane 3).readSeq).toNat ∧
       (k.seq - ((s.body.lane 3).readSeq + 1)).toNat < 64) ∧
    (let j (y : FadeTail) := (y.acc + 524288) / y.q
     let left (y : FadeTail) := ((reading 200 524288).writeSeq - y.readSeq).toNat
     let y : FadeTail := { readSeq := 120, acc := 0, q := 524288, remaining := 30, historyStart := 0 }
     (lined .running { reading 200 524288 with tail := some y }).body.lane 3 =
         { reading 200 524288 with tail := some y, source := some stereo.main } ∧
       y.remaining ≠ 0 ∧ j y = 1 ∧ 1 + 4 ≤ left y ∧
       (let z := { y with readSeq := 196 }
        j z ≠ 0 ∧ left z < j z + 4) ∧
       ((121 : Count) - y.readSeq).toNat = j y ∧ j y < ((122 : Count) - y.readSeq).toNat) := by decide +kernel

/-- A RUNNING lane whose tracker is LOCKED, and one whose error is small and whose change ends. -/
theorem test_witness_RegulationTick :
    (let s := held .running fun b => (b.onLane 3 fun l =>
       { l with ratio := some { port := 0, q := 524288 }, change := some (inTail .slewing none false)
                writeSeq := cnt (setpointFor 0 524288 oneSegment).1 }).onPort 0 fun x =>
         { x with tracker := { state := .locked, q := some 524288 } }
     s.body.timing.regulationDue = true ∧ (s.body.programme 3).state = .running ∧
       (s.body.lane 3).tail.all (fun x => x.remaining ≠ 0) = true ∧
       (s.body.lane 3).ratio = some { port := 0, q := 524288 } ∧ (s.body.programme 3).line = some oneSegment ∧
       (s.body.programme 3).active = some stereo ∧ (s.body.port 0).tracker.state = .locked ∧
       ((s.body.lane 3).occupancy : Int) - (setpointFor (s.body.lane 3).target 524288 oneSegment).1 = 0 ∧
       (s.body.programme 4).state ≠ .running) ∧
    (let d : Deferred := { tag := 9, kind := .delay, subject := 3 }
     InFlight d (held .running fun b => b.onLine fun l => { l with deferred := [d] })) := by
  unfold InFlight
  decide +kernel

def riding : Settings := { stereo with gainMode := .ride }

/-- A meter not yet started; a started one, with and without house samples; a rider that moves, one that stays and one that is
gated. The figure of a ring of thirty steps of the mean energy of bin 469 is -231 decilu. -/
theorem test_witness_StepBoundary :
    (let s := held .running
     s.body.timing.stepDue = some [] ∧ (3 : Fin 16) ∉ ([] : List (Fin 16)) ∧ (s.body.programme 3).active = some stereo ∧
       (s.body.meter 3).started = false ∧ (3 : Fin 16) ∈ [(3 : Fin 16)]) ∧
    (let m : Meter := { started := true, samples := 4800 }
     (State.reset.body.setMeter 3 m).meter 3 = m ∧ m.samples ≠ 0 ∧ ({ m with samples := 0 } : Meter).started = true ∧
       m.disturbed = false) ∧
    riding.gainMode = .ride ∧ stereo.gainMode ≠ .ride ∧
    (let ring := List.replicate 30 { energy := centreEnergy 469, disturbed := false : RingEntry }
     ringLoudness ring 30 = some (-231) ∧ riding.riderGate ≤ -231 ∧
       (max (-2000) (min 1200 (10 * (riding.rideTarget - -231))) - 0 : Int).natAbs ≤ (10 * riding.rideTolerance : Int) ∧
       (10 * riding.rideTolerance : Int) < (max (-2000) (min 1200 (10 * (riding.rideTarget - -231))) - (-400) : Int).natAbs) ∧
    ((some (-501 : Int)).any fun v => v < riding.riderGate) = true := by decide +kernel

/-- Programme 3 RUNNING in RIDE at a step boundary, its ring one step short of thirty, its short-term figure -231 after it. -/
def atBoundary (g : Int) : State :=
  held .running fun b => ((b.onProgramme 3 fun r => { r with active := some riding }).onGain 3 fun x =>
    { x with g := g, applied := g, rider := .settled }).onMeter 3 fun m =>
      { m with started := true, samples := 1, squares := centreEnergy 469 :: List.replicate 7 0, integState := .integrating
               ring := List.replicate 29 { energy := centreEnergy 469, disturbed := false } }

/-- The same with `n` blocks counted, in bin 300, and pending ones; the sweep of a programme in flight. -/
def sweptAt (n : Nat) (pending : List Nat) (sweep : Option (Fin 16)) : State :=
  let s := atBoundary (-400)
  { s with body := { s.body.onMeter 3 fun m =>
      { m with admitted := n, histogram := (List.replicate 750 0).set 300 n, pendingBlocks := pending } with
    sweep := sweep.map fun p => { programme := p, lowest := 300, highest := 300, next := 300 } } }

theorem test_witness_ParkClosesTheStep :
    (let s := atBoundary (-400)
     s.body.timing.stepDue = some [] ∧ (3 : Fin 16) ∉ ([] : List (Fin 16)) ∧ (s.body.programme 3).state = .running ∧
       (s.body.programme 3).active = some riding ∧ riding.gainMode = .ride ∧ (s.body.meter 3).started = true ∧
       (s.body.gain 3).judged = none ∧ (s.body.meter 3).resetDue = none ∧ (s.body.meter 3).histogram.length = 750 ∧
       (s.body.meter 3).admitted < 16777215 ∧ (s.body.meter 3).pendingBlocks = [] ∧ s.body.timing.samplesOwed = 1) ∧
    (let s := sweptAt 16777211 [1, 2, 3, 4] (some 3)
     (s.body.meter 3).resetDue = none ∧ (s.body.meter 3).admitted < 16777215 ∧ 16777215 ≤ (s.body.meter 3).admitted + 4 ∧
       (s.body.meter 3).pendingBlocks.length = 4 ∧ s.body.sweep.map Sweep.programme = some 3) := by
  decide +kernel

/-- A first block; one beside the sweep of another programme and in its own; the fifth, with room for all and at the limit; none
in PAUSED and of a disturbed step. -/
theorem test_witness_BlockAdmitted :
    (∀ x ∈ [(0, [], none), (16777214, [], some 5), (4, [749, 0, 1], some 3), (4, [1, 2, 3, 4], some 3),
        (16777211, [1, 2, 3, 4], some (3 : Fin 16))],
      let s := sweptAt x.1 x.2.1 x.2.2
      let m := s.body.meter 3
      s.body.timing.stepDue = some [] ∧ (3 : Fin 16) ∉ ([] : List (Fin 16)) ∧ (s.body.programme 3).active = some riding ∧
        m.started = true ∧ m.resetDue = none ∧ m.countsAgree = true ∧ m.admitted < 16777215 ∧
        (∀ o : Fin 16, o ≠ 3 → (s.body.meter o).integState ≠ .integrating ∧ (s.body.meter o).resetDue = none) ∧
        m.integState = .integrating ∧ 3 ≤ m.ring.length ∧
        (∀ e ∈ m.ring.drop (m.ring.length - 3), e.disturbed = false) ∧ m.disturbed = false ∧
        leadsTo .stepBoundary s (fun t => (t.body.meter 3).momentary == some (-231)) = true ∧
        m.pendingBlocks = x.2.1 ∧ s.body.sweep.map Sweep.programme = x.2.2) ∧
    (∀ m ∈ [({ integState := .paused } : Meter), { disturbed := true }], m.integState ≠ .integrating ∨ m.disturbed = true) ∧
    State.reset.body.sweepQueue = [] ∧ State.reset.body.sweep = none := by decide +kernel

/-- The fifth block is let go where the fourth reaches the limit, and a PARK of the same house sample leaves FULL and the count;
where the count has room for it the PARK takes it out again, FULL and all. -/
theorem test_step_park_after_limit :
    leadsTo .stepBoundary (sweptAt 16777211 [1, 2, 3, 4] (some 3)) (fun t =>
      (t.body.meter 3).admitted == 16777215 && (t.body.meter 3).integState == .full &&
      leadsTo (.park 1 3) t (fun u => (u.body.meter 3).admitted == 16777215 && (u.body.meter 3).integState == .full &&
        (u.body.meter 3).histogram == (t.body.meter 3).histogram)) = true ∧
    leadsTo .stepBoundary (sweptAt 16777210 [1, 2, 3, 4] (some 3)) (fun t =>
      (t.body.meter 3).admitted == 16777215 && (t.body.meter 3).integState == .full &&
      leadsTo (.park 1 3) t (fun u =>
        (u.body.meter 3).admitted == 16777214 && (u.body.meter 3).integState == .integrating)) = true := by decide +kernel

/-- STEP_BOUNDARY moves the rider and admits the block; a PARK of the same house sample, its sample taken or not, takes both
back. -/
theorem test_step_park_after_boundary :
    leadsTo .stepBoundary (atBoundary (-400)) (fun t =>
      (t.body.gain 3).rider == .moving && (t.body.gain 3).g == -390 && (t.body.meter 3).histogram.getD 469 0 == 1 &&
      leadsTo .houseSample t (fun u => (u.body.gain 3).applied != -400 &&
        [t, u].all fun v => leadsTo (.park 1 3) v fun w =>
          (w.body.gain 3).rider == .gated && (w.body.gain 3).g == -400 && (w.body.gain 3).applied == -400 &&
          (w.body.gain 3).ramp.isNone && (w.body.meter 3).histogram.getD 469 0 == 0 && (w.body.meter 3).admitted == 0 &&
          (w.body.meter 3).ring.getLast?.map RingEntry.disturbed == some true)) = true := by decide +kernel

/-- A reset due by an operation; a sweep within a pass, at the end of each. -/
theorem test_witness_ResetAppliedAndSweepVisit :
    (let due : ResetDue := { tags := [9], scene := true }
     let s := held .running fun b => b.onMeter 3 fun m => { m with resetDue := some due }
     s.body.timing.stepDue = some [] ∧ (3 : Fin 16) ∉ ([] : List (Fin 16)) ∧ (s.body.meter 3).resetDue = some due ∧
       (s.body.programme 3).active = some stereo ∧ s.body.sweepQueue.filter (· ≠ 3) = []) ∧
    (let w : Sweep := { programme := 3, lowest := 469, highest := 470, next := 469, visited := 16 }
     let s := held .running fun b => { b with sweep := some w }
     s.body.sweep = some w ∧ 16 ≤ w.visited ∧ w.next + 1 ≤ w.highest) ∧
    (let w : Sweep := { programme := 3, lowest := 469, highest := 469, next := 469, visited := 16 }
     let m : Meter := { histogram := (List.replicate 750 0).set 469 4, admitted := 4 }
     let s := held .running fun b => { (b.setMeter 3 m) with sweep := some w }
     let n := (s.body.meter w.programme).histogram.getD w.next 0
     w.highest < w.next + 1 ∧ w.secondPass = false ∧ w.blocks + n ≠ 0 ∧
       loudness ((w.energy + n * centreEnergy w.next) / (w.blocks + n)) = some (-231) ∧
       ({ w with secondPass := true } : Sweep).secondPass = true ∧ s.body.sweepQueue = []) := by decide +kernel

/-- A port with its clock and a tracker. -/
def clocked (x : Presence) (u : Tracker) : Port :=
  { presence := x, clockPresent := true, syncSeen := true, bitCount := 256, tracker := u }

/-- A tracker whose last stamp lies `n` house ticks back, at the last edge of a window; and one with nine stamps. -/
def windowOf (n : Nat) : Tracker :=
  { state := .acquiring, stamps := [tickAt State.reset.body.timing 0 - cnt n], frameCount := 255 }

def nine (n : Nat) : Tracker :=
  { windowOf n with stamps := List.replicate 8 (tickAt State.reset.body.timing 0 - cnt (8 * n)) ++
                              [tickAt State.reset.body.timing 0 - cnt n], state := .locked, q := some (8 * n) }

/-- Edges from ABSENT, after a loss, in HOLDOVER, and as an edge of a window: the first, one in the middle, the last; the last
of a good window, with one stamp and with nine, of one out of range, and of the first and third jump. -/
theorem test_witness_PortFrameEdge :
    (let s := blocks fun b => b.setPort 0 (clocked .noSync {})
     (s.body.port 0).clockPresent = true ∧ (s.body.port 0).syncSeen = true ∧ (s.body.port 0).bitCount ≠ 257 ∧
       (s.body.port 0).presence ≠ .synced ∧ (s.body.port 0).tracker.state = .absent) ∧
    (clocked .noSync { state := .holdover }).tracker.state ≠ .absent ∧
    (clocked .synced { state := .holdover }).tracker.state = .holdover ∧
    (clocked .synced { state := .acquiring }).tracker.stamps = [] ∧
    (clocked .synced { windowOf 0 with frameCount := 254 }).tracker.frameCount < 255 ∧
    (let tick := tickAt State.reset.body.timing 0
     let nominal := nominalSpan .k48
     let span (u : Tracker) := (tick - u.stamps.getLast?.getD 0).toNat
     let out (d : Nat) := decide (nominal / 200 < d - nominal ∨ nominal / 200 < nominal - d)
     let good := windowOf (nominal + nominal / 200)
     let wide := windowOf (nominal + nominal / 200 + 1)
     let full := nine nominal
     good.frameCount = 255 ∧ span good = nominal + nominal / 200 ∧ out (span good) = false ∧ out (span wide) = true ∧
       span full = nominal ∧ full.stamps.length = 9 ∧ ((full.stamps.drop 1) ++ [tick]).length = 9 ∧
       (let e := nominal - 200
        e / 512 < span full - e ∧ ({ full with prevSpan := some e } : Tracker).jumpRun < 2 ∧
          ({ full with prevSpan := some e, jumpRun := 2 } : Tracker).jumpRun = 2)) := by decide +kernel

/-- A lane that takes the frames of port 0, its bank's queue with a place and full. -/
theorem test_witness_LaneWrites :
    (let s := held .running fun b => (b.setPort 0 (clocked .synced {})).onLane 3 fun l => { l with source := some stereo.main }
     (s.body.lane 3).source = some stereo.main ∧ stereo.main.port = 0 ∧ (s.body.programme 3).line = some oneSegment ∧
       (s.body.programme 3).active = some stereo ∧ (s.body.programme 3).state = .running ∧
       (∀ o : Fin 16, o ≠ 3 → takesFrom s.body o 0 = false) ∧ (s.body.bank oneSegment.bank).queue.length < 16) ∧
    (let f : QueuedFrame := { lane := 3, seq := 0, position := 0, samples := [0, 0] }
     16 ≤ ((State.reset.body.onBank 0 fun k => { k with queue := List.replicate 16 f }).bank oneSegment.bank).queue.length) := by
  decide +kernel

/-- A lane that takes the frames of port 0, `n` frames in its line, with marks and a tail. -/
def writing (x : ProgState) (n : Nat) (marks : List SpliceMark := []) (tail : Option FadeTail := none) : State :=
  held x fun b => (b.setPort 0 (clocked .synced {})).setLane 3
    { source := some stereo.main, writeSeq := 100 + cnt n, readSeq := 100, setpoint := some 40, marks := marks, tail := tail
      ratio := some { port := 0, q := 524288 } }

/-- Two samples of full scale after two of a run, at the most frames that a line may hold. -/
theorem test_witness_WriteMovesLane :
    (∀ x ∈ [ProgState.priming, .starved, .running], ∀ n ∈ [1983, 1984],
      let s := writing x n
      (s.body.programme 3).state = x ∧ (s.body.lane 3).source = some stereo.main ∧
        (s.body.programme 3).line = some oneSegment ∧ (s.body.programme 3).active = some stereo ∧
        (∀ o : Fin 16, o ≠ 3 → takesFrom s.body o 0 = false) ∧ (s.body.bank oneSegment.bank).queue.length < 16 ∧
        (s.body.lane 3).overloadRun.length = 8 ∧
        (oneSegment.length - 64 < ((s.body.lane 3).writeSeq + 1 - (s.body.lane 3).readSeq).toNat ↔ n = 1984) ∧
        seqBefore (s.body.lane 3).readSeq ((s.body.lane 3).writeSeq + 1 - cnt 40) = true ∧
        leadsTo (.portFrameEdge 0 65536 (Vector.replicate 8 0)) s (fun t => (t.body.programme 3).state == x) = true) ∧
    (let k : SpliceMark := { seq := 150, port := 7, slot := 6, q := none }
     let y : FadeTail := { readSeq := 90, acc := 0, q := 524288, remaining := 1, historyStart := 0 }
     let s := writing .running 1984 [k] (some y)
     (s.body.lane 3).marks = [k] ∧ (s.body.lane 3).tail = some y ∧ y.remaining ≠ 0 ∧
       seqUpTo k.seq ((s.body.lane 3).writeSeq + 1 - cnt 40) = true) := by decide +kernel

/-- The frame that brings a line beyond its limit: an overrun, the mark on the way consumed, the sample of full scale counted. -/
theorem test_step_overrun :
    leadsTo (.portFrameEdge 0 65536 (Vector.replicate 8 8388607))
      ((fun (s : State) => { s with body := s.body.onLane 3 fun l => { l with overloadRun := [2, 3, 0, 0, 0, 0, 0, 0] } })
        (writing .running 1984 [{ seq := 150, port := 7, slot := 6, q := none }])) (fun t =>
      let m := t.body.lane 3
      m.readSeq == 100 + cnt 1985 - 40 && m.marks == [] && m.historyStart == 150 && m.acc == 262144 && m.slipSeen &&
        m.tail.map FadeTail.stop == some (some 150) && m.overloadRun == [3, 3, 0, 0, 0, 0, 0, 0] && m.overloadSeen &&
        (t.body.programme 3).overloads == 1 && (t.body.programme 3).slips == 1) = true := by decide +kernel

/-- Slots on the wire (R35): a first bit alone is the most negative sample, bits 23 and 24 the two lowest, and the last 8 bit
clocks are not read; 255 bit clocks before a sync are no frame (R34). -/
theorem test_slot_on_the_wire :
    (slotSample (true :: List.replicate 23 false ++ List.replicate 8 true)).toInt = -8388608 ∧
    slotSample (List.replicate 22 false ++ [true, false] ++ List.replicate 8 true) = 2 ∧
    (frameSlots (List.replicate 55 false ++ [true] ++ List.replicate 200 false)).toList = [0, 1, 0, 0, 0, 0, 0, 0] ∧
    syncEvent 3 7 (List.replicate 255 true) = .portSyncMisaligned 3 7 := by decide +kernel

theorem test_witness_PresenceAndTimeouts :
    (clocked .synced {}).clockPresent = true ∧ (State.reset.body.port 0).clockPresent = false ∧
    (let u : Tracker := { state := .locked, lossSince := some (tickAt State.reset.body.timing 0 - 4096) }
     let s := blocks fun b => b.setPort 0 (clocked .noSync u)
     (s.body.port 0).tracker.lossSince = some (tickAt State.reset.body.timing 0 - 4096) ∧
       4096 ≤ (tickAt s.body.timing 0 - (tickAt State.reset.body.timing 0 - 4096)).toNat ∧
       (s.body.port 0).tracker.state = .locked ∧ (s.body.programme 3).state ≠ .priming) ∧
    (let u : Tracker := { state := .acquiring, lossSince := some (tickAt State.reset.body.timing 0 - 4096) }
     ((State.reset.body.setPort 0 (clocked .noSync u)).port 0).tracker.state = .acquiring) ∧
    (let u : Tracker := { state := .holdover, holdover := some 48000 }
     ((State.reset.body.setPort 0 (clocked .noSync u)).port 0).tracker = u ∧ 48000 ≤ 48000) := by decide +kernel

/-- A drain at the last words of a bank; a fill whose run goes on, one that fills it, and one whose job has gone. -/
theorem test_witness_BankWrites :
    (let a : Access := .drain 3 2097150 [1, 2] true
     let s := blocks fun b => b.onBank 0 fun k => { k with access := some a }
     s.dram.wf = true ∧ (s.body.bank 0).access = some a ∧ 2097150 + [1, 2].length ≤ 2097152 ∧
       (s.body.bank 0).waiting = []) ∧
    (∀ live ∈ [true, false],
      let j : FillJob := { programme := 3, firstWord := 0, words := 4096, written := 4032 }
      let s := blocks fun b => b.onBank 0 fun k => { k with access := some (.fill 3 2097088 live), jobs := [j] }
      (s.body.bank 0).access = some (.fill 3 2097088 live) ∧ 2097088 + 64 ≤ 2097152 ∧ (s.body.bank 0).jobs = j :: [] ∧
        j.words ≤ j.written + 64 ∧ ({ j with written := 3968 } : FillJob).written + 64 < j.words) := by decide +kernel

/-- Two lanes that wait at a full queue. -/
def backPressed : State :=
  held .running fun b => ((b.onLane 3 fun l => { l with holding := some [7, 8] }).onLane 4 fun l =>
    { l with holding := some [9] }).onBank 0 fun k =>
      { k with queue := List.replicate 16 { lane := 3, seq := 5, position := 5, samples := [1, 2] }, waiting := [3, 4]
               access := some (.drain 3 10 [1, 2] true) }

theorem test_witness_HeldFrameEnters :
    (backPressed.body.bank 0).access = some (.drain 3 10 [1, 2] true) ∧ 10 + [1, 2].length ≤ 2097152 ∧
      (backPressed.body.bank 0).queue.length = 16 ∧ (backPressed.body.bank 0).waiting = 3 :: [4] ∧
      (backPressed.body.lane 3).holding = some [7, 8] ∧ (backPressed.body.programme 3).line = some oneSegment ∧
      oneSegment.bank = 0 := by decide +kernel

theorem test_step_held_frame :
    leadsTo (.drainComplete 0) backPressed (fun t =>
      (t.body.bank 0).queue.getLast?.map QueuedFrame.samples == some [7, 8] && (t.body.bank 0).waiting == [4] &&
        (t.body.lane 3).holding == none && (t.body.lane 4).holding == some [9]) = true := by decide +kernel

/-- Claims of two lanes at a bank, the read pointer between them; a queue of eight; a bank without either. -/
theorem test_witness_ArbiterGrants :
    (let r : ReadRequest := { seq := 7 }
     let s := held .running fun b => ((b.onProgramme 12 fun x => { x with line := some oneSegment }).onLane 3 fun l =>
       { l with readRequest := some r }).onLane 12 fun l => { l with readRequest := some r }
     (∀ p ∈ [(3 : Fin 16), 12], (s.body.programme p).line = some oneSegment ∧ (s.body.lane p).readRequest = some r) ∧
       oneSegment.bank = 0 ∧ r.granted = false ∧ readClaims s.body 0 = [3, 12] ∧ (12 : Fin 16) - 4 ≤ 3 - 4 ∧
       (s.body.bank 0).access = none ∧ (s.body.programme 3).active = some stereo) ∧
    (let f : QueuedFrame := { lane := 3, seq := 0, position := 2047, samples := [0, 0] }
     let s := held .running fun b => b.onBank 0 fun k => { k with queue := List.replicate 8 f }
     8 ≤ (s.body.bank 0).queue.length ∧ (s.body.bank 0).queue = f :: List.replicate 7 f ∧
       (s.body.programme f.lane).line = some oneSegment) ∧
    readClaims State.reset.body 0 = [] ∧ (State.reset.body.bank 0).queue = [] ∧
    (∀ a ∈ [Access.read 3 0 2097150 2 false, .fill 3 2097088 false],
      ((State.reset.body.onBank 0 fun k => { k with access := some a }).bank 0).access = some a) := by decide +kernel

/-- A read of a frame the window wants, of words that fail and of words that pass; and one whose owner has gone. -/
theorem test_witness_ReadComplete :
    (let s := held .running fun b => (b.onLane 3 fun l =>
       { l with writeSeq := 100, ratio := some { port := 0, q := 524288 } }).onBank 0 fun k =>
         { k with access := some (.read 3 0 0 2 true) }
     0 + 2 ≤ 2097152 ∧ (s.body.bank 0).access = some (.read 3 0 0 2 true) ∧ (s.body.programme 3).state = .running ∧
       (s.body.lane 3).held 0 = none ∧ (∃ x ∈ (s.body.lane 3).wanted, x.1 = 0) ∧
       ((s.dram.readWords 0 0 2).filter fun w => !wordPasses w).length = 2 ∧
       (((s.dram.writeWords 0 0 [sampleWord 5, sampleWord 6]).readWords 0 0 2).filter fun w => !wordPasses w) = []) ∧
    ((State.reset.body.onBank 0 fun k => { k with access := some (.read 3 0 0 2 false) }).bank 0).access =
      some (.read 3 0 0 2 false) := by decide +kernel

/-- The line is free in every state built from the reset state's blocks, and with one place left. -/
theorem test_witness_LineFree : (∀ f : Body → Body, LineFree (blocks f)) ∧
    (let m : Message := { kind := .line, tag := 0, fields := [] }
     LineFree { State.reset with tx := { queue := List.replicate 31 m } }) := by
  exact ⟨fun f => ⟨nofun, rfl, Nat.succ_pos 31, rfl⟩, by unfold LineFree; decide +kernel⟩

theorem test_witness_Define :
    (State.reset.body.programme 3).state = .vacant ∧
    definedSet State.reset.body 3 [.layout .stereo, .mainSource 0 6] =
      .ok { stereo with main := { port := 0, slot := 6 } } ∧
    definedSet State.reset.body 3 [.mainSource 0 0, .layout .stereo, .outputSlots [0, 63]] = .ok (waits .direct).settings ∧
    (6 : Fin 8).val + channelsOf .stereo ≤ 8 ∧ (∀ l, SettingItem.layout l ∉ [.mainSource 0 0]) ∧
    (∀ port slot, SettingItem.mainSource port slot ∉ [.layout .stereo]) := by
  refine ⟨by decide +kernel, by decide +kernel, by decide +kernel, by decide +kernel, ?_, ?_⟩ <;> simp

/-- A VACANT programme, a layout outside DEFINED, a set that a scene owns, an item out of range, a set that does not agree, a
slot that another claims, and none of these. -/
theorem test_witness_WriteChecks :
    (State.reset.body.programme 3).state = .vacant ∧ ((held .running).body.programme 3).state ≠ .defined ∧
    ((pending3 .running (waits .scene)).body.programme 3).pending = some (waits .scene) ∧ (waits .scene).owner = .scene ∧
    itemInRange (.switchGuard 251) = false ∧ itemInRange (.switchGuard 250) = true ∧
    (stereo.writeAll [.mainSource 0 7]).agrees = false ∧ (stereo.writeAll [.mainSource 0 6]).agrees = true ∧
    ((held .running).body.programme 3).effectiveNext = some stereo ∧
    63 ∈ ((pending3 .running (waits .direct)).body.programme 3).claims ∧ 62 ∉ ((held .running).body.programme 3).claims ∧
    (let b := (held .running).body
     (b.programme 3).pending = none ∧ writeRefusal b 3 false true [.switchGuard 250] = none) := by decide +kernel

/-- Programme 3 in link group 2. -/
def grouped : State := held .running fun b =>
  b.onProgramme 3 fun r => { r with active := some { stereo with linkGroup := some 2 } }

theorem test_witness_SetRequest :
    (let items : List SettingItem := [.loudHigh (-200), .loudLow (-210)]
     let s := pending3 .running { settings := { stereo with revertHold := 7 }, owner := .direct }
     setForm items = true ∧ setNames items = true ∧ writeRefusal s.body 3 false (setNames items) items = none ∧
       (s.body.programme 3).active = some stereo ∧ (s.body.programme 3).effectiveNext = some { stereo with revertHold := 7 } ∧
       ∀ i ∈ items, itemCode i ≠ 0) ∧
    (let items : List SettingItem := [.layout .mono]
     let s := pending3 .defined (waits .direct)
     setForm items = true ∧ writeRefusal s.body 3 false (setNames items) items = none ∧
       (s.body.programme 3).effectiveNext = some (waits .direct).settings ∧
       ((waits .direct).settings.slots.any fun x => x.length ≠ channelsOf .mono) = true) ∧
    (let items : List SettingItem := [.fixedGain 100]
     setForm items = true ∧ groupNames items = true ∧ writeRefusal grouped.body 3 false (setNames items) items = none ∧
       ((List.finRange 16).filter fun p => (grouped.body.programme p).active.any fun st => st.linkGroup = some 2) = [3]) := by
  decide +kernel

theorem test_witness_DelayAccepted :
    (let s := held .running
     writeRefusal s.body 3 false true [.delayTarget 240000, .delayMode .slew] = none ∧ deferredFree 9 s.body = true ∧
       (s.body.programme 3).effectiveNext = some stereo) ∧
    (let s := pending3 .running (waits .direct (some (.operation 8))) fun b => b.onLine fun l =>
       { l with deferred := List.replicate 7 { tag := 8, kind := .delay, subject := 3 } }
     writeRefusal s.body 3 false true [.delayTarget 0, .delayMode .cut] = none ∧ deferredFree 9 s.body = true ∧
       (s.body.programme 3).pending.bind Pending.delay = some (.operation 8)) := by decide +kernel

/-- A run found for one segment and for a whole bank, and none where every bank has a segment in use. -/
theorem test_witness_Allocate :
    let s := held .defined
    (s.body.programme 3).state = .defined ∧ (s.body.programme 3).active = some stereo ∧
      (s.body.programme 3).pending = none ∧ deferredFree 9 s.body = true ∧
      findRun s.body 1 = some (0, 0) ∧ findRun s.body 512 = some (0, 0) ∧
      findRun { s.body with banks := s.body.banks.map fun k => { k with segments := k.segments.set 511 (some 4) } } 512 = none ∧
      findRun { s.body with banks := s.body.banks.map fun k => { k with segments := k.segments.set 511 (some 4) } } 511 =
        some (0, 0) := by decide +kernel

theorem test_witness_StartAndPark :
    (let s := held .parked
     (s.body.programme 3).state = .parked ∧ (s.body.programme 3).active = some stereo ∧
       (s.body.programme 3).line = some oneSegment) ∧
    (∀ x ∈ [ProgState.priming, .running, .starved], ((held x).body.programme 3).state = x) := by decide +kernel

theorem test_witness_ReleaseAndClear :
    (∀ x ∈ [ProgState.filling, .parked],
      ((held x).body.programme 3).state = x ∧ ((held x).body.programme 3).line = some oneSegment ∧
        ((held x).body.bank oneSegment.bank).waiting.filter (· ≠ 3) = []) ∧
    (∀ x ∈ [ProgState.defined, .filling, .parked, .priming, .running, .starved],
      ((pending3 x (waits .direct)).body.programme 3).state ≠ .vacant ∧
        ((pending3 x (waits .direct)).body.programme 3).pending = some (waits .direct) ∧ (waits .direct).owner ≠ .scene) := by
  decide +kernel

theorem test_witness_Select :
    (let s := asked none .main 0 (twoSources .auto)
     (s.body.programme 3).state = .running ∧ (s.body.programme 3).active = some (twoSources .auto) ∧
       (twoSources .auto).backup ≠ none) ∧
    ((held .starved).body.programme 3).active = some stereo ∧ stereo.backup = none := by decide +kernel

theorem test_witness_PortRequest :
    (State.reset.body.port 7).cls = .k48 ∧ (State.reset.body.port 7).cls ≠ .k96 ∧
      ((held .running).body.programme 3).state ≠ .priming := by decide +kernel

theorem test_witness_IntegrateRequests :
    (∀ x ∈ [IntegState.idle, .integrating, .paused, .full],
      (((held .running).body.onMeter 3 fun m => { m with integState := x }).meter 3).integState = x) ∧
    ((held .running).body.programme 3).state ≠ .vacant ∧
    (let l : List Deferred := (List.range 7).map fun n => { tag := BitVec.ofNat 8 n, kind := .delay, subject := 3 }
     (∀ d ∈ l, d.tag ≠ 9) ∧ l.length < 8 ∧ (∃ d ∈ l, d.tag = 6) ∧
       8 ≤ ({ tag := 7, kind := .delay, subject := 3 } :: l : List Deferred).length) := by decide +kernel

theorem test_witness_Histo :
    (15 < 16 ∧ 749 < 750 ∧ 0 < 1 ∧ 50 < 51 ∧ 750 < 749 + 2) ∧ (749 + 1 ≤ 750 ∧ 700 + 50 ≤ 750) ∧
    (State.reset.body.programme 3).state = .vacant ∧ ((held .running).body.programme 3).state ≠ .vacant ∧
    ((held .running).body.meter 3).countsAgree = true := by decide +kernel

theorem test_witness_PeekIdentify :
    (readPoint (held .running) (0x101B + 256 * 3)).isSome = true ∧ (readPoint (held .running) 0x0000).isSome = true ∧
      readPoint (held .running) 0xFFFF = none ∧
      (blocks fun b => { b with banksStrap := .two }).body.banksStrap = .two := by decide +kernel

/-- An entry of each state, its holds and its enable changed and not. -/
theorem test_witness_AlarmcfgAndAck :
    ({ onsetHold := some 600, releaseHold := some 600, contactMask := some 255 } : AlarmFields) ≠ {} ∧
    (∀ x ∈ [EntryState.clear, .onset, .active, .release, .latched],
      let s := blocks fun b => b.setEntry 153 { state := x, enabled := true, onsetHold := 5, releaseHold := 25 }
      (s.body.entry 153).state = x ∧ (s.body.entry 153).enabled = true ∧
        (({ onsetHold := some 600 } : AlarmFields).onsetHold.getD (s.body.entry 153).onsetHold) ≠ (s.body.entry 153).onsetHold ∧
        (({ releaseHold := some 0 } : AlarmFields).releaseHold.getD (s.body.entry 153).releaseHold) ≠
          (s.body.entry 153).releaseHold ∧
        (({ enabled := some false } : AlarmFields).enabled.getD (s.body.entry 153).enabled) = false) := by decide +kernel

theorem test_witness_AlarmRefused :
    153 < 154 ∧ ({ enabled := some true, reserved := 4 } : AlarmFields).reserved ≠ 0 ∧
      ({ onsetHold := some 601 } : AlarmFields).onsetHold = some 601 ∧
      ({ releaseHold := some 601 } : AlarmFields).releaseHold = some 601 ∧
      ({ contactMask := some 256 } : AlarmFields).contactMask = some 256 := by decide

theorem test_witness_ContactRequest :
    (State.reset.body.contact 7).mode = .steady ∧ 7 < 8 ∧ 2 ≤ (2 : Byte).toNat ∧ contactsRight State.reset.body ∧
    leadsTo .sceneListEnd (running .applying) (fun t => (t.body.contact 7).mode == .steady) = true := by
  unfold contactsRight
  decide +kernel

/-! Scenes, the watch list and the control line. -/

/-- Scene 5 with records, and the sequencer in a state, at record 0 of it. -/
def scened (x : SeqState) (r : List SceneRecord) (stop : Bool) (f : Sequencer → Sequencer := id)
    (g : Body → Body := id) : State :=
  running x f fun b => g (b.setScene 5 { records := r, stopOnRefusal := stop })

theorem test_witness_SceneAppend :
    (32 ≤ 32 ∧ 8 ≤ (8 : Byte).toNat ∧ 31 < 32 ∧ (7 : Byte).toNat < 8) ∧
    (let records : List (Option SceneRecord) := [some (.wait 250)] ++ some (.wait 251) :: [none]
     records = [some (.wait 250), some (.wait 251), none] ∧ recordForm (.wait 250) = true ∧
       recordForm (.wait 251) = false) ∧
    (recordForm (.set (.programme 15) [.linkGroup (some 3)]) = true ∧ recordForm (.set (.group 4) [.switchGuard 1]) = false ∧
      recordForm (.set (.group 3) [.loudLow 0, .loudHigh 0]) = true ∧ recordForm (.set (.programme 0) []) = false) ∧
    (∃ t ∈ (sequenced fun q => { q with takes := [take5] }).body.sequencer.takes, t.scene = 5) ∧
    State.reset.body.sequencer.takes = [] ∧ State.reset.body.sequencer.state = .idle ∧
    (let l : SceneList := { records := List.replicate 128 (.wait 0) }
     let full (n : Nat) : Body := (List.finRange 32).foldl (fun b k => if k.val < n then b.setScene k l else b) State.reset.body
     (full 8).scene 9 = {} ∧ ((full 8).scenes.toList.map fun l => l.records.length).sum = 1024 ∧
       ((full 7).scenes.toList.map fun l => l.records.length).sum = 896 ∧
       128 < ((full 7).scene 6).records.length + 1) := by decide +kernel

theorem test_witness_SceneRead :
    (31 < 32 ∧ 127 < 128 ∧ 0 < 1 ∧ 8 < 9) ∧ ((31 : Fin 32).val ≤ 31 ∧ 127 ≤ 127 ∧ 1 ≤ 1 ∧ 8 ≤ 8) := by decide

theorem test_witness_TakeAccepted :
    (31 < 32 ∧ ¬ 4 ≤ 3 ∧ 3 ≤ 3) ∧ State.reset.body.sequencer.state = .idle ∧ State.reset.body.sequencer.takes = [] ∧
    State.reset.body.line.deferred = [] ∧
    (let s := sequenced fun q => { q with state := .armed, takes := List.replicate 3 take5 }
     s.body.sequencer.takes.length < 4 ∧ s.body.sequencer.state ≠ .idle) ∧
    (let s := sequenced fun q => { q with state := .armed, takes := List.replicate 4 take5 }
     4 ≤ s.body.sequencer.takes.length) ∧
    (let s := sequenced (fun q => q) fun b => b.onLine fun l => { l with deferred := [takeOp] }
     (∃ d ∈ s.body.line.deferred, d.tag = 9) ∧ (∀ d ∈ s.body.line.deferred, d.tag ≠ 10) ∧ s.body.line.deferred.length < 8) := by
  decide +kernel

/-- The running take, the head of an ARMED queue, and a take behind another. -/
theorem test_witness_CancelTake :
    (State.reset.body.sequencer.takes = [] ∧ (running .applying).body.sequencer.takes = take5 :: [] ∧
      take5.tag = 9 ∧ (running .halted).body.sequencer.state = .halted ∧ (running .armed).body.sequencer.state = .armed) ∧
    (let s := running .applying fun q => { q with takes := [take5, { take5 with tag := 10 }] }
     s.body.sequencer.takes = [take5] ++ { take5 with tag := 10 } :: [] ∧ (∀ o ∈ [take5], o.tag ≠ 10) ∧
       [take5] ≠ ([] : List Take)) ∧
    InFlight takeOp (running .armed) := by
  unfold InFlight
  decide +kernel

def halt5 : Halt := { scene := 5, index := 127, reason := .badField, countdown := 1 }

theorem test_witness_ResumeTake :
    (running .applying).body.sequencer.state ≠ .halted ∧
    (let s := running .halted fun q => { q with halt := some halt5 }
     s.body.sequencer.state = .halted ∧ s.body.sequencer.halt = some halt5) := by decide +kernel

/-- A halted take whose countdown runs out, with a set that the scene owns and its DELAY operation in flight. -/
theorem test_witness_TakeAbandoned :
    let w := waits .scene (some (.operation 8))
    let op : Deferred := { tag := 8, kind := .delay, subject := 3 }
    let s := scened .halted [] false (fun q => { q with halt := some halt5 }) fun b =>
      (b.setProgramme 3 { state := .running, active := some stereo, pending := some w }).onLine fun l =>
        { l with deferred := [takeOp, op] }
    (∀ x ∈ [SeqState.idle, .armed], (running x).body.sequencer.state = x) ∧
    s.body.sequencer.takes = take5 :: [] ∧ s.body.sequencer.state = .halted ∧ s.body.sequencer.halt = some halt5 ∧
      halt5.countdown ≤ 1 ∧ s.body.timing.boundary = some { frame := 1 } ∧
      ({ frame := 1 } : Boundary).sequencerDone = false ∧
      (∀ p : Fin 16, (s.body.programme p).pending.bind Pending.delay ≠ some (.operation takeOp.tag)) ∧ takeOp.tag = take5.tag ∧
      (s.body.programme 3).pending = some w ∧ w.owner = .scene ∧ w.delay = some (.operation op.tag) ∧
      InFlight takeOp s ∧ InFlight op s := by
  unfold InFlight
  decide +kernel

theorem test_witness_TakeStarts :
    (∀ x ∈ [Trigger.nextBoundary, .atFrame 1, .gpi 3 .rising],
      let tk := { take5 with trigger := x }
      let s := sequenced fun q => { q with state := .armed, takes := [tk] }
      s.body.sequencer.state = .armed ∧ s.body.sequencer.takes = tk :: [] ∧ s.body.sequencer.gpi[(3 : Fin 4)] ≠ true ∧
        s.body.sequencer.gpi[(3 : Fin 4)] = false) ∧
    (let s := sequenced fun q => { q with state := .armed, takes := [{ take5 with trigger := .atFrame 1 }], late := true }
     s.body.sequencer.late = true ∧ s.body.sequencer.state = .armed ∧ (1 : Count) ≠ 2) ∧
    State.reset.body.timing.boundary = some { frame := 1 } ∧ ({ frame := 1 } : Boundary).sequencerDone = false ∧
    (1 : Count) = ({ frame := 1 } : Boundary).frame ∧ State.reset.body.sequencer.state ≠ .armed := by decide +kernel

/-- Each of the four records on a programme that takes it, a refused one, and a record on a group. -/
theorem test_witness_SceneProgrammeRecords :
    let on3 (b : Body) : Body := b.setProgramme 3 { state := .running, active := some { stereo with linkGroup := some 2 } }
    (∀ r ∈ [SceneRecord.set (.programme 3) [.switchGuard 250], .delay (.programme 3) 240000 .slew, .slots 3 [62, 63],
        .source 3 .main (some (7, 6)), .source 3 .backup none, .set (.group 2) [.switchGuard 250]],
      let s := scened .applying [r] true id on3
      s.body.sequencer.state = .applying ∧ s.body.sequencer.current = some 5 ∧ s.body.sequencer.takes = take5 :: [] ∧
        (s.body.scene 5).records[s.body.sequencer.next]? = some r ∧
        ∀ is ∈ [[SettingItem.switchGuard 250], [.delayTarget 240000, .delayMode .slew], [.outputSlots [62, 63]],
          [.mainSource 7 6], [.backupSource none]], writeRefusal s.body 3 true true is = none) ∧
    (setForm [.switchGuard 250] = true ∧ setNames [.switchGuard 250] = true ∧ groupNames [.switchGuard 250] = true ∧
      groupNames [.outputSlots []] = false) ∧
    (let s := scened .applying [.set (.programme 3) [.switchGuard 251]] true id on3
     writeRefusal s.body 3 true true [.switchGuard 251] = some .badField ∧ (s.body.scene 5).stopOnRefusal = true ∧
       ((List.finRange 16).filter fun p =>
         (s.body.programme p).active.any fun st => decide (st.linkGroup = some 2)) = [3]) := by decide +kernel

theorem test_witness_SceneListRecords :
    (∀ r ∈ [SceneRecord.alarmcfg 154 {}, .alarmcfg 153 { onsetHold := some 600 }, .integrate 3 .start, .wait 0, .chain 31],
      let s := scened .applying [r] false
      s.body.sequencer.state = .applying ∧ s.body.sequencer.current = some 5 ∧ s.body.sequencer.takes = take5 :: [] ∧
        (s.body.scene 5).records[s.body.sequencer.next]? = some r) ∧
    ((scened .applying [] false).body.scene 5).records[0]? = none ∧
    (let i : CommitItem := .integrate 3 .start
     (List.replicate 31 i).length < 32 ∧ 32 ≤ (List.replicate 32 i).length) ∧
    (7 < 8 ∧ 8 ≤ 8) ∧ ((held .running).body.programme 3).state ≠ .vacant ∧
      (State.reset.body.programme 3).state = .vacant := by decide +kernel

/-- A commit with sets of the scene, a set of DIRECT beside them, and a commit list, after a WAIT, a WAIT of 0 and the end. -/
theorem test_witness_SceneCommit :
    (∀ c ∈ [some 250, some 0, none],
      let items : List CommitItem := [.alarmcfg 153 { enabled := some false }, .integrate 3 .start, .integrate 3 .reset,
        .integrate 4 .start]
      let s := scened .committing [] false (fun q => { q with commitPoint := c, commitList := items }) fun b =>
        b.setProgramme 3 { state := .running, active := some stereo, pending := some (waits .scene) }
      s.body.timing.boundary = some { frame := 1 } ∧ ({ frame := 1 } : Boundary).sequencerDone = false ∧
        s.body.sequencer.state = .committing ∧ s.body.sequencer.takes = take5 :: [] ∧
        s.body.sequencer.commitPoint = c ∧ (s.body.programme 3).pending = some (waits .scene) ∧
        (waits .scene).owner = .scene ∧ (s.body.programme 3).active = some stereo ∧
        (s.body.programme 4).sceneOwned = false ∧ (s.body.programme 4).state = .vacant ∧
        (s.body.programme 3).state ≠ .vacant ∧ InFlight takeOp s ∧ takeOp.tag = take5.tag ∧
        (∀ p : Fin 16, ∀ w ∈ (s.body.programme p).pending, w.delay ≠ some (.operation takeOp.tag)) ∧
        ∀ p : Fin 16, (s.body.lane p).change = none) ∧
    contactsRight State.reset.body ∧
    (let s := sequenced fun q => { q with state := .waiting, waitCount := 1 }
     s.body.sequencer.state = .waiting ∧ s.body.sequencer.waitCount ≤ 1 ∧ s.body.timing.boundary = some { frame := 1 }) := by
  unfold InFlight contactsRight
  decide +kernel

/-- Points of programme 3: its state and others, one place apart. -/
def watching (n period : Nat) : List Watch :=
  (List.range n).map fun i => { point := 0x1000 + 256 * i, period := period, countdown := 1 }

theorem test_witness_WatchList :
    (readPoint State.reset 0x1000).isSome = true ∧ readPoint State.reset 0xFFFF = none ∧ (1 ≤ 1 ∧ 250 ≤ 250 ∧ ¬ 1 ≤ 0 ∧
      ¬ 251 ≤ 250) ∧
    (let l := watching 16 1
     l.length = 16 ∧ (l.map Watch.point).Nodup ∧ (∀ w ∈ l, w.point ≠ 0x1001) ∧ (readPoint State.reset 0x1001).isSome = true ∧
       l = l.take 3 ++ { point := 0x1300, period := 1, countdown := 1 } :: l.drop 4 ∧
       (∀ o ∈ l.take 3 ++ l.drop 4, o.point ≠ 0x1300) ∧ (l.take 15).length < 16) ∧
    (∀ x ∈ [Instr.watchEmpty 1, .breakLine, .lineReset 1, .deviceReset .r115200 .four],
      leadsTo x State.reset (fun t => t.body.line.watch == []) = true) ∧
    leadsTo .restartPerformed restarting (fun t => t.body.line.watch == []) = true := by
  decide +kernel

/-- Entries due at the boundary; a report that fills a body. -/
theorem test_witness_WatchDue :
    (let s := blocks fun b => b.onLine fun l => { l with watch := watching 16 250 }
     s.body.timing.boundary = some { frame := 1 } ∧ ({ frame := 1 } : Boundary).watchDone = false ∧
       ∃ w ∈ s.body.line.watch, w.countdown ≤ 1) ∧
    (let r : List Field := List.replicate 244 (num1 0)
     6 + (fieldBytes r).length ≤ 250) := by decide +kernel

theorem test_witness_LineReset :
    State.reset.rx.restartPending = false ∧ (∀ m ∈ State.reset.tx.carry, m.kind = .completion) ∧
    (let s := blocks fun b => b.setEntry 153 { state := .active }
     (s.body.entry 153).state ≠ .clear) := by decide +kernel

theorem test_witness_Restart :
    restarting.rx.restartPending = true ∧ restarting.rx.buffer = [] ∧ restarting.tx.queue = restartAnswer :: [] ∧
      restartAnswer.kind = .answer ∧ restartAnswer.fields.head? = some (num1 0x19) ∧
      restarting.rx.state ≠ .discarding := by decide +kernel

/-- The receiver in a state, with bytes in assembly. -/
def receiving (x : RxState) (a : Option (List Byte)) : State := { State.reset with rx := { state := x, assembly := a } }

theorem test_witness_ReceiveFaults :
    (receiving .inFrame (some [0xA5])).rx.state = .inFrame ∧ (receiving .discarding none).rx.state = .discarding ∧
      (receiving .hunting none).rx.state ≠ .inFrame := by decide +kernel

/-- Lengths at both ends; the frame of an IDENTIFY, within it, at its last byte, and with a last byte that is not its own. -/
theorem test_witness_BytesReceived :
    (receiving .hunting none).rx.state = .hunting ∧ ((1 : Byte).toNat < 2 ∧ 250 < (251 : Byte).toNat ∧ 2 ≤ (2 : Byte).toNat ∧
      (250 : Byte).toNat ≤ 250) ∧
    (let bytes := frameBytes [0x17, 1]
     bytes = bytes.take 5 ++ bytes.getD 5 0 :: [] ∧ bytes = bytes.take 4 ++ bytes.getD 4 0 :: bytes.drop 5 ∧
       2 ≤ (bytes.take 2).length ∧ bytes = bytes.take 2 ++ bytes.getD 2 0 :: bytes.drop 3 ∧
       bytes ≠ 0xA5 :: 2 :: 0x17 :: 1 :: [0, 0]) := by decide +kernel

theorem test_witness_CheckedFrames :
    ((0 : Byte).toNat < 1 ∧ 0x1A < (0x1B : Byte).toNat ∧ 1 ≤ (1 : Byte).toNat ∧ (0x1A : Byte).toNat ≤ 0x1A) ∧
    readRequest 0x1A [] = none ∧
    (let f : RxFrame := { kind := 0x05, tag := 1, request := some (.start 3) }
     [f] ≠ [] ∧ [f].length < 2 ∧ 2 ≤ [f, f].length) ∧
    32 ≤ (List.replicate 32 restartAnswer).length ∧ readRequest 0x05 [3] = some (.start 3) ∧
    State.reset.rx.state = .hunting ∧ State.reset.rx.assembly = none ∧
    (receiving .discarding none).rx.state = .discarding := by decide +kernel

/-- A full queue, whose oldest message leaves, and a waiter of each class. -/
theorem test_witness_Departure :
    (let m : Message := { kind := .line, tag := 0, fields := [] }
     State.reset.tx.queue = [] ∧ (List.replicate 31 m).length = 31 ∧ m.kind ≠ .answer ∧
       classesAfter State.reset.tx.pointer = [] ++ .answer :: [.completion, .alarm, .state, .scene, .line]) ∧
    ((State.reset.body.setEntry 153 { reportOwed := true }).entry 153).reportOwed = true ∧
    reportWithheld State.reset.body 153 = false ∧
    ((State.reset.body.setProgramme 15 { stateOwed := some .primed }).programme 15).stateOwed = some .primed ∧
    ((State.reset.body.setLane 15 { sceneDelayOwed := some { programme := 15, target := 0, outcome := .success } }).lane
      15).sceneDelayOwed.isSome = true ∧
    ((State.reset.body.setMeter 15 { sceneResetOwed := some .success }).meter 15).sceneResetOwed = some .success ∧
    ({ breakOwed := some 1 } : LineBlock).breakOwed = some 1 ∧
    (∀ l ∈ [{ badFrameOwed := some (.crc, 1) }, ({ overrunOwed := some (7, 1) } : LineBlock)], l.breakOwed = none) ∧
    (let s := blocks fun b => b.onLine fun l => { l with deferred := [{ takeOp with complete := some (.done, []) }] }
     (syncCompletions s).body.line.completions = [takeOp.tag] ∧ (s.body.line.deferred.map Deferred.tag).Nodup) ∧
    ({ carry := [restartAnswer] } : Sender).carry = restartAnswer :: [] ∧
    ({ kind := 0x05, tag := 1, request := some (.start 3) } : RxFrame).request ≠ some .lineReset := by decide +kernel

theorem test_witness_RequestsRefused :
    (15 < 16 ∧ 7 < 8 ∧ 153 < 154 ∧ 0 < 1 ∧ 512 < 513 ∧ 3 < 4) ∧ setForm [] = false ∧ groupNames [.layout .mono] = false ∧
    (∀ x ∈ ProgState.all, ((held x).body.programme 3).state = x) ∧
    ((pending3 .running (waits .scene)).body.programme 3).sceneOwned = true ∧
    (let s := pending3 .defined { settings := { stereo with layout := .mono }, owner := .direct }
     (s.body.programme 3).state = .defined ∧
       (s.body.programme 3).pending = some { settings := { stereo with layout := .mono }, owner := .direct } ∧
       (s.body.programme 3).active = some stereo ∧ Layout.mono ≠ stereo.layout) ∧
    (let s := held .running fun b => b.onLine fun l => { l with deferred := [takeOp] }
     deferredFree 9 s.body = false ∧ writeRefusal s.body 3 false true [.delayTarget 0, .delayMode .cut] = none ∧
       writeRefusal s.body 3 false true [.delayTarget 240001, .delayMode .cut] = some .badField) ∧
    definedSet State.reset.body 3 [] = .error .badField ∧
    writeRefusal State.reset.body 3 false (setNames [.switchGuard 0]) [.switchGuard 0] = some .wrongState := by decide +kernel

theorem test_witness_EveryStepCompletes : accessesInBanks State.reset = true ∧
    (let s := blocks fun b => b.onBank 0 fun k => { k with access := some (.fill 3 2097088 true) }
     accessesInBanks s = true) := by decide +kernel

theorem test_witness_QueuesKept :
    State.reset.sound = true ∧ State.reset.served ∧ leadsTo (.identify 1) State.reset (fun _ => true) = true := by
  unfold State.served State.nothingWaits
  decide +kernel

theorem test_witness_ContactsKept :
    contactsRight State.reset.body ∧ leadsTo (.contact 1 7 .unacked) State.reset (fun _ => true) = true := by
  unfold contactsRight
  decide +kernel

theorem test_witness_CountsKept :
    (∀ p : Fin 16, (State.reset.body.meter p).countsAgree = true) ∧ leadsTo (.integrateStart 1 3) (held .running) (fun _ => true) = true := by
  decide +kernel

/-- A RUNNING programme with a queued frame and a read granted, and one FILLING with its zero-fill job, within their bank. -/
theorem test_witness_AccessesInBanksKept :
    (let f : QueuedFrame := { lane := 3, seq := 2047, position := 2047, samples := [0, 0] }
     let filling : Programme := { state := .filling, active := some stereo, line := some { oneSegment with first := 1 } }
     let s := held .running fun b => (b.setProgramme 4 filling).onBank 0 fun k =>
       { k with queue := [f], jobs := [{ programme := 4, firstWord := 4096, words := 4096 }]
                access := some (.read 3 0 4094 2 true) }
     storeSound s = true) ∧ leadsTo (.drainComplete 0) State.reset (fun t => storeSound t) = true := by decide +kernel

/-! ## One step of a small state -/

/-- The first HREF edge after reset: LOCKED, the next house sample begun, and no command waits. -/
theorem test_step_href_edge :
    step { State.reset with pending := [.hrefEdge Config.nominalInterval] } =
        exec (.hrefEdge Config.nominalInterval) State.reset ∧
      leadsTo (.hrefEdge Config.nominalInterval) State.reset (fun t =>
        t.body.timing.href == .locked && t.body.timing.sampleCounter == 1 && t.body.timing.samplesOwed == 2 &&
          t.pending == []) = true :=
  ⟨rfl, by decide +kernel⟩

/-- A programme defined: DEFINED with the settings carried, and an answer. -/
theorem test_step_define :
    leadsTo (.define 1 3 [.layout .stereo, .mainSource 0 0]) State.reset (fun t =>
      (t.body.programme 3).state == .defined && (t.body.programme 3).active == some stereo &&
        t.tx.queue == [{ kind := .answer, tag := 1, fields := [num1 1, num1 3, .code (some 1)] }]) = true := by
  decide +kernel

/-- A segment allocated: the first of bank 0, with a line of 2,048 stereo frames. -/
theorem test_step_allocate :
    leadsTo (.allocate 2 3 1) (held .defined) (fun t =>
      (t.body.programme 3).state == .filling && (t.body.programme 3).line == some oneSegment &&
        t.body.banks[0].segments.head? == some (some 3) &&
        t.tx.queue == [{ kind := .accepted, tag := 2, fields := [num1 4] }]) = true := by decide +kernel

theorem test_step_start :
    leadsTo (.start 3 3) (held .parked) (fun t =>
      (t.body.programme 3).state == .priming && (t.body.lane 3).source == some stereo.main) = true := by decide +kernel

/-- The last zero-fill access of a segment: its words are 00000020h, and the programme is PARKED. -/
theorem test_step_zero_fill :
    leadsTo (.zeroFillAccessComplete 0) (held .filling fun b => b.onBank 0 fun k =>
      { k with access := some (.fill 3 4032 true), jobs := [{ programme := 3, firstWord := 0, words := 4096, written := 4032 }] })
      (fun t => (t.body.programme 3).state == .parked && t.dram.readWord 0 4032 == 0x20 && t.dram.readWord 0 4095 == 0x20 &&
        t.dram.readWord 0 4031 == 0 && t.dram.wf && t.dram.length == 64) = true := by decide +kernel

/-- The direct commit of a slot list: the output map names both slots. -/
theorem test_step_direct_commit :
    leadsTo (.directCommit 3) (pending3 .running (waits .direct)) (fun t =>
      t.body.outputMap[0]? == some (some (3, 0)) && t.body.outputMap[63]? == some (some (3, 1)) &&
        (t.body.programme 3).pending == none) = true := by decide +kernel

/-- An unacknowledged entry closes a contact that follows it. -/
theorem test_step_contact :
    leadsTo (.contact 4 7 .unacked)
      (blocks fun b => b.setEntry 10 { state := .latched, unacked := true, contactMask := 128 })
      (fun t => (t.body.contact 7).closed && !(t.body.contact 6).closed) = true := by decide +kernel

/-- A take triggered by an edge, and the first record of its scene. -/
theorem test_step_take :
    leadsTo (.gpiEdge 2 .rising) (sequenced fun q =>
      { q with state := .armed, takes := [{ take5 with trigger := .gpi 2 .rising }] })
      (fun t => t.body.sequencer.state == .applying && t.body.sequencer.current == some 5) = true ∧
    leadsTo .sceneWaitRecord (scened .applying [.wait 250] false)
      (fun t => t.body.sequencer.state == .committing && t.body.sequencer.commitPoint == some 250) = true := by
  decide +kernel

/-- The last byte of an IDENTIFY frame: the frame is checked, and the answer stands in the queue. -/
theorem test_step_last_byte :
    leadsTo (.byteReceived ((frameBytes [0x17, 1]).getD 5 0))
      (receiving .inFrame (some ((frameBytes [0x17, 1]).take 5)))
      (fun t => t.rx.state == .hunting && t.tx.queue.map (fun m => (m.kind, m.tag)) == [(.answer, 1)]) = true := by
  decide +kernel

/-- A5h on the line: a low start bit, 1010 0101 from the least significant bit on, a high stop bit (R174); with the stop bit
found low a FRAMING fault (R175); a low of 19 bit times is none but that, one of 20 a break (R177). -/
theorem test_byte_on_the_line :
    byteBits 0xA5 = [false, true, false, true, false, false, true, false, true, true] ∧
    lineEvent [false, true, true, false, false, false, false, false, false, true] = some (.byteReceived 3) ∧
    lineEvent [false, true, true, false, false, false, false, false, false, false] = some (.receiveFault .framing) ∧
    lineEvent (List.replicate 19 false) = some (.receiveFault .framing) ∧
    lineEvent (List.replicate 20 false) = some .breakLine ∧ transmitted State.reset = [] := by decide +kernel

/-- A frame that arrives while the receiver is DISCARDING is lost; HOLD reads asserted as 0, released as 1. -/
theorem test_step_discarding :
    exec (.identify 1) (receiving .discarding none) = .next (receiving .discarding none) ∧
    exec (.frameChecked 0x17 1 []) (receiving .discarding none) = .next (receiving .discarding none) ∧
    readPoint State.reset 0x16 = some [.code (some 1)] ∧ readPoint State.reset 0x1A = some [num1 0] :=
  ⟨rfl, rfl, by decide +kernel, by decide +kernel⟩

/-- A departure leaves an empty queue empty. -/
theorem test_step_departure :
    leadsTo .messageDeparture { State.reset with tx := { queue := [completionMessage takeOp .done []] } }
      (fun t => t.tx.queue == []) = true ∧ exec .messageDeparture State.reset = .next State.reset :=
  ⟨by decide +kernel, rfl⟩

/-- An OVERLOAD entry evaluated ahead of the rest in PRIMING goes by a mark of its own, which is clear; the SLIP entry still by
the programme's, which the boundary clears. -/
theorem test_step_own_mark :
    leadsTo (.releaseHoldExpiry (programmeEntry 3 1))
      (held .priming fun b => (b.onProgramme 3 fun r => { r with runningMark := true }).setEntry (programmeEntry 3 1)
        { state := .release, countdown := 1 }) (fun t =>
      let b := t.body.onLane 3 fun l => { l with overloadSeen := true, slipSeen := true }
      !condition b (programmeEntry 3 1) && condition b (programmeEntry 3 5) &&
      leadsTo (.frameBoundary []) { t with body := b } (fun u =>
        (u.body.lane 3).overloadSeen && !(u.body.lane 3).slipSeen && !(u.body.programme 3).runningMark &&
          !condition u.body (programmeEntry 3 1))) = true := by decide +kernel

/-- A commit of no backup source in PARKED: the selector becomes MAIN with its cause, and the lane makes no switch. -/
theorem test_step_planned_without_switch :
    leadsTo (.directCommit 3)
      (pending3 .parked { settings := stereo, owner := .direct, delay := none } fun b => b.onProgramme 3 fun r =>
        { r with selector := .backup, active := some (twoSources .auto) }) (fun t =>
      (t.body.programme 3).selector == .main && (t.body.lane 3).source == none && (t.body.programme 3).guard == 0 &&
        t.tx.queue == [stateMessage 3 (t.body.programme 3) .planned]) = true := by decide +kernel

end Sys2Proof.Tests
end

section
/-! The delay store within its banks (O60): what `storeSound` says of the blocks, and the operations that keep it. -/

namespace Sys2Proof.Machine

/-! ### The property, one clause for each part of the store -/

/-- What `storeSound` says of the blocks. -/
structure StoreOk (b : Body) : Prop where
  record : ∀ p, (b.programme p).lineSound = true
  holding : ∀ p, holdingSound b p = true
  segments : ∀ k, (b.bank k).segments.length = 512
  queue : ∀ k, ∀ f ∈ (b.bank k).queue, frameSound b k f = true
  jobs : ∀ k, ∀ j ∈ (b.bank k).jobs, jobSound b k j = true
  access : ∀ k, ∀ a, (b.bank k).access = some a → a.inBank = true

theorem accessesInBanks_iff (s : State) :
    accessesInBanks s = true ↔ ∀ k, ∀ a, (s.body.bank k).access = some a → a.inBank = true := by
  have hall : accessesInBanks s = true ↔ ∀ x ∈ s.body.banks.toList, x.access.all Access.inBank = true := List.all_eq_true
  rw [hall]
  constructor
  · intro h k a ha
    have := h _ (Vector.mem_toList_iff.2 (Vector.getElem_mem (xs := s.body.banks) k.isLt))
    rw [show s.body.banks[k.val].access = some a from ha] at this
    exact this
  · intro h x hx
    obtain ⟨i, hi, rfl⟩ := Vector.mem_iff_getElem.1 (Vector.mem_toList_iff.1 hx)
    rw [Option.all_eq_true]
    exact fun a ha => h ⟨i, hi⟩ a ha

theorem storeSound_iff (s : State) : storeSound s = true ↔ StoreOk s.body := by
  unfold storeSound
  rw [Bool.and_eq_true, accessesInBanks_iff]
  simp only [Bool.and_eq_true, List.all_eq_true, beq_iff_eq, programmeIds, bankIds, List.mem_finRange, true_implies]
  constructor
  · rintro ⟨⟨hp, hk⟩, ha⟩
    exact ⟨fun p => (hp p).1, fun p => (hp p).2, fun k => (hk k).1.1, fun k => (hk k).1.2, fun k => (hk k).2, ha⟩
  · rintro ⟨h1, h2, h3, h4, h5, h6⟩
    exact ⟨⟨fun p => ⟨h1 p, h2 p⟩, fun k => ⟨⟨h3 k, h4 k⟩, h5 k⟩⟩, h6⟩

/-- What the store's soundness reads in a programme record. -/
def Programme.storeView (r : Programme) : ProgState × Option Settings × Option Pending × Option Line :=
  (r.state, r.active, r.pending, r.line)

/-- Records, held frames and banks that agree: the same store. -/
theorem StoreOk.agree {b c : Body} (h : StoreOk b)
    (hp : ∀ p, (c.programme p).storeView = (b.programme p).storeView)
    (hl : ∀ p, (c.lane p).holding = (b.lane p).holding) (hk : c.banks = b.banks) : StoreOk c := by
  have ek : ∀ k, c.bank k = b.bank k := fun k => by simp only [Body.bank, hk]
  have eline : ∀ p, (c.programme p).line = (b.programme p).line := fun p => congrArg (fun v => v.2.2.2) (hp p)
  have ec : ∀ p, channels c p = channels b p := fun p => by
    have ea : (c.programme p).active = (b.programme p).active := congrArg (fun v => v.2.1) (hp p)
    simp only [channels, ea]
  refine ⟨fun p => ?_, fun p => ?_, fun k => ?_, fun k => ?_, fun k => ?_, fun k => ?_⟩
  · have := h.record p
    unfold Programme.lineSound at this ⊢
    obtain ⟨h1, h2, h3, h4⟩ : _ ∧ _ ∧ _ ∧ _ := by simpa only [Programme.storeView, Prod.mk.injEq] using hp p
    rwa [h1, h2, h3, h4]
  · have := h.holding p
    unfold holdingSound at this ⊢
    rwa [eline, ec, hl]
  · rw [ek]; exact h.segments k
  · intro f hf
    rw [ek] at hf
    have := h.queue k f hf
    unfold frameSound at this ⊢
    rwa [eline, ec]
  · intro j hj
    rw [ek] at hj
    have := h.jobs k j hj
    unfold jobSound at this ⊢
    rwa [eline]
  · rw [ek]; exact h.access k

/-- The same programmes, held frames and banks: the same store. -/
theorem StoreOk.congr {b c : Body} (h : StoreOk b) (hp : c.programmes = b.programmes)
    (hl : ∀ p, (c.lane p).holding = (b.lane p).holding) (hk : c.banks = b.banks) : StoreOk c :=
  h.agree (fun p => by simp only [Body.programme, hp]) hl hk

/-! ### What the clauses give -/

theorem lineSound_none_iff {r : Programme} (h : r.line = none) :
    r.lineSound = true ↔ (r.active.isSome = true ↔ r.state ≠ .vacant) := by
  unfold Programme.lineSound
  rw [h, Bool.and_eq_true, beq_iff_eq, Bool.eq_iff_iff, bne_iff_ne]
  simp

theorem lineSound_some_iff {r : Programme} {l : Line} {st : Settings} (h : r.line = some l) (ha : r.active = some st) :
    r.lineSound = true ↔ r.state ≠ .vacant ∧ r.state ≠ .defined ∧ l.first + l.count ≤ 512 ∧ 0 < l.length ∧
      channelsOf st.layout * l.length ≤ 4096 * l.count ∧ ∀ w, r.pending = some w → w.settings.layout = st.layout := by
  change _ ↔ r.state ≠ .vacant ∧ r.state ≠ .defined ∧ l.first + l.count ≤ Config.bankSegments ∧ 0 < l.length ∧
      channelsOf st.layout * l.length ≤ Config.segmentWords * l.count ∧ ∀ w, r.pending = some w → w.settings.layout = st.layout
  unfold Programme.lineSound
  rw [h, ha]
  simp [Option.all_eq_true, and_assoc]

/-- Outside VACANT there is an active set, and nowhere else (R1). -/
theorem StoreOk.active_iff {b : Body} (h : StoreOk b) (p : Fin 16) :
    (b.programme p).active.isSome = true ↔ (b.programme p).state ≠ .vacant := by
  have := h.record p
  unfold Programme.lineSound at this
  rw [Bool.and_eq_true, beq_iff_eq, Bool.eq_iff_iff, bne_iff_ne] at this
  exact this.1

/-- A line has an active set beside it. -/
theorem StoreOk.active_of_line {b : Body} (h : StoreOk b) {p : Fin 16} {l : Line} (hl : (b.programme p).line = some l) :
    ∃ st, (b.programme p).active = some st := by
  have := h.record p
  unfold Programme.lineSound at this
  cases ha : (b.programme p).active with
  | none => simp [hl, ha] at this
  | some st => exact ⟨st, rfl⟩

theorem channels_eq {b : Body} {p : Fin 16} {st : Settings} (h : (b.programme p).active = some st) :
    channels b p = channelsOf st.layout := by simp [channels, h]

/-- The place of a line in its bank, and its frames in the line (R16, R46). -/
theorem StoreOk.line {b : Body} (h : StoreOk b) {p : Fin 16} {l : Line} (hl : (b.programme p).line = some l) :
    (b.programme p).state ≠ .vacant ∧ (b.programme p).state ≠ .defined ∧ l.first + l.count ≤ 512 ∧ 0 < l.length ∧
      channels b p * l.length ≤ 4096 * l.count := by
  obtain ⟨st, ha⟩ := h.active_of_line hl
  obtain ⟨h1, h2, h3, h4, h5, -⟩ := (lineSound_some_iff hl ha).1 (h.record p)
  exact ⟨h1, h2, h3, h4, by rw [channels_eq ha]; exact h5⟩

theorem holdingSound_iff (b : Body) (p : Fin 16) :
    holdingSound b p = true ↔
      ∀ x, (b.lane p).holding = some x → (b.programme p).line ≠ none ∧ x.length ≤ channels b p := by
  simp [holdingSound, Option.all_eq_true, Option.isSome_iff_ne_none]

theorem frameSound_iff (b : Body) (k : Fin 4) (f : QueuedFrame) :
    frameSound b k f = true ↔ ∃ l, (b.programme f.lane).line = some l ∧ l.bank = k ∧ f.position < l.length ∧
      f.samples.length ≤ channels b f.lane := by
  simp [frameSound, Option.any_eq_true, and_assoc]

theorem jobSound_iff (b : Body) (k : Fin 4) (j : FillJob) :
    jobSound b k j = true ↔ (∃ l, (b.programme j.programme).line = some l ∧ l.bank = k) ∧
      j.firstWord + j.words ≤ 2097152 ∧ j.written < j.words ∧ (j.words - j.written) % 64 = 0 := by
  change _ ↔ _ ∧ j.firstWord + j.words ≤ Config.bankWords ∧ _
  simp [jobSound, Option.any_eq_true, and_assoc]

theorem inBank_iff (w n : Nat) : inBank w n = true ↔ w + n ≤ 2097152 := decide_eq_true_iff

/-- A frame of a line lies in the bank: of `c` words, at a place of the line. -/
theorem StoreOk.frame_inBank {b : Body} (h : StoreOk b) {p : Fin 16} {l : Line} (hl : (b.programme p).line = some l)
    {c i : Nat} (hc : c ≤ channels b p) (hi : i < l.length) : 4096 * l.first + c * i + c ≤ 2097152 := by
  obtain ⟨-, -, h1, -, h2⟩ := h.line hl
  have h3 : c * i + c ≤ channels b p * l.length :=
    calc c * i + c = c * (i + 1) := by ring
      _ ≤ channels b p * l.length := Nat.mul_le_mul hc hi
  omega

/-! ### Updates of one block's record -/

variable {b : Body}

/-- An update of a lane that leaves its held frame. -/
theorem StoreOk.setLane (h : StoreOk b) {p : Fin 16} {x : Lane} (hx : x.holding = (b.lane p).holding) :
    StoreOk (b.setLane p x) := by
  refine h.congr rfl (fun q => ?_) rfl
  rw [Body.lane_setLane]
  split
  · rename_i e; subst e; exact hx
  · rfl

theorem StoreOk.onLane (h : StoreOk b) {p : Fin 16} {f : Lane → Lane}
    (hf : ∀ l, (f l).holding = l.holding) : StoreOk (b.onLane p f) := h.setLane (hf _)

/-- A held frame set: of a line, and within its channels. -/
theorem StoreOk.setHolding (h : StoreOk b) {p : Fin 16} {x : Lane}
    (hx : ∀ y, x.holding = some y → (b.programme p).line ≠ none ∧ y.length ≤ channels b p) : StoreOk (b.setLane p x) := by
  refine ⟨h.record, fun q => ?_, h.segments, h.queue, h.jobs, h.access⟩
  rw [holdingSound_iff]
  intro y hy
  rw [Body.lane_setLane] at hy
  split at hy
  · rename_i e; subst e; exact hx y hy
  · exact (holdingSound_iff b q).1 (h.holding q) y hy

/-- An update of a programme record that leaves its line and, where it has one, its active set. -/
theorem StoreOk.setProgramme (h : StoreOk b) {p : Fin 16} {x : Programme} (hx : x.lineSound = true)
    (hl : x.line = (b.programme p).line)
    (ha : x.line ≠ none → x.active.map Settings.layout = (b.programme p).active.map Settings.layout) :
    StoreOk (b.setProgramme p x) := by
  have el : ∀ q, ((b.setProgramme p x).programme q).line = (b.programme q).line := by
    intro q
    rw [Body.programme_setProgramme]
    split
    · rename_i e; subst e; exact hl
    · rfl
  have ec : ∀ q, (b.programme q).line ≠ none → channels (b.setProgramme p x) q = channels b q := by
    intro q hq
    unfold channels
    rw [Body.programme_setProgramme]
    split
    · rename_i e; subst e
      have := congrArg (fun y : Option Layout => (y.map channelsOf).getD 0) (ha (hl ▸ hq))
      simpa [Option.map_map, Function.comp_def] using this
    · rfl
  refine ⟨fun q => ?_, fun q => ?_, h.segments, fun k f hf => ?_, fun k j hj => ?_, h.access⟩
  · rw [Body.programme_setProgramme]
    split
    · exact hx
    · exact h.record q
  · rw [holdingSound_iff]
    intro y hy
    obtain ⟨h1, h2⟩ := (holdingSound_iff b q).1 (h.holding q) y hy
    exact ⟨el q ▸ h1, ec q h1 ▸ h2⟩
  · obtain ⟨l, h1, h2, h3, h4⟩ := (frameSound_iff b k f).1 (h.queue k f hf)
    exact (frameSound_iff _ k f).2 ⟨l, (el _).trans h1, h2, h3, ec f.lane (by simp [h1]) ▸ h4⟩
  · obtain ⟨⟨l, h1, h2⟩, h3⟩ := (jobSound_iff b k j).1 (h.jobs k j hj)
    exact (jobSound_iff _ k j).2 ⟨⟨l, (el _).trans h1, h2⟩, h3⟩

/-- An update of a programme record that leaves state, sets and line. -/
theorem StoreOk.onProgramme (h : StoreOk b) {p : Fin 16} {f : Programme → Programme}
    (hf : ∀ r, (f r).state = r.state ∧ (f r).active = r.active ∧ (f r).pending = r.pending ∧ (f r).line = r.line) :
    StoreOk (b.onProgramme p f) := by
  obtain ⟨h1, h2, h3, h4⟩ := hf (b.programme p)
  refine h.setProgramme ?_ h4 (fun _ => by rw [h2])
  have := h.record p
  unfold Programme.lineSound at this ⊢
  rwa [h1, h2, h3, h4]

/-- A programme outside VACANT moves to a state that may have a line. -/
theorem StoreOk.onState (h : StoreOk b) {p : Fin 16} {f : Programme → Programme} (ha : (b.programme p).active.isSome = true)
    (hs : ∀ r, (f r).state ≠ .vacant ∧ (f r).state ≠ .defined)
    (hf : ∀ r, (f r).active = r.active ∧ (f r).pending = r.pending ∧ (f r).line = r.line) :
    StoreOk (b.onProgramme p f) := by
  obtain ⟨h2, h3, h4⟩ := hf (b.programme p)
  obtain ⟨s1, s2⟩ := hs (b.programme p)
  refine h.setProgramme ?_ h4 (fun _ => by rw [h2])
  obtain ⟨st, hst⟩ := Option.isSome_iff_exists.1 ha
  cases hl : (b.programme p).line with
  | none =>
    rw [lineSound_none_iff (h4.trans hl), h2]
    exact ⟨fun _ => s1, fun _ => ha⟩
  | some l =>
    obtain ⟨-, -, k⟩ := (lineSound_some_iff hl hst).1 (h.record p)
    rw [lineSound_some_iff (h4.trans hl) (h2.trans hst), h3]
    exact ⟨s1, s2, k⟩

/-- A bank replaced. -/
theorem StoreOk.setBank (h : StoreOk b) {k : Fin 4} {x : Bank} (hs : x.segments.length = 512)
    (hq : ∀ f ∈ x.queue, frameSound b k f = true) (hj : ∀ j ∈ x.jobs, jobSound b k j = true)
    (ha : ∀ a, x.access = some a → a.inBank = true) : StoreOk (b.setBank k x) := by
  have pick : ∀ (P : Fin 4 → Bank → Prop), P k x → (∀ o, P o (b.bank o)) → ∀ o, P o ((b.setBank k x).bank o) := by
    intro P h1 h2 o
    rw [Body.bank_setBank]
    split
    · rename_i e; subst e; exact h1
    · exact h2 o
  exact ⟨h.record, h.holding, pick (fun _ y => y.segments.length = 512) hs h.segments,
    pick (fun o y => ∀ f ∈ y.queue, frameSound b o f = true) hq h.queue,
    pick (fun o y => ∀ j ∈ y.jobs, jobSound b o j = true) hj h.jobs,
    pick (fun _ y => ∀ a, y.access = some a → a.inBank = true) ha h.access⟩

/-- A bank that loses frames, jobs or its access. -/
theorem StoreOk.onBank (h : StoreOk b) {k : Fin 4} {f : Bank → Bank}
    (hs : (f (b.bank k)).segments.length = (b.bank k).segments.length) (hq : (f (b.bank k)).queue ⊆ (b.bank k).queue)
    (hj : (f (b.bank k)).jobs ⊆ (b.bank k).jobs)
    (ha : ∀ a, (f (b.bank k)).access = some a → ∃ a', (b.bank k).access = some a' ∧ (a'.inBank = true → a.inBank = true)) :
    StoreOk (b.onBank k f) :=
  h.setBank (hs.trans (h.segments k)) (fun x hx => h.queue k x (hq hx)) (fun x hx => h.jobs k x (hj hx)) fun a e => by
    obtain ⟨a', h1, h2⟩ := ha a e
    exact h2 (h.access k a' h1)

/-- A bank of which only the waiting order changes. -/
theorem StoreOk.onWaiting (h : StoreOk b) {k : Fin 4} {f : Bank → Bank}
    (hf : ∀ x, (f x).segments = x.segments ∧ (f x).queue = x.queue ∧ (f x).jobs = x.jobs ∧ (f x).access = x.access) :
    StoreOk (b.onBank k f) := by
  obtain ⟨h1, h2, h3, h4⟩ := hf (b.bank k)
  exact h.onBank (by rw [h1]) (by rw [h2]; exact fun _ h => h) (by rw [h3]; exact fun _ h => h)
    fun a ha => ⟨a, h4 ▸ ha, id⟩

/-- Blocks beside the store changed. -/
theorem StoreOk.beside {c : Body} (h : StoreOk b) (hp : c.programmes = b.programmes) (hl : c.lanes = b.lanes)
    (hk : c.banks = b.banks) : StoreOk c :=
  h.congr hp (fun p => by simp only [Body.lane, hl]) hk

theorem StoreOk.foldl {α : Type} {f : Body → α → Body} (hf : ∀ b a, StoreOk b → StoreOk (f b a)) (l : List α) {b : Body}
    (h : StoreOk b) : StoreOk (l.foldl f b) := by
  induction l generalizing b with
  | nil => exact h
  | cons a l ih => exact ih (hf b a h)

theorem StoreOk.eachProgramme {f : Fin 16 → Body → Body} (hf : ∀ p b, StoreOk b → StoreOk (f p b)) (h : StoreOk b) :
    StoreOk (b.eachProgramme f) := StoreOk.foldl (fun b p => hf p b) _ h

end Sys2Proof.Machine
end

section
/-! The operations of the delay store and of the reader keep the store within its banks (O60). -/

namespace Sys2Proof.Machine

variable {b : Body}

/-! ### Grants -/

theorem StoreOk.drainAccess (h : StoreOk b) {k : Fin 4} {a : Access} (ha : drainAccess b k = some a) :
    a.inBank = true := by
  unfold Machine.drainAccess at ha
  split at ha
  · cases ha
  · rename_i f fs hq
    obtain ⟨l, hl, -, hi, hc⟩ := (frameSound_iff b k f).1 (h.queue k f (by rw [hq]; exact List.mem_cons_self ..))
    simp only [hl, Option.some.injEq] at ha
    subst ha
    exact (inBank_iff _ _).2 (h.frame_inBank hl hc hi)

theorem StoreOk.fillAccess (h : StoreOk b) {k : Fin 4} {a : Access} (ha : fillAccess (b.bank k) = some a) :
    a.inBank = true := by
  unfold Machine.fillAccess at ha
  rw [Option.map_eq_some_iff] at ha
  obtain ⟨j, hj, rfl⟩ := ha
  obtain ⟨-, h1, h2, h3⟩ := (jobSound_iff b k j).1 (h.jobs k j (List.mem_of_mem_head? hj))
  exact (inBank_iff _ _).2 (by omega)

theorem StoreOk.setAccess (h : StoreOk b) {k : Fin 4} {o : Option Access} (ho : ∀ a, o = some a → a.inBank = true) :
    StoreOk (b.setBank k { b.bank k with access := o }) := h.setBank (h.segments k) (h.queue k) (h.jobs k) ho

theorem StoreOk.grantRead (h : StoreOk b) (k : Fin 4) (p : Fin 16) : StoreOk (grantRead b k p) := by
  unfold Machine.grantRead
  split
  · rename_i r l hr hl
    have h' := h.onLane (p := p) (f := fun x => { x with readRequest := some { r with granted := true } }) fun _ => rfl
    refine h'.setBank (h'.segments k) (h'.queue k) (h'.jobs k) fun a ha => ?_
    simp only [Option.some.injEq] at ha
    subst ha
    refine (inBank_iff _ _).2 (h.frame_inBank hl le_rfl ?_)
    exact Nat.mod_lt _ (h.line hl).2.2.2.1
  · exact h

theorem StoreOk.grantBank (h : StoreOk b) (k : Fin 4) : StoreOk (grantBank k b) := by
  unfold Machine.grantBank
  simp only
  split
  · exact h
  · split
    · exact h.setAccess fun a => h.drainAccess
    · split
      · exact h.grantRead k _
      · split
        · exact h.setAccess fun a => h.drainAccess
        · exact h.setAccess fun a => h.fillAccess

/-! ### Reads -/

theorem StoreOk.openReads (h : StoreOk b) (p : Fin 16) (n : Nat) : StoreOk (openReads p n b) := by
  induction n generalizing b with
  | zero => exact h
  | succ n ih =>
    unfold Machine.openReads
    simp only
    split
    · split
      · exact ih (h.onLane (by exact fun _ => rfl))
      · exact (h.onLane (by exact fun _ => rfl)).grantBank _
    · exact h

theorem StoreOk.pumpReads (h : StoreOk b) (p : Fin 16) : StoreOk (pumpReads p b) := by
  have h' : StoreOk (b.onLane p Lane.prune) := h.onLane (by exact fun _ => rfl)
  unfold Machine.pumpReads
  simp only
  split
  · exact h'.openReads p 10
  · exact h'

theorem Access.kill_inBank (p : Fin 16) (r w : Bool) (a : Access) : (a.kill p r w).inBank = a.inBank := by
  cases a <;> rfl

theorem StoreOk.killAccess (h : StoreOk b) (p : Fin 16) (r w : Bool) : StoreOk (killAccess p r w b) := by
  refine StoreOk.foldl (fun c k hc => ?_) _ h
  refine hc.onBank rfl (fun _ h => h) (fun _ h => h) fun a ha => ?_
  rw [Option.map_eq_some_iff] at ha
  obtain ⟨a', h1, rfl⟩ := ha
  exact ⟨a', h1, fun e => (Access.kill_inBank p r w a').trans e⟩

theorem StoreOk.closeRead (h : StoreOk b) (p : Fin 16) : StoreOk (closeRead p b) :=
  (h.onLane (by exact fun _ => rfl)).killAccess p true false

theorem StoreOk.memoryErrors (h : StoreOk b) (p : Fin 16) (n : Nat) : StoreOk (memoryErrors p n b) := by
  unfold Machine.memoryErrors
  split
  · exact h
  · exact h.onProgramme (by exact fun _ => ⟨rfl, rfl, rfl, rfl⟩)

theorem StoreOk.returnFrame (h : StoreOk b) (p : Fin 16) (seq : Count) (ws : List Word) :
    StoreOk (returnFrame p seq ws b) :=
  ((h.memoryErrors p _).onLane (by exact fun _ => rfl)).pumpReads p

/-! ### The line block, and reports owed -/

theorem StoreOk.onLine (h : StoreOk b) (f : LineBlock → LineBlock) : StoreOk (b.onLine f) := h.beside rfl rfl rfl
theorem StoreOk.onTiming (h : StoreOk b) (f : Timing → Timing) : StoreOk (b.onTiming f) := h.beside rfl rfl rfl
theorem StoreOk.onSequencer (h : StoreOk b) (f : Sequencer → Sequencer) : StoreOk (b.onSequencer f) :=
  h.beside rfl rfl rfl
theorem StoreOk.setMeter (h : StoreOk b) (p : Fin 16) (x : Meter) : StoreOk (b.setMeter p x) := h.beside rfl rfl rfl
theorem StoreOk.setGain (h : StoreOk b) (p : Fin 16) (x : GainStage) : StoreOk (b.setGain p x) := h.beside rfl rfl rfl
theorem StoreOk.setPort (h : StoreOk b) (q : Fin 8) (x : Port) : StoreOk (b.setPort q x) := h.beside rfl rfl rfl
theorem StoreOk.setEntry (h : StoreOk b) (e : Fin 154) (x : Entry) : StoreOk (b.setEntry e x) := h.beside rfl rfl rfl
theorem StoreOk.completeTag (h : StoreOk b) (t : Byte) (o : OpOutcome) (d : List Field) : StoreOk (completeTag t o d b) :=
  h.onLine _
theorem StoreOk.completeSubject (h : StoreOk b) (k : OpKind) (n : Nat) (o : OpOutcome) (d : List Field) :
    StoreOk (completeSubject k n o d b) := h.onLine _
theorem StoreOk.beginDeferred (h : StoreOk b) (t : Byte) (k : OpKind) (n : Nat) : StoreOk (beginDeferred t k n b) :=
  h.onLine _
theorem StoreOk.oweState (h : StoreOk b) (p : Fin 16) (c : StateCause) : StoreOk (oweState p c b) :=
  h.onProgramme (by exact fun _ => ⟨rfl, rfl, rfl, rfl⟩)

/-! ### The reader -/

theorem StoreOk.refreshSetpoint (h : StoreOk b) (p : Fin 16) : StoreOk (refreshSetpoint p b) := by
  unfold Machine.refreshSetpoint
  split <;> exact h.onLane (by exact fun _ => rfl)

theorem StoreOk.endChange (h : StoreOk b) (p : Fin 16) (o : OpOutcome) : StoreOk (endChange p o b) := by
  unfold Machine.endChange
  split
  · exact h
  · have h' := h.onLane (p := p) (f := fun l => { l with change := none, overrideFast := false }) fun _ => rfl
    split
    · exact h'.completeTag _ _ _
    · exact h'.onLane (by exact fun _ => rfl)
    · exact h'

theorem StoreOk.endTail (h : StoreOk b) (p : Fin 16) : StoreOk (endTail p b) := by
  have h' := h.onLane (p := p) (f := fun l => { l with tail := none }) fun _ => rfl
  unfold Machine.endTail
  simp only
  split
  · split
    · split
      · exact h'.onLane (by exact fun _ => rfl)
      · exact h'.endChange p _
    · exact h'
  · exact h'

theorem StoreOk.settleTail (h : StoreOk b) (p : Fin 16) : StoreOk (settleTail p b) := by
  unfold Machine.settleTail
  split
  · exact h.endTail p
  · exact h

theorem StoreOk.reachMark (h : StoreOk b) (p : Fin 16) (m : SpliceMark) : StoreOk (reachMark p m b) :=
  (h.onLane (by exact fun _ => rfl)).refreshSetpoint p

theorem StoreOk.moveReader (h : StoreOk b) (p : Fin 16) (d : Count) : StoreOk (moveReader p d b) := by
  unfold Machine.moveReader
  simp only
  split
  · exact h.onLane (by exact fun _ => rfl)
  · exact ((h.onLane (by exact fun _ => rfl)).onLane (by exact fun _ => rfl)).refreshSetpoint p

theorem StoreOk.makeTail (h : StoreOk b) (p : Fin 16) : StoreOk (makeTail p b) :=
  h.onLane fun l => by cases hr : l.ratio <;> simp

theorem StoreOk.makeCut (h : StoreOk b) (p : Fin 16) (c : DelayChange) : StoreOk (makeCut p c b) := by
  have h' := (h.onLane (p := p) (f := fun l => { l with target := c.target }) fun _ => rfl).refreshSetpoint p
  unfold Machine.makeCut
  simp only
  split
  · split
    · exact h'.endChange p _
    · exact (((h'.makeTail p).moveReader p _).onLane (by exact fun _ => rfl)).pumpReads p
  · exact h'

theorem StoreOk.cutDue (h : StoreOk b) (p : Fin 16) (n : Count) : StoreOk (cutDue p n b) := by
  have h' := h.settleTail p
  unfold Machine.cutDue
  simp only
  split
  · split
    · exact h'.makeCut p _
    · exact h'
  · exact h'

theorem StoreOk.markSlip (h : StoreOk b) (p : Fin 16) : StoreOk (markSlip p b) := h.onLane (by exact fun _ => rfl)

theorem StoreOk.countSlip (h : StoreOk b) (p : Fin 16) : StoreOk (countSlip p b) :=
  (h.onProgramme (by exact fun _ => ⟨rfl, rfl, rfl, rfl⟩)).markSlip p

theorem StoreOk.overrun (h : StoreOk b) (p : Fin 16) : StoreOk (overrun p b) := by
  have h' := h.settleTail p
  unfold Machine.overrun
  simp only
  refine StoreOk.pumpReads (StoreOk.countSlip ?_ p) p
  split
  · exact (h'.makeTail p).moveReader p _
  · exact (h'.moveReader p _).onLane (by exact fun _ => rfl)

theorem StoreOk.leaveRunning (h : StoreOk b) (p : Fin 16) : StoreOk (leaveRunning p b) :=
  (h.setGain p _).setMeter p _

/-- Operations that leave the sets leave the presence of an active set. -/
theorem active_isSome_of_sets {b c : Body} (h : c.sets = b.sets) {p : Fin 16}
    (ha : (b.programme p).active.isSome = true) : (c.programme p).active.isSome = true := by
  rw [(sets_programme h p).1]; exact ha

theorem StoreOk.underrun (h : StoreOk b) {p : Fin 16} (ha : (b.programme p).active.isSome = true) :
    StoreOk (underrun p b) := by
  unfold Machine.underrun
  simp only
  have h1 := (((h.closeRead p).countSlip p).onLane (p := p) (f := fun l =>
    { l with tail := none, fadeIn := 0, marks := [], overloadRun := List.replicate 8 0
             target := match l.change with
               | some c => c.target
               | none => l.target }) fun _ => rfl)
  have h2 := (h1.endChange p .success).leaveRunning p
  refine StoreOk.refreshSetpoint (StoreOk.oweState (h2.onState ?_ (fun _ => ?_) (by exact fun _ => ⟨rfl, rfl, rfl⟩)) p _) p
  · exact active_isSome_of_sets (by simp only [leaveRunning_sets, endChange_sets, onLane_sets, countSlip_sets,
      closeRead_sets]) ha
  · simp only
    split <;> simp

theorem StoreOk.enterRunning (h : StoreOk b) {p : Fin 16} (ha : (b.programme p).active.isSome = true) :
    StoreOk (enterRunning p b) := by
  unfold Machine.enterRunning
  split
  · exact h
  · simp only
    refine StoreOk.pumpReads (StoreOk.refreshSetpoint (StoreOk.oweState ?_ p _) p) p
    exact (h.onLane (by exact fun _ => rfl)).onState ha (fun _ => ⟨by simp, by simp⟩) (by exact fun _ => ⟨rfl, rfl, rfl⟩)

theorem StoreOk.stepLoop (h : StoreOk b) (p : Fin 16) (n : Nat) : StoreOk (stepLoop p n b).1 := by
  induction n generalizing b with
  | zero => exact h
  | succ n ih =>
    have h' : ∀ r : RatioRecord, StoreOk (b.onLane p fun x => { x with acc := x.acc - r.q, readSeq := x.readSeq + 1 }) :=
      fun r => h.onLane (by exact fun _ => rfl)
    unfold Machine.stepLoop
    simp only
    split
    · exact h
    · split
      · exact h
      · split
        · exact h
        · split
          · split
            · exact ih ((h' _).reachMark p _)
            · exact ih (h' _)
          · exact ih (h' _)

theorem StoreOk.stepReader (h : StoreOk b) (p : Fin 16) : StoreOk (stepReader p b).1 :=
  (h.onLane (by exact fun _ => rfl)).stepLoop p _

theorem StoreOk.silentLane (h : StoreOk b) (p : Fin 16) : StoreOk (silentLane p b) := h.onLane (by exact fun _ => rfl)

theorem Lane.stepTail_holding (l : Lane) : l.stepTail.holding = l.holding := by
  unfold Lane.stepTail
  split
  · rfl
  · simp only; split <;> rfl

theorem StoreOk.runLane (h : StoreOk b) {p : Fin 16} (ha : (b.programme p).active.isSome = true) :
    StoreOk (runLane p b) := by
  have hs := h.stepReader p
  have hset := stepReader_sets p b
  unfold Machine.runLane
  split
  · rename_i e
    rw [e] at hs hset
    exact (hs.underrun (active_isSome_of_sets hset ha)).silentLane p
  · rename_i e
    rw [e] at hs
    simp only
    refine StoreOk.memoryErrors (StoreOk.setLane ((hs.onLane Lane.stepTail_holding).pumpReads p) ?_) p _
    rfl

theorem StoreOk.sampleLane (h : StoreOk b) (p : Fin 16) : StoreOk (sampleLane p b) := by
  have h' := h.settleTail p
  have act : ∀ s, ((Machine.settleTail p b).programme p).state = s → s ≠ .vacant →
      ((Machine.settleTail p b).programme p).active.isSome = true := fun s e hs => (h'.active_iff p).2 (e ▸ hs)
  unfold Machine.sampleLane
  simp only
  split
  · rename_i e
    exact h'.runLane (act _ e (by simp))
  · rename_i e
    split
    · have ha := act _ e (by simp)
      exact (h'.enterRunning ha).runLane (active_isSome_of_sets (enterRunning_sets p _) ha)
    · exact h'.silentLane p
  · exact h'.silentLane p

theorem StoreOk.regulateLane (h : StoreOk b) (p : Fin 16) : StoreOk (regulateLane p b) := by
  have h' := h.settleTail p
  unfold Machine.regulateLane
  simp only
  split
  · exact h
  · have h1 := (h'.onLane (p := p) (f := fun l =>
        { l with ratio := l.ratio.map fun r => { r with q := (lockedQ (Machine.settleTail p b) r.port).getD r.q }
                 marks := l.marks.map fun m => { m with q := (lockedQ (Machine.settleTail p b) m.port).or m.q } })
        fun _ => rfl).refreshSetpoint p
    split
    · exact h1
    · split
      · exact (h1.onLane (by exact fun _ => rfl)).endChange p _
      · exact (h1.onLane (by exact fun _ => rfl))

end Sys2Proof.Machine
end

section
/-! The write path, the release of a line and the switching logic keep the store within its banks (O60). -/

namespace Sys2Proof.Machine

variable {b : Body}

/-! ### The write path -/

theorem StoreOk.clearOverloadRuns (h : StoreOk b) (p : Fin 16) : StoreOk (clearOverloadRuns p b) := h.onLane (by exact fun _ => rfl)

theorem StoreOk.watchOverload (h : StoreOk b) (p : Fin 16) (x : List Sample) : StoreOk (watchOverload p x b) := by
  unfold Machine.watchOverload
  exact (h.onLane (by exact fun _ => rfl)).onProgramme (by exact fun _ => ⟨rfl, rfl, rfl, rfl⟩)

theorem StoreOk.afterWrite (h : StoreOk b) (p : Fin 16) : StoreOk (afterWrite p b) := by
  unfold Machine.afterWrite
  split
  · exact h
  · simp only
    split
    · split
      · exact h.overrun p
      · exact h.pumpReads p
    · split
      · exact h.onLane (by exact fun _ => rfl)
      · exact h
    · split
      · exact h.onLane (by exact fun _ => rfl)
      · exact h
    · exact h

/-- A frame within the channels of its lane enters the queue of its line's bank. -/
theorem StoreOk.enterQueue (h : StoreOk b) {p : Fin 16} {x : List Sample} (hx : x.length ≤ channels b p) :
    StoreOk (enterQueue p x b) := by
  unfold Machine.enterQueue
  split
  · exact h
  · rename_i line hl
    simp only
    refine StoreOk.afterWrite (StoreOk.watchOverload (StoreOk.grantBank (StoreOk.onLane ?_ (by exact fun _ => rfl)) _) p x) p
    refine h.setBank (h.segments _) (fun f hf => ?_) (h.jobs _) (h.access _)
    rw [List.mem_append, List.mem_singleton] at hf
    rcases hf with hf | rfl
    · exact h.queue _ f hf
    · exact (frameSound_iff _ _ _).2 ⟨line, hl, rfl, Nat.mod_lt _ (h.line hl).2.2.2.1, hx⟩

theorem StoreOk.handOver (h : StoreOk b) {p : Fin 16} {x : List Sample} (hx : x.length ≤ channels b p) :
    StoreOk (handOver p x b) := by
  unfold Machine.handOver
  split
  · exact h
  · rename_i line hl
    simp only
    split
    · exact h.enterQueue hx
    · have held : ∀ c : Body, StoreOk c → (c.programme p).line = some line → channels c p = channels b p →
          StoreOk (c.onLane p fun l => { l with holding := some x }) := by
        intro c hc e ec
        refine hc.setHolding fun y hy => ?_
        simp only [Option.some.injEq] at hy
        subst hy
        exact ⟨by simp [e], ec ▸ hx⟩
      refine StoreOk.onWaiting ?_ (by exact fun _ => ⟨rfl, rfl, rfl, rfl⟩)
      split
      · refine held _ ((h.onProgramme (by exact fun _ => ⟨rfl, rfl, rfl, rfl⟩)).markSlip p) ?_ ?_
        · simp [Machine.markSlip, hl]
        · simp [Machine.markSlip, channels]
      · exact held b h hl rfl

theorem StoreOk.onHolding_none (h : StoreOk b) (p : Fin 16) : StoreOk (b.onLane p fun l => { l with holding := none }) :=
  h.setHolding fun _ hy => by cases hy

theorem StoreOk.held_length (h : StoreOk b) (p : Fin 16) : ((b.lane p).holding.getD []).length ≤ channels b p := by
  cases hh : (b.lane p).holding with
  | none => exact Nat.zero_le _
  | some x => exact ((holdingSound_iff b p).1 (h.holding p) x hh).2

theorem StoreOk.admitWaiting (h : StoreOk b) (k : Fin 4) (n : Nat) : StoreOk (admitWaiting k n b) := by
  induction n generalizing b with
  | zero => exact h
  | succ n ih =>
    unfold Machine.admitWaiting
    split
    · exact h
    · rename_i p rest _
      split
      · exact h
      · exact ih (((h.onWaiting (by exact fun _ => ⟨rfl, rfl, rfl, rfl⟩)).onHolding_none p).enterQueue (h.held_length p))

theorem StoreOk.discardHeld (h : StoreOk b) (p : Fin 16) : StoreOk (discardHeld p b) := by
  unfold Machine.discardHeld
  exact StoreOk.foldl (fun _ _ hc => (hc.onWaiting (by exact fun _ => ⟨rfl, rfl, rfl, rfl⟩))) _ (h.onHolding_none p)

theorem slotSamples_length (v : Vector Sample 8) (i c : Nat) : (slotSamples v i c).length ≤ c :=
  List.length_take_le _ _

theorem StoreOk.deliver (h : StoreOk b) (q : Fin 8) (x : Vector Sample 8) : StoreOk (deliver q x b) := by
  refine h.eachProgramme fun p c hc => ?_
  split
  · split
    · exact hc.handOver (slotSamples_length _ _ _)
    · exact hc
  · exact hc

/-! ### Completions -/

theorem StoreOk.drainDone (h : StoreOk b) (k : Fin 4) (live : Bool) : StoreOk (drainDone k live b) := by
  refine StoreOk.grantBank (StoreOk.admitWaiting (h.onBank rfl ?_ (fun _ h => h) fun _ ha => by cases ha) k 16) k
  simp only
  split
  · exact List.drop_subset _ _
  · exact fun _ h => h

theorem StoreOk.endAccess (h : StoreOk b) (k : Fin 4) : StoreOk (b.onBank k fun x => { x with access := none }) :=
  h.onBank rfl (fun _ h => h) (fun _ h => h) fun _ ha => by cases ha

theorem StoreOk.readDone (h : StoreOk b) (k : Fin 4) (p : Fin 16) (seq : Count) (live : Bool) (ws : List Word) :
    StoreOk (readDone k p seq live ws b) := by
  unfold Machine.readDone
  simp only
  split
  · exact ((h.endAccess k).returnFrame p seq ws).grantBank k
  · exact (h.endAccess k).grantBank k

theorem StoreOk.fillDone (h : StoreOk b) {p : Fin 16} (ha : (b.programme p).active.isSome = true) :
    StoreOk (fillDone p b) :=
  StoreOk.completeSubject (h.onState ha (fun _ => ⟨by simp, by simp⟩) (by exact fun _ => ⟨rfl, rfl, rfl⟩)) _ _ _ _

theorem StoreOk.fillAdvance (h : StoreOk b) (k : Fin 4) : StoreOk (fillAdvance k b) := by
  unfold Machine.fillAdvance
  split
  · exact h
  · rename_i j js hj
    obtain ⟨hline, h1, h2, h3⟩ := (jobSound_iff b k j).1 (h.jobs k j (by simp [hj]))
    have rest : ∀ i ∈ js, jobSound b k i = true := fun i hi => h.jobs k i (by simp [hj, hi])
    split
    · refine StoreOk.fillDone (h.setBank (x := { b.bank k with jobs := js }) (h.segments k) (h.queue k) rest (h.access k)) ?_
      obtain ⟨l, hl, -⟩ := hline
      obtain ⟨st, hst⟩ := h.active_of_line hl
      simp [hst]
    · refine h.setBank (h.segments k) (h.queue k) (fun i hi => ?_) (h.access k)
      rcases List.mem_cons.1 hi with rfl | hi
      · exact (jobSound_iff _ _ _).2 ⟨hline, h1, by simp only; omega, by simp only; omega⟩
      · exact rest i hi

theorem StoreOk.fillAccessDone (h : StoreOk b) (k : Fin 4) (live : Bool) : StoreOk (fillAccessDone k live b) := by
  unfold Machine.fillAccessDone
  simp only
  split
  · exact ((h.endAccess k).fillAdvance k).grantBank k
  · exact (h.endAccess k).grantBank k

/-! ### A line given back, and a line placed -/

/-- Nothing in the store names a programme: no held frame, no queued frame, no job. -/
structure Unused (b : Body) (p : Fin 16) : Prop where
  holding : (b.lane p).holding = none
  queue : ∀ k, ∀ f ∈ (b.bank k).queue, f.lane ≠ p
  jobs : ∀ k, ∀ j ∈ (b.bank k).jobs, j.programme ≠ p

/-- Nothing names a programme without a line. -/
theorem StoreOk.unused (h : StoreOk b) {p : Fin 16} (hl : (b.programme p).line = none) : Unused b p := by
  refine ⟨?_, fun k f hf e => ?_, fun k j hj e => ?_⟩
  · by_contra hne
    obtain ⟨x, hx⟩ := Option.ne_none_iff_exists'.1 hne
    exact ((holdingSound_iff b p).1 (h.holding p) x hx).1 hl
  · obtain ⟨l, h1, -⟩ := (frameSound_iff b k f).1 (h.queue k f hf)
    rw [e, hl] at h1; cases h1
  · obtain ⟨⟨l, h1, -⟩, -⟩ := (jobSound_iff b k j).1 (h.jobs k j hj)
    rw [e, hl] at h1; cases h1

/-- The record of a programme that nothing names may change its line and its sets. -/
theorem StoreOk.setUnused (h : StoreOk b) {p : Fin 16} (hu : Unused b p) {x : Programme} (hx : x.lineSound = true) :
    StoreOk (b.setProgramme p x) := by
  have other : ∀ o, o ≠ p → (b.setProgramme p x).programme o = b.programme o := fun o e =>
    Body.programme_setProgramme_other b p o x e.symm
  have ch : ∀ o, o ≠ p → channels (b.setProgramme p x) o = channels b o := fun o e => by
    simp only [channels, other o e]
  refine ⟨fun o => ?_, fun o => ?_, h.segments, fun k f hf => ?_, fun k j hj => ?_, h.access⟩
  · rw [Body.programme_setProgramme]
    split
    · exact hx
    · exact h.record o
  · by_cases e : o = p
    · subst e
      exact (holdingSound_iff _ _).2 fun y hy => by rw [Body.lane_setProgramme, hu.holding] at hy; cases hy
    · have := h.holding o
      unfold holdingSound at this ⊢
      rwa [other o e, ch o e]
  · have := h.queue k f hf
    unfold frameSound at this ⊢
    rwa [other _ (hu.queue k f hf), ch _ (hu.queue k f hf)]
  · have := h.jobs k j hj
    unfold jobSound at this ⊢
    rwa [other _ (hu.jobs k j hj)]

theorem setOwner_length (o : Option (Fin 16)) (i n : Nat) (l : List (Option (Fin 16))) :
    (setOwner o i n l).length = l.length := by simp [setOwner]

/-- Killing accesses and discarding a held frame leave programmes, queues and jobs. -/
theorem onAccess_foldl (f : Fin 4 → Bank → Bank) (hf : ∀ k x, (f k x).queue = x.queue ∧ (f k x).jobs = x.jobs)
    (l : List (Fin 4)) (b : Body) :
    (l.foldl (fun b k => b.onBank k (f k)) b).programmes = b.programmes ∧
    (l.foldl (fun b k => b.onBank k (f k)) b).lanes = b.lanes ∧
    ∀ o, ((l.foldl (fun b k => b.onBank k (f k)) b).bank o).queue = (b.bank o).queue ∧
      ((l.foldl (fun b k => b.onBank k (f k)) b).bank o).jobs = (b.bank o).jobs := by
  induction l generalizing b with
  | nil => exact ⟨rfl, rfl, fun _ => ⟨rfl, rfl⟩⟩
  | cons k l ih =>
    obtain ⟨h1, h2, h3⟩ := ih (b.onBank k (f k))
    refine ⟨h1, h2, fun o => ?_⟩
    rw [List.foldl_cons, (h3 o).1, (h3 o).2, Body.onBank, Body.bank_setBank]
    split
    · rename_i e; subst e; exact hf k _
    · exact ⟨rfl, rfl⟩

theorem killAccess_programmes (p : Fin 16) (r w : Bool) (b : Body) : (killAccess p r w b).programmes = b.programmes :=
  (onAccess_foldl (fun _ x => { x with access := x.access.map (Access.kill p r w) }) (fun _ _ => ⟨rfl, rfl⟩) _ b).1

theorem killAccess_lanes (p : Fin 16) (r w : Bool) (b : Body) : (killAccess p r w b).lanes = b.lanes :=
  (onAccess_foldl (fun _ x => { x with access := x.access.map (Access.kill p r w) }) (fun _ _ => ⟨rfl, rfl⟩) _ b).2.1

theorem killAccess_bank (p : Fin 16) (r w : Bool) (b : Body) (o : Fin 4) :
    ((killAccess p r w b).bank o).queue = (b.bank o).queue ∧ ((killAccess p r w b).bank o).jobs = (b.bank o).jobs :=
  (onAccess_foldl (fun _ x => { x with access := x.access.map (Access.kill p r w) }) (fun _ _ => ⟨rfl, rfl⟩) _ b).2.2 o

theorem closeRead_programmes (p : Fin 16) (b : Body) : (closeRead p b).programmes = b.programmes :=
  killAccess_programmes p true false _

theorem closeRead_lane (p : Fin 16) (b : Body) (o : Fin 16) :
    (closeRead p b).lane o = if p = o then { b.lane p with readRequest := none } else b.lane o := by
  unfold closeRead
  simp only [Body.lane, killAccess_lanes]
  exact Body.lane_setLane b p o _

theorem closeRead_bank (p : Fin 16) (b : Body) (o : Fin 4) :
    ((closeRead p b).bank o).queue = (b.bank o).queue ∧ ((closeRead p b).bank o).jobs = (b.bank o).jobs :=
  killAccess_bank p true false _ o

theorem discardHeld_programmes (p : Fin 16) (b : Body) : (discardHeld p b).programmes = b.programmes :=
  (onAccess_foldl (fun _ x => { x with waiting := x.waiting.filter (· != p) }) (fun _ _ => ⟨rfl, rfl⟩) _ _).1

theorem discardHeld_lane (p : Fin 16) (b : Body) (o : Fin 16) :
    (discardHeld p b).lane o = if p = o then { b.lane p with holding := none } else b.lane o := by
  unfold discardHeld
  simp only [Body.lane,
    (onAccess_foldl (fun _ x => { x with waiting := x.waiting.filter (· != p) }) (fun _ _ => ⟨rfl, rfl⟩) _ _).2.1]
  exact Body.lane_setLane b p o _

theorem discardHeld_bank (p : Fin 16) (b : Body) (o : Fin 4) :
    ((discardHeld p b).bank o).queue = (b.bank o).queue ∧ ((discardHeld p b).bank o).jobs = (b.bank o).jobs :=
  (onAccess_foldl (fun _ x => { x with waiting := x.waiting.filter (· != p) }) (fun _ _ => ⟨rfl, rfl⟩) _ _).2.2 o

/-- A frame written leaves state, drop count, line and active set of every programme. -/
theorem enterQueue_programme (p : Fin 16) (x : List Sample) (b : Body) (o : Fin 16) :
    ((enterQueue p x b).programme o).writeSide = (b.programme o).writeSide := by
  unfold enterQueue
  split
  · rfl
  · rename_i line _
    simp only
    generalize hd : Body.onLane _ p _ = d
    have e : (d.programme o).writeSide = (b.programme o).writeSide := by rw [← hd]; rfl
    rw [← e]
    exact writeSide_programme (b := d) (by rw [afterWrite_writeSide, watchOverload_writeSide, grantBank_writeSide]) o

theorem admitWaiting_programme (k : Fin 4) (n : Nat) (b : Body) (o : Fin 16) :
    ((admitWaiting k n b).programme o).writeSide = (b.programme o).writeSide := by
  induction n generalizing b with
  | zero => rfl
  | succ n ih =>
    unfold admitWaiting
    split
    · rfl
    · split
      · rfl
      · exact (ih _).trans (enterQueue_programme _ _ _ o)

theorem admitWaiting_line (k : Fin 4) (n : Nat) (b : Body) (o : Fin 16) :
    ((admitWaiting k n b).programme o).line = (b.programme o).line :=
  congrArg (fun y => y.2.2.1) (admitWaiting_programme k n b o)

/-- A programme's line is given back. -/
theorem StoreOk.releaseLine (h : StoreOk b) (p : Fin 16) : StoreOk (releaseLine p b) := by
  unfold Machine.releaseLine
  split
  · exact h
  · rename_i line hl
    simp only
    refine StoreOk.grantBank (StoreOk.admitWaiting ?_ _ 16) _
    have h1 := ((h.killAccess p true true).closeRead p).discardHeld p
    have ep : (Machine.discardHeld p (Machine.closeRead p (Machine.killAccess p true true b))).programmes = b.programmes := by
      rw [discardHeld_programmes, closeRead_programmes, killAccess_programmes]
    have eh : ((Machine.discardHeld p (Machine.closeRead p (Machine.killAccess p true true b))).lane p).holding = none := by
      rw [discardHeld_lane, if_pos rfl]
    generalize Machine.discardHeld p (Machine.closeRead p (Machine.killAccess p true true b)) = c at *
    have el : (c.programme p).line = some line := by simpa only [Body.programme, ep] using hl
    have h2 := h1.onBank (k := line.bank) (f := fun x =>
        { x with segments := setOwner none line.first line.count x.segments
                 jobs := x.jobs.filter fun j => j.programme != p
                 queue := x.queue.filter fun f => f.lane != p })
      (setOwner_length _ _ _ _) (List.filter_subset_self _) (List.filter_subset_self _) fun a ha => ⟨a, ha, id⟩
    refine h2.setUnused ⟨eh, fun k f hf e => ?_, fun k j hj e => ?_⟩ ?_
    · obtain ⟨l, h3, h4, -⟩ := (frameSound_iff _ k f).1 (h2.queue k f hf)
      rw [e] at h3
      have : l = line := Option.some.inj (h3.symm.trans el)
      subst this; subst h4
      rw [Body.onBank, Body.bank_setBank_same] at hf
      simp [e] at hf
    · obtain ⟨⟨l, h3, h4⟩, -⟩ := (jobSound_iff _ k j).1 (h2.jobs k j hj)
      rw [e] at h3
      have : l = line := Option.some.inj (h3.symm.trans el)
      subst this; subst h4
      rw [Body.onBank, Body.bank_setBank_same] at hj
      simp [e] at hj
    · exact (lineSound_none_iff rfl).2 (h1.active_iff p)

theorem releaseLine_line (p : Fin 16) (b : Body) : ((releaseLine p b).programme p).line = none := by
  unfold releaseLine
  split
  · assumption
  · simp only
    rw [grantBank_programme, admitWaiting_line, Body.onProgramme, Body.programme_setProgramme_same]

/-- A line placed at FREE segments of its bank, for a programme in DEFINED. -/
theorem StoreOk.placeLine (h : StoreOk b) {p : Fin 16} {k : Fin 4} {first n : Nat}
    (hs : (b.programme p).state = .defined) (hp : layoutPending (b.programme p) = false) (hn : 1 ≤ n)
    (hf : first + n ≤ 512) : StoreOk (placeLine p k first n b) := by
  obtain ⟨st, hst⟩ := Option.isSome_iff_exists.1 ((h.active_iff p).2 (by simp [hs]))
  have hline : (b.programme p).line = none := by
    by_contra hne
    obtain ⟨l, hl⟩ := Option.ne_none_iff_exists'.1 hne
    exact (h.line hl).2.1 hs
  have hc : 1 ≤ channelsOf st.layout ∧ channelsOf st.layout ≤ 8 := by cases st.layout <;> decide
  have hu := h.unused hline
  unfold Machine.placeLine
  simp only
  refine StoreOk.grantBank (StoreOk.onLane ?_ (by exact fun _ => rfl)) k
  have h1 : StoreOk (b.onProgramme p fun r =>
      { r with line := some { bank := k, first := first, count := n, length := n * 4096 / channels b p }
               state := .filling }) := by
    rw [channels_eq hst]
    refine h.setUnused hu (Iff.mpr (lineSound_some_iff rfl hst) ⟨by simp, by simp, hf, ?_, ?_, fun w hw => ?_⟩)
    · exact Nat.div_pos (by omega) hc.1
    · rw [Nat.mul_comm 4096]; exact Nat.mul_div_le _ _
    · have hw : (b.programme p).pending = some w := hw
      simpa [layoutPending, hw, hst] using hp
  have h2 := h1.setBank (k := k) (x := { b.bank k with
      segments := setOwner (some p) first n (b.bank k).segments
      jobs := (b.bank k).jobs ++ [{ programme := p, firstWord := 4096 * first, words := 4096 * n }] })
    ((setOwner_length _ _ _ _).trans (h.segments k)) (h1.queue k) (fun j hj => ?_) (h.access k)
  · exact h2
  · rw [List.mem_append, List.mem_singleton] at hj
    rcases hj with hj | rfl
    · exact h1.jobs k j hj
    · refine (jobSound_iff _ _ _).2 ⟨⟨_, by simp; rfl, rfl⟩, ?_, ?_, ?_⟩ <;> simp only <;> omega

end Sys2Proof.Machine
end

section
/-! Trackers, switching, meters, gain stages and the programme table keep the store within its banks (O60). -/

namespace Sys2Proof.Machine

variable {b : Body}

/-! ### Trackers and switching -/

theorem StoreOk.resumeProgramme (h : StoreOk b) {p : Fin 16} (ha : (b.programme p).active.isSome = true) :
    StoreOk (resumeProgramme p b) := by
  unfold Machine.resumeProgramme
  exact StoreOk.clearOverloadRuns (StoreOk.oweState ((h.onLane (by exact fun _ => rfl)).onState ha (fun _ => ⟨by simp, by simp⟩) (by exact fun _ => ⟨rfl, rfl, rfl⟩)) p _) p

theorem StoreOk.active_of_state (h : StoreOk b) {p : Fin 16} {s : ProgState} (e : (b.programme p).state = s)
    (hs : s ≠ .vacant) : (b.programme p).active.isSome = true := (h.active_iff p).2 (e ▸ hs)

theorem StoreOk.afterTracker (h : StoreOk b) (q : Fin 8) : StoreOk (afterTracker q b) := by
  refine h.eachProgramme fun p c hc => ?_
  have resumed : StoreOk (if (c.programme p).state = .starved ∧ isLocked c q then Machine.resumeProgramme p c else c) := by
    split
    · rename_i e; exact hc.resumeProgramme (hc.active_of_state e.1 (by simp))
    · exact hc
  split
  · extract_lets d
    have hd : StoreOk d := resumed
    split
    · exact hd.refreshSetpoint p
    · exact hd
  · exact hc

theorem StoreOk.onPort (h : StoreOk b) (q : Fin 8) (f : Port → Port) : StoreOk (b.onPort q f) := h.setPort q _

theorem StoreOk.forcedJump (h : StoreOk b) (p : Fin 16) : StoreOk (forcedJump p b) := by
  unfold Machine.forcedJump
  simp only
  have h' : StoreOk (if (b.lane p).tail.isSome = true then Machine.endTail p b else b) := by
    split
    · exact h.endTail p
    · exact h
  split
  · exact h'
  · exact StoreOk.pumpReads (StoreOk.reachMark (h'.onLane (by exact fun _ => rfl)) p _) p

theorem StoreOk.placeMark (h : StoreOk b) (p : Fin 16) (src : Source) : StoreOk (placeMark p src b) := by
  unfold Machine.placeMark
  simp only
  split
  · exact h.onLane (by exact fun _ => rfl)
  · refine StoreOk.onLane ?_ (by exact fun _ => rfl)
    split
    · exact h.forcedJump p
    · exact h

theorem StoreOk.emptyLine (h : StoreOk b) (p : Fin 16) : StoreOk (emptyLine p b) := h.onLane (by exact fun _ => rfl)

theorem StoreOk.switchSource (h : StoreOk b) {p : Fin 16} (ha : (b.programme p).active.isSome = true) (src : Source)
    (c : StateCause) : StoreOk (switchSource p src c b) := by
  have loaded : StoreOk ((Machine.oweState p c b).onProgramme p fun r =>
      match r.active with
      | some st => { r with guard := st.switchGuard, revertCount := st.revertHold }
      | none => r) := (h.oweState p c).onProgramme fun r => by split <;> exact ⟨rfl, rfl, rfl, rfl⟩
  unfold Machine.switchSource
  extract_lets b1 b2 b3 b4 b5
  have h3 : StoreOk b3 := by
    show StoreOk (if _ then _ else _)
    split
    · exact loaded.placeMark p src
    · exact loaded
  have h4 : StoreOk b4 := StoreOk.clearOverloadRuns (h3.onLane (by exact fun _ => rfl)) p
  have e4 : b4.sets = b.sets := by
    have e2 : b2.sets = b.sets := (onProgramme_sets _ _ _ fun r => by split <;> exact ⟨rfl, rfl⟩).trans (oweState_sets p c b)
    show (if _ then _ else b2 : Body).sets = _
    split
    · exact (placeMark_sets p src b2).trans e2
    · exact e2
  split
  · exact StoreOk.refreshSetpoint (StoreOk.emptyLine (h4.discardHeld p) p) p
  · have h5 : StoreOk b5 := h4.discardHeld p
    split
    · refine StoreOk.refreshSetpoint (StoreOk.oweState (StoreOk.resumeProgramme (h5.emptyLine p) ?_) p c) p
      exact active_isSome_of_sets (((emptyLine_sets p b5).trans (discardHeld_sets p b4)).trans e4) ha
    · exact h5
  · exact h4

theorem StoreOk.changeSelector (h : StoreOk b) {p : Fin 16} (ha : (b.programme p).active.isSome = true) (side : Selector)
    (c : StateCause) : StoreOk (changeSelector p side c b) := by
  have h' : StoreOk (b.onProgramme p fun r => { r with selector := side }) := h.onProgramme (by exact fun _ => ⟨rfl, rfl, rfl, rfl⟩)
  unfold Machine.changeSelector
  simp only
  split
  · split
    · exact h'.oweState p c
    · exact h'.switchSource (by simpa using ha) _ c
  · exact h'

theorem StoreOk.reconcile (h : StoreOk b) (p : Fin 16) : StoreOk (reconcile p b) := by
  unfold Machine.reconcile
  simp only
  split
  · exact h
  · rename_i st e
    have ha : (b.programme p).active.isSome = true := by rw [e]; rfl
    split
    · split
      · exact h.changeSelector ha _ _
      · exact StoreOk.oweState (h.onProgramme (by exact fun _ => ⟨rfl, rfl, rfl, rfl⟩)) p _
    · split
      · exact h.switchSource ha _ _
      · exact h

theorem carrying_active (h : StoreOk b) {p : Fin 16} (hc : carrying (b.programme p).state = true) :
    (b.programme p).active.isSome = true := by
  refine (h.active_iff p).2 fun e => ?_
  rw [e] at hc
  exact absurd hc (by decide)

theorem failoverTarget_active {a : FailoverAction} {src : Source} (h : failoverTarget b a = some src) :
    (b.programme a.programme).active.isSome = true := by
  unfold failoverTarget at h
  simp only at h
  split at h
  · cases h
  · rename_i e; rw [e]; rfl

theorem StoreOk.takeFailover (h : StoreOk b) (a : FailoverAction) : StoreOk (takeFailover a b) := by
  unfold Machine.takeFailover
  split
  · exact h
  · rename_i e; exact h.changeSelector (failoverTarget_active e) _ _

theorem StoreOk.applyRequested (h : StoreOk b) (p : Fin 16) : StoreOk (applyRequested p b) := by
  have h' : StoreOk (b.onProgramme p fun r => { r with requested := none }) := h.onProgramme (by exact fun _ => ⟨rfl, rfl, rfl, rfl⟩)
  unfold Machine.applyRequested
  simp only
  split
  · exact h'
  · split
    · exact h'
    · rename_i hn
      have ha : (b.programme p).active.isSome = true := by
        cases e : (b.programme p).active with
        | none => simp [e] at hn
        | some st => rfl
      exact h'.changeSelector (by simpa using ha) _ _

theorem StoreOk.revertTest (h : StoreOk b) {p : Fin 16} (ha : (b.programme p).active.isSome = true) :
    StoreOk (revertTest p b) := by
  unfold Machine.revertTest
  simp only
  split
  · exact h
  · split
    · exact h.onProgramme (by exact fun _ => ⟨rfl, rfl, rfl, rfl⟩)
    · split
      · refine StoreOk.changeSelector (h.onProgramme (by exact fun _ => ⟨rfl, rfl, rfl, rfl⟩)) ?_ _ _
        simpa using ha
      · exact h.onProgramme (by exact fun _ => ⟨rfl, rfl, rfl, rfl⟩)

theorem StoreOk.switchingWork (h : StoreOk b) (p : Fin 16) : StoreOk (switchingWork p b) := by
  unfold Machine.switchingWork
  split
  · rename_i hc
    refine StoreOk.revertTest (StoreOk.applyRequested (b := guardStep p b) (h.onProgramme (by exact fun _ => ⟨rfl, rfl, rfl, rfl⟩)) p) ?_
    exact active_isSome_of_sets (by rw [applyRequested_sets, guardStep_sets]) (carrying_active h hc)
  · exact h

/-! ### Meters and gain stages -/

/-- The programme records, the lanes and the banks: what no meter and no gain stage touches. -/
def Body.stored (b : Body) : Vector Programme 16 × Vector Lane 16 × Vector Bank 4 := (b.programmes, b.lanes, b.banks)

theorem StoreOk.of_stored {c : Body} (h : StoreOk b) (e : c.stored = b.stored) : StoreOk c := by
  simp only [Body.stored, Prod.mk.injEq] at e
  exact h.beside e.1 e.2.1 e.2.2

@[simp] theorem setMeter_stored (b : Body) (p x) : (b.setMeter p x).stored = b.stored := rfl
@[simp] theorem setGain_stored (b : Body) (p x) : (b.setGain p x).stored = b.stored := rfl
@[simp] theorem setSweepQueue_stored (b : Body) (x) : ({ b with sweepQueue := x } : Body).stored = b.stored := rfl
@[simp] theorem setSweep_stored (b : Body) (x) : ({ b with sweep := x } : Body).stored = b.stored := rfl
@[simp] theorem setSweeps_stored (b : Body) (x y) : ({ b with sweep := x, sweepQueue := y } : Body).stored = b.stored := rfl
@[simp] theorem setFreeDraws_stored (b : Body) (x) : ({ b with freeDraws := x } : Body).stored = b.stored := rfl
@[simp] theorem completeTag_stored (t o d b) : (completeTag t o d b).stored = b.stored := rfl

@[simp] theorem raiseRequest_stored (p b) : (raiseRequest p b).stored = b.stored := by
  unfold raiseRequest; split <;> simp

@[simp] theorem startSweeps_stored (n b) : (startSweeps n b).stored = b.stored := by
  induction n generalizing b with
  | zero => rfl
  | succ n ih =>
    unfold startSweeps
    simp only
    split
    · split
      · rw [ih]; simp
      · simp
    · rfl

@[simp] theorem nextSweep_stored (b) : (nextSweep b).stored = b.stored := startSweeps_stored _ b

@[simp] theorem endSweep_stored (w b) : (endSweep w b).stored = b.stored := by simp [endSweep]

@[simp] theorem visitBin_stored (w b) : (visitBin w b).stored = b.stored := by
  unfold visitBin
  simp only
  split
  · simp
  · split <;> simp

@[simp] theorem sweepVisitWork_stored (b) : (sweepVisitWork b).stored = b.stored := by
  unfold sweepVisitWork
  split
  · split <;> simp
  · rfl

@[simp] theorem offerBlock_stored (p k b) : (offerBlock p k b).stored = b.stored := by
  unfold offerBlock
  split
  · simp
  · split <;> simp

@[simp] theorem dropSweep_stored (p b) : (dropSweep p b).stored = b.stored := by simp [dropSweep]

theorem foldl_completeTag_stored (ts : List Byte) (o : OpOutcome) (b : Body) :
    (ts.foldl (fun b t => completeTag t o [] b) b).stored = b.stored := by
  induction ts generalizing b with
  | nil => rfl
  | cons t ts ih => exact ih _

@[simp] theorem endResets_stored (p d o b) : (endResets p d o b).stored = b.stored := by
  unfold endResets
  split
  · rfl
  · simp only
    split <;> simp [foldl_completeTag_stored]

@[simp] theorem applyReset_stored (p b) : (applyReset p b).stored = b.stored := by
  unfold applyReset; simp only; split <;> simp

@[simp] theorem clearMeter_stored (p b) : (clearMeter p b).stored = b.stored := by
  unfold clearMeter; simp only [endResets_stored, dropSweep_stored, setMeter_stored]

@[simp] theorem riderDecision_stored (p s d b) : (riderDecision p s d b).stored = b.stored := by
  unfold riderDecision
  split
  · rfl
  · split
    · split <;> simp
    · rfl

@[simp] theorem drawStepEnergy_stored (l m b) : (drawStepEnergy l m b).2.stored = b.stored := by
  unfold drawStepEnergy; split <;> simp

@[simp] theorem closeStep_stored (p l b) : (closeStep p l b).stored = b.stored := by simp [closeStep]

@[simp] theorem meterBoundary_stored (p b) : (meterBoundary p b).stored = b.stored := by
  unfold meterBoundary
  split
  · rfl
  · split
    · simp only; split <;> simp
    · simp

@[simp] theorem sampleMeter_stored (p b) : (sampleMeter p b).stored = b.stored := by
  unfold sampleMeter; split <;> simp

@[simp] theorem sampleGain_stored (p b) : (sampleGain p b).stored = b.stored := by
  unfold sampleGain; simp only; split <;> simp

theorem StoreOk.meterBoundary (h : StoreOk b) (p : Fin 16) : StoreOk (meterBoundary p b) :=
  h.of_stored (meterBoundary_stored p b)

theorem StoreOk.assemble (h : StoreOk b) : StoreOk (assemble b) := h.beside rfl rfl rfl

theorem StoreOk.samplePipeline (h : StoreOk b) : StoreOk (samplePipeline b) := by
  unfold Machine.samplePipeline
  refine StoreOk.assemble (h.eachProgramme fun p c hc => ?_)
  exact ((hc.sampleLane p).of_stored (sampleMeter_stored p _)).of_stored (sampleGain_stored p _)

/-! ### Commits and writes -/

theorem StoreOk.endDelayWrite (h : StoreOk b) (p : Fin 16) (n : Nat) (o : Option DelayOrigin) :
    StoreOk (endDelayWrite p n o b) := by
  unfold Machine.endDelayWrite
  split
  · exact h.completeTag _ _ _
  · exact h.onLane (by exact fun _ => rfl)
  · exact h

theorem StoreOk.beginChange (h : StoreOk b) (p : Fin 16) (st : Settings) (o : Option DelayOrigin) (n : Count) :
    StoreOk (beginChange p st o n b) := by
  have h' := h.endChange p .superseded
  unfold Machine.beginChange
  simp only
  split
  · exact StoreOk.refreshSetpoint (h'.onLane (by exact fun _ => rfl)) p
  · exact h'.onLane (by exact fun _ => rfl)

theorem StoreOk.commitDelay (h : StoreOk b) (p : Fin 16) (x y : Settings) (o : Option DelayOrigin) (n : Count) :
    StoreOk (commitDelay p x y o n b) := by
  unfold Machine.commitDelay
  split
  · exact h.endDelayWrite p _ o
  · split
    · exact h.beginChange p y o n
    · exact StoreOk.endDelayWrite (StoreOk.refreshSetpoint (h.onLane (by exact fun _ => rfl)) p) p _ o

theorem StoreOk.reformMap (h : StoreOk b) : StoreOk (reformMap b) := h.beside rfl rfl rfl

/-- A record with a line keeps its layout when its pending set becomes the active one. -/
theorem StoreOk.commitRecord (h : StoreOk b) {p : Fin 16} {w : Pending} {old : Settings}
    (hp : (b.programme p).pending = some w) (ha : (b.programme p).active = some old) :
    StoreOk (b.onProgramme p fun r => { r with active := some w.settings, pending := none }) := by
  have hv : (b.programme p).state ≠ .vacant := (h.active_iff p).1 (by simp [ha])
  cases hl : (b.programme p).line with
  | none => exact h.setUnused (h.unused hl) (Iff.mpr (lineSound_none_iff hl) ⟨fun _ => hv, fun _ => rfl⟩)
  | some l =>
    obtain ⟨h1, h2, h3, h4, h5, h6⟩ := (lineSound_some_iff hl ha).1 (h.record p)
    refine h.setProgramme (Iff.mpr (lineSound_some_iff hl rfl) ⟨h1, h2, h3, h4, ?_, fun _ e => by cases e⟩) rfl fun _ => ?_
    · rw [h6 w hp]; exact h5
    · simp [ha, h6 w hp]

theorem StoreOk.commitSet (h : StoreOk b) (p : Fin 16) (n : Count) : StoreOk (commitSet p n b) := by
  unfold Machine.commitSet
  simp only
  split
  · rename_i w old hp ha
    refine StoreOk.reconcile (StoreOk.commitDelay ?_ p _ _ _ n) p
    have h1 := (h.commitRecord hp ha).setGain p (GainStage.commit
      ((b.onProgramme p fun r => { r with active := some w.settings, pending := none }).gain p) old w.settings)
    have h2 : ∀ c, StoreOk c → StoreOk (if old.layout = w.settings.layout then c
        else c.onMeter p fun m => m.layoutChanged w.settings.layout) := fun c hc => by
      split
      · exact hc
      · exact hc.setMeter p _
    have h3 : ∀ c, StoreOk c → StoreOk (if old.slots = w.settings.slots then c else Machine.reformMap c) := fun c hc => by
      split
      · exact hc
      · exact hc.reformMap
    exact h3 _ (h2 _ h1)
  · exact h

theorem StoreOk.commitDirect (h : StoreOk b) (p : Fin 16) (n : Count) : StoreOk (commitDirect p n b) := by
  unfold Machine.commitDirect
  split
  · exact h.commitSet p n
  · exact h

theorem write_layout (st : Settings) (i : SettingItem) (h : itemCode i ≠ 0) : (st.write i).layout = st.layout := by
  cases i <;> first | rfl | exact absurd rfl h

theorem writeAll_layout (is : List SettingItem) (st : Settings) (h : ∀ i ∈ is, itemCode i ≠ 0) :
    (st.writeAll is).layout = st.layout := by
  unfold Settings.writeAll
  induction is generalizing st with
  | nil => rfl
  | cons i is ih =>
    exact (ih _ fun j hj => h j (List.mem_cons_of_mem _ hj)).trans (write_layout st i (h i (List.mem_cons_self ..)))

/-- A write keeps the record within its line: with a line the items name no layout. -/
theorem StoreOk.writeSettings (h : StoreOk b) {p : Fin 16} (owner : Owner) (delay : Option DelayOrigin)
    {is : List SettingItem} (hi : (b.programme p).state = .defined ∨ ∀ i ∈ is, itemCode i ≠ 0) :
    StoreOk (writeSettings p owner delay is b) := by
  have key : ∀ c : Body, StoreOk c → c.programme p = b.programme p →
      StoreOk (c.onProgramme p fun r => r.writePending owner delay is) := by
    intro c hc e
    have hx : ((c.programme p).writePending owner delay is).lineSound = true ∧
        ((c.programme p).writePending owner delay is).line = (c.programme p).line ∧
        ((c.programme p).writePending owner delay is).active = (c.programme p).active := by
      unfold Programme.writePending
      split
      · exact ⟨hc.record p, rfl, rfl⟩
      · rename_i st hst
        refine ⟨?_, rfl, rfl⟩
        simp only
        cases hl : (c.programme p).line with
        | none => exact Iff.mpr (lineSound_none_iff rfl) (hc.active_iff p)
        | some l =>
          obtain ⟨a, ha⟩ := hc.active_of_line hl
          obtain ⟨h1, h2, h3, h4, h5, h6⟩ := (lineSound_some_iff hl ha).1 (hc.record p)
          refine Iff.mpr (lineSound_some_iff rfl ha) ⟨h1, h2, h3, h4, h5, fun w hw => ?_⟩
          simp only [Option.some.injEq] at hw
          subst hw
          have hi := hi.resolve_left (by rw [← e]; exact h2)
          rw [writeAll_layout is st hi]
          unfold Programme.effectiveNext at hst
          split at hst
          · rename_i w hw; cases hst; exact h6 w hw
          · rw [ha] at hst; cases hst; rfl
    exact hc.setProgramme hx.1 hx.2.1 fun _ => by rw [hx.2.2]
  unfold Machine.writeSettings
  simp only
  split
  · exact key _ (h.completeTag _ _ _) rfl
  · exact key b h rfl

/-- A write that passes its checks names a layout in DEFINED alone (R4, R5). -/
theorem writeRefusal_layout {p : Fin 16} {s n : Bool} {is : List SettingItem} (h : writeRefusal b p s n is = none) :
    (b.programme p).state = .defined ∨ ∀ i ∈ is, itemCode i ≠ 0 := by
  by_contra hc
  obtain ⟨h1, h2⟩ := not_or.1 hc
  have h3 : is.any (fun i => itemCode i == 0) = true := by simpa using h2
  unfold writeRefusal at h
  simp only [h3] at h
  split at h
  · cases h
  · split at h
    · cases h
    · split at h
      · cases h
      · simp [h1] at h

theorem StoreOk.setMembers (h : StoreOk b) (is : List SettingItem) (ps : List (Fin 16)) :
    StoreOk (setMembers is ps b).2 := by
  induction ps generalizing b with
  | nil => exact h
  | cons p ps ih =>
    unfold Machine.setMembers
    split
    · exact ih h
    · rename_i e; exact ih (h.writeSettings _ _ (writeRefusal_layout e))

end Sys2Proof.Machine
end

section
/-! Every work of the blocks keeps the delay store within its banks (O60). -/

namespace Sys2Proof.Machine

variable {b : Body}

/-! ### House timing, meters, ports -/

theorem StoreOk.startSample (h : StoreOk b) : StoreOk (startSample b) := h.beside rfl rfl rfl

theorem StoreOk.takeSample (h : StoreOk b) : StoreOk (takeSample b) := (h.onTiming _).samplePipeline

theorem StoreOk.hrefEdgeWork (h : StoreOk b) (n : Nat) : StoreOk (hrefEdgeWork n b) := by
  unfold Machine.hrefEdgeWork
  split
  · exact (h.onTiming _).startSample
  · split
    · exact (h.onTiming _).startSample
    · exact h.onTiming _

theorem StoreOk.hrefLossWork (h : StoreOk b) : StoreOk (hrefLossWork b) := by
  unfold Machine.hrefLossWork
  split
  · exact h
  · exact (h.onTiming _).startSample

theorem StoreOk.houseSampleWork (h : StoreOk b) : StoreOk (houseSampleWork b) := by
  unfold Machine.houseSampleWork
  split
  · exact h.takeSample
  · split
    · exact h.startSample.takeSample
    · exact h

theorem StoreOk.regulationWork (h : StoreOk b) : StoreOk (regulationWork b) := by
  unfold Machine.regulationWork
  split
  · exact (h.eachProgramme fun p c hc => hc.regulateLane p).onTiming _
  · exact h

theorem StoreOk.stepBoundaryWork (h : StoreOk b) : StoreOk (stepBoundaryWork b) := by
  unfold Machine.stepBoundaryWork
  split
  · exact h
  · refine (h.eachProgramme fun p c hc => ?_).onTiming _
    split
    · exact hc
    · exact hc.meterBoundary p

theorem StoreOk.resetApplyWork (h : StoreOk b) (p : Fin 16) : StoreOk (resetApplyWork p b) := by
  unfold Machine.resetApplyWork
  split
  · exact h
  · split
    · exact (h.meterBoundary p).onTiming _
    · exact h

theorem StoreOk.frameEdgeWork (h : StoreOk b) (q : Fin 8) (n : Nat) (x : Vector Sample 8) :
    StoreOk (frameEdgeWork q n x b) := by
  unfold Machine.frameEdgeWork
  simp only
  split
  · exact (((h.setPort q _).deliver q x).onPort q _).afterTracker q
  · exact h

theorem StoreOk.lossTimeoutWork (h : StoreOk b) (q : Fin 8) (n : Nat) : StoreOk (lossTimeoutWork q n b) := by
  unfold Machine.lossTimeoutWork
  split
  · exact (h.onPort q _).afterTracker q
  · exact h

theorem StoreOk.holdoverTimeoutWork (h : StoreOk b) (q : Fin 8) : StoreOk (holdoverTimeoutWork q b) := by
  unfold Machine.holdoverTimeoutWork
  split
  · exact (h.onPort q _).afterTracker q
  · exact h

theorem StoreOk.setClass (h : StoreOk b) (q : Fin 8) (c : PortClass) : StoreOk (setClass q c b) := by
  unfold Machine.setClass
  split
  · exact h
  · exact (h.onPort q _).afterTracker q

/-! ### The alarm table -/

theorem StoreOk.recomputeContacts (h : StoreOk b) : StoreOk (recomputeContacts b) := h.beside rfl rfl rfl

theorem StoreOk.clearSeenOf (h : StoreOk b) (e : Fin 154) : StoreOk (clearSeenOf b e) := by
  unfold Machine.clearSeenOf
  split
  · simp only
    split
    · exact StoreOk.onLane (h.onProgramme (by exact fun _ => ⟨rfl, rfl, rfl, rfl⟩)) (by exact fun _ => rfl)
    · exact StoreOk.onLane (h.onProgramme (by exact fun _ => ⟨rfl, rfl, rfl, rfl⟩)) (by exact fun _ => rfl)
    · exact StoreOk.onProgramme (h.onProgramme (by exact fun _ => ⟨rfl, rfl, rfl, rfl⟩)) (by exact fun _ => ⟨rfl, rfl, rfl, rfl⟩)
    · exact h.onProgramme (by exact fun _ => ⟨rfl, rfl, rfl, rfl⟩)
  · exact h.onPort _ _
  · exact h

theorem StoreOk.clearSeen (h : StoreOk b) (done : List (Fin 154)) : StoreOk (clearSeen done b) :=
  h.agree (fun p => by simp [Machine.clearSeen, Body.programme, Programme.storeView])
    (fun p => by simp [Machine.clearSeen, Body.lane]) rfl

theorem StoreOk.evaluateEntry (h : StoreOk b) (n : Count) (e : Fin 154) : StoreOk (evaluateEntry n e b).1 := by
  unfold Machine.evaluateEntry
  simp only
  split
  · exact h.setEntry _ _
  · exact h

theorem StoreOk.evaluateEntries (h : StoreOk b) (n : Count) (es : List (Fin 154)) : StoreOk (evaluateEntries n es b).1 := by
  induction es generalizing b with
  | nil => exact h
  | cons e es ih => exact ih (h.evaluateEntry n e)

theorem StoreOk.evaluate (h : StoreOk b) (d : Boundary) : StoreOk (evaluate d b) :=
  ((h.evaluateEntries _ _).clearSeen _).foldl (fun _ a hc => hc.takeFailover a) _ |>.recomputeContacts

theorem StoreOk.evaluateEarly (h : StoreOk b) (e : Fin 154) (d : Boundary) : StoreOk (evaluateEarly e d b) :=
  ((((h.evaluateEntry d.frame e).clearSeenOf e).setEntry e _).onTiming _).recomputeContacts

theorem StoreOk.onsetExpiryEvent (h : StoreOk b) (e : Fin 154) : StoreOk (onsetExpiryEvent e b) := by
  unfold Machine.onsetExpiryEvent
  split
  · split
    · exact (h.onTiming _).evaluateEarly e _
    · exact h
  · exact h

theorem StoreOk.releaseExpiryEvent (h : StoreOk b) (e : Fin 154) : StoreOk (releaseExpiryEvent e b) := by
  unfold Machine.releaseExpiryEvent
  split
  · split
    · exact (h.onTiming _).evaluateEarly e _
    · exact h
  · exact h

theorem StoreOk.configureEntry (h : StoreOk b) (e : Fin 154) (f : AlarmFields) (n : Count) :
    StoreOk (configureEntry e f n b) := (h.setEntry e _).recomputeContacts

/-! ### The sequencer -/

theorem StoreOk.setSequencer (h : StoreOk b) (q : Sequencer) : StoreOk { b with sequencer := q } := h.beside rfl rfl rfl

theorem StoreOk.endTake (h : StoreOk b) (o : OpOutcome) (n : Count) : StoreOk (endTake o n b) := by
  unfold Machine.endTake
  simp only
  refine StoreOk.onSequencer ?_ _
  split
  · exact h.completeTag _ _ _
  · exact h

/-- A record whose pending set goes keeps its line. -/
theorem StoreOk.dropPending (h : StoreOk b) (p : Fin 16) : StoreOk (b.onProgramme p fun r => { r with pending := none }) := by
  refine h.setProgramme ?_ rfl fun _ => rfl
  cases hl : (b.programme p).line with
  | none => exact Iff.mpr (lineSound_none_iff hl) (h.active_iff p)
  | some l =>
    obtain ⟨st, ha⟩ := h.active_of_line hl
    obtain ⟨h1, h2, h3, h4, h5, -⟩ := (lineSound_some_iff hl ha).1 (h.record p)
    exact Iff.mpr (lineSound_some_iff hl ha) ⟨h1, h2, h3, h4, h5, fun _ e => by cases e⟩

theorem StoreOk.discardScene (h : StoreOk b) (p : Fin 16) : StoreOk (discardScene p b) := by
  unfold Machine.discardScene
  split
  · refine StoreOk.dropPending ?_ p
    split
    · exact h.completeTag _ _ _
    · exact h
  · exact h

theorem StoreOk.abandonTake (h : StoreOk b) (n : Count) : StoreOk (abandonTake n b) :=
  (h.eachProgramme fun p _ hc => hc.discardScene p).endTake _ _

theorem StoreOk.refuseRecord (h : StoreOk b) (r : Reason) : StoreOk (refuseRecord r b) := by
  unfold Machine.refuseRecord
  simp only
  split
  · split <;> exact h.setSequencer _
  · exact h.setSequencer _

theorem StoreOk.countApplied (h : StoreOk b) : StoreOk (countApplied b) := h.onSequencer _

theorem StoreOk.countRecord {x : Option Reason × Body} (h : StoreOk x.2) : StoreOk (countRecord x) := by
  obtain ⟨r, c⟩ := x
  cases r with
  | none => exact StoreOk.countApplied (b := c) h
  | some r => exact StoreOk.refuseRecord (b := c) h r

theorem StoreOk.sceneWrite (h : StoreOk b) (p : Fin 16) (o : Option DelayOrigin) (n : Bool) (is : List SettingItem) :
    StoreOk (sceneWrite p o n is b).2 := by
  unfold Machine.sceneWrite
  split
  · exact h
  · rename_i e; exact h.writeSettings _ _ (writeRefusal_layout e)

theorem StoreOk.sceneWriteAll (h : StoreOk b) (o : Option DelayOrigin) (n : Bool) (is : List SettingItem)
    (ps : List (Fin 16)) : StoreOk (sceneWriteAll o n is ps b).2 := by
  induction ps generalizing b with
  | nil => exact h
  | cons p ps ih => exact ih (h.sceneWrite p o n is)

theorem StoreOk.sceneTarget (h : StoreOk b) (t : Target) (o : Option DelayOrigin) (n : Bool) (is : List SettingItem) :
    StoreOk (sceneTarget t o n is b) := by
  unfold Machine.sceneTarget
  split
  · split
    · exact h.refuseRecord _
    · exact (h.sceneWrite _ o n is).countRecord
  · split
    · exact (h.sceneWriteAll o n is _).countRecord
    · exact h.refuseRecord _

theorem StoreOk.joinCommitList (h : StoreOk b) (i : CommitItem) : StoreOk (joinCommitList i b) := by
  unfold Machine.joinCommitList
  split
  · exact h.refuseRecord _
  · exact (h.onSequencer _).onSequencer _

theorem StoreOk.setRecordWork (h : StoreOk b) : StoreOk (setRecordWork b) := by
  unfold Machine.setRecordWork
  split
  · exact h.sceneTarget _ _ _ _
  · exact h

theorem StoreOk.delayRecordWork (h : StoreOk b) : StoreOk (delayRecordWork b) := by
  unfold Machine.delayRecordWork
  split
  · exact h.sceneTarget _ _ _ _
  · exact h

theorem StoreOk.slotsRecordWork (h : StoreOk b) : StoreOk (slotsRecordWork b) := by
  unfold Machine.slotsRecordWork
  split
  · exact h.sceneTarget _ _ _ _
  · exact h

theorem StoreOk.sourceRecordWork (h : StoreOk b) : StoreOk (sourceRecordWork b) := by
  unfold Machine.sourceRecordWork
  split
  · exact h.sceneTarget _ _ _ _
  · exact h

theorem StoreOk.alarmcfgRecordWork (h : StoreOk b) : StoreOk (alarmcfgRecordWork b) := by
  unfold Machine.alarmcfgRecordWork
  split
  · split
    · exact h.joinCommitList _
    · exact h.refuseRecord _
  · exact h

theorem StoreOk.integrateRecordWork (h : StoreOk b) : StoreOk (integrateRecordWork b) := by
  unfold Machine.integrateRecordWork
  split
  · split
    · exact h.refuseRecord _
    · split
      · exact h.refuseRecord _
      · exact h.joinCommitList _
  · exact h

theorem StoreOk.waitRecordWork (h : StoreOk b) : StoreOk (waitRecordWork b) := by
  unfold Machine.waitRecordWork
  split
  · exact (h.onSequencer _).onSequencer _
  · exact h

theorem StoreOk.chainRecordWork (h : StoreOk b) : StoreOk (chainRecordWork b) := by
  unfold Machine.chainRecordWork
  split
  · split
    · exact h.refuseRecord _
    · split
      · exact h.refuseRecord _
      · exact h.onSequencer _
  · exact h

theorem StoreOk.listEndWork (h : StoreOk b) : StoreOk (listEndWork b) := by
  unfold Machine.listEndWork
  split
  · exact h.onSequencer _
  · exact h

theorem StoreOk.gpiEdgeWork (h : StoreOk b) (k : Fin 4) (d : EdgeDir) : StoreOk (gpiEdgeWork k d b) := by
  unfold Machine.gpiEdgeWork
  simp only
  split
  · exact h
  · exact h.onSequencer _

theorem StoreOk.applyCommitItem (h : StoreOk b) (n : Count) (i : CommitItem) : StoreOk (applyCommitItem n i b).2 := by
  unfold Machine.applyCommitItem
  split
  · exact h.configureEntry _ _ _
  · split
    · exact h.setSequencer _
    · split <;> exact h.setMeter _ _

theorem StoreOk.applyCommitList (h : StoreOk b) (n : Count) (is : List CommitItem) :
    StoreOk (applyCommitList n is b).2 := by
  induction is generalizing b with
  | nil => exact h
  | cons i is ih => exact ih (h.applyCommitItem n i)

theorem StoreOk.afterCommit (h : StoreOk b) (n : Count) : StoreOk (afterCommit n b) := by
  unfold Machine.afterCommit
  split
  · exact h.endTake _ _
  · exact h.onSequencer _
  · exact h.onSequencer _

theorem StoreOk.commitSegment (h : StoreOk b) (n : Count) : StoreOk (commitSegment n b) := by
  unfold Machine.commitSegment
  simp only
  refine StoreOk.afterCommit (StoreOk.onSequencer (StoreOk.applyCommitList ?_ n _) _) n
  exact h.foldl (fun _ p hc => hc.commitSet p n) _

theorem StoreOk.sequencerStep (h : StoreOk b) (n : Count) : StoreOk (sequencerStep n b) := by
  unfold Machine.sequencerStep
  simp only
  split
  · split
    · exact h.setSequencer _
    · exact h
  · exact h.commitSegment n
  · split <;> exact h.setSequencer _
  · split
    · split
      · exact h.abandonTake n
      · exact h.setSequencer _
    · exact h
  · exact h
  · exact h

/-! ### The pieces of a frame boundary -/

theorem StoreOk.mark (h : StoreOk b) (f : Boundary → Boundary) : StoreOk (mark f b) := h.onTiming _

theorem StoreOk.commitPiece (h : StoreOk b) (d : Boundary) (p : Fin 16) : StoreOk (commitPiece d p b) := by
  unfold Machine.commitPiece
  split
  · exact h
  · exact (h.commitDirect p _).mark _

theorem StoreOk.programmePiece (h : StoreOk b) (d : Boundary) (p : Fin 16) : StoreOk (programmePiece d p b) := by
  unfold Machine.programmePiece
  split
  · exact h
  · exact ((h.commitPiece d p).switchingWork p).mark _

theorem StoreOk.cutPiece (h : StoreOk b) (d : Boundary) (p : Fin 16) : StoreOk (cutPiece d p b) := by
  unfold Machine.cutPiece
  split
  · exact h
  · exact (h.cutDue p _).mark _

theorem StoreOk.sequencerPiece (h : StoreOk b) (d : Boundary) : StoreOk (sequencerPiece d b) := by
  unfold Machine.sequencerPiece
  split
  · exact h
  · exact (h.sequencerStep _).mark _

theorem StoreOk.alarmPiece (h : StoreOk b) (d : Boundary) : StoreOk (alarmPiece d b) := by
  unfold Machine.alarmPiece
  split
  · exact h
  · exact (h.evaluate d).mark _

theorem StoreOk.enterBoundary (h : StoreOk b) (d : Boundary) : StoreOk (enterBoundary d b) := h.onTiming _

theorem StoreOk.directCommitWork (h : StoreOk b) (p : Fin 16) : StoreOk (directCommitWork p b) := by
  unfold Machine.directCommitWork
  split
  · split
    · exact (h.enterBoundary _).commitPiece _ p
    · exact h
  · exact h

theorem StoreOk.selectApplyWork (h : StoreOk b) (p : Fin 16) : StoreOk (selectApplyWork p b) := by
  unfold Machine.selectApplyWork
  split
  · simp only
    split
    · exact (h.enterBoundary _).programmePiece _ p
    · exact h
  · exact h

theorem StoreOk.revertWork (h : StoreOk b) (p : Fin 16) : StoreOk (revertWork p b) := by
  unfold Machine.revertWork
  split
  · split
    · exact (h.enterBoundary _).programmePiece _ p
    · exact h
  · exact h

theorem StoreOk.cutMadeWork (h : StoreOk b) (p : Fin 16) : StoreOk (cutMadeWork p b) := by
  unfold Machine.cutMadeWork
  split
  · simp only
    split
    · exact (h.enterBoundary _).cutPiece _ p
    · exact h
  · exact h

theorem StoreOk.sequencerEvent (h : StoreOk b) (f : Boundary → Sequencer → Bool) : StoreOk (sequencerEvent f b) := by
  unfold Machine.sequencerEvent
  split
  · split
    · exact (h.enterBoundary _).sequencerPiece _
    · exact h
  · exact h

/-- Every work of the blocks keeps the store sound. -/
theorem StoreOk.work {f : Body → Body} (w : BlockWork f) (h : StoreOk b) : StoreOk (f b) := by
  cases w with
  | hrefEdge n => exact h.hrefEdgeWork n
  | hrefLoss => exact h.hrefLossWork
  | houseSample => exact h.houseSampleWork
  | settleTail p => exact h.settleTail p
  | rampEnd p => exact h.setGain p _
  | vrefEdge => exact h.onTiming _
  | vrefLoss => exact h.onTiming _
  | generated => exact h.onTiming _
  | regulation => exact h.regulationWork
  | stepBoundary => exact h.stepBoundaryWork
  | resetApply p => exact h.resetApplyWork p
  | sweepVisit => exact h.of_stored (sweepVisitWork_stored b)
  | onsetExpiry e => exact h.onsetExpiryEvent e
  | releaseExpiry e => exact h.releaseExpiryEvent e
  | revert p => exact h.revertWork p
  | selectApply p => exact h.selectApplyWork p
  | directCommit p => exact h.directCommitWork p
  | cutMade p => exact h.cutMadeWork p
  | frameEdge q n x => exact h.frameEdgeWork q n x
  | misaligned q n => exact h.onPort q _
  | syncAbsent q n => exact h.onPort q _
  | clockLoss q n => exact h.onPort q _
  | clockReturn q => exact h.onPort q _
  | lossTimeout q n => exact h.lossTimeoutWork q n
  | holdoverTimeout q => exact h.holdoverTimeoutWork q
  | drainDone k l => exact h.drainDone k l
  | readDone k p q l w => exact h.readDone k p q l w
  | fillAccessDone k l => exact h.fillAccessDone k l
  | gpiEdge k d => exact h.gpiEdgeWork k d
  | sequencer f => exact h.sequencerEvent f
  | setRecord => exact h.setRecordWork
  | delayRecord => exact h.delayRecordWork
  | slotsRecord => exact h.slotsRecordWork
  | sourceRecord => exact h.sourceRecordWork
  | alarmcfgRecord => exact h.alarmcfgRecordWork
  | integrateRecord => exact h.integrateRecordWork
  | waitRecord => exact h.waitRecordWork
  | chainRecord => exact h.chainRecordWork
  | listEnd => exact h.listEndWork
  | enterBoundary d => exact h.enterBoundary d
  | commitPieces d => exact h.eachProgramme fun p _ hc => hc.commitPiece d p
  | sequencerPiece d => exact h.sequencerPiece d
  | programmePieces d => exact h.eachProgramme fun p _ hc => hc.programmePiece d p
  | alarmPiece d => exact h.alarmPiece d
  | cutPieces d => exact h.eachProgramme fun p _ hc => hc.cutPiece d p
  | mark f => exact h.mark f
  | onTiming f => exact h.onTiming f

end Sys2Proof.Machine
end

section
/-! Every request and every step keeps the delay store within its banks: O60. -/

namespace Sys2Proof.Machine

variable {b : Body}

/-! ### The requests -/

theorem findRun_bound {n : Nat} {k : Fin 4} {first : Nat} (hn : 1 ≤ n) (hs : (b.bank k).segments.length = 512)
    (h : findRun b n = some (k, first)) : first + n ≤ 512 := by
  unfold findRun at h
  obtain ⟨k', -, hk⟩ := List.exists_of_findSome?_eq_some h
  rw [Option.map_eq_some_iff] at hk
  obtain ⟨r, hr, he⟩ := hk
  cases he
  have hfree := ((runs_spec (b.bank k)).1 r (List.mem_of_find?_eq_some hr)).1
  have hle : n ≤ r.2 := by simpa using List.find?_some hr
  have hlast := hfree (r.1 + n - 1) (by omega) (by omega)
  obtain ⟨hlt, -⟩ := List.getElem?_eq_some_iff.1 hlast
  omega

theorem StoreOk.allocate (h : StoreOk b) (tag : Byte) {p : Fin 16} {n : Nat} (hs : (b.programme p).state = .defined)
    (hp : layoutPending (b.programme p) = false) (hn : 1 ≤ n) : StoreOk (allocate tag p n b) := by
  unfold Machine.allocate
  split
  · rename_i k first e
    exact h.placeLine hs hp hn (findRun_bound hn (h.segments k) e)
  · exact h.completeTag _ _ _

/-- In VACANT and in DEFINED a programme has no line. -/
theorem StoreOk.line_none (h : StoreOk b) {p : Fin 16} (hs : (b.programme p).state = .vacant ∨ (b.programme p).state = .defined) :
    (b.programme p).line = none := by
  by_contra hne
  obtain ⟨l, hl⟩ := Option.ne_none_iff_exists'.1 hne
  obtain ⟨h1, h2, -⟩ := h.line hl
  exact hs.elim h1 h2

theorem StoreOk.defineProgramme (h : StoreOk b) {p : Fin 16} (hs : (b.programme p).state = .vacant) (st : Settings) :
    StoreOk (defineProgramme p st b) := by
  have h1 : StoreOk (b.onProgramme p fun r =>
      { r with active := some st, pending := none, selector := .main, guard := 0, revertCount := 0, requested := none
               line := none, stateOwed := none, memoryErrors := 0, slips := 0, writeDrops := 0, overloads := 0
               state := .defined }) :=
    h.setUnused (h.unused (h.line_none (.inl hs))) (Iff.mpr (lineSound_none_iff rfl) ⟨fun _ => by simp, fun _ => rfl⟩)
  unfold Machine.defineProgramme
  simp only
  split
  · exact ((h1.onLane (by exact fun _ => rfl)).setGain p _).reformMap
  · exact (h1.onLane (by exact fun _ => rfl)).setGain p _

theorem StoreOk.startProgramme (h : StoreOk b) (p : Fin 16) : StoreOk (startProgramme p b) := by
  unfold Machine.startProgramme
  split
  · exact h
  · rename_i st e
    refine StoreOk.refreshSetpoint (StoreOk.clearOverloadRuns (StoreOk.onLane ?_ (by exact fun _ => rfl)) p) p
    exact h.onState (by simp [e]) (fun _ => ⟨by simp, by simp⟩) (by exact fun _ => ⟨rfl, rfl, rfl⟩)

theorem StoreOk.abandonChange (h : StoreOk b) (p : Fin 16) : StoreOk (abandonChange p b) := by
  unfold Machine.abandonChange
  exact (h.onLane (by exact fun _ => rfl)).endChange p _

theorem StoreOk.parkProgramme (h : StoreOk b) {p : Fin 16} (ha : (b.programme p).active.isSome = true) :
    StoreOk (parkProgramme p b) := by
  unfold Machine.parkProgramme
  simp only
  have h1 := StoreOk.discardHeld (StoreOk.closeRead (h.abandonChange p) p) p
  have s1 : (Machine.discardHeld p (Machine.closeRead p (Machine.abandonChange p b))).sets = b.sets := by
    rw [discardHeld_sets, closeRead_sets, abandonChange_sets]
  generalize Machine.discardHeld p (Machine.closeRead p (Machine.abandonChange p b)) = c at *
  have h2 := (h1.onLane (p := p) (f := fun l =>
    { l with readSeq := l.writeSeq, historyStart := l.writeSeq, fadeIn := 0, tail := none, window := [], marks := []
             ratio := none, increment := Config.unityRatio, setpoint := none, delayLimited := false
             overloadRun := List.replicate 8 0 }) fun _ => rfl).leaveRunning p
  refine (h2.setMeter p _).onState (active_isSome_of_sets ?_ ha)
    (fun _ => ⟨by simp, by simp⟩) (by exact fun _ => ⟨rfl, rfl, rfl⟩)
  exact (leaveRunning_sets p _).trans s1

/-- A programme without a line may take any state its active set allows. -/
theorem StoreOk.lineless (h : StoreOk b) {p : Fin 16} (hl : (b.programme p).line = none) {x : Programme} (hx : x.line = none)
    (ha : x.active.isSome = true ↔ x.state ≠ .vacant) : StoreOk (b.setProgramme p x) :=
  h.setUnused (h.unused hl) ((lineSound_none_iff hx).2 ha)

theorem StoreOk.releaseProgramme (h : StoreOk b) {p : Fin 16} (ha : (b.programme p).active.isSome = true) :
    StoreOk (releaseProgramme p b) := by
  unfold Machine.releaseProgramme
  extract_lets c
  have hc : StoreOk c ∧ c.sets = b.sets := by
    show StoreOk (if _ then _ else _) ∧ (if _ then _ else _ : Body).sets = _
    split
    · exact ⟨h.completeSubject _ _ _ _, completeSubject_sets _ _ _ _ _⟩
    · exact ⟨h, rfl⟩
  refine (hc.1.releaseLine p).lineless (releaseLine_line p c) (releaseLine_line p c) ⟨fun _ => by simp, fun _ => ?_⟩
  exact active_isSome_of_sets ((releaseLine_sets p c).trans hc.2) ha

theorem StoreOk.clearMeter (h : StoreOk b) (p : Fin 16) : StoreOk (clearMeter p b) := h.of_stored (clearMeter_stored p b)

theorem StoreOk.clearProgramme (h : StoreOk b) (p : Fin 16) : StoreOk (clearProgramme p b) := by
  have h1 := StoreOk.releaseLine (StoreOk.completeSubject (StoreOk.completeSubject (h.abandonChange p)
    .allocate p .abandoned []) .delay p .abandoned []) p
  have l1 := releaseLine_line p (Machine.completeSubject .delay p .abandoned []
    (Machine.completeSubject .allocate p .abandoned [] (Machine.abandonChange p b)))
  unfold Machine.clearProgramme
  simp only
  generalize Machine.releaseLine p _ = c at *
  have h2 : StoreOk (c.onLane p fun l => { sceneDelayOwed := l.sceneDelayOwed }) := h1.setHolding fun _ e => by cases e
  have h3 := (h2.setGain p {}).clearMeter p
  have e3 := congrArg (fun v : Vector Programme 16 × _ => v.1[p])
    (clearMeter_stored p ((c.onLane p fun l => { sceneDelayOwed := l.sceneDelayOwed }).setGain p {}))
  refine StoreOk.reformMap (h3.lineless ?_ rfl (iff_of_false (by simp) (by simp)))
  exact (congrArg Programme.line e3).trans l1

theorem StoreOk.inStates (h : StoreOk b) (p : Nat) {ok : ProgState → Bool} {f : Fin 16 → Answer × Body}
    (hf : ∀ p, ok (b.programme p).state = true → StoreOk (f p).2) : StoreOk (inStates p ok b f).2 := by
  unfold Machine.inStates
  split
  · exact h
  · split
    · rename_i e; exact hf _ e
    · exact h

theorem StoreOk.setOne (h : StoreOk b) (p : Nat) (is : List SettingItem) : StoreOk (setOne p is b).2 := by
  unfold Machine.setOne
  split
  · exact h
  · split
    · exact h
    · rename_i e
      dsimp only
      exact h.writeSettings _ _ (writeRefusal_layout e)

theorem StoreOk.setRequest (h : StoreOk b) (t : Target) (is : List SettingItem) : StoreOk (setRequest t is b).2 := by
  unfold Machine.setRequest
  split
  · exact h
  · split
    · exact h.setOne _ is
    · split
      · exact h
      · exact h.setMembers is _

theorem StoreOk.delayRequest (h : StoreOk b) (tag : Byte) (t : Target) (n : Nat) (m : DelayMode) :
    StoreOk (delayRequest tag t n m b).2 := by
  unfold Machine.delayRequest
  simp only
  split
  · exact h
  · split
    · exact h
    · split
      · exact h
      · split
        · exact h
        · refine StoreOk.writeSettings (h.beginDeferred _ _ _) _ _ (.inr fun i hi => ?_)
          simp only [List.mem_cons, List.not_mem_nil, or_false] at hi
          rcases hi with rfl | rfl <;> exact Nat.succ_ne_zero _

theorem StoreOk.defineRequest (h : StoreOk b) (p : Nat) (is : List SettingItem) : StoreOk (defineRequest p is b).2 := by
  unfold Machine.defineRequest
  split
  · exact h
  · split
    · exact h
    · rename_i e
      split
      · exact h
      · exact h.defineProgramme (not_not.1 e) _

theorem StoreOk.allocateRequest (h : StoreOk b) (tag : Byte) (p n : Nat) : StoreOk (allocateRequest tag p n b).2 := by
  unfold Machine.allocateRequest
  split
  · exact h
  · rename_i hn
    refine h.inStates p fun p hs => ?_
    split
    · exact h
    · rename_i hp
      split
      · exact h
      · have hn : 1 ≤ n := by
          simp [natIn] at hn
          omega
        have hp : layoutPending (b.programme p) = false := by simpa using hp
        exact StoreOk.allocate (b := Machine.beginDeferred tag .allocate p b) (h.beginDeferred _ _ _) tag
          (eq_of_beq hs) hp hn

theorem StoreOk.cancelRequest (h : StoreOk b) (t : Byte) : StoreOk (cancelRequest t b).2 := by
  unfold Machine.cancelRequest
  simp only
  split
  · split
    · exact h
    · exact (h.onSequencer _).completeTag _ _ _
  · exact h

theorem StoreOk.takeRequest (h : StoreOk b) (tag : Byte) (n : Nat) (t : Trigger) : StoreOk (takeRequest tag n t b).2 := by
  unfold Machine.takeRequest
  split
  · exact h
  · split
    · exact h
    · split
      · exact h
      · split
        · exact h
        · dsimp only
          exact (h.beginDeferred _ _ _).onSequencer _

theorem StoreOk.sceneAppendRequest (h : StoreOk b) (n : Nat) (f : Byte) (rs : List (Option SceneRecord)) :
    StoreOk (sceneAppendRequest n f rs b).2 := by
  unfold Machine.sceneAppendRequest
  extract_lets bad
  split
  · exact h
  · split
    · exact h
    · split
      · exact h
      · extract_lets new fresh old kept free
        split
        · exact h
        · split
          · exact h
          · exact h.beside rfl rfl rfl

theorem StoreOk.sceneReadRequest (h : StoreOk b) (n f c : Nat) : StoreOk (sceneReadRequest n f c b).2 := by
  unfold Machine.sceneReadRequest
  split
  · exact h
  · split <;> exact h

theorem StoreOk.ackRequest (h : StoreOk b) (e : Option Nat) : StoreOk (ackRequest e b).2 := by
  unfold Machine.ackRequest
  simp only
  split
  · exact h.beside rfl rfl rfl
  · split
    · exact h
    · exact (h.setEntry _ _).recomputeContacts

theorem StoreOk.alarmcfgRequest (h : StoreOk b) (e : Nat) (f : AlarmFields) : StoreOk (alarmcfgRequest e f b).2 := by
  unfold Machine.alarmcfgRequest
  split
  · exact h
  · exact h.configureEntry _ _ _

theorem StoreOk.contactRequest (h : StoreOk b) (k : Nat) (m : ContactMode) : StoreOk (contactRequest k m b).2 := by
  unfold Machine.contactRequest
  split
  · exact h
  · exact h.beside rfl rfl rfl

theorem StoreOk.portRequest (h : StoreOk b) (q : Nat) (c : PortClass) : StoreOk (portRequest q c b).2 := by
  unfold Machine.portRequest
  split
  · exact h
  · exact h.setClass _ c

theorem StoreOk.resumeRequest (h : StoreOk b) : StoreOk (resumeRequest b).2 := by
  unfold Machine.resumeRequest
  split
  · exact h.setSequencer _
  · exact h

theorem StoreOk.abandonRequest (h : StoreOk b) : StoreOk (abandonRequest b).2 := by
  unfold Machine.abandonRequest
  simp only
  split
  · exact h.abandonTake _
  · exact h

/-- Every request on the blocks keeps the store sound. -/
theorem StoreOk.request {f : Body → Answer × Body} (w : RequestWork f) (h : StoreOk b) : StoreOk (f b).2 := by
  have active : ∀ p, (b.programme p).state ≠ .vacant → (b.programme p).active.isSome = true := fun p => (h.active_iff p).2
  cases w with
  | define p i => exact h.defineRequest p i
  | set t i => exact h.setRequest t i
  | delay a t n m => exact h.delayRequest a t n m
  | allocate a p n => exact h.allocateRequest a p n
  | start p => exact h.inStates p fun p _ => h.startProgramme p
  | park p => exact h.inStates p fun p hc => h.parkProgramme (carrying_active h hc)
  | release p =>
    refine h.inStates p fun p hs => h.releaseProgramme (active p fun e => ?_)
    rw [e] at hs
    exact absurd hs (by decide)
  | clear p =>
    refine h.inStates p fun p _ => ?_
    split
    · exact h
    · exact h.clearProgramme p
  | select p s =>
    refine h.inStates p fun p _ => ?_
    split
    · exact h
    · dsimp only
      exact h.onProgramme (by exact fun _ => ⟨rfl, rfl, rfl, rfl⟩)
  | port q c => exact h.portRequest q c
  | reset a p =>
    refine h.inStates p fun p _ => ?_
    split
    · exact h
    · exact (h.beginDeferred _ _ _).setMeter p _
  | integrate p a => exact h.inStates p fun p _ => h.setMeter p _
  | histo p f n =>
    simp only [histoRequest]
    split
    · exact h
    · exact h.inStates p fun _ _ => h
  | alarmcfg e f => exact h.alarmcfgRequest e f
  | ack e => exact h.ackRequest e
  | contact k m => exact h.contactRequest k m
  | sceneAppend n f r => exact h.sceneAppendRequest n f r
  | sceneRead n f c => exact h.sceneReadRequest n f c
  | take a n t => exact h.takeRequest a n t
  | cancel t => exact h.cancelRequest t
  | resume => exact h.resumeRequest
  | abandon => exact h.abandonRequest
  | identify => exact h

end Sys2Proof.Machine
end

section
/-! Every step keeps the delay store within its banks, and no granted access leaves its bank: O60. -/

namespace Sys2Proof.Machine

variable {b c : Body} {s t : State}

/-! ### Resets and the control line -/

/-- The store of a body with no programme defined and no frame anywhere. -/
theorem StoreOk.fresh : StoreOk {} := by
  have prog : ∀ p, ({} : Body).programme p = {} := fun p => Vector.getElem_replicate p.isLt
  have bank : ∀ k, ({} : Body).bank k = {} := fun k => Vector.getElem_replicate k.isLt
  have lane : ∀ p, ({} : Body).lane p = {} := fun p => Vector.getElem_replicate p.isLt
  refine ⟨fun p => ?_, fun p => ?_, fun k => ?_, fun k => ?_, fun k => ?_, fun k => ?_⟩
  · rw [prog]; rfl
  · rw [holdingSound_iff, lane]; exact fun _ e => by cases e
  · rw [bank]; exact List.length_replicate
  all_goals rw [bank]
  · exact fun _ e => by cases e
  · exact fun _ e => by cases e
  · exact fun _ e => by cases e

/-- What a body owes the control line is nothing to the store. -/
theorem StoreOk.of_quiet (h : StoreOk b) (e : c.quiet = b.quiet) : StoreOk c := by
  refine h.agree (fun p => ?_) (fun p => ?_) (congrArg Body.banks e :)
  · have := congrArg (fun x : Body => Programme.storeView x.programmes[p]) e
    simpa [Body.quiet, Body.programme, Programme.storeView] using this
  · have := congrArg (fun x : Body => Lane.holding x.lanes[p]) e
    simpa [Body.quiet, Body.lane] using this

theorem StoreOk.placeReports (h : StoreOk s.body) : StoreOk (placeReports s).body := h.of_quiet (placeReports_quiet s)

theorem StoreOk.performRestart (s : State) : StoreOk (performRestart s).body := StoreOk.fresh.beside rfl rfl rfl

theorem StoreOk.performReset (l : LineRate) (k : BankStrap) (s : State) : StoreOk (performReset l k s).body :=
  StoreOk.fresh.beside rfl rfl rfl

theorem StoreOk.lineReset (a : RxState) (h : StoreOk s.body) : StoreOk (lineReset a s).body := by
  unfold Machine.lineReset
  simp only
  split
  · exact StoreOk.performRestart _
  · exact h.beside rfl rfl rfl

/-- A request acted on. -/
theorem StoreOk.carryOut (tag : Byte) (r : Request) (h : StoreOk s.body) : StoreOk (carryOut tag r s).2.body := by
  have onBlocks : ∀ f, RequestWork f → StoreOk (onBlocks f s).2.body := fun f w => h.request w
  cases r with
  | integrate p a => cases a <;> exact onBlocks _ (by constructor)
  | watchAdd n p =>
    simp only [Machine.carryOut, watchAddRequest]
    split
    · exact h
    · split
      · exact h.beside rfl rfl rfl
      · split
        · exact h
        · exact h.beside rfl rfl rfl
  | watchRemove n =>
    simp only [Machine.carryOut, watchRemoveRequest]
    split
    · exact h.beside rfl rfl rfl
    · exact h
  | watchEmpty => exact h.beside rfl rfl rfl
  | lineReset => exact h.lineReset _
  | restart => exact h
  | peek n =>
    simp only [Machine.carryOut, peekRequest]
    split
    · exact h
    · split
      · dsimp only
        exact h.onLane fun _ => rfl
      · exact h
  | _ => exact onBlocks _ (by constructor)

theorem StoreOk.answerFrame (f : RxFrame) (h : StoreOk s.body) : StoreOk (answerFrame f s).body := by
  have : StoreOk (answerTo f s).2.body := by
    unfold answerTo
    split
    · exact h
    · split
      · exact h
      · exact h.carryOut _ _
  exact this

theorem StoreOk.arrive (f : RxFrame) (h : StoreOk s.body) : StoreOk (arrive f s).body := by
  unfold Machine.arrive
  split
  · exact h
  · refine StoreOk.placeReports ?_
    split
    · exact h.answerFrame f
    · unfold offerFrame
      split
      · exact h
      · exact h.beside rfl rfl rfl

theorem StoreOk.frameCheckedWork (kind tag : Byte) (fs : List Byte) (h : StoreOk s.body) :
    StoreOk (frameCheckedWork kind tag fs s).body := by
  unfold Machine.frameCheckedWork
  split
  · exact h
  · exact StoreOk.arrive (s := hunt s) _ h

theorem StoreOk.faultWork (k : LineFault) (h : StoreOk s.body) : StoreOk (faultWork k s).body := by
  unfold Machine.faultWork
  split
  · exact StoreOk.placeReports (h.beside rfl rfl rfl)
  · exact h

theorem StoreOk.byteWork (v : Byte) (h : StoreOk s.body) : StoreOk (byteWork v s).body := by
  unfold Machine.byteWork
  split
  · split <;> exact h
  · exact h
  · extract_lets bytes r u
    have hu : StoreOk u.body := h
    split
    · exact hu.faultWork _
    · split
      · split
        · exact hu.frameCheckedWork _ _ _
        · exact hu.faultWork _
      · exact hu

theorem StoreOk.grantOne (h : StoreOk s.body) (ht : grantOne s = some t) : StoreOk t.body := by
  unfold Machine.grantOne at ht
  split at ht
  · cases ht
  · obtain ⟨o, -, ho⟩ := List.exists_of_findSome?_eq_some ht
    unfold grantTo at ho
    split at ho
    · split at ho
      · cases ho
        unfold takeFrame
        split
        · exact h
        · exact StoreOk.answerFrame (s := { s with rx := _ }) _ h
      · cases ho
    · rw [Option.map_eq_some_iff] at ho
      obtain ⟨⟨m, u⟩, hu, rfl⟩ := ho
      exact StoreOk.of_quiet (c := u.body) h (classReport_quiet hu)

theorem StoreOk.grantLoop (n : Nat) (h : StoreOk s.body) : StoreOk (grantLoop n s).body := by
  induction n generalizing s with
  | zero => exact h
  | succ n ih =>
    unfold Machine.grantLoop
    have hs : StoreOk (syncCompletions s).body := h.beside rfl rfl rfl
    split
    · exact hs
    · rename_i u hu
      exact ih (hs.grantOne hu)

theorem StoreOk.departureWork (h : StoreOk s.body) : StoreOk (departureWork s).body := by
  unfold Machine.departureWork
  split
  · exact h
  · split
    · exact StoreOk.performRestart s
    · exact StoreOk.grantLoop 100 h

/-! ### The frame boundary -/

theorem StoreOk.watchWork (n : Count) (h : StoreOk s.body) : StoreOk (watchWork n s).body := by
  have offers : ∀ (l : List (List Field)) (u : State), StoreOk u.body → StoreOk (l.foldl (offerMeter n) u).body := by
    intro l
    induction l with
    | nil => exact fun _ hu => hu
    | cons x l ih =>
      intro u hu
      refine ih _ ?_
      unfold offerMeter
      split
      · exact hu
      · exact hu.beside rfl rfl rfl
  exact offers _ _ (h.beside rfl rfl rfl)

theorem StoreOk.watchPiece (d : Boundary) (h : StoreOk s.body) : StoreOk (watchPiece d s).body := by
  unfold Machine.watchPiece
  split
  · exact h
  · exact (h.watchWork d.frame).mark _

theorem StoreOk.blockPiece (k : BoundaryBlock) (h : StoreOk s.body) : StoreOk (blockPiece k s).body := by
  unfold Machine.blockPiece
  split
  · exact h
  · rename_i d _
    cases k with
    | commits => exact h.work (.commitPieces d)
    | sequencer => exact h.work (.sequencerPiece d)
    | programmes => exact h.work (.programmePieces d)
    | alarms => exact h.work (.alarmPiece d)
    | cuts => exact h.work (.cutPieces d)
    | watch => exact h.watchPiece d

theorem StoreOk.blockPieces (l : List BoundaryBlock) (h : StoreOk s.body) :
    StoreOk (l.foldl (fun s k => Machine.placeReports (Machine.blockPiece k s)) s).body := by
  induction l generalizing s with
  | nil => exact h
  | cons k l ih => exact ih (h.blockPiece k).placeReports

theorem StoreOk.frameBoundaryWork (o : List BoundaryBlock) (h : StoreOk s.body) :
    StoreOk (frameBoundaryWork o s).body := by
  unfold Machine.frameBoundaryWork
  split
  · exact h
  · exact (StoreOk.blockPieces _ (s := onBody (Machine.enterBoundary _) s) (h.enterBoundary _)).beside rfl rfl rfl

theorem StoreOk.watchDueWork (h : StoreOk s.body) : StoreOk (watchDueWork s).body := by
  unfold Machine.watchDueWork
  split
  · split
    · exact StoreOk.watchPiece _ (s := onBody (Machine.enterBoundary _) s) (h.enterBoundary _)
    · exact h
  · exact h

/-! ### Steps -/

theorem StoreOk.bodyEvent {f : Body → Body} (w : BlockWork f) (h : StoreOk s.body) (ht : bodyEvent f s = .next t) :
    StoreOk t.body := by
  cases ht
  exact StoreOk.placeReports (s := { s with body := f s.body }) (h.work w)

/-- The completion of an access: its work on the blocks, whatever words it writes. -/
theorem StoreOk.complete {f : Body → Body} (w : BlockWork f) (h : StoreOk s.body) {ok : Bool} {d : Memory} {e : Fault}
    (ht : (if ok then Machine.bodyEvent f { s with dram := d } else .fault e) = .next t) : StoreOk t.body := by
  split at ht
  · exact StoreOk.bodyEvent (s := { s with dram := d }) w h ht
  · cases ht

theorem StoreOk.exec (i : Instr) (h : StoreOk s.body) (ht : exec i s = .next t) : StoreOk t.body := by
  have request : ∀ (tag : Byte) (r : Request),
      (Host.Outcome.next (arriveRequest tag r s) : Host.Outcome State Fault Refusal) = .next t → StoreOk t.body := by
    intro tag r e; cases e; exact h.arrive _
  cases i
  case deviceReset l k => cases ht; exact StoreOk.performReset l k s
  case restartPerformed =>
    cases ht
    unfold restartWork
    split
    · exact StoreOk.performRestart s
    · exact h
  case frameBoundary o => cases ht; exact (h.frameBoundaryWork o).placeReports
  case watchDue => cases ht; exact h.watchDueWork.placeReports
  case drainComplete k =>
    simp only [Machine.exec, execDrainComplete] at ht
    split at ht
    · exact h.complete (.drainDone _ _) ht
    · cases ht; exact h
  case readComplete k d =>
    simp only [Machine.exec, execReadComplete] at ht
    split at ht
    · exact h.complete (.readDone _ _ _ _ _) ht
    · cases ht; exact h
  case zeroFillAccessComplete k =>
    simp only [Machine.exec, execZeroFillAccessComplete] at ht
    split at ht
    · exact h.complete (.fillAccessDone _ _) ht
    · cases ht; exact h
  case frameChecked k tag fs => cases ht; exact h.frameCheckedWork k tag fs
  case unknownKindRequest k tag fs => cases ht; exact h.arrive _
  case receiveFault k => cases ht; exact h.faultWork k
  case truncatedFrame => cases ht; exact h.faultWork _
  case receiverIdle => cases ht; unfold idleWork; split <;> exact h
  case breakLine => cases ht; exact StoreOk.placeReports ((h.lineReset .discarding).beside rfl rfl rfl)
  case messageDeparture => cases ht; exact h.departureWork
  case byteReceived v => cases ht; exact h.byteWork v
  all_goals first
    | exact request _ _ ht
    | exact h.bodyEvent (by constructor) ht

theorem StoreOk.step (h : StoreOk s.body) (ht : step s = .next t) : StoreOk t.body := by
  unfold Machine.step at ht
  split at ht
  · cases ht; exact h
  · rename_i c rest _
    exact StoreOk.exec (s := { s with pending := rest }) c h ht

/-- Settles O60: `StoreOk` holds at reset and every step keeps it. -/
theorem accessesInBanksKept : Obligations.AccessesInBanksKept := by
  refine ⟨(storeSound_iff _).2 StoreOk.fresh, fun s h => ?_, fun s t h ht => ?_⟩
  · exact (accessesInBanks_iff s).2 ((storeSound_iff s).1 h).access
  · exact (storeSound_iff t).2 (((storeSound_iff s).1 h).step ht)

end Sys2Proof.Machine
end

section
/-! Writes to the settings sets: their checks in order (O23), SET of a programme and of a link group (O24), DELAY (O25). -/

namespace Sys2Proof.Machine

/-! ### The checks of a write -/

theorem itemCode_eq_zero_iff (i : SettingItem) : itemCode i = 0 ↔ ∃ l, i = .layout l := by
  constructor
  · intro h
    cases i
    case layout l => exact ⟨l, rfl⟩
    all_goals exact absurd h (Nat.succ_ne_zero _)
  · rintro ⟨l, rfl⟩; rfl

theorem namesLayout_iff (is : List SettingItem) :
    is.any (fun i => itemCode i == 0) = true ↔ ∃ l, SettingItem.layout l ∈ is := by
  simp only [List.any_eq_true, beq_iff_eq, itemCode_eq_zero_iff]
  constructor
  · rintro ⟨i, hi, l, rfl⟩; exact ⟨l, hi⟩
  · rintro ⟨l, hl⟩; exact ⟨_, hl, l, rfl⟩

theorem slotsClaimed_iff (b : Body) (p : Fin 16) (l : List Nat) :
    slotsClaimed b p l = true ↔ ∃ o : Fin 16, o ≠ p ∧ ∃ n ∈ l, n ∈ (b.programme o).claims := by
  simp [slotsClaimed, programmeIds, List.any_eq_true]

theorem claimsMet_iff (b : Body) (p : Fin 16) (is : List SettingItem) :
    is.any (itemClaimed b p) = true ↔
      ∃ l, SettingItem.outputSlots l ∈ is ∧ ∃ o : Fin 16, o ≠ p ∧ ∃ n ∈ l, n ∈ (b.programme o).claims := by
  simp only [← slotsClaimed_iff, List.any_eq_true]
  constructor
  · rintro ⟨i, hi, hc⟩
    cases i
    case outputSlots l => exact ⟨l, hi, hc⟩
    all_goals cases hc
  · rintro ⟨l, hl, hc⟩; exact ⟨_, hl, hc⟩

theorem writeRefusal_unnamed (b : Body) (p : Fin 16) (s : Bool) (is : List SettingItem) :
    writeRefusal b p s false is = some .badField := rfl

section
variable {b : Body} {p : Fin 16} {byScene : Bool} {is : List SettingItem} {st : Settings}

/-- A state that takes no such write (R5). -/
theorem writeRefusal_wrongState (h : (b.programme p).state = .vacant ∨ (b.programme p).effectiveNext = none ∨
    ((∃ l, SettingItem.layout l ∈ is) ∧ (b.programme p).state ≠ .defined)) :
    writeRefusal b p byScene true is = some .wrongState := by
  unfold writeRefusal
  simp only [Bool.not_true, Bool.false_eq_true, if_false]
  cases he : (b.programme p).effectiveNext with
  | none => rfl
  | some st =>
    simp only
    rcases h with h | h | ⟨h1, h2⟩
    · rw [if_pos h]
    · rw [he] at h; cases h
    · by_cases hv : (b.programme p).state = .vacant
      · rw [if_pos hv]
      · rw [if_neg hv, if_pos (by rw [(namesLayout_iff is).2 h1]; simpa using h2)]

/-- With name and state passed, the checks of owner, range and relations, and claim are left, in this order. -/
theorem writeRefusal_passed (hv : (b.programme p).state ≠ .vacant) (he : (b.programme p).effectiveNext = some st)
    (hl : (∃ l, SettingItem.layout l ∈ is) → (b.programme p).state = .defined) :
    writeRefusal b p byScene true is =
      if !byScene && (b.programme p).pending.any (fun w => w.owner = .scene) then some .sceneBusy
      else if !(is.all itemInRange && (st.writeAll is).agrees) then some .badField
      else if is.any (itemClaimed b p) then some .slotClaimed
      else none := by
  unfold writeRefusal
  simp only [Bool.not_true, Bool.false_eq_true, if_false, he]
  rw [if_neg hv, if_neg]
  rw [Bool.and_eq_true, namesLayout_iff, bne_iff_ne]
  exact fun ⟨h1, h2⟩ => h2 (hl h1)

end

/-- Settles O23: the checks of a write, each read off the order in which `writeRefusal` makes them. -/
theorem writeChecks : Obligations.WriteChecks := by
  intro b p byScene named is
  refine ⟨fun hn => hn ▸ writeRefusal_unnamed b p byScene is, fun hn => ?_⟩
  subst hn
  refine ⟨writeRefusal_wrongState, fun st hv he hl => ⟨fun ⟨hs, w, hw, ho⟩ => ?_, fun ho => ?_⟩⟩
  · rw [writeRefusal_passed hv he hl, if_pos (by simp [hs, hw, ho])]
  · have hown : ¬ (!byScene && (b.programme p).pending.any (fun w => w.owner = .scene)) = true := by
      rw [Bool.and_eq_true, Option.any_eq_true]
      rintro ⟨h1, w, hw, h2⟩
      rcases ho with ho | ho
      · simp [ho] at h1
      · exact ho w hw (by simpa using h2)
    refine ⟨fun hbad => ?_, fun hr ha => ⟨fun hc => ?_, fun hc => ?_⟩⟩
    · rw [writeRefusal_passed hv he hl, if_neg hown, if_pos]
      rw [Bool.not_eq_true', Bool.and_eq_false_iff, List.all_eq_false]
      simpa using hbad
    all_goals
      have hpass : ¬ (!(is.all itemInRange && (st.writeAll is).agrees)) = true := by
        rw [List.all_eq_true.2 hr, ha]; decide
      rw [writeRefusal_passed hv he hl, if_neg hown, if_neg hpass]
    · rw [if_pos ((claimsMet_iff b p is).2 hc)]
    · rw [if_neg]
      rw [claimsMet_iff]
      rintro ⟨l, hl, o, ho, n, hn, hm⟩
      exact hc l hl o ho n hn hm

end Sys2Proof.Machine
end

section
/-! DELAY and SET: what a write leaves (O25, O24). -/

namespace Sys2Proof.Machine

/-! ### What a write leaves -/

theorem writePending_of_next {r : Programme} {st : Settings} (h : r.effectiveNext = some st) (o : Owner)
    (d : Option DelayOrigin) (is : List SettingItem) :
    r.writePending o d is =
      { r with pending := some { settings := st.writeAll is, owner := o, delay := d.or (r.pending.bind (·.delay)) } } := by
  unfold Programme.writePending
  rw [h]

/-- A write of no delay target touches the record alone. -/
theorem writeSettings_no_delay (p : Fin 16) (o : Owner) (is : List SettingItem) (b : Body) :
    writeSettings p o none is b = b.onProgramme p fun r => r.writePending o none is := rfl

/-- The operations in flight once a delay write has replaced the one pending (R8). -/
def notReplaced (replaced : Option DelayOrigin) (l : List Deferred) : List Deferred :=
  l.filter fun d => replaced ≠ some (.operation d.tag)

theorem notReplaced_other {replaced : Option DelayOrigin} (h : ∀ t, replaced ≠ some (.operation t)) (l : List Deferred) :
    notReplaced replaced l = l := List.filter_eq_self.2 fun d _ => decide_eq_true (h d.tag)

theorem notReplaced_operation (t : Byte) (l : List Deferred) :
    notReplaced (some (.operation t)) l = l.filter fun d => d.tag != t := by
  refine List.filter_congr fun d _ => ?_
  rw [Bool.eq_iff_iff, decide_eq_true_iff, bne_iff_ne, not_iff_not]
  simp [eq_comm]

/-- A delay write: the record, and the operation it replaces no longer in flight. -/
theorem writeSettings_delay_quiet (p : Fin 16) (o : Owner) (d : DelayOrigin) (is : List SettingItem) (b : Body) :
    (writeSettings p o (some d) is b).quiet =
      ({ b.onProgramme p (fun r => r.writePending o (some d) is) with
          line := { b.line with
            deferred := notReplaced ((b.programme p).pending.bind Pending.delay) b.line.deferred } } : Body).quiet := by
  unfold writeSettings
  simp only
  split
  · rename_i t _ e
    rw [e, notReplaced_operation]
    exact completeTag_quiet (b.onProgramme p fun r => r.writePending o (some d) is) t .superseded []
  · rename_i hne
    rw [notReplaced_other fun t e => hne d t rfl e]
    rfl

/-! ### DELAY -/

/-- Settles O25: what the request's function gives, but for the completion owed, by `writeSettings_delay_quiet`. -/
theorem delayAccepted : Obligations.DelayAccepted := by
  intro s tag p target mode st hfree hpass hroom hnext replaced entry table set
  have hres : delayRequest tag (.programme p.val) target mode s.body =
      (.accepted, writeSettings p .direct (some (.operation tag)) [.delayTarget target, .delayMode mode]
        (beginDeferred tag .delay p s.body)) := by
    simp only [delayRequest, idOf_val, hpass, hroom]
    rfl
  have hset : (s.body.programme p).writePending .direct (some (.operation tag)) [.delayTarget target, .delayMode mode] =
      { s.body.programme p with pending := some set } := writePending_of_next hnext _ _ _
  refine ⟨_, rfl, request_quiet (tag := tag) (r := .delay (.programme p.val) target mode) hfree rfl hres ?_⟩
  rw [writeSettings_delay_quiet, ← hset]
  rfl

/-! ### SET of one programme -/

theorem beforeAfter_eq {r : Programme} {old st : Settings} (ha : r.active = some old) (hn : r.effectiveNext = some st)
    (code : Bool) (is : List SettingItem) :
    beforeAfter code r is =
      (is ++ if slotsDropped r is then [SettingItem.outputSlots []] else []).flatMap fun i =>
        (if code then [num1 (itemCode i)] else []) ++ itemValue (old.item i) ++ itemValue ((st.writeAll is).item i) := by
  simp only [beforeAfter, ha, hn]

theorem slotsDropped_of_no_layout {r : Programme} {is : List SettingItem} (h : ∀ i ∈ is, itemCode i ≠ 0) :
    slotsDropped r is = false := by
  have : is.any (fun i => itemCode i == 0) = false := by simpa using h
  simp [slotsDropped, this]

/-- A layout alone drops a slot list of another length (R4). -/
theorem slotsDropped_layout {r : Programme} {st : Settings} (hn : r.effectiveNext = some st) (l : Layout) :
    slotsDropped r [.layout l] = st.slots.any (fun x => x.length ≠ channelsOf l) := by
  have layout : [SettingItem.layout l].any (fun i => itemCode i == 0) = true := rfl
  rw [slotsDropped, layout, hn]
  cases hs : st.slots with
  | none => simp [hs]
  | some x => by_cases h : x.length = channelsOf l <;> simp [h, hs, Settings.writeAll, Settings.write]

/-- The slot list that a layout of another length leaves. -/
theorem writeAll_layout_slots {st : Settings} {l : Layout} (h : st.slots.any (fun x => x.length ≠ channelsOf l) = true) :
    ((st.writeAll [.layout l]).item (.outputSlots [])) = .outputSlots [] := by
  obtain ⟨x, hx, hne⟩ := (Option.any_eq_true ..).1 h
  have hne : ¬ x.length = channelsOf l := by simpa using hne
  simp [Settings.writeAll, Settings.write, Settings.item, hx, hne]

/-- Before and after of a layout, and of the slot list it drops (R4, R5). -/
theorem beforeAfter_layout {r : Programme} {old st : Settings} (ha : r.active = some old) (hn : r.effectiveNext = some st)
    (l : Layout) :
    beforeAfter true r [.layout l] =
      [num1 0, enum Layout.all old.layout, enum Layout.all l] ++
        if st.slots.any (fun x => x.length ≠ channelsOf l) then
          num1 18 :: (itemValue (.outputSlots (old.slots.getD [])) ++ itemValue (.outputSlots []))
        else [] := by
  rw [beforeAfter_eq ha hn, slotsDropped_layout hn]
  by_cases hd : st.slots.any (fun x => x.length ≠ channelsOf l) = true
  · rw [if_pos hd, if_pos hd, List.flatMap_append, List.flatMap_singleton, List.flatMap_singleton,
      writeAll_layout_slots hd]
    rfl
  · rw [if_neg hd, if_neg hd]
    rfl

theorem setRequest_one {s : State} {p : Fin 16} {is : List SettingItem} (hf : setForm is = true)
    (hp : writeRefusal s.body p false (setNames is) is = none) :
    setRequest (.programme p.val) is s.body =
      (.answer (beforeAfter true (s.body.programme p) is), writeSettings p .direct none is s.body) := by
  simp [setRequest, hf, setOne, hp]

/-! ### SET of a link group -/

/-- What a group's SET does to a member: its entry in the answer, and its record (R9). -/
def memberEntry (is : List SettingItem) (b : Body) (p : Fin 16) : List Field :=
  match writeRefusal b p false (setNames is) is with
  | some r => [num1 p, num1 r.code]
  | none => [num1 p, num1 0] ++ beforeAfter false (b.programme p) is

def memberRecord (is : List SettingItem) (b : Body) (p : Fin 16) : Programme :=
  if writeRefusal b p false (setNames is) is = none then (b.programme p).writePending .direct none is else b.programme p

theorem groupNames_code {is : List SettingItem} (h : groupNames is = true) {i : SettingItem} (hi : i ∈ is) :
    itemCode i ≠ 0 ∧ itemCode i ≠ 18 := by
  have := List.all_eq_true.1 h i hi
  simp at this
  exact ⟨this.1, this.2.2.2⟩

/-- A group's items claim no slot, so that the checks read the member's record alone. -/
theorem writeRefusal_of_record {b c : Body} {p : Fin 16} {is : List SettingItem} (hg : groupNames is = true)
    (h : c.programme p = b.programme p) (x y : Bool) : writeRefusal c p x y is = writeRefusal b p x y is := by
  have noClaim : ∀ d : Body, is.any (itemClaimed d p) = false := by
    intro d
    rw [List.any_eq_false]
    intro i hi
    have := (groupNames_code hg hi).2
    cases i
    case outputSlots l => exact absurd rfl this
    all_goals simp [itemClaimed]
  simp only [writeRefusal, h, noClaim]

theorem memberEntry_of_record {b c : Body} {p : Fin 16} {is : List SettingItem} (hg : groupNames is = true)
    (h : c.programme p = b.programme p) : memberEntry is c p = memberEntry is b p := by
  simp only [memberEntry, writeRefusal_of_record hg h, h]

theorem memberRecord_of_record {b c : Body} {p : Fin 16} {is : List SettingItem} (hg : groupNames is = true)
    (h : c.programme p = b.programme p) : memberRecord is c p = memberRecord is b p := by
  simp only [memberRecord, writeRefusal_of_record hg h, h]

theorem setProgramme_self (b : Body) (p : Fin 16) : b.setProgramme p (b.programme p) = b := by
  simp [Body.setProgramme, Body.programme]

theorem setMembers_cons (is : List SettingItem) (p : Fin 16) (ps : List (Fin 16)) (b : Body) :
    setMembers is (p :: ps) b =
      (memberEntry is b p :: (setMembers is ps (b.setProgramme p (memberRecord is b p))).1,
        (setMembers is ps (b.setProgramme p (memberRecord is b p))).2) := by
  rw [setMembers]
  cases e : writeRefusal b p false (setNames is) is with
  | some r => simp [memberEntry, memberRecord, e, setProgramme_self]
  | none => simp [memberEntry, memberRecord, e, writeSettings_no_delay]

/-- Each member is judged and written as it stands; the others stay. -/
theorem setMembers_spec {is : List SettingItem} (hg : groupNames is = true) {ps : List (Fin 16)} (hn : ps.Nodup) (b : Body) :
    (setMembers is ps b).1 = ps.map (memberEntry is b) ∧
      (setMembers is ps b).2 = { b with programmes := (setMembers is ps b).2.programmes } ∧
      ∀ o, (setMembers is ps b).2.programme o = if o ∈ ps then memberRecord is b o else b.programme o := by
  induction ps generalizing b with
  | nil => exact ⟨rfl, rfl, fun o => by simp [setMembers]⟩
  | cons p ps ih =>
    obtain ⟨hp, hn⟩ := List.nodup_cons.1 hn
    obtain ⟨h1, h2, h3⟩ := ih hn (b.setProgramme p (memberRecord is b p))
    have same : ∀ o ∈ ps, (b.setProgramme p (memberRecord is b p)).programme o = b.programme o := fun o ho =>
      Body.programme_setProgramme_other b p o _ (fun e => hp (e ▸ ho))
    rw [setMembers_cons]
    refine ⟨?_, h2, fun o => ?_⟩
    · simp only [h1, List.map_cons, List.cons.injEq, true_and]
      exact List.map_congr_left fun o ho => memberEntry_of_record hg (same o ho)
    · rw [h3]
      by_cases ho : o ∈ ps
      · rw [if_pos ho, if_pos (List.mem_cons_of_mem _ ho), memberRecord_of_record hg (same o ho)]
      · rw [if_neg ho, Body.programme_setProgramme]
        by_cases e : p = o
        · subst e; simp
        · simp [e, ho, Ne.symm e]

theorem setRequest_group {b : Body} {g : Nat} {is : List SettingItem} (hf : setForm is = true) (h3 : g ≤ 3)
    (hg : groupNames is = true) :
    setRequest (.group g) is b =
      (.answer (listField (setMembers is (groupMembers b g) b).1), (setMembers is (groupMembers b g) b).2) := by
  simp [setRequest, hf, hg, Nat.not_lt.2 h3]

/-- The entry of a member as R9 lists it. -/
theorem memberEntry_eq {is : List SettingItem} (hg : groupNames is = true) (b : Body) (p : Fin 16) :
    memberEntry is b p =
      match writeRefusal b p false (setNames is) is, (b.programme p).active, (b.programme p).effectiveNext with
      | some r, _, _ => [num1 p.val, num1 r.code]
      | none, some a, some st => [num1 p.val, num1 0] ++
          is.flatMap fun i => itemValue (a.item i) ++ itemValue ((st.writeAll is).item i)
      | none, _, _ => [num1 p.val, num1 0] := by
  unfold memberEntry
  have hd := slotsDropped_of_no_layout (r := b.programme p) fun i hi => (groupNames_code hg hi).1
  cases hw : writeRefusal b p false (setNames is) is with
  | some r => rfl
  | none =>
    cases ha : (b.programme p).active with
    | none => simp [beforeAfter, ha]
    | some a =>
      cases he : (b.programme p).effectiveNext with
      | none => simp [beforeAfter, ha, he]
      | some st => simp [beforeAfter_eq ha he, hd]

/-- The records after a group's SET: but for what is owed, the pending set of a member alone can change. -/
theorem memberRecord_fields (is : List SettingItem) (b : Body) (ps : List (Fin 16)) (p : Fin 16) {x : Programme}
    (hx : x = if p ∈ ps then memberRecord is b p else b.programme p) :
    { x with stateOwed := none, pending := none } = { b.programme p with stateOwed := none, pending := none } ∧
    x.pending =
      match (b.programme p).effectiveNext with
      | some st =>
        if p ∈ ps ∧ writeRefusal b p false (setNames is) is = none then
          some { settings := st.writeAll is, owner := .direct, delay := (b.programme p).pending.bind (·.delay) }
        else (b.programme p).pending
      | none => (b.programme p).pending := by
  subst hx
  unfold memberRecord
  cases he : (b.programme p).effectiveNext with
  | none => simp [Programme.writePending, he]
  | some st =>
    rw [writePending_of_next he]
    by_cases hm : p ∈ ps
    · by_cases hw : writeRefusal b p false (setNames is) is = none <;> simp [hm, hw]
    · simp [hm]

end Sys2Proof.Machine

namespace Sys2Proof
open Machine

/-- Settles O24: one programme by `beforeAfter_eq`, a link group member by member by `setMembers_spec`. -/
theorem setRequest : Obligations.SetRequest := by
  refine ⟨fun s tag p is old st hfree hf hp ha hn => ?_, ?_⟩
  · obtain ⟨hb, hans⟩ := request_result (tag := tag) (r := .set (.programme p.val) is) hfree rfl (setRequest_one hf hp)
    refine ⟨_, rfl, ?_, fun hc => ?_, fun l hl => ?_⟩
    · rw [writeSettings_no_delay, Body.onProgramme_eq, writePending_of_next hn] at hb
      exact hb
    · rw [beforeAfter_eq ha hn, slotsDropped_of_no_layout hc] at hans
      simpa [Request.kind] using hans
    · subst hl
      rw [beforeAfter_layout ha hn] at hans
      exact hans
  · intro s tag g is hfree hf h3 hg members refusal
    obtain ⟨hb, hans⟩ := request_result (tag := tag) (r := .set (.group g) is) hfree rfl (setRequest_group hf h3 hg)
    have hnd : (groupMembers s.body g).Nodup := (List.nodup_finRange 16).filter _
    obtain ⟨e1, e2, e3⟩ := setMembers_spec hg hnd s.body
    refine ⟨_, rfl, hb.onProgrammes e2, fun p => ?_, ?_⟩
    · obtain ⟨f1, f2⟩ := memberRecord_fields is s.body (groupMembers s.body g) p (e3 p)
      have hr := hb.programme p
      exact ⟨(congrArg (fun r : Programme => { r with pending := none }) hr).trans f1,
        (congrArg Programme.pending hr :).trans f2⟩
    · rw [e1, listField, List.length_map, ← List.flatMap_def, funext (memberEntry_eq hg s.body)] at hans
      exact hans

end Sys2Proof
end

section
/-! DEFINE: the set it makes, and what it leaves (O22). -/

namespace Sys2Proof.Machine

/-! ### The set a DEFINE makes -/

theorem definedLayout_none {is : List SettingItem} (h : ∀ l, SettingItem.layout l ∉ is) : definedLayout is = none := by
  unfold definedLayout
  rw [List.findSome?_eq_none_iff]
  intro i hi
  cases i
  case layout l => exact absurd (List.mem_reverse.1 hi) (h l)
  all_goals rfl

theorem definedMain_none {is : List SettingItem} (h : ∀ p k, SettingItem.mainSource p k ∉ is) : definedMain is = none := by
  unfold definedMain
  rw [List.findSome?_eq_none_iff]
  intro i hi
  cases i
  case mainSource p k => exact absurd (List.mem_reverse.1 hi) (h p k)
  all_goals rfl

/-- A layout and a main source that fits it: everything else at its default (R15, table of section 1.2). -/
theorem definedSet_least (b : Body) (p : Fin 16) (l : Layout) (q k : Fin 8) (h : k.val + channelsOf l ≤ 8) :
    definedSet b p [.layout l, .mainSource q.val k.val] = .ok { layout := l, main := { port := q, slot := k } } := by
  have hs : sourceOf (q.val, k.val) = some { port := q, slot := k } := by simp [sourceOf]
  have hmain : definedMain [.layout l, .mainSource q.val k.val] = some (q.val, k.val) := rfl
  have hwrite : ({ layout := l, main := { port := q, slot := k } } : Settings).writeAll [.mainSource q.val k.val] =
      { layout := l, main := { port := q, slot := k } } := by simp [Settings.writeAll, Settings.write, hs]
  have hfail : ([.layout l, .mainSource q.val k.val] : List SettingItem).findSome? (fun i =>
      if !(itemInRange i && itemAgrees { layout := l, main := { port := q, slot := k } } i) then some Reason.badField
      else if itemClaimed b p i then some .slotClaimed
      else none) = none := by
    simp [itemInRange, itemAgrees, itemClaimed, sourceFitsLayout, hs, h]
  have hlayout : definedLayout [.layout l, .mainSource q.val k.val] = some l := rfl
  have hitems : ([.layout l, .mainSource q.val k.val] : List SettingItem).filter (fun i => itemCode i != 0) =
      [.mainSource q.val k.val] := rfl
  simp only [definedSet, hlayout, hmain, hitems, hs, Option.getD_some, hwrite, hfail]

theorem definedSet_missing (b : Body) (p : Fin 16) {is : List SettingItem}
    (h : (∀ l, SettingItem.layout l ∉ is) ∨ ∀ q k, SettingItem.mainSource q k ∉ is) :
    definedSet b p is = .error .badField := by
  unfold definedSet
  rcases h with h | h
  · rw [definedLayout_none h]
  · rw [definedMain_none h]
    split
    · rename_i e; cases e
    · rfl

/-! ### What a DEFINE leaves -/

theorem Becomes.sets {s t : State} {b : Body} (h : Becomes s b t) : t.body.sets = b.sets := by
  refine Vector.ext fun i hi => ?_
  have hp := h.programme ⟨i, hi⟩
  have e1 := sets_get t.body ⟨i, hi⟩
  have e2 := sets_get b ⟨i, hi⟩
  exact e1.trans ((congrArg (fun r : Programme => (r.active, r.pending)) hp).trans e2.symm)

/-- The blocks but for programmes, lanes, gain stages and the output map. -/
theorem Becomes.onDefined {s t : State} {b c : Body} (h : Becomes s c t)
    (e : c = { b with programmes := c.programmes, lanes := c.lanes, gains := c.gains, outputMap := c.outputMap }) :
    Becomes s { b with programmes := t.body.programmes, lanes := t.body.lanes, gains := t.body.gains
                       outputMap := t.body.outputMap } t := by
  refine ⟨h.1, ?_⟩
  have hp := congrArg Body.programmes h.2
  have hl := congrArg Body.lanes h.2
  simp only [Body.quiet] at hp hl
  rw [h.2, e]
  simp only [Body.quiet, hp, hl, h.gains, h.outputMap]

/-- The output map re-formed holds, slot by slot, what the sets say. -/
theorem reformMap_getElem (b : Body) (n : Fin 64) : (reformMap b).outputMap[n.val]? = some (slotEntry b n.val) := by
  simp [reformMap]

section
variable (p : Fin 16) (st : Settings) (b : Body)

/-- The record, the lane and the gain stage as DEFINE sets them, and nothing else but the output map. -/
theorem defineProgramme_only :
    defineProgramme p st b = { b with programmes := (defineProgramme p st b).programmes
                                      lanes := (defineProgramme p st b).lanes, gains := (defineProgramme p st b).gains
                                      outputMap := (defineProgramme p st b).outputMap } := by
  unfold defineProgramme
  simp only
  split <;> rfl

theorem defineProgramme_programme (o : Fin 16) :
    (defineProgramme p st b).programme o =
      if p = o then
        { b.programme p with
          active := some st, pending := none, selector := .main, guard := 0, revertCount := 0, requested := none
          line := none, stateOwed := none, memoryErrors := 0, slips := 0, writeDrops := 0, overloads := 0
          state := .defined }
      else b.programme o := by
  unfold defineProgramme
  simp only
  split <;> exact Body.programme_setProgramme b p o _

theorem defineProgramme_lane (o : Fin 16) :
    (defineProgramme p st b).lane o =
      if p = o then
        { b.lane p with target := 0, setpoint := none, delayLimited := false, overloadSeen := false, slipSeen := false
                        stickySlip := false }
      else b.lane o := by
  unfold defineProgramme
  simp only
  split <;> exact Body.lane_setLane _ p o _

theorem defineProgramme_gain (o : Fin 16) :
    (defineProgramme p st b).gain o = if p = o then definedGain st else b.gain o := by
  unfold defineProgramme
  simp only
  split <;> exact Body.gain_setGain _ p o _

theorem defineProgramme_outputMap :
    (st.slots = none → (defineProgramme p st b).outputMap = b.outputMap) ∧
    (st.slots ≠ none → ∀ n : Fin 64,
      (defineProgramme p st b).outputMap[n.val]? = some (slotEntry (defineProgramme p st b) n.val)) := by
  unfold defineProgramme
  simp only
  refine ⟨fun h => by simp [h], fun h n => ?_⟩
  rw [if_pos (Option.isSome_iff_ne_none.2 h), reformMap_getElem, slotEntry_sets (reformMap_sets _)]

end

theorem defineRequest_ok {b : Body} {p : Fin 16} {is : List SettingItem} {st : Settings}
    (hv : (b.programme p).state = .vacant) (hst : definedSet b p is = .ok st) :
    defineRequest p.val is b = (.answer [num1 p, enum ProgState.all .defined], defineProgramme p st b) := by
  simp [defineRequest, hv, hst]

/-- Settles O22: the parts of `defineProgramme` read one by one, and the set by `definedSet_least` and `definedSet_missing`. -/
theorem define : Obligations.Define := by
  refine ⟨fun s tag p is st hfree hv hst => ?_, fun b p l q k h => definedSet_least b p l q k h,
    fun b p is h => definedSet_missing b p h⟩
  obtain ⟨hb, hans⟩ := request_result (tag := tag) (r := .define p.val is) hfree rfl (defineRequest_ok hv hst)
  have hr := hb.programme p
  have hl := hb.lane p
  have hg := hb.gain p
  rw [defineProgramme_programme, if_pos rfl] at hr
  rw [defineProgramme_lane, if_pos rfl] at hl
  rw [defineProgramme_gain, if_pos rfl] at hg
  obtain ⟨m1, m2⟩ := defineProgramme_outputMap p st s.body
  refine ⟨_, rfl, hans, hb.onDefined (defineProgramme_only p st s.body), ?_, congrArg Lane.target hl, congrArg Lane.stickySlip hl, ?_,
    fun h => hb.outputMap.trans (m1 h), fun h n => ?_, fun o ho => ⟨?_, ?_, ?_⟩⟩
  · simp only [Programme.mk.injEq] at hr
    simp [hr]
  · rw [hg]
    exact ⟨rfl, rfl, rfl, rfl, rfl, rfl, rfl⟩
  · rw [hb.outputMap, m2 h n, slotEntry_sets hb.sets]
  · exact (hb.programme o).trans (by rw [defineProgramme_programme, if_neg ho.symm])
  · exact (hb.lane o).trans (by rw [defineProgramme_lane, if_neg ho.symm])
  · exact (hb.gain o).trans (by rw [defineProgramme_gain, if_neg ho.symm])

end Sys2Proof.Machine
end

section
/-! ALLOCATE: first fit, and what a line placed leaves (O26). -/

namespace Sys2Proof.Machine

/-! ### First fit (R48) -/

theorem FreeAt.sub {l : List (Option (Fin 16))} {f n g m : Nat} (h : FreeAt l f n) (h1 : f ≤ g) (h2 : g + m ≤ f + n) :
    FreeAt l g m := fun i hi hj => h i (by omega) (by omega)

/-- The first run of a bank that holds n segments: its first n are the lowest FREE ones in a row. -/
theorem run_fits {k : Bank} {n : Nat} (hn : 1 ≤ n) {r : Nat × Nat} (h : k.runs.find? (fun r => decide (n ≤ r.2)) = some r) :
    FreeAt k.segments r.1 n ∧ ∀ f, f < r.1 → ¬FreeAt k.segments f n := by
  obtain ⟨hfree, hsorted, hall⟩ := runs_spec k
  obtain ⟨hr, before, after, e, hbefore⟩ := List.find?_eq_some_iff_append.1 h
  have hr : n ≤ r.2 := of_decide_eq_true hr
  refine ⟨(hfree r (by simp [e])).1.sub (le_refl _) (by omega), fun f hf hfr => ?_⟩
  obtain ⟨r', hr', h1, h2⟩ := hall f n hn hfr
  rw [e] at hr' hsorted
  rcases List.mem_append.1 hr' with hr' | hr'
  · have : ¬ n ≤ r'.2 := by simpa using hbefore r' hr'
    omega
  · rcases List.mem_cons.1 hr' with rfl | hr'
    · omega
    · have := (List.pairwise_cons.1 (List.pairwise_append.1 hsorted).2.1).1 r' hr'
      omega

theorem no_run_fits {k : Bank} {n : Nat} (hn : 1 ≤ n) (h : k.runs.find? (fun r => decide (n ≤ r.2)) = none) (f : Nat) :
    ¬FreeAt k.segments f n := fun hf => by
  obtain ⟨r, hr, h1, h2⟩ := (runs_spec k).2.2 f n hn hf
  have := List.find?_eq_none.1 h r hr
  exact this (decide_eq_true (by omega))

/-- The banks that the search visits, in rising order. -/
theorem mem_fitted (b : Body) (k : Fin 4) :
    k ∈ bankIds.filter (fun k => decide (k.val < fittedBanks b)) ↔ k.val < fittedBanks b := by
  simp [bankIds]

theorem fitted_sorted (b : Body) : (bankIds.filter fun k => decide (k.val < fittedBanks b)).Pairwise (· < ·) :=
  (List.pairwise_lt_finRange 4).filter _

theorem findRun_some {b : Body} {n : Nat} (hn : 1 ≤ n) {k : Fin 4} {first : Nat} (h : findRun b n = some (k, first)) :
    k.val < fittedBanks b ∧ FreeAt (b.bank k).segments first n ∧ (∀ (o : Fin 4) f, o < k → ¬FreeAt (b.bank o).segments f n) ∧
      ∀ f, f < first → ¬FreeAt (b.bank k).segments f n := by
  unfold findRun at h
  obtain ⟨before, k', after, e, hk, hbefore⟩ := List.findSome?_eq_some_iff.1 h
  rw [Option.map_eq_some_iff] at hk
  obtain ⟨r, hr, hkr⟩ := hk
  cases hkr
  obtain ⟨h1, h2⟩ := run_fits hn hr
  have hfit : k.val < fittedBanks b := (mem_fitted b k).1 (by rw [e]; simp)
  refine ⟨hfit, h1, fun o f ho => ?_, h2⟩
  have hmem := (mem_fitted b o).2 (lt_trans ho hfit)
  have hsorted := fitted_sorted b
  rw [e] at hmem hsorted
  have hbef : o ∈ before := by
    rcases List.mem_append.1 hmem with hmem | hmem
    · exact hmem
    · rcases List.mem_cons.1 hmem with rfl | hmem
      · exact absurd ho (lt_irrefl _)
      · exact absurd ((List.pairwise_cons.1 (List.pairwise_append.1 hsorted).2.1).1 o hmem) (lt_asymm ho)
  exact no_run_fits hn (Option.map_eq_none_iff.1 (hbefore o hbef)) f

theorem findRun_none {b : Body} {n : Nat} (hn : 1 ≤ n) (h : findRun b n = none) {k : Fin 4} (hk : k.val < fittedBanks b)
    (f : Nat) : ¬FreeAt (b.bank k).segments f n :=
  no_run_fits hn (Option.map_eq_none_iff.1 (List.findSome?_eq_none_iff.1 h k ((mem_fitted b k).2 hk))) f

theorem fittedBanks_eq (b : Body) : fittedBanks b = if b.banksStrap = .two then 2 else 4 := by
  unfold fittedBanks
  cases b.banksStrap <;> rfl

/-! ### What a line placed leaves -/

section
variable (p : Fin 16) (k : Fin 4) (first n : Nat) (b : Body)

theorem placeLine_only :
    placeLine p k first n b = { b with programmes := (placeLine p k first n b).programmes
                                       banks := (placeLine p k first n b).banks
                                       lanes := (placeLine p k first n b).lanes } := by
  unfold placeLine
  simp only
  rw [grantBank_only]
  rfl

theorem placeLine_line : (placeLine p k first n b).line = b.line := by rw [placeLine_only]

theorem placeLine_programme (o : Fin 16) :
    (placeLine p k first n b).programme o =
      if p = o then { b.programme p with
        line := some { bank := k, first := first, count := n, length := n * 4096 / channels b p }, state := .filling }
      else b.programme o := by
  unfold placeLine
  simp only
  rw [grantBank_programme]
  exact Body.programme_setProgramme _ p o _

theorem placeLine_lane :
    ((placeLine p k first n b).lane p).writeSeq = 0 ∧ ((placeLine p k first n b).lane p).readSeq = 0 := by
  unfold placeLine
  simp only
  generalize hc : Body.onLane _ p _ = c
  have hl := grantBank_lane k c p
  have e : (c.lane p).writeSeq = 0 ∧ (c.lane p).readSeq = 0 := by rw [← hc, Body.onLane_eq, Body.lane_setLane_same]; exact ⟨rfl, rfl⟩
  exact ⟨(congrArg Lane.writeSeq hl :).trans e.1, (congrArg Lane.readSeq hl :).trans e.2⟩

theorem placeLine_bank (o : Fin 4) :
    ((placeLine p k first n b).bank o).segments =
        (if k = o then setOwner (some p) first n (b.bank o).segments else (b.bank o).segments) ∧
      ((placeLine p k first n b).bank o).jobs =
        (if k = o then (b.bank o).jobs ++ [{ programme := p, firstWord := 4096 * first, words := 4096 * n }]
          else (b.bank o).jobs) := by
  unfold placeLine
  simp only
  generalize hc : Body.onLane _ p _ = c
  obtain ⟨-, hj, -, hs⟩ := grantBank_bank k c o
  rw [hj, hs]
  have e : c.bank o = if k = o then { b.bank k with
      segments := setOwner (some p) first n (b.bank k).segments
      jobs := (b.bank k).jobs ++ [{ programme := p, firstWord := 4096 * first, words := 4096 * n }] } else b.bank o := by
    rw [← hc]
    exact Body.bank_setBank _ k o _
  rw [e]
  by_cases hk : k = o
  · subst hk; simp
  · simp [hk]

end

theorem setOwner_getElem (o : Option (Fin 16)) (first n : Nat) (l : List (Option (Fin 16))) (i : Nat) :
    (setOwner o first n l)[i]? = l[i]?.map fun x => if first ≤ i ∧ i < first + n then o else x := by
  simp [setOwner]

/-! ### Operations in flight -/

/-- An operation in flight stays in flight as reports are placed. -/
theorem Becomes.keeps_inFlight {s t : State} {b : Body} (h : Becomes s b t) {d : Deferred} (hd : d ∈ b.line.deferred)
    (hc : d.complete = none) : d ∈ t.body.line.deferred := by
  have e : ∀ c : Body, c.quiet.line.deferred = c.line.deferred.filter fun d => d.complete.isNone := fun _ => rfl
  have : d ∈ b.quiet.line.deferred := by rw [e]; exact List.mem_filter.2 ⟨hd, by simp [hc]⟩
  rw [← h.2, e] at this
  exact (List.mem_filter.1 this).1

/-- With the tag free, an operation begun and ended in one event leaves the blocks but for its completion. -/
theorem begin_complete_quiet {tag : Byte} {b : Body} (h : deferredFree tag b = true) (k : OpKind) (n : Nat) (o : OpOutcome) :
    (completeTag tag o [] (beginDeferred tag k n b)).quiet = b.quiet := by
  unfold deferredFree at h
  obtain ⟨h1, -⟩ := (Bool.and_eq_true _ _).mp h
  have : (beginDeferred tag k n b).line.deferred.filter (fun d => d.tag != tag) = b.line.deferred := by
    simp only [beginDeferred, Body.onLine, List.filter_append]
    rw [List.filter_eq_self.2 (List.all_eq_true.1 h1)]
    simp
  rw [completeTag_quiet, this]
  rfl

theorem Becomes.bank {s t : State} {b : Body} (h : Becomes s b t) (k : Fin 4) : t.body.bank k = b.bank k := by
  simp only [Body.bank, h.banks]

/-- The blocks but for programmes, banks, lanes and what the control line holds. -/
theorem Becomes.onAllocated {s t : State} {b c : Body} (h : Becomes s c t)
    (e : c = { b with programmes := c.programmes, banks := c.banks, lanes := c.lanes, line := c.line }) :
    Becomes s { b with programmes := t.body.programmes, banks := t.body.banks, lanes := t.body.lanes
                       line := t.body.line } t := by
  refine ⟨h.1, ?_⟩
  have hp := congrArg Body.programmes h.2
  have hl := congrArg Body.lanes h.2
  have hn := congrArg Body.line h.2
  simp only [Body.quiet] at hp hl hn
  rw [h.2, e]
  simp only [Body.quiet, hp, hl, hn, h.banks]

theorem allocateRequest_accepted {b : Body} {tag : Byte} {p : Fin 16} {n : Nat} {st : Settings} (h1 : 1 ≤ n) (h2 : n ≤ 512)
    (hs : (b.programme p).state = .defined) (ha : (b.programme p).active = some st)
    (hp : ∀ w, (b.programme p).pending = some w → w.settings.layout = st.layout) (hf : deferredFree tag b = true) :
    allocateRequest tag p.val n b = (.accepted, allocate tag p n (beginDeferred tag .allocate p b)) := by
  have hl : layoutPending (b.programme p) = false := by
    unfold layoutPending
    split
    · rename_i w st' hw hst
      rw [ha] at hst
      cases hst
      simp [hp w hw]
    · rfl
  simp [allocateRequest, natIn, h1, h2, inStates, hs, hl, hf]

end Sys2Proof.Machine

namespace Sys2Proof
open Machine

/-- Settles O26: `placeLine` read part by part where a run is found, and `findRun` by the runs of each bank. -/
theorem allocate : Obligations.Allocate := by
  refine ⟨fun s tag p n st hfree h1 h2 hs ha hp hf => ?_, fun b n hn => ⟨fun k first h => ?_, fun h k first hk => ?_⟩⟩
  · obtain ⟨hb, hans⟩ := request_result (tag := tag) (r := .allocate p.val n) hfree rfl
      (allocateRequest_accepted h1 h2 hs ha hp hf)
    refine ⟨_, rfl, hans, fun hnone => ?_, fun k first hsome => ?_⟩
    · have e : Machine.allocate tag p n (beginDeferred tag .allocate p s.body) =
          completeTag tag .noSpace [] (beginDeferred tag .allocate p s.body) := by
        unfold Machine.allocate
        rw [show findRun (beginDeferred tag .allocate p s.body) n = none from hnone]
      exact ⟨hb.1, hb.2.trans (e ▸ begin_complete_quiet hf _ _ _)⟩
    · have e : Machine.allocate tag p n (beginDeferred tag .allocate p s.body) =
          placeLine p k first n (beginDeferred tag .allocate p s.body) := by
        unfold Machine.allocate
        rw [show findRun (beginDeferred tag .allocate p s.body) n = some (k, first) from hsome]
      rw [e] at hb
      have hr := hb.programme p
      rw [placeLine_programme, if_pos rfl] at hr
      obtain ⟨hw, hrd⟩ := placeLine_lane p k first n (beginDeferred tag .allocate p s.body)
      have hbank := placeLine_bank p k first n (beginDeferred tag .allocate p s.body)
      have hlane := hb.lane p
      refine ⟨hb.onAllocated ((placeLine_only ..).trans (by rw [placeLine_line]; rfl)), congrArg Programme.state hr, ?_, ?_, fun i => ?_,
        (congrArg Lane.writeSeq hlane :).trans hw, (congrArg Lane.readSeq hlane :).trans hrd, ?_, fun o ho => ?_,
        fun o ho => ?_⟩
      · refine (congrArg Programme.line hr :).trans ?_
        rw [channels_eq (b := beginDeferred tag .allocate p s.body) ha]
      · rw [hb.bank, (hbank k).2, if_pos rfl]
        rfl
      · rw [hb.bank, (hbank k).1, if_pos rfl, setOwner_getElem]
        rfl
      · refine ⟨{ tag := tag, kind := .allocate, subject := p.val }, hb.keeps_inFlight ?_ rfl, rfl, rfl, rfl, rfl⟩
        rw [placeLine_line]
        exact List.mem_append_right _ (List.mem_singleton_self _)
      · rw [hb.bank, (hbank o).1, (hbank o).2, if_neg ho.symm, if_neg ho.symm]
        exact ⟨rfl, rfl⟩
      · refine (hb.programme o).trans ?_
        rw [placeLine_programme, if_neg ho.symm]
        rfl
  · obtain ⟨hk, hfree, hbefore, hlower⟩ := findRun_some hn h
    exact ⟨fittedBanks_eq b ▸ hk, hfree, hbefore, hlower⟩
  · exact findRun_none hn h (fittedBanks_eq b ▸ hk) first

end Sys2Proof
end

section
/-! The completions of the delay store's accesses, and the arbiter (O19). -/

namespace Sys2Proof.Machine

variable {b c : Body} {s t : State}

/-! ### Completions as events -/

theorem exec_drainComplete {k : Fin 4} {p : Fin 16} {w : Nat} {x : List Sample} {live : Bool}
    (ha : (s.body.bank k).access = some (.drain p w x live)) (hw : w + x.length ≤ 2097152) :
    exec (.drainComplete k) s = bodyEvent (drainDone k live) { s with dram := s.dram.writeWords k w (x.map sampleWord) } := by
  simp only [exec, execDrainComplete, ha]
  rw [if_pos ((inBank_iff _ _).2 hw)]

theorem exec_readComplete {k : Fin 4} {p : Fin 16} {q : Count} {w n : Nat} {live : Bool}
    (ha : (s.body.bank k).access = some (.read p q w n live)) (hw : w + n ≤ 2097152) (damage : List Word) :
    exec (.readComplete k damage) s =
      bodyEvent (readDone k p q live (damaged (s.dram.readWords k w n) damage))
        { s with dram := if damage = [] then s.dram else s.dram.writeWords k w (damaged (s.dram.readWords k w n) damage) } := by
  simp only [exec, execReadComplete, ha]
  rw [if_pos ((inBank_iff _ _).2 hw)]

theorem exec_zeroFillAccessComplete {k : Fin 4} {p : Fin 16} {w : Nat} {live : Bool}
    (ha : (s.body.bank k).access = some (.fill p w live)) (hw : w + 64 ≤ 2097152) :
    exec (.zeroFillAccessComplete k) s =
      bodyEvent (fillAccessDone k live) { s with dram := s.dram.writeWords k w (List.replicate 64 (sampleWord 0)) } := by
  simp only [exec, execZeroFillAccessComplete, ha]
  rw [if_pos ((inBank_iff _ _).2 hw)]

/-- What work that touches no fixed part and no set leaves as it was. -/
theorem Becomes.fixedParts (h : Becomes s c t) (hf : c.fixed = b.fixed) (hs : c.sets = b.sets) :
    t.body.timing = b.timing ∧ t.body.ports = b.ports ∧ t.body.sets = b.sets ∧ t.body.scenes = b.scenes ∧
      t.body.contacts = b.contacts :=
  ⟨h.timing.trans (fixed_timing hf), h.ports.trans (fixed_ports hf), h.sets.trans hs, h.scenes.trans (fixed_scenes hf),
    h.contacts.trans (fixed_contacts hf)⟩

theorem Becomes.lane_writeSide (h : Becomes s c t) (p : Fin 16) : (t.body.lane p).writeSide = (c.lane p).writeSide :=
  (congrArg Lane.writeSide (h.lane p) :)

theorem Becomes.programme_writeSide (h : Becomes s c t) (p : Fin 16) :
    (t.body.programme p).writeSide = (c.programme p).writeSide := (congrArg Programme.writeSide (h.programme p) :)

/-! ### Waiting lanes -/

theorem admitWaiting_nobody {k : Fin 4} (h : (b.bank k).waiting = []) (n : Nat) : admitWaiting k n b = b := by
  cases n with
  | zero => rfl
  | succ n => unfold admitWaiting; rw [h]

theorem admitWaiting_full {k : Fin 4} (h : 16 ≤ (b.bank k).queue.length) (n : Nat) : admitWaiting k n b = b := by
  cases n with
  | zero => rfl
  | succ n =>
    unfold admitWaiting
    split
    · rfl
    · exact if_pos h

/-- The bank with its access done, a live drain's frame gone from the queue. -/
def Bank.drained (x : Bank) (live : Bool) : Bank :=
  { x with access := none, queue := if live then x.queue.drop 1 else x.queue }

/-- With nobody waiting, a drain's completion frees the bank and grants. -/
theorem drainDone_nobody {k : Fin 4} (h : (b.bank k).waiting = []) (live : Bool) :
    drainDone k live b = grantBank k (b.setBank k ((b.bank k).drained live)) := by
  unfold drainDone
  simp only
  rw [admitWaiting_nobody]
  · rfl
  · rw [Body.onBank, Body.bank_setBank_same]
    exact h

/-- A frame that enters the queue of its line's bank: the newest there, at the lane's write sequence (R52). -/
theorem enterQueue_bank {p : Fin 16} {x : List Sample} {line : Line} (hl : (b.programme p).line = some line) :
    ((enterQueue p x b).bank line.bank).writeSide =
      ((b.bank line.bank).queue ++ [{ lane := p, seq := (b.lane p).writeSeq
                                      position := (b.lane p).writeSeq.toNat % line.length, samples := x }],
        (b.bank line.bank).waiting) := by
  unfold enterQueue
  rw [hl]
  simp only
  generalize hd : Body.onLane _ p _ = d
  have e : (d.bank line.bank).writeSide =
      ((b.bank line.bank).queue ++ [{ lane := p, seq := (b.lane p).writeSeq
                                      position := (b.lane p).writeSeq.toNat % line.length, samples := x }],
        (b.bank line.bank).waiting) := by
    rw [← hd]; simp [Bank.writeSide]
  rw [← e]
  exact writeSide_bank (b := d) (by rw [afterWrite_writeSide, watchOverload_writeSide, grantBank_writeSide]) _

theorem enterQueue_lane {p : Fin 16} {x : List Sample} {line : Line} (hl : (b.programme p).line = some line) (o : Fin 16) :
    ((enterQueue p x b).lane o).writeSide =
      if p = o then ((b.lane p).source, (b.lane p).writeSeq + 1, (b.lane p).holding) else (b.lane o).writeSide := by
  unfold enterQueue
  rw [hl]
  simp only
  generalize hd : Body.onLane _ p _ = d
  have e : (d.lane o).writeSide =
      if p = o then ((b.lane p).source, (b.lane p).writeSeq + 1, (b.lane p).holding) else (b.lane o).writeSide := by
    rw [← hd, Body.onLane_eq, Body.lane_setLane]
    split <;> rfl
  rw [← e]
  exact writeSide_lane (b := d) (by rw [afterWrite_writeSide, watchOverload_writeSide, grantBank_writeSide]) o

/-- One place freed in a full queue goes to the lane that has waited longest, and to no other (R54). -/
theorem admitWaiting_one {k : Fin 4} {p : Fin 16} {rest : List (Fin 16)} {line : Line} {x : List Sample}
    (hq : (b.bank k).queue.length = 15) (hw : (b.bank k).waiting = p :: rest) (hx : (b.lane p).holding = some x)
    (hl : (b.programme p).line = some line) (hk : line.bank = k) (n : Nat) :
    ((admitWaiting k (n + 1) b).bank k).writeSide =
        ((b.bank k).queue ++ [{ lane := p, seq := (b.lane p).writeSeq
                                position := (b.lane p).writeSeq.toNat % line.length, samples := x }], rest) ∧
      ∀ o, ((admitWaiting k (n + 1) b).lane o).writeSide =
        if p = o then ((b.lane p).source, (b.lane p).writeSeq + 1, none) else (b.lane o).writeSide := by
  unfold admitWaiting
  rw [hw]
  simp only
  rw [if_neg (by rw [hq]; decide), hx, Option.getD_some]
  generalize hd : Body.onLane _ p _ = d
  have hline : (d.programme p).line = some line := by rw [← hd]; exact hl
  have hbank : d.bank k = { b.bank k with waiting := rest } := by rw [← hd]; exact Body.bank_setBank_same b k _
  have hlane : ∀ o, d.lane o = if p = o then { b.lane p with holding := none } else b.lane o := fun o => by
    rw [← hd]; exact Body.lane_setLane _ p o _
  have eb := enterQueue_bank (x := x) hline
  have el := enterQueue_lane (x := x) hline
  subst hk
  rw [hbank, hlane, if_pos rfl] at eb
  have hfull : 16 ≤ ((enterQueue p x d).bank line.bank).queue.length := by
    have e : ((enterQueue p x d).bank line.bank).queue = (b.bank line.bank).queue ++ [_] := congrArg Prod.fst eb
    rw [e]
    simp [hq]
  rw [admitWaiting_full hfull]
  refine ⟨eb, fun o => ?_⟩
  rw [el, hlane, if_pos rfl]
  by_cases e : p = o
  · rw [if_pos e, if_pos e]
  · rw [if_neg e, if_neg e, hlane, if_neg e]

/-! ### The completions on the blocks -/

theorem drainDone_queue {k : Fin 4} (h : (b.bank k).waiting = []) (live : Bool) :
    ((drainDone k live b).bank k).queue = if live = true then (b.bank k).queue.drop 1 else (b.bank k).queue := by
  rw [drainDone_nobody h, (grantBank_bank k _ k).1, Body.bank_setBank_same]
  rfl

/-- The oldest frame of a full queue drained, with lanes waiting (R54, R55). -/
theorem drainDone_one {k : Fin 4} {p : Fin 16} {rest : List (Fin 16)} {line : Line} {x : List Sample}
    (hq : (b.bank k).queue.length = 16) (hw : (b.bank k).waiting = p :: rest) (hx : (b.lane p).holding = some x)
    (hl : (b.programme p).line = some line) (hk : line.bank = k) :
    ((drainDone k true b).bank k).writeSide =
        ((b.bank k).queue.drop 1 ++ [{ lane := p, seq := (b.lane p).writeSeq
                                       position := (b.lane p).writeSeq.toNat % line.length, samples := x }], rest) ∧
      (∀ o, ((drainDone k true b).lane o).writeSide =
        if p = o then ((b.lane p).source, (b.lane p).writeSeq + 1, none) else (b.lane o).writeSide) ∧
      ∀ o, ((drainDone k true b).programme o).writeSide = (b.programme o).writeSide := by
  have hd : (b.setBank k ((b.bank k).drained true)).bank k = (b.bank k).drained true := Body.bank_setBank_same b k _
  obtain ⟨h1, h2⟩ := admitWaiting_one (b := b.setBank k ((b.bank k).drained true)) (k := k) (rest := rest)
    (by rw [hd]; simp [Bank.drained, hq]) (by rw [hd]; exact hw) hx hl hk 15
  rw [hd] at h1
  have e : drainDone k true b = grantBank k (admitWaiting k 16 (b.setBank k ((b.bank k).drained true))) := rfl
  rw [e]
  have eg := grantBank_writeSide k (admitWaiting k 16 (b.setBank k ((b.bank k).drained true)))
  refine ⟨(writeSide_bank eg k).trans h1, fun o => (writeSide_lane eg o).trans (h2 o), fun o => ?_⟩
  exact (writeSide_programme eg o).trans (admitWaiting_programme k 16 _ o)

/-- A zero-fill access whose job has gone frees the bank alone. -/
theorem fillAccessDone_gone (k : Fin 4) :
    fillAccessDone k false b = grantBank k (b.setBank k { b.bank k with access := none }) := rfl

theorem fillAccessDone_live (k : Fin 4) :
    fillAccessDone k true b = grantBank k (fillAdvance k (b.setBank k { b.bank k with access := none })) := rfl

/-- Ended operations are not in flight. -/
theorem completeSubject_ended {k : OpKind} {n : Nat} {o : OpOutcome} {data : List Field} {d : Deferred}
    (hd : d ∈ (completeSubject k n o data b).line.deferred) (hk : d.kind = k) (hn : d.subject = n) :
    d.complete.isSome = true := by
  simp only [completeSubject, Body.onLine, List.mem_map] at hd
  obtain ⟨e, -, rfl⟩ := hd
  split at hk
  · rename_i h; rw [if_pos h]; rfl
  · rename_i h
    rw [if_neg h] at hn ⊢
    exact Option.isSome_iff_ne_none.2 fun hc => h ⟨hk, hn, hc⟩

section
variable {k : Fin 4} {j : FillJob} {rest : List FillJob} (hj : (b.bank k).jobs = j :: rest)
include hj

/-- The oldest job goes on. -/
theorem fillAdvance_goes (h : j.written + 64 < j.words) :
    fillAdvance k b = b.setBank k { b.bank k with jobs := { j with written := j.written + 64 } :: rest } := by
  unfold fillAdvance
  rw [hj]
  simp only
  rw [if_neg (by omega)]
  rfl

/-- The oldest job is done, and its programme PARKED (R17). -/
theorem fillAdvance_ends (h : j.words ≤ j.written + 64) :
    fillAdvance k b = fillDone j.programme (b.setBank k { b.bank k with jobs := rest }) := by
  unfold fillAdvance
  rw [hj]
  simp only
  rw [if_pos h]
  rfl

end

theorem fillDone_programme (p o : Fin 16) :
    ((fillDone p b).programme o).state = if p = o then .parked else (b.programme o).state := by
  have e : (fillDone p b).programme o = (b.onProgramme p fun r => { r with state := .parked }).programme o := rfl
  rw [e, Body.onProgramme_eq, Body.programme_setProgramme]
  split <;> rfl

theorem fillDone_bank (p : Fin 16) (k : Fin 4) : (fillDone p b).bank k = b.bank k := rfl

/-! ### The arbiter (R59) -/

/-- An open read request not yet granted, of a line in the bank. -/
def Claims (b : Body) (k : Fin 4) (p : Fin 16) (line : Line) (r : ReadRequest) : Prop :=
  (b.programme p).line = some line ∧ line.bank = k ∧ (b.lane p).readRequest = some r ∧ r.granted = false

theorem mem_readClaims (b : Body) (k : Fin 4) (p : Fin 16) : p ∈ readClaims b k ↔ ∃ line r, Claims b k p line r := by
  simp only [readClaims, programmeIds, List.mem_filter, List.mem_finRange, true_and, Bool.and_eq_true, Option.any_eq_true,
    decide_eq_true_eq, Bool.not_eq_true', Claims]
  constructor
  · rintro ⟨⟨l, h1, h2⟩, r, h3, h4⟩; exact ⟨l, r, h1, h2, h3, h4⟩
  · rintro ⟨l, r, h1, h2, h3, h4⟩; exact ⟨⟨l, h1, h2⟩, r, h3, h4⟩

/-- Round-robin: of claims in rising order, the first from the pointer on. -/
theorem nextReader_first {l : List (Fin 16)} (hs : l.Pairwise (· < ·)) (ptr : Fin 16) {q : Fin 16}
    (h : nextReader l ptr = some q) : q ∈ l ∧ ∀ o ∈ l, q - ptr ≤ o - ptr := by
  unfold nextReader at h
  rw [Option.or_eq_some_iff] at h
  rcases h with h | ⟨hnone, h⟩
  · obtain ⟨hq, before, after, e, hbefore⟩ := List.find?_eq_some_iff_append.1 h
    have hq : ptr ≤ q := of_decide_eq_true hq
    refine ⟨by simp [e], fun o ho => ?_⟩
    have hle : ptr ≤ o → q ≤ o := by
      intro hp
      rw [e] at ho hs
      rcases List.mem_append.1 ho with ho | ho
      · have : ¬ ptr ≤ o := by simpa using hbefore o ho
        exact absurd hp this
      · rcases List.mem_cons.1 ho with rfl | ho
        · exact le_refl _
        · exact le_of_lt ((List.pairwise_cons.1 (List.pairwise_append.1 hs).2.1).1 o ho)
    simp only [Fin.le_def, Fin.sub_def] at *
    omega
  · obtain ⟨rest, rfl⟩ : ∃ rest, l = q :: rest := by
      cases l with
      | nil => cases h
      | cons a l => exact ⟨l, by simpa using h⟩
    refine ⟨List.mem_cons_self .., fun o ho => ?_⟩
    have hq : ¬ ptr ≤ q := by simpa using List.find?_eq_none.1 hnone q (List.mem_cons_self ..)
    have hop : ¬ ptr ≤ o := by simpa using List.find?_eq_none.1 hnone o ho
    have hle : q ≤ o := by
      rcases List.mem_cons.1 ho with rfl | ho
      · exact le_refl _
      · exact le_of_lt ((List.pairwise_cons.1 hs).1 o ho)
    simp only [Fin.le_def, Fin.sub_def] at *
    omega

/-- The claim that comes first from the pointer on is the one read. -/
theorem nextReader_of_first {l : List (Fin 16)} (hs : l.Pairwise (· < ·)) {ptr p : Fin 16} (hp : p ∈ l)
    (h : ∀ o ∈ l, p - ptr ≤ o - ptr) : nextReader l ptr = some p := by
  cases hn : nextReader l ptr with
  | none =>
    simp only [nextReader, Option.or_eq_none_iff, List.head?_eq_none_iff] at hn
    rw [hn.2] at hp
    cases hp
  | some q =>
    obtain ⟨hq, hmin⟩ := nextReader_first hs ptr hn
    have : q - ptr = p - ptr := le_antisymm (hmin p hp) (h q hq)
    rw [sub_left_inj.1 this]

theorem readClaims_sorted (b : Body) (k : Fin 4) : (readClaims b k).Pairwise (· < ·) :=
  (List.pairwise_lt_finRange 16).filter _

theorem nextReader_nobody {k : Fin 4} (h : ∀ p line r, ¬Claims b k p line r) (ptr : Fin 16) :
    nextReader (readClaims b k) ptr = none := by
  have : readClaims b k = [] := List.eq_nil_iff_forall_not_mem.2 fun p hp => by
    obtain ⟨line, r, hc⟩ := (mem_readClaims b k p).1 hp
    exact h p line r hc
  rw [this]
  rfl

theorem drainAccess_eq {k : Fin 4} {f : QueuedFrame} {fs : List QueuedFrame} {line : Line}
    (hq : (b.bank k).queue = f :: fs) (hl : (b.programme f.lane).line = some line) :
    drainAccess b k = some (.drain f.lane (4096 * line.first + f.samples.length * f.position) f.samples true) := by
  unfold drainAccess
  rw [hq]
  simp only [hl]
  rfl

section
variable {k : Fin 4}

theorem grantBank_busy (h : (b.bank k).access ≠ none) : grantBank k b = b := by
  obtain ⟨a, ha⟩ := Option.ne_none_iff_exists'.1 h
  unfold grantBank
  simp only [ha]

variable (ha : (b.bank k).access = none)
include ha

theorem grantBank_long (hq : 8 ≤ (b.bank k).queue.length) :
    grantBank k b = b.setBank k { b.bank k with access := drainAccess b k } := by
  unfold grantBank
  simp only [ha]
  rw [if_pos hq]

theorem grantBank_reads (hq : (b.bank k).queue.length < 8) {p : Fin 16} {line : Line} {r : ReadRequest} {st : Settings}
    (hc : Claims b k p line r) (hst : (b.programme p).active = some st)
    (hfirst : ∀ o line' r', Claims b k o line' r' → p - (b.bank k).readNext ≤ o - (b.bank k).readNext) :
    grantBank k b = (b.setLane p { b.lane p with readRequest := some { r with granted := true } }).setBank k
      { b.bank k with readNext := p + 1, access := some (.read p r.seq
          (4096 * line.first + channelsOf st.layout * (r.seq.toNat % line.length)) (channelsOf st.layout) true) } := by
  have hn : nextReader (readClaims b k) (b.bank k).readNext = some p := by
    refine nextReader_of_first (readClaims_sorted b k) ((mem_readClaims b k p).2 ⟨line, r, hc⟩) fun o ho => ?_
    obtain ⟨line', r', ho⟩ := (mem_readClaims b k o).1 ho
    exact hfirst o line' r' ho
  obtain ⟨hl, -, hr, -⟩ := hc
  unfold grantBank
  simp only [ha]
  rw [if_neg (by omega), hn]
  simp only
  unfold grantRead
  rw [hr, hl]
  simp only [channels_eq hst]
  rfl

variable (hn : ∀ p line r, ¬Claims b k p line r)
include hn

theorem grantBank_drains (hq : (b.bank k).queue ≠ []) :
    grantBank k b = b.setBank k { b.bank k with access := drainAccess b k } := by
  by_cases h8 : 8 ≤ (b.bank k).queue.length
  · exact grantBank_long ha h8
  · unfold grantBank
    simp only [ha]
    rw [if_neg h8, nextReader_nobody hn]
    simp only
    rw [if_pos hq]

theorem grantBank_fills (hq : (b.bank k).queue = []) :
    grantBank k b = b.setBank k { b.bank k with
      access := (b.bank k).jobs.head?.map fun j => Access.fill j.programme (j.firstWord + j.written) true } := by
  unfold grantBank
  simp only [ha]
  rw [if_neg (by rw [hq]; decide), nextReader_nobody hn]
  simp only
  rw [if_neg (not_not.2 hq)]
  rfl

end

/-- Settles O19: the events' words by the DRAM's laws, their work on the blocks by the lemmas above, the arbiter by the cases
of `grantBank`. -/
theorem bankWrites : Obligations.BankWrites := by
  refine ⟨?_, ?_, ?_, ?_, ?_⟩
  · intro s k p w x live hwf ha hw
    rw [exec_drainComplete ha hw]
    obtain ⟨t, ht, hb⟩ := bodyEvent_becomes (drainDone k live) { s with dram := s.dram.writeWords k w (x.map sampleWord) }
    obtain ⟨hdram, hrx, hpend, hqueue⟩ := hb.1
    refine ⟨t, ht, hrx, hpend, hqueue, fun i y hi => ?_, fun a h => ?_, fun hnobody => ?_,
      hb.fixedParts (drainDone_fixed ..) (drainDone_sets ..)⟩
    · rw [hdram]
      exact Memory.readWord_writeWords _ _ _ _ _ _ hwf (by simp [hi])
    · rw [hdram]
      exact Memory.read_writeWords_other _ _ _ _ _ hwf (by simpa using h)
    · rw [hb.bank]
      exact drainDone_queue hnobody live
  · intro s k o w old p rest line x ha hw hq hwait hx hl hk
    rw [exec_drainComplete ha hw]
    obtain ⟨t, ht, hb⟩ := bodyEvent_becomes (drainDone k true) { s with dram := s.dram.writeWords k w (old.map sampleWord) }
    obtain ⟨h1, h2, h3⟩ := drainDone_one hq hwait hx hl hk
    have lane := fun o => (hb.lane_writeSide o).trans (h2 o)
    have drops : ∀ o, (t.body.programme o).writeDrops = (s.body.programme o).writeDrops := fun o =>
      congrArg (fun v => v.2.1) ((hb.programme_writeSide o).trans (h3 o))
    have bank : (t.body.bank k).writeSide = _ := (congrArg Bank.writeSide (hb.bank k)).trans h1
    refine ⟨t, ht, ⟨congrArg Prod.fst bank, congrArg Prod.snd bank, ?_, ?_, drops p⟩, fun y hy => ⟨?_, ?_, drops y⟩⟩
    · exact congrArg (fun v => v.2.2) ((lane p).trans (if_pos rfl))
    · exact congrArg (fun v => v.2.1) ((lane p).trans (if_pos rfl))
    · exact congrArg (fun v => v.2.2) ((lane y).trans (if_neg hy.symm))
    · exact congrArg (fun v => v.2.1) ((lane y).trans (if_neg hy.symm))
  · intro s k p w live hwf ha hw
    rw [exec_zeroFillAccessComplete ha hw]
    have hlen : (List.replicate 64 (sampleWord 0)).length = 64 := List.length_replicate
    have hget : ∀ i < 64, (List.replicate 64 (sampleWord 0))[i]? = some 0x00000020#32 := fun i hi =>
      (List.getElem?_replicate_of_lt hi).trans (congrArg some (by decide))
    generalize List.replicate 64 (sampleWord 0) = zeros at *
    obtain ⟨t, ht, hb⟩ := bodyEvent_becomes (fillAccessDone k live) { s with dram := s.dram.writeWords k w zeros }
    obtain ⟨hdram, hrx, hpend, hqueue⟩ := hb.1
    refine ⟨t, ht, hrx, hpend, hqueue, fun i hi => ?_, fun a h => ?_, fun hlive => ?_, fun j rest hlive hj => ?_,
      hb.fixedParts (fillAccessDone_fixed ..) (fillAccessDone_sets ..)⟩
    · rw [hdram]
      exact Memory.readWord_writeWords _ _ _ _ _ _ hwf (hget i hi)
    · rw [hdram]
      exact Memory.read_writeWords_other _ _ _ _ _ hwf (by rwa [hlen])
    · subst hlive
      refine ⟨?_, fun o => ?_⟩
      · rw [hb.bank, fillAccessDone_gone, (grantBank_bank k _ k).2.1, Body.bank_setBank_same]
      · rw [hb.programme_state, fillAccessDone_gone, grantBank_programme]
        rfl
    · subst hlive
      have hj' : ((s.body.setBank k { s.body.bank k with access := none }).bank k).jobs = j :: rest := by
        rw [Body.bank_setBank_same]; exact hj
      refine ⟨fun hlt => ⟨?_, fun o => ?_⟩, fun hle => ⟨?_, ?_, fun o ho => ?_, fun d hd hk hsub => ?_⟩⟩
      · rw [hb.bank, fillAccessDone_live, (grantBank_bank k _ k).2.1, fillAdvance_goes hj' hlt, Body.bank_setBank_same]
      · rw [hb.programme_state, fillAccessDone_live, grantBank_programme, fillAdvance_goes hj' hlt]
        rfl
      · rw [hb.bank, fillAccessDone_live, (grantBank_bank k _ k).2.1, fillAdvance_ends hj' hle, fillDone_bank,
          Body.bank_setBank_same]
      · rw [hb.programme_state, fillAccessDone_live, grantBank_programme, fillAdvance_ends hj' hle, fillDone_programme,
          if_pos rfl]
      · rw [hb.programme_state, fillAccessDone_live, grantBank_programme, fillAdvance_ends hj' hle, fillDone_programme,
          if_neg ho.symm]
        rfl
      · by_contra hc
        have hc : d.complete = none := Option.not_isSome_iff_eq_none.1 hc
        have hm := hb.inFlight hd hc
        rw [fillAccessDone_live, grantBank_only, fillAdvance_ends hj' hle] at hm
        have := completeSubject_ended hm hk hsub
        rw [hc] at this
        cases this
  · intro b k x claims nobody drains
    refine ⟨grantBank_busy, fun ha => ⟨fun hq f fs line hf hl => ?_, fun hq p line r st hc hst hfirst => ?_, fun hn hq f fs line hf hl => ?_,
      fun hn hq => ?_⟩⟩
    · rw [grantBank_long ha hq, drainAccess_eq hf hl]
    · exact grantBank_reads ha hq hc hst hfirst
    · rw [grantBank_drains ha hn hq, drainAccess_eq hf hl]
    · exact grantBank_fills ha hn hq
  · intro s k x grants
    refine ⟨fun p w y live ha hw hnobody => ?_, fun p q w n ha hw damage => ?_, fun p w ha hw => ?_⟩
    · obtain ⟨t, ht, hb⟩ := bodyEvent_becomes (drainDone k live) { s with dram := s.dram.writeWords k w (y.map sampleWord) }
      exact ⟨t, (exec_drainComplete ha hw).trans ht, hb.2.trans (congrArg Body.quiet (drainDone_nobody hnobody live))⟩
    · obtain ⟨t, ht, hb⟩ := bodyEvent_becomes (readDone k p q false (damaged (s.dram.readWords k w n) damage)) _
      exact ⟨t, (exec_readComplete ha hw damage).trans ht, hb.2⟩
    · obtain ⟨t, ht, hb⟩ := bodyEvent_becomes (fillAccessDone k false) _
      exact ⟨t, (exec_zeroFillAccessComplete ha hw).trans ht, hb.2⟩

end Sys2Proof.Machine
end

section
/-! O2: the reset columns. Every block of the reset machine holds its record's declared values. -/

namespace Sys2Proof.Machine

theorem reset_programme (p : Fin 16) : State.reset.body.programme p = {} := Vector.getElem_replicate p.isLt
theorem reset_lane (p : Fin 16) : State.reset.body.lane p = {} := Vector.getElem_replicate p.isLt
theorem reset_meter (p : Fin 16) : State.reset.body.meter p = {} := Vector.getElem_replicate p.isLt
theorem reset_gain (p : Fin 16) : State.reset.body.gain p = {} := Vector.getElem_replicate p.isLt
theorem reset_port (q : Fin 8) : State.reset.body.port q = {} := Vector.getElem_replicate q.isLt
theorem reset_bank (k : Fin 4) : State.reset.body.bank k = {} := Vector.getElem_replicate k.isLt
theorem reset_entry (e : Fin 154) : State.reset.body.entry e = {} := Vector.getElem_replicate e.isLt
theorem reset_contact (k : Fin 8) : State.reset.body.contact k = {} := Vector.getElem_replicate k.isLt
theorem reset_scene (n : Fin 32) : State.reset.body.scene n = {} := Vector.getElem_replicate n.isLt

/-- Settles O2: with the record of each block written out, each value is the declared one. -/
theorem resetValues : Obligations.ResetValues := by
  unfold Obligations.ResetValues
  refine ⟨by decide, fun q => ?_, fun p => ?_, fun p => ?_, fun k => ?_, fun p => ?_, fun e => ?_, fun k => ?_,
    fun n => ?_, ⟨rfl, rfl, rfl, rfl⟩, ⟨rfl, rfl, rfl, rfl, rfl, rfl⟩⟩
  · rw [reset_port]
    exact ⟨rfl, rfl, rfl, rfl, rfl, rfl⟩
  · rw [reset_programme]
    exact ⟨rfl, rfl, rfl, rfl, rfl, rfl⟩
  · rw [reset_lane]
    exact ⟨rfl, rfl, rfl, rfl, rfl, rfl⟩
  · rw [reset_bank]
    exact ⟨rfl, rfl, rfl⟩
  · rw [reset_meter, reset_gain]
    exact ⟨rfl, rfl, rfl, rfl, rfl, rfl, rfl⟩
  · rw [reset_entry]
    exact ⟨rfl, rfl, rfl, rfl, rfl⟩
  · rw [reset_contact]
    exact ⟨rfl, rfl⟩
  · rw [reset_scene]
    exact ⟨rfl, rfl⟩

end Sys2Proof.Machine
end

section
/-! What the reader and the switching logic leave beside lanes, banks and the control line, and what they leave of a delay
change: the layer under commits (O8), boundaries (O7) and the programme requests (O27, O28). -/

namespace Sys2Proof.Machine

variable {b c : Body}

/-! ### Beside lanes, banks and the control line -/

/-- The blocks without lanes, banks and the control line. -/
def Body.aside (b : Body) : Body := { b with lanes := .replicate 16 {}, banks := .replicate 4 {}, line := {} }

theorem aside_programme (h : c.aside = b.aside) (p : Fin 16) : c.programme p = b.programme p := by
  have : c.programmes = b.programmes := (congrArg Body.programmes h :)
  simp only [Body.programme, this]

theorem aside_port (h : c.aside = b.aside) (q : Fin 8) : c.port q = b.port q := by
  have : c.ports = b.ports := (congrArg Body.ports h :)
  simp only [Body.port, this]

theorem aside_lockedQ (h : c.aside = b.aside) (q : Fin 8) : lockedQ c q = lockedQ b q := by
  unfold lockedQ isLocked
  rw [aside_port h]

@[simp] theorem setLane_aside (b : Body) (p x) : (b.setLane p x).aside = b.aside := rfl
@[simp] theorem onLane_aside (b : Body) (p f) : (b.onLane p f).aside = b.aside := rfl
@[simp] theorem setBank_aside (b : Body) (k x) : (b.setBank k x).aside = b.aside := rfl
@[simp] theorem onBank_aside (b : Body) (k f) : (b.onBank k f).aside = b.aside := rfl
@[simp] theorem completeTag_aside (t o d b) : (completeTag t o d b).aside = b.aside := rfl
@[simp] theorem completeSubject_aside (k n o d b) : (completeSubject k n o d b).aside = b.aside := rfl

@[simp] theorem grantBank_aside (k b) : (grantBank k b).aside = b.aside := by rw [grantBank_only]; rfl

@[simp] theorem openReads_aside (p n b) : (openReads p n b).aside = b.aside := by
  induction n generalizing b with
  | zero => rfl
  | succ n ih =>
    unfold openReads
    simp only
    split
    · split
      · rw [ih, onLane_aside]
      · rw [grantBank_aside, onLane_aside]
    · rfl

@[simp] theorem pumpReads_aside (p b) : (pumpReads p b).aside = b.aside := by
  unfold pumpReads
  simp only
  split <;> simp

theorem foldl_aside {α : Type} (l : List α) (f : Body → α → Body) (h : ∀ b a, (f b a).aside = b.aside) (b : Body) :
    (l.foldl f b).aside = b.aside := by
  induction l generalizing b with
  | nil => rfl
  | cons a l ih => exact (ih _).trans (h b a)

@[simp] theorem killAccess_aside (p r w b) : (killAccess p r w b).aside = b.aside :=
  foldl_aside bankIds (fun b k => b.onBank k fun x => { x with access := x.access.map (Access.kill p r w) })
    (fun _ _ => rfl) b

@[simp] theorem closeRead_aside (p b) : (closeRead p b).aside = b.aside := by simp [closeRead]

@[simp] theorem discardHeld_aside (p b) : (discardHeld p b).aside = b.aside := by
  exact foldl_aside bankIds (fun b k => b.onBank k fun x => { x with waiting := x.waiting.filter (· != p) })
    (fun _ _ => rfl) (b.onLane p fun l => { l with holding := none })

@[simp] theorem refreshSetpoint_aside (p b) : (refreshSetpoint p b).aside = b.aside := by
  unfold refreshSetpoint; split <;> rfl

@[simp] theorem endChange_aside (p o b) : (endChange p o b).aside = b.aside := by
  unfold endChange
  split
  · rfl
  · simp only; split <;> rfl

@[simp] theorem endTail_aside (p b) : (endTail p b).aside = b.aside := by
  unfold endTail
  simp only
  split
  · split
    · split
      · rfl
      · simp
    · rfl
  · rfl

@[simp] theorem reachMark_aside (p m b) : (reachMark p m b).aside = b.aside := by simp [reachMark]
@[simp] theorem clearOverloadRuns_aside (p b) : (clearOverloadRuns p b).aside = b.aside := rfl
@[simp] theorem emptyLine_aside (p b) : (emptyLine p b).aside = b.aside := rfl

@[simp] theorem forcedJump_aside (p b) : (forcedJump p b).aside = b.aside := by
  unfold forcedJump
  simp only
  split
  · split
    · rw [endTail_aside]
    · rfl
  · rw [pumpReads_aside, reachMark_aside, onLane_aside]
    split
    · rw [endTail_aside]
    · rfl

@[simp] theorem placeMark_aside (p src b) : (placeMark p src b).aside = b.aside := by
  unfold placeMark
  simp only
  split
  · rfl
  · rw [onLane_aside]
    split
    · rw [forcedJump_aside]
    · rfl

@[simp] theorem endDelayWrite_aside (p n o b) : (endDelayWrite p n o b).aside = b.aside := by
  unfold endDelayWrite; split <;> rfl

@[simp] theorem beginChange_aside (p n o f b) : (beginChange p n o f b).aside = b.aside := by
  unfold beginChange
  simp only
  split <;> simp

@[simp] theorem commitDelay_aside (p x y o f b) : (commitDelay p x y o f b).aside = b.aside := by
  unfold commitDelay
  split
  · simp
  · split <;> simp

@[simp] theorem abandonChange_aside (p b) : (abandonChange p b).aside = b.aside := by simp [abandonChange]

/-! ### Beside the programmes too -/

/-- The blocks without programmes, lanes, banks and the control line. -/
def Body.beyond (b : Body) : Body := { b.aside with programmes := .replicate 16 {} }

theorem beyond_of_aside (h : c.aside = b.aside) : c.beyond = b.beyond := by simp only [Body.beyond, h]

theorem beyond_gain (h : c.beyond = b.beyond) (p : Fin 16) : c.gain p = b.gain p := by
  have : c.gains = b.gains := (congrArg Body.gains h :)
  simp only [Body.gain, this]

theorem beyond_meter (h : c.beyond = b.beyond) (p : Fin 16) : c.meter p = b.meter p := by
  have : c.meters = b.meters := (congrArg Body.meters h :)
  simp only [Body.meter, this]

@[simp] theorem setProgramme_beyond (b : Body) (p x) : (b.setProgramme p x).beyond = b.beyond := rfl
@[simp] theorem onProgramme_beyond (b : Body) (p f) : (b.onProgramme p f).beyond = b.beyond := rfl
@[simp] theorem oweState_beyond (p c b) : (oweState p c b).beyond = b.beyond := rfl
@[simp] theorem resumeProgramme_beyond (p b) : (resumeProgramme p b).beyond = b.beyond := rfl
@[simp] theorem setLane_beyond (b : Body) (p x) : (b.setLane p x).beyond = b.beyond := rfl
@[simp] theorem onLane_beyond (b : Body) (p f) : (b.onLane p f).beyond = b.beyond := rfl
@[simp] theorem clearOverloadRuns_beyond (p b) : (clearOverloadRuns p b).beyond = b.beyond := rfl
@[simp] theorem emptyLine_beyond (p b) : (emptyLine p b).beyond = b.beyond := rfl
@[simp] theorem placeMark_beyond (p src b) : (placeMark p src b).beyond = b.beyond := beyond_of_aside (placeMark_aside ..)
@[simp] theorem discardHeld_beyond (p b) : (discardHeld p b).beyond = b.beyond := beyond_of_aside (discardHeld_aside ..)
@[simp] theorem refreshSetpoint_beyond (p b) : (refreshSetpoint p b).beyond = b.beyond :=
  beyond_of_aside (refreshSetpoint_aside ..)

@[simp] theorem switchSource_beyond (p src cause b) : (switchSource p src cause b).beyond = b.beyond := by
  unfold switchSource
  extract_lets b1 b2 b3 b4 b5
  have h3 : b3.beyond = b.beyond := by
    show (if _ then _ else b2 : Body).beyond = _
    split
    · exact placeMark_beyond p src b2
    · rfl
  have h4 : b4.beyond = b.beyond :=
    (clearOverloadRuns_beyond p _).trans ((onLane_beyond b3 p _).trans h3)
  split
  · rw [refreshSetpoint_beyond, emptyLine_beyond, discardHeld_beyond, h4]
  · have h5 : b5.beyond = b.beyond := (discardHeld_beyond p b4).trans h4
    split
    · rw [refreshSetpoint_beyond, oweState_beyond, resumeProgramme_beyond, emptyLine_beyond, h5]
    · exact h5
  · exact h4

@[simp] theorem changeSelector_beyond (p side x b) : (changeSelector p side x b).beyond = b.beyond := by
  unfold changeSelector
  simp only
  split
  · split <;> simp
  · rfl

@[simp] theorem reconcile_beyond (p b) : (reconcile p b).beyond = b.beyond := by
  unfold reconcile
  simp only
  split
  · rfl
  · split
    · split <;> simp
    · split <;> simp

/-! ### Of a delay change and of the operations in flight -/

/-- The target of a lane stands, its change too where it is not in its tail, and no operation is in flight anew. -/
structure Switched (p : Fin 16) (b c : Body) : Prop where
  target : (c.lane p).target = (b.lane p).target
  change : (∀ y, (b.lane p).change = some y → y.phase ≠ .tail) → (c.lane p).change = (b.lane p).change
  ended : ∀ d ∈ c.line.deferred, d.complete = none → d ∈ b.line.deferred

section
variable {p : Fin 16}

theorem Switched.refl (p : Fin 16) (b : Body) : Switched p b b := ⟨rfl, fun _ => rfl, fun _ h _ => h⟩

theorem Switched.trans {d : Body} (h : Switched p b c) (h' : Switched p c d) : Switched p b d :=
  ⟨h'.target.trans h.target, fun hy => (h'.change (by rw [h.change hy]; exact hy)).trans (h.change hy),
    fun x hx hn => h.ended x (h'.ended x hx hn) hn⟩

/-- Work elsewhere than on the change and the deferred table. -/
theorem Switched.of_eq (ht : (c.lane p).target = (b.lane p).target) (hc : (c.lane p).change = (b.lane p).change)
    (hl : c.line = b.line) : Switched p b c := ⟨ht, fun _ => hc, fun _ hx _ => hl ▸ hx⟩

theorem Switched.onLane {f : Lane → Lane} (h : ∀ l, (f l).target = l.target ∧ (f l).change = l.change) :
    Switched p b (b.onLane p f) := by
  refine Switched.of_eq ?_ ?_ rfl <;> rw [Body.onLane_eq, Body.lane_setLane_same]
  · exact (h _).1
  · exact (h _).2

theorem Switched.onProgramme {f : Programme → Programme} (o : Fin 16) : Switched p b (b.onProgramme o f) :=
  .of_eq rfl rfl rfl

theorem Switched.oweState (o : Fin 16) (x : StateCause) (b : Body) : Switched p b (oweState o x b) := .onProgramme o

theorem Switched.clearOverloadRuns (p : Fin 16) (b : Body) : Switched p b (clearOverloadRuns p b) :=
  .onLane fun _ => ⟨rfl, rfl⟩

theorem Switched.emptyLine (p : Fin 16) (b : Body) : Switched p b (emptyLine p b) := .onLane fun _ => ⟨rfl, rfl⟩

theorem completeTag_unended {t : Byte} {o : OpOutcome} {data : List Field} {d : Deferred}
    (hd : d ∈ (completeTag t o data b).line.deferred) (hn : d.complete = none) : d ∈ b.line.deferred ∧ d.tag ≠ t := by
  simp only [completeTag, Body.onLine, List.mem_map] at hd
  obtain ⟨e, he, rfl⟩ := hd
  split at hn
  · cases hn
  · rename_i h
    rw [if_neg h]
    exact ⟨he, fun ht => h ⟨ht, hn⟩⟩

/-- A change in its tail alone is ended, or goes on. -/
theorem Switched.endTail (p : Fin 16) (b : Body) : Switched p b (endTail p b) := by
  unfold Machine.endTail
  simp only
  have h0 : Switched p b (b.onLane p fun l => { l with tail := none }) := .onLane fun _ => ⟨rfl, rfl⟩
  refine h0.trans ?_
  generalize b.onLane p _ = e
  split
  · rename_i y hy
    split
    · rename_i ht
      split
      · refine ⟨?_, fun hn => absurd ht (hn y hy), fun d hd _ => hd⟩
        rw [Body.onLane_eq, Body.lane_setLane_same]
      · refine ⟨?_, fun hn => absurd ht (hn y hy), fun d hd hnone => ?_⟩
        · unfold endChange
          rw [hy]
          simp only
          split <;> simp [completeTag]
        · unfold endChange at hd
          rw [hy] at hd
          simp only at hd
          split at hd
          · exact (completeTag_unended hd hnone).1
          · exact hd
          · exact hd
    · exact .refl p e
  · exact .refl p e

theorem openReads_line (p : Fin 16) (n : Nat) (b : Body) : (openReads p n b).line = b.line := by
  induction n generalizing b with
  | zero => rfl
  | succ n ih =>
    unfold openReads
    simp only
    split
    · split
      · exact (ih _).trans rfl
      · rw [grantBank_only]; rfl
    · rfl

/-- A lane without its window and its read request. -/
def Lane.unread (l : Lane) : Lane := { l with window := [], readRequest := none }

theorem unread_onLane {o : Fin 16} {f : Lane → Lane} (hf : ∀ l, (f l).unread = l.unread) :
    ((b.onLane p f).lane o).unread = (b.lane o).unread := by
  rw [Body.onLane_eq, Body.lane_setLane]
  split
  · rename_i e
    subst e
    exact hf _
  · rfl

/-- The pumping of reads changes of a lane its window and its read request alone. -/
theorem openReads_lane (p o : Fin 16) (n : Nat) (b : Body) :
    ((openReads p n b).lane o).unread = (b.lane o).unread := by
  induction n generalizing b with
  | zero => rfl
  | succ n ih =>
    unfold openReads
    simp only
    split
    · split
      · exact (ih _).trans (unread_onLane fun _ => rfl)
      · exact (congrArg (fun l : Lane => { l with window := [] }) (grantBank_lane _ _ o) :).trans
          (unread_onLane fun _ => rfl)
    · rfl

theorem pumpReads_lane (p o : Fin 16) (b : Body) :
    ((pumpReads p b).lane o).unread = (b.lane o).unread := by
  have prune : ((b.onLane p Lane.prune).lane o).unread = (b.lane o).unread := unread_onLane fun _ => rfl
  unfold pumpReads
  simp only
  split
  · exact (openReads_lane p o 10 _).trans prune
  · exact prune

theorem pumpReads_line (p : Fin 16) (b : Body) : (pumpReads p b).line = b.line := by
  unfold pumpReads
  simp only
  split
  · exact (openReads_line p 10 _).trans rfl
  · rfl

theorem Switched.pumpReads (p : Fin 16) (b : Body) : Switched p b (pumpReads p b) :=
  .of_eq (congrArg Lane.target (pumpReads_lane p p b) :) (congrArg Lane.change (pumpReads_lane p p b) :) (pumpReads_line p b)

theorem Switched.refreshSetpoint (p : Fin 16) (b : Body) : Switched p b (refreshSetpoint p b) := by
  unfold Machine.refreshSetpoint
  split <;> exact .onLane fun _ => ⟨rfl, rfl⟩

theorem Switched.reachMark (p : Fin 16) (m : SpliceMark) (b : Body) : Switched p b (reachMark p m b) := by
  unfold Machine.reachMark
  refine Switched.trans ?_ (.refreshSetpoint p _)
  exact .onLane fun _ => ⟨rfl, rfl⟩

theorem Switched.forcedJump (p : Fin 16) (b : Body) : Switched p b (forcedJump p b) := by
  unfold Machine.forcedJump
  simp only
  have h0 : Switched p b (if (b.lane p).tail.isSome = true then Machine.endTail p b else b) := by
    split
    · exact .endTail p b
    · exact .refl p b
  refine h0.trans ?_
  generalize (if (b.lane p).tail.isSome = true then Machine.endTail p b else b) = e
  split
  · exact .refl p e
  · refine Switched.trans ?_ ((Switched.reachMark p _ _).trans (.pumpReads p _))
    exact .onLane fun _ => ⟨rfl, rfl⟩

theorem Switched.placeMark (p : Fin 16) (src : Source) (b : Body) : Switched p b (placeMark p src b) := by
  unfold Machine.placeMark
  simp only
  split
  · exact .onLane fun _ => ⟨rfl, rfl⟩
  · have h0 : Switched p b (if 4 ≤ (b.lane p).marks.length then Machine.forcedJump p b else b) := by
      split
      · exact .forcedJump p b
      · exact .refl p b
    exact h0.trans (.onLane fun _ => ⟨rfl, rfl⟩)

theorem discardHeld_line (p : Fin 16) (b : Body) : (discardHeld p b).line = b.line := by
  unfold discardHeld
  have h : ∀ (l : List (Fin 4)) (e : Body),
      (l.foldl (fun b k => b.onBank k fun x => { x with waiting := x.waiting.filter (· != p) }) e).line = e.line := by
    intro l
    induction l with
    | nil => exact fun _ => rfl
    | cons k l ih => exact fun e => (ih _).trans rfl
  exact (h _ _).trans rfl

theorem Switched.discardHeld (p : Fin 16) (b : Body) : Switched p b (discardHeld p b) := by
  have e := (discardHeld_lane p b p).trans (if_pos rfl)
  exact .of_eq (congrArg Lane.target e :) (congrArg Lane.change e :) (discardHeld_line p b)

theorem Switched.resumeProgramme (p : Fin 16) (b : Body) : Switched p b (resumeProgramme p b) := by
  unfold Machine.resumeProgramme
  refine Switched.trans ?_ ((Switched.onProgramme p).trans ((Switched.oweState p _ _).trans (.clearOverloadRuns p _)))
  exact .onLane fun _ => ⟨rfl, rfl⟩

theorem Switched.switchSource (p : Fin 16) (src : Source) (x : StateCause) (b : Body) :
    Switched p b (switchSource p src x b) := by
  unfold Machine.switchSource
  extract_lets b1 b2 b3 b4 b5
  have h2 : Switched p b b2 := (Switched.oweState p x b).trans (.onProgramme p)
  have h3 : Switched p b2 b3 := by
    show Switched p b2 (if _ then _ else _)
    split
    · exact .placeMark p src b2
    · exact .refl p b2
  have source : Switched p b3 (b3.onLane p fun l => { l with source := some src }) := .onLane fun _ => ⟨rfl, rfl⟩
  have h4 : Switched p b b4 := (h2.trans h3).trans (source.trans (.clearOverloadRuns p _))
  split
  · exact h4.trans ((Switched.discardHeld p _).trans ((Switched.emptyLine p _).trans (.refreshSetpoint p _)))
  · have h5 : Switched p b b5 := h4.trans (.discardHeld p _)
    split
    · exact h5.trans ((Switched.emptyLine p _).trans ((Switched.resumeProgramme p _).trans
        ((Switched.oweState p x _).trans (.refreshSetpoint p _))))
    · exact h5
  · exact h4

theorem Switched.changeSelector (p : Fin 16) (side : Selector) (x : StateCause) (b : Body) :
    Switched p b (changeSelector p side x b) := by
  unfold Machine.changeSelector
  extract_lets b1
  have h1 : Switched p b b1 := .onProgramme p
  split
  · split
    · exact h1.trans (.oweState p x b1)
    · exact h1.trans (.switchSource p _ x b1)
  · exact h1

theorem Switched.reconcile (p : Fin 16) (b : Body) : Switched p b (reconcile p b) := by
  unfold Machine.reconcile
  simp only
  split
  · exact .refl p b
  · split
    · split
      · exact .changeSelector p _ _ b
      · exact (Switched.onProgramme p).trans (.oweState p _ _)
    · split
      · exact .switchSource p _ _ b
      · exact .refl p b

end

end Sys2Proof.Machine
end

section
/-! What a switch and a commit make of lane and programme (R12, R13, R93, R94): source in use, splice marks, selector and
countdowns, and the delay change of the commit. -/

namespace Sys2Proof.Machine

variable {b c : Body} {p : Fin 16}

/-! ### The feed of a lane, the place of a programme -/

/-- Source in use, write sequence and splice marks of a lane. -/
def Lane.feed (l : Lane) : Option Source × Count × List SpliceMark := (l.source, l.writeSeq, l.marks)

/-- Selector and countdowns of a programme. -/
def Programme.place (r : Programme) : Selector × Nat × Nat := (r.selector, r.guard, r.revertCount)

theorem feed_onLane {o : Fin 16} {f : Lane → Lane} (hf : ∀ l, (f l).feed = l.feed) :
    ((b.onLane p f).lane o).feed = (b.lane o).feed := by
  rw [Body.onLane_eq, Body.lane_setLane]
  split
  · rename_i e
    subst e
    exact hf _
  · rfl

theorem source_onLane {o : Fin 16} {f : Lane → Lane}
    (hf : ∀ l, (f l).source = l.source) :
    ((b.onLane p f).lane o).source = (b.lane o).source := by
  rw [Body.onLane_eq, Body.lane_setLane]
  split
  · rename_i e
    subst e
    exact hf _
  · rfl

theorem place_onProgramme {o : Fin 16} {f : Programme → Programme}
    (hf : ∀ r, (f r).place = r.place) :
    ((b.onProgramme p f).programme o).place = (b.programme o).place := by
  rw [Body.onProgramme_eq, Body.programme_setProgramme]
  split
  · rename_i e
    subst e
    exact hf _
  · rfl

theorem completeTag_lane (t : Byte) (x : OpOutcome) (d : List Field) (b : Body) (o : Fin 16) :
    (completeTag t x d b).lane o = b.lane o := rfl

theorem refreshSetpoint_feed (p o : Fin 16) (b : Body) : ((refreshSetpoint p b).lane o).feed = (b.lane o).feed := by
  unfold refreshSetpoint
  split <;> exact feed_onLane fun _ => rfl

theorem endChange_feed (p o : Fin 16) (x : OpOutcome) (b : Body) : ((endChange p x b).lane o).feed = (b.lane o).feed := by
  unfold endChange
  split
  · rfl
  · simp only
    split
    · exact (congrArg Lane.feed (completeTag_lane ..)).trans (feed_onLane fun _ => rfl)
    · exact (feed_onLane (by exact fun _ => rfl)).trans (feed_onLane fun _ => rfl)
    · exact feed_onLane fun _ => rfl

theorem endDelayWrite_feed (p o : Fin 16) (n : Nat) (x : Option DelayOrigin) (b : Body) :
    ((endDelayWrite p n x b).lane o).feed = (b.lane o).feed := by
  unfold endDelayWrite
  split
  · rfl
  · exact feed_onLane fun _ => rfl
  · rfl

theorem beginChange_feed (p o : Fin 16) (new : Settings) (x : Option DelayOrigin) (f : Count) (b : Body) :
    ((beginChange p new x f b).lane o).feed = (b.lane o).feed := by
  unfold beginChange
  simp only
  split
  · exact (refreshSetpoint_feed p o _).trans ((feed_onLane (by exact fun _ => rfl)).trans (endChange_feed p o _ b))
  · exact (feed_onLane (by exact fun _ => rfl)).trans (endChange_feed p o _ b)

theorem commitDelay_feed (p o : Fin 16) (old new : Settings) (x : Option DelayOrigin) (f : Count) (b : Body) :
    ((commitDelay p old new x f b).lane o).feed = (b.lane o).feed := by
  unfold commitDelay
  split
  · exact endDelayWrite_feed ..
  · split
    · exact beginChange_feed ..
    · exact (endDelayWrite_feed ..).trans ((refreshSetpoint_feed ..).trans (feed_onLane fun _ => rfl))

/-! ### A switch of the lane -/

/-- A mark laid is the youngest of the lane, with the write sequence and the Q of the moment (R94, R95). -/
theorem placeMark_getLast (p : Fin 16) (src : Source) (b : Body) :
    ((placeMark p src b).lane p).marks.getLast? =
      some { seq := (b.lane p).writeSeq, port := src.port, slot := src.slot, q := lockedQ b src.port } := by
  unfold placeMark
  simp only
  split <;> rw [Body.onLane_eq, Body.lane_setLane_same] <;> exact List.getLast?_concat

theorem discardHeld_source (p o : Fin 16) (b : Body) : ((discardHeld p b).lane o).source = (b.lane o).source := by
  have h := discardHeld_lane p b o
  split at h
  · rename_i e
    subst e
    exact (congrArg Lane.source h :)
  · exact congrArg Lane.source h

theorem refreshSetpoint_source (p o : Fin 16) (b : Body) : ((refreshSetpoint p b).lane o).source = (b.lane o).source :=
  congrArg Prod.fst (refreshSetpoint_feed p o b)

theorem resumeProgramme_source (p o : Fin 16) (b : Body) : ((resumeProgramme p b).lane o).source = (b.lane o).source :=
  (source_onLane (by exact fun _ => rfl)).trans (source_onLane (f := fun l =>
    { l with readSeq := l.writeSeq, historyStart := l.writeSeq, marks := [] }) fun _ => rfl)

theorem resumeProgramme_place (p o : Fin 16) (b : Body) : ((resumeProgramme p b).programme o).place = (b.programme o).place :=
  (place_onProgramme (f := fun r => { r with stateOwed := some .resumed }) fun _ => rfl).trans
    (place_onProgramme (f := fun r => { r with state := .priming }) fun _ => rfl)

theorem emptyLine_source (p o : Fin 16) (b : Body) : ((emptyLine p b).lane o).source = (b.lane o).source := by
  unfold emptyLine
  exact source_onLane fun _ => rfl

theorem oweState_source (p o : Fin 16) (x : StateCause) (b : Body) :
    ((oweState p x b).lane o).source = (b.lane o).source := rfl

theorem oweState_place (p o : Fin 16) (x : StateCause) (b : Body) :
    ((oweState p x b).programme o).place = (b.programme o).place := by
  unfold oweState
  exact place_onProgramme fun _ => rfl

theorem refreshSetpoint_place (p o : Fin 16) (b : Body) :
    ((refreshSetpoint p b).programme o).place = (b.programme o).place :=
  congrArg Programme.place (aside_programme (refreshSetpoint_aside p b) o)

theorem discardHeld_place (p o : Fin 16) (b : Body) :
    ((discardHeld p b).programme o).place = (b.programme o).place :=
  congrArg Programme.place (aside_programme (discardHeld_aside p b) o)

theorem emptyLine_place (p o : Fin 16) (b : Body) : ((emptyLine p b).programme o).place = (b.programme o).place := rfl

/-- A switch gives the lane its source, loads the countdowns, and in RUNNING lays a splice mark (R94). -/
structure SwitchedTo (p : Fin 16) (src : Source) (st : Settings) (b c : Body) : Prop where
  source : (c.lane p).source = some src
  place : (c.programme p).place = ((b.programme p).selector, st.switchGuard, st.revertHold)
  marks : (b.programme p).state = .running → (c.lane p).marks.getLast? =
    some { seq := (b.lane p).writeSeq, port := src.port, slot := src.slot, q := lockedQ b src.port }

theorem switchSource_switches {src : Source} {st : Settings} (x : StateCause)
    (ha : (b.programme p).active = some st) : SwitchedTo p src st b (switchSource p src x b) := by
  unfold switchSource
  extract_lets b1 b2 b3 b4 b5
  have place2 : (b2.programme p).place = ((b.programme p).selector, st.switchGuard, st.revertHold) := by
    simp [b2, b1, oweState, ha, Programme.place]
  have state2 : (b2.programme p).state = (b.programme p).state := by simp [b2, b1, oweState, ha]
  have aside3 : b3.aside = b2.aside := by
    show (if _ then _ else b2 : Body).aside = _
    split
    · exact placeMark_aside p src b2
    · rfl
  have aside4 : b4.aside = b2.aside := (clearOverloadRuns_aside p _).trans ((onLane_aside b3 p _).trans aside3)
  have source4 : (b4.lane p).source = some src := by simp [b4, clearOverloadRuns]
  have place4 : (b4.programme p).place = _ := (congrArg Programme.place (aside_programme aside4 p)).trans place2
  have state4 : (b4.programme p).state = (b.programme p).state :=
    (congrArg Programme.state (aside_programme aside4 p)).trans state2
  have marks4 : (b.programme p).state = .running → (b4.lane p).marks.getLast? =
      some { seq := (b.lane p).writeSeq, port := src.port, slot := src.slot, q := lockedQ b src.port } := fun hr => by
    have h3 : b3 = placeMark p src b2 := if_pos (state2.trans hr)
    have laid : (b4.lane p).marks = (b3.lane p).marks := by simp [b4, clearOverloadRuns]
    rw [laid, h3, placeMark_getLast]
    rfl
  have source5 : ((discardHeld p b4).lane p).source = some src := (discardHeld_source p p b4).trans source4
  have place5 : ((discardHeld p b4).programme p).place = _ :=
    (discardHeld_place p p b4).trans place4
  have other : ∀ {st : ProgState}, (b4.programme p).state = st → st ≠ .running → (b.programme p).state ≠ .running :=
    fun h hne hr => hne (h.symm.trans (state4.trans hr))
  clear_value b4
  split
  · rename_i h
    refine ⟨?_, ?_, fun hr => absurd hr (other h (by decide))⟩
    · rw [refreshSetpoint_source, emptyLine_source, source5]
    · rw [refreshSetpoint_place, emptyLine_place, place5]
  · rename_i h
    split
    · refine ⟨?_, ?_, fun hr => absurd hr (other h (by decide))⟩
      · rw [refreshSetpoint_source, oweState_source, resumeProgramme_source, emptyLine_source, source5]
      · rw [refreshSetpoint_place, oweState_place, resumeProgramme_place, emptyLine_place, place5]
    · exact ⟨source5, place5, fun hr => absurd hr (other h (by decide))⟩
  · exact ⟨source4, place4, marks4⟩

end Sys2Proof.Machine
end

section
/-! Commits (R6, R12): what the taking of the new set, its delay change and the reconciliation each make of the blocks. -/

namespace Sys2Proof.Machine

variable {b c : Body} {p : Fin 16}

theorem carrying_iff (x : ProgState) : carrying x = true ↔ x = .priming ∨ x = .running ∨ x = .starved := by
  cases x <;> decide

/-! ### The reconciliation -/

theorem reconcile_idle {st : Settings} {src : Source} (ha : (b.programme p).active = some st)
    (hs : selectedSource st (b.programme p).selector = some src)
    (h : carrying (b.programme p).state = false ∨ (b.lane p).source = some src) : reconcile p b = b := by
  unfold reconcile
  simp only [ha, hs]
  exact if_neg (by rcases h with h | h <;> simp [h])

theorem reconcile_switch {st : Settings} {src : Source} (ha : (b.programme p).active = some st)
    (hs : selectedSource st (b.programme p).selector = some src) (hc : carrying (b.programme p).state = true)
    (h : (b.lane p).source ≠ some src) : reconcile p b = switchSource p src .planned b := by
  unfold reconcile
  simp only [ha, hs]
  exact if_pos (by simp [hc, h])

theorem changeSelector_source {st : Settings} {side : Selector} {src : Source} (x : StateCause)
    (ha : (b.programme p).active = some st) (hs : selectedSource st side = some src) :
    ((changeSelector p side x b).programme p).selector = side ∧
      ((changeSelector p side x b).lane p).source = some src := by
  unfold changeSelector
  extract_lets b1
  have active1 : (b1.programme p).active = some st := by simp [b1, ha]
  have side1 : (b1.programme p).selector = side := by simp [b1]
  clear_value b1
  rw [active1]
  simp only [Option.bind_some, hs]
  split
  · rename_i h
    exact ⟨(congrArg Prod.fst (oweState_place p p x b1)).trans side1, h⟩
  · have h := switchSource_switches (src := src) x active1
    exact ⟨(congrArg Prod.fst h.place).trans side1, h.source⟩

/-- A selector left without a source becomes MAIN, and the lane follows where a feed is carried (R13; log 57). -/
theorem reconcile_none {st : Settings} (ha : (b.programme p).active = some st)
    (hs : selectedSource st (b.programme p).selector = none) :
    ((reconcile p b).programme p).selector = .main ∧
      (carrying (b.programme p).state = true → ((reconcile p b).lane p).source = some st.main) := by
  unfold reconcile
  simp only [ha, hs]
  split
  · have h := changeSelector_source (p := p) (side := .main) (src := st.main) .planned ha rfl
    exact ⟨h.1, fun _ => h.2⟩
  · rename_i h
    exact ⟨by simp [oweState], fun hc => absurd hc h⟩

/-! ### The delay change of a commit -/

/-- The target of a lane and its delay change. -/
def Lane.aim (l : Lane) : Nat × Option DelayChange := (l.target, l.change)

theorem aim_onLane {o : Fin 16} {f : Lane → Lane} (hf : ∀ l, (f l).aim = l.aim) :
    ((b.onLane p f).lane o).aim = (b.lane o).aim := by
  rw [Body.onLane_eq, Body.lane_setLane]
  split
  · rename_i e
    subst e
    exact hf _
  · rfl

theorem refreshSetpoint_aim (p o : Fin 16) (b : Body) : ((refreshSetpoint p b).lane o).aim = (b.lane o).aim := by
  unfold refreshSetpoint
  split <;> exact aim_onLane fun _ => rfl

theorem refreshSetpoint_line (p : Fin 16) (b : Body) : (refreshSetpoint p b).line = b.line := by
  unfold refreshSetpoint
  split <;> rfl

theorem endDelayWrite_aim (p o : Fin 16) (n : Nat) (x : Option DelayOrigin) (b : Body) :
    ((endDelayWrite p n x b).lane o).aim = (b.lane o).aim := by
  unfold endDelayWrite
  split
  · rfl
  · exact aim_onLane fun _ => rfl
  · rfl

/-- No operation of the tag is in flight. -/
def Ended (tag : Byte) (b : Body) : Prop := ∀ d ∈ b.line.deferred, d.complete = none → d.tag ≠ tag

theorem endDelayWrite_ended (p : Fin 16) (n : Nat) (tag : Byte) (b : Body) :
    Ended tag (endDelayWrite p n (some (.operation tag)) b) := fun _ hd hn => (completeTag_unended hd hn).2

theorem endChange_ended {y : DelayChange} {tag : Byte} (x : OpOutcome) (hy : (b.lane p).change = some y)
    (ho : y.origin = some (.operation tag)) : Ended tag (endChange p x b) := by
  unfold endChange
  simp only [hy, ho]
  exact fun _ hd hn => (completeTag_unended hd hn).2

theorem endChange_target (p : Fin 16) (x : OpOutcome) (b : Body) : ((endChange p x b).lane p).target = (b.lane p).target := by
  unfold endChange
  split
  · rfl
  · simp only
    split <;> simp [completeTag_lane]

section
variable {old new : Settings} {w : Option DelayOrigin} {f : Count}

theorem commitDelay_aim_same (h : old.delayTarget = new.delayTarget) :
    ((commitDelay p old new w f b).lane p).aim = (b.lane p).aim := by
  unfold commitDelay
  rw [if_pos h, endDelayWrite_aim]

theorem commitDelay_target_still (h : old.delayTarget ≠ new.delayTarget) (hr : (b.programme p).state ≠ .running) :
    ((commitDelay p old new w f b).lane p).target = new.delayTarget := by
  unfold commitDelay
  rw [if_neg h, if_neg hr]
  refine (congrArg Prod.fst ((endDelayWrite_aim ..).trans (refreshSetpoint_aim ..))).trans ?_
  simp [Lane.aim]

theorem commitDelay_running (h : old.delayTarget ≠ new.delayTarget) (hr : (b.programme p).state = .running) :
    commitDelay p old new w f b = beginChange p new w f b := by
  unfold commitDelay
  rw [if_neg h, if_pos hr]

theorem beginChange_cut (h : new.delayMode = .cut) :
    ((beginChange p new w f b).lane p).aim =
      ((b.lane p).target, some { target := new.delayTarget, mode := new.delayMode, origin := w, phase := .due, boundary := f }) := by
  unfold beginChange
  simp [h, Lane.aim, endChange_target]

theorem beginChange_slew (h : new.delayMode = .slew) :
    ((beginChange p new w f b).lane p).aim = (new.delayTarget,
      some { target := new.delayTarget, mode := new.delayMode, origin := w, phase := .slewing, boundary := f }) := by
  unfold beginChange
  simp only [h, if_true]
  rw [refreshSetpoint_aim]
  simp [Lane.aim]

theorem beginChange_line : (beginChange p new w f b).line = (endChange p .superseded b).line := by
  unfold beginChange
  simp only
  split
  · rw [refreshSetpoint_line]; rfl
  · rfl

theorem commitDelay_ended {tag : Byte}
    (h : old.delayTarget = new.delayTarget ∨ (b.programme p).state ≠ .running) :
    Ended tag (commitDelay p old new (some (.operation tag)) f b) := by
  unfold commitDelay
  split
  · exact endDelayWrite_ended _ _ _ _
  · rename_i hne
    rw [if_neg (h.resolve_left hne)]
    exact endDelayWrite_ended _ _ _ _

end

/-! ### The new set taken up -/

/-- The pending set made the active one, with its gain stage, its layout and its slots (R12). -/
def Body.takeSet (b : Body) (p : Fin 16) (old : Settings) (w : Pending) : Body :=
  let new := w.settings
  let b := b.onProgramme p fun r => { r with active := some new, pending := none }
  let b := b.onGain p fun x => x.commit old new
  let b := if old.layout = new.layout then b else b.onMeter p fun m => m.layoutChanged new.layout
  if old.slots = new.slots then b else reformMap b

section
variable {old : Settings} {w : Pending} {f : Count}

theorem commitSet_eq (hp : (b.programme p).pending = some w) (ha : (b.programme p).active = some old) :
    commitSet p f b = reconcile p (commitDelay p old w.settings w.delay f (b.takeSet p old w)) := by
  unfold commitSet Body.takeSet
  simp only [hp, ha]

theorem takeSet_lane (o : Fin 16) : (b.takeSet p old w).lane o = b.lane o := by
  unfold Body.takeSet
  simp only
  split <;> split <;> rfl

theorem takeSet_line : (b.takeSet p old w).line = b.line := by
  unfold Body.takeSet
  simp only
  split <;> split <;> rfl

theorem takeSet_port (q : Fin 8) : (b.takeSet p old w).port q = b.port q := by
  unfold Body.takeSet
  simp only
  split <;> split <;> rfl

theorem takeSet_programme :
    (b.takeSet p old w).programme p = { b.programme p with active := some w.settings, pending := none } := by
  have h : ((b.onProgramme p fun r => { r with active := some w.settings, pending := none }).programme p) =
    { b.programme p with active := some w.settings, pending := none } := by simp
  unfold Body.takeSet
  simp only
  split <;> split <;> exact h

theorem takeSet_gain (o : Fin 16) :
    (b.takeSet p old w).gain o = if o = p then (b.gain p).commit old w.settings else b.gain o := by
  have h : ∀ e : Body, (e.onGain p fun x => x.commit old w.settings).gain o =
      if o = p then (e.gain p).commit old w.settings else e.gain o := fun e => by
    rw [Body.onGain_eq, Body.gain_setGain]
    exact ite_congr (propext eq_comm) (fun _ => rfl) fun _ => rfl
  unfold Body.takeSet
  simp only
  split <;> split <;> exact h (b.onProgramme p _)

theorem takeSet_meter :
    (b.takeSet p old w).meter p =
      if old.layout = w.settings.layout then b.meter p else (b.meter p).layoutChanged w.settings.layout := by
  have h : ∀ e : Body, (e.onMeter p fun m => m.layoutChanged w.settings.layout).meter p =
      (e.meter p).layoutChanged w.settings.layout := fun e => by simp
  unfold Body.takeSet
  simp only
  by_cases hl : old.layout = w.settings.layout
  · rw [if_pos hl, if_pos hl]
    split <;> rfl
  · rw [if_neg hl, if_neg hl]
    split <;> exact h ((b.onProgramme p _).onGain p _)

end

end Sys2Proof.Machine
end

section
/-! O8: DIRECT_COMMIT. -/

namespace Sys2Proof.Machine

variable {b c t : Body} {p : Fin 16} {old : Settings} {w : Pending} {f : Count}

/-! ### The effects of a commit -/

/-- The blocks after a command agree with `c` on what the effects of a commit speak of. -/
structure AgreeAt (p : Fin 16) (c t : Body) : Prop where
  gain : t.gain p = c.gain p
  place : (t.programme p).place = (c.programme p).place
  feed : (t.lane p).feed = (c.lane p).feed
  aim : (t.lane p).aim = (c.lane p).aim
  ended : ∀ d ∈ t.line.deferred, d.complete = none → d ∈ c.line.deferred

theorem Becomes.agreeAt {s t : State} (h : Becomes s c t) (p : Fin 16) : AgreeAt p c t.body where
  gain := h.gain p
  place := (congrArg Programme.place (h.programme p) :)
  feed := (congrArg Lane.feed (h.lane p) :)
  aim := (congrArg Lane.aim (h.lane p) :)
  ended := fun _ hd hn => h.inFlight hd hn

theorem AgreeAt.of_mark {t : Body} {m : Boundary → Boundary} (h : AgreeAt p (mark m c) t) : AgreeAt p c t :=
  ⟨h.gain, h.place, h.feed, h.aim, h.ended⟩

theorem Ended.complete {tag : Byte} (h : Ended tag b) {d : Deferred} (hd : d ∈ b.line.deferred) (ht : d.tag = tag) :
    d.complete.isSome = true := by
  by_contra hn
  exact h d hd (by simpa using hn) ht

/-- The blocks between the delay change of a commit and its reconciliation. -/
def Body.commitDelayed (b : Body) (p : Fin 16) (old : Settings) (w : Pending) (f : Count) : Body :=
  commitDelay p old w.settings w.delay f (b.takeSet p old w)

theorem commitDelayed_programme :
    (b.commitDelayed p old w f).programme p = { b.programme p with active := some w.settings, pending := none } :=
  (aside_programme (commitDelay_aside ..) p).trans takeSet_programme

theorem commitDelayed_feed : ((b.commitDelayed p old w f).lane p).feed = (b.lane p).feed :=
  (commitDelay_feed ..).trans (congrArg Lane.feed (takeSet_lane p))

theorem commitDelayed_lockedQ (q : Fin 8) : lockedQ (b.commitDelayed p old w f) q = lockedQ b q := by
  rw [Body.commitDelayed, aside_lockedQ (commitDelay_aside ..)]
  unfold lockedQ isLocked
  rw [takeSet_port]

/-- The gain stage of a committed programme (R125, R126). -/
theorem commitSet_gain (hp : (b.programme p).pending = some w) (ha : (b.programme p).active = some old) (o : Fin 16) :
    (commitSet p f b).gain o = if o = p then (b.gain p).commit old w.settings else b.gain o := by
  rw [commitSet_eq hp ha]
  exact (beyond_gain ((reconcile_beyond p _).trans (beyond_of_aside (commitDelay_aside ..))) o).trans (takeSet_gain o)

theorem commitSet_meter (hp : (b.programme p).pending = some w) (ha : (b.programme p).active = some old) :
    (commitSet p f b).meter p =
      if old.layout = w.settings.layout then b.meter p else (b.meter p).layoutChanged w.settings.layout := by
  rw [commitSet_eq hp ha]
  exact (beyond_meter ((reconcile_beyond p _).trans (beyond_of_aside (commitDelay_aside ..))) p).trans takeSet_meter

/-- A delay change that a commit begins stands after the reconciliation, which ends none but in its tail. -/
theorem commitSet_began {n : Nat} {y : DelayChange} (hp : (b.programme p).pending = some w)
    (ha : (b.programme p).active = some old) (h : AgreeAt p (commitSet p f b) t)
    (began : ((b.commitDelayed p old w f).lane p).aim = (n, some y)) (hy : y.phase ≠ .tail) :
    (t.lane p).change = some y ∧ (t.lane p).target = n := by
  have change : ((b.commitDelayed p old w f).lane p).change = some y := congrArg Prod.snd began
  have kept : Switched p (b.commitDelayed p old w f) (commitSet p f b) := by
    rw [commitSet_eq hp ha]
    exact .reconcile p _
  refine ⟨(congrArg Prod.snd h.aim).trans ((kept.change fun z hz => ?_).trans change),
    (congrArg Prod.fst h.aim).trans (kept.target.trans (congrArg Prod.fst began))⟩
  rw [change] at hz
  cases hz
  exact hy

/-- A commit whose settings have a source for the selector in force (R13, R93, R94): the selector stands, the source follows where
the programme carries. -/
theorem commitSet_selected {src : Source} (hp : (b.programme p).pending = some w) (ha : (b.programme p).active = some old)
    (h : AgreeAt p (commitSet p f b) t) (hsel : selectedSource w.settings (b.programme p).selector = some src) :
    let carries := (b.programme p).state = .priming ∨ (b.programme p).state = .running ∨ (b.programme p).state = .starved
    (t.programme p).selector = (b.programme p).selector ∧
      ((b.lane p).source = some src → (t.lane p).source = some src ∧ (t.lane p).marks = (b.lane p).marks) ∧
      (¬ carries → (t.lane p).source = (b.lane p).source) ∧
      (carries → (b.lane p).source ≠ some src →
        (t.lane p).source = some src ∧ (t.programme p).guard = w.settings.switchGuard ∧
          (t.programme p).revertCount = w.settings.revertHold ∧
          ((b.programme p).state = .running → (t.lane p).marks.getLast? =
            some { seq := (b.lane p).writeSeq, port := src.port, slot := src.slot, q := lockedQ b src.port })) := by
  intro carries
  rw [commitSet_eq hp ha] at h
  change AgreeAt p (reconcile p (b.commitDelayed p old w f)) t at h
  have active : ((b.commitDelayed p old w f).programme p).active = some w.settings := by rw [commitDelayed_programme]
  have selector : ((b.commitDelayed p old w f).programme p).selector = (b.programme p).selector := by
    rw [commitDelayed_programme]
  have state : ((b.commitDelayed p old w f).programme p).state = (b.programme p).state := by rw [commitDelayed_programme]
  have source : ((b.commitDelayed p old w f).lane p).source = (b.lane p).source := congrArg Prod.fst commitDelayed_feed
  have hs : selectedSource w.settings ((b.commitDelayed p old w f).programme p).selector = some src := selector ▸ hsel
  have idle := fun hi => reconcile_idle active hs hi
  by_cases hcar : carrying (b.programme p).state = true
  · by_cases hsrc : (b.lane p).source = some src
    · rw [idle (.inr (source.trans hsrc))] at h
      have hf := h.feed.trans commitDelayed_feed
      exact ⟨(congrArg Prod.fst h.place).trans selector,
        fun _ => ⟨(congrArg Prod.fst hf).trans hsrc, congrArg (fun x => x.2.2) hf⟩,
        fun hn => absurd ((carrying_iff _).1 hcar) hn, fun _ hne => absurd hsrc hne⟩
    · rw [reconcile_switch active hs (state ▸ hcar) (source ▸ hsrc)] at h
      have sw := switchSource_switches (src := src) .planned active
      have hpl := h.place.trans sw.place
      refine ⟨(congrArg Prod.fst hpl).trans selector, fun he => absurd he hsrc,
        fun hn => absurd ((carrying_iff _).1 hcar) hn,
        fun _ _ => ⟨(congrArg Prod.fst h.feed).trans sw.source, congrArg (fun x => x.2.1) hpl,
          congrArg (fun x => x.2.2) hpl, fun hr => ?_⟩⟩
      have marks := sw.marks (state.trans hr)
      rw [show ((b.commitDelayed p old w f).lane p).writeSeq = _ from congrArg (fun x => x.2.1) commitDelayed_feed,
        commitDelayed_lockedQ] at marks
      exact (congrArg (fun x => x.2.2.getLast?) h.feed).trans marks
  · rw [idle (.inl (by rw [state]; simpa using hcar))] at h
    have hf := h.feed.trans commitDelayed_feed
    exact ⟨(congrArg Prod.fst h.place).trans selector,
      fun he => ⟨(congrArg Prod.fst hf).trans he, congrArg (fun x => x.2.2) hf⟩,
      fun _ => congrArg Prod.fst hf, fun hn => absurd ((carrying_iff _).2 hn) hcar⟩

/-- The effects of R12, clause by clause: the gain stage by its rule, the delay change as begun or written, which the
reconciliation keeps, and selector and source as the reconciliation makes them. -/
theorem commitSet_effects (hp : (b.programme p).pending = some w) (ha : (b.programme p).active = some old)
    (h : AgreeAt p (commitSet p f b) t) : CommitEffects b p old w f t := by
  have hgain : t.gain p = (b.gain p).commit old w.settings := h.gain.trans ((commitSet_gain hp ha p).trans (if_pos rfl))
  have hc : commitSet p f b = reconcile p (b.commitDelayed p old w f) := commitSet_eq hp ha
  have kept : Switched p (b.commitDelayed p old w f) (commitSet p f b) := hc ▸ .reconcile p _
  have target : (t.lane p).target = ((b.commitDelayed p old w f).lane p).target := (congrArg Prod.fst h.aim).trans kept.target
  have ended : ∀ {tag}, Ended tag (b.commitDelayed p old w f) → Ended tag t := fun he d hd hn =>
    he d (kept.ended d (h.ended d hd hn) hn) hn
  have takeState : ((b.takeSet p old w).programme p).state = (b.programme p).state := by rw [takeSet_programme]
  have takeLane : (b.takeSet p old w).lane p = b.lane p := takeSet_lane p
  unfold CommitEffects
  refine ⟨fun h1 h2 => ?_, fun h1 h2 => ?_, fun h1 h2 => ?_, fun h1 h2 h3 => ?_, fun h1 h2 => ?_, fun h1 => ?_, fun h1 => ?_,
    fun h1 tag ht => ?_, fun h1 => ?_, fun src h1 => commitSet_selected hp ha h h1⟩
  · rw [hgain]
    simp [GainStage.commit, GainStage.give, h1, h2]
  · rw [hgain]
    simp [GainStage.commit, GainStage.give, h1, h2]
  · rw [hgain]
    simp [GainStage.commit, h1, h2]
  · rw [hgain]
    simp [GainStage.commit, GainStage.give, h1, h2, h3]
  · rw [hgain]
    unfold GainStage.commit
    rw [if_pos h1.symm, if_neg fun hx => hx.2 (h2 hx.1)]
  · rw [target, Body.commitDelayed]
    exact (congrArg Prod.fst (commitDelay_aim_same h1)).trans (congrArg Lane.target takeLane)
  · refine ⟨fun hr => ?_, fun hr => ?_⟩
    · rw [target, Body.commitDelayed]
      exact commitDelay_target_still h1 (takeState ▸ hr)
    · have begun : b.commitDelayed p old w f = beginChange p w.settings w.delay f (b.takeSet p old w) :=
        commitDelay_running h1 (takeState.trans hr)
      refine ⟨fun hm => ?_, fun hm => ?_, fun y tag hy ho d hd => (ended ?_).complete hd⟩
      · have aim := beginChange_cut (p := p) (w := w.delay) (f := f) (b := b.takeSet p old w) hm
        rw [← begun, takeLane] at aim
        exact commitSet_began hp ha h aim ChangePhase.noConfusion
      · have aim := beginChange_slew (p := p) (w := w.delay) (f := f) (b := b.takeSet p old w) hm
        rw [← begun] at aim
        exact commitSet_began hp ha h aim ChangePhase.noConfusion
      · rw [begun]
        have told := endChange_ended (b := b.takeSet p old w) .superseded (takeLane ▸ hy) ho
        exact fun d hd => told d (beginChange_line ▸ hd)
  · have told : Ended tag (b.commitDelayed p old w f) := by
      rw [Body.commitDelayed, ht]
      exact commitDelay_ended (h1.imp_right fun hr => takeState ▸ hr)
    exact fun d hd => (ended told).complete hd
  · rw [hc] at h
    have active : ((b.commitDelayed p old w f).programme p).active = some w.settings := by rw [commitDelayed_programme]
    have hr := reconcile_none active (by rw [commitDelayed_programme]; exact h1)
    refine ⟨(congrArg Prod.fst h.place).trans hr.1, fun hs => (congrArg Prod.fst h.feed).trans (hr.2 ?_)⟩
    rw [commitDelayed_programme]
    exact (carrying_iff _).2 hs

/-! ### The slot map -/

theorem slotEntry_piece (b : Body) (n : Nat) (p : Fin 16) (i : Nat) (l : List Nat)
    (hl : (b.programme p).active.bind Settings.slots = some l) (hi : l[i]? = some n) (hfirst : ∀ j, j < i → l[j]? ≠ some n)
    (hbefore : ∀ (o : Fin 16) (m : List Nat), o < p → (b.programme o).active.bind Settings.slots = some m → n ∉ m) :
    slotEntry b n = some (p, i) := by
  have hp : p.val < programmeIds.length := by simp [programmeIds]
  have cut : programmeIds = programmeIds.take p.val ++ p :: programmeIds.drop (p.val + 1) := by
    have at_p : programmeIds[p.val] = p := by simp [programmeIds]
    have h := List.getElem_cons_drop hp
    rw [at_p] at h
    rw [h, List.take_append_drop]
  have hlen := (List.getElem?_eq_some_iff.mp hi).1
  have found : l.findIdx? (· == n) = some i := by
    rw [List.findIdx?_eq_some_iff_getElem]
    refine ⟨hlen, by simpa using (List.getElem?_eq_some_iff.mp hi).2, fun j hj => ?_⟩
    have := hfirst j hj
    rw [List.getElem?_eq_getElem (hj.trans hlen)] at this
    simpa using this
  unfold slotEntry
  rw [List.findSome?_eq_some_iff]
  refine ⟨_, p, _, cut, by simp [hl, found], fun o ho => ?_⟩
  have hlt : o < p := by
    rw [List.mem_take_iff_getElem] at ho
    obtain ⟨j, hj, rfl⟩ := ho
    simp only [programmeIds, List.getElem_finRange, Fin.lt_def, Fin.val_cast]
    omega
  simp only [Option.map_eq_none_iff, List.findIdx?_eq_none_iff, beq_eq_false_iff_ne]
  intro x hx he
  cases hm : (b.programme o).active.bind Settings.slots with
  | none => simp [hm] at hx
  | some m => exact hbefore o m hlt hm (by simpa [hm, he] using hx)

theorem slotEntry_none (b : Body) (n : Nat)
    (h : ∀ (o : Fin 16) (m : List Nat), (b.programme o).active.bind Settings.slots = some m → n ∉ m) :
    slotEntry b n = none := by
  unfold slotEntry
  simp only [List.findSome?_eq_none_iff, Option.map_eq_none_iff, List.findIdx?_eq_none_iff, beq_eq_false_iff_ne]
  intro o _ x hx he
  cases hm : (b.programme o).active.bind Settings.slots with
  | none => simp [hm] at hx
  | some m => exact h o m hm (by simpa [hm, he] using hx)

/-! ### The command -/

theorem directCommit_becomes (s : State) {d : Boundary} (hd : s.body.timing.boundary = some d)
    (hc : p ∉ d.committed) (hp : (s.body.programme p).pending = some w) (hw : w.owner = .direct) :
    ∃ t, exec (.directCommit p) s = .next t ∧
      Becomes s (mark (fun d => { d with committed := p :: d.committed }) (commitSet p d.frame (enterBoundary d s.body))) t := by
  have own : ownedBy s.body .direct p = true := (ownedBy_iff ..).2 ⟨w, hp, hw⟩
  have fresh : d.committed.contains p = false := by simpa using hc
  refine bodyEvent_result ?_
  unfold directCommitWork commitPiece commitDirect
  have own' : ownedBy (enterBoundary d s.body) .direct p = true := own
  simp only [hd, own, own', fresh, Bool.not_false, Bool.and_self, if_true, Bool.false_eq_true, if_false]

/-- Settles O8: the event is the commit of the set in the boundary's body, whose parts the layer above gives one by one. -/
theorem directCommit : Obligations.DirectCommit := by
  unfold Obligations.DirectCommit
  refine ⟨fun s p d w old hd hc hp hw ha => ?_, fun s p d w old hd hc hp hw ha => ?_,
    fun b n => ⟨fun p i l => slotEntry_piece b n p i l, slotEntry_none b n⟩⟩
  all_goals
    obtain ⟨t, ht, hb⟩ := directCommit_becomes s hd hc hp hw
    have hpe : ((enterBoundary d s.body).programme p).pending = some w := hp
    have hae : ((enterBoundary d s.body).programme p).active = some old := ha
  · have fixed := commitSet_fixed p d.frame (enterBoundary d s.body)
    have sets : t.body.sets = s.body.sets.set p (some w.settings, none) := hb.sets.trans (commitSet_sets hpe hae)
    have set (o : Fin 16) : ((t.body.programme o).active, (t.body.programme o).pending) =
        (s.body.sets.set p (some w.settings, none))[o] := by rw [← sets, sets_get]
    have map := commitSet_outputMap (f := d.frame) hpe hae
    refine ⟨t, ht, hb.1, ?_, ?_, ?_, fun o ho => ?_, fun he => hb.outputMap.trans (map.1 he), fun hne n => ?_,
      hb.ports.trans (congrArg Fixed.ports fixed), hb.contacts.trans (congrArg Fixed.contacts fixed),
      hb.scenes.trans (congrArg Fixed.scenes fixed)⟩
    · have timing : (commitSet p d.frame (enterBoundary d s.body)).timing = _ := congrArg Fixed.timing fixed
      rw [hb.timing, mark_timing, timing]
      simp [Body.fixed, hd]
    · simpa using congrArg Prod.fst (set p)
    · simpa using congrArg Prod.snd (set p)
    · have h := set o
      rw [show (s.body.sets.set p (some w.settings, none))[o] = s.body.sets[o] from
        Vector.getElem_set_ne _ _ (fun e => ho (Fin.ext e.symm)), sets_get] at h
      exact ⟨congrArg Prod.fst h, congrArg Prod.snd h⟩
    · rw [hb.outputMap, slotEntry_sets hb.sets]
      exact (congrArg (fun l : List _ => l[n.val]?) (map.2 hne)).trans (by simp [slotEntry_sets (mark_sets ..)])
  · have agree : AgreeAt p (commitSet p d.frame (enterBoundary d s.body)) t.body := (hb.agreeAt p).of_mark
    have effects : CommitEffects (enterBoundary d s.body) p old w d.frame t.body := commitSet_effects hpe hae agree
    refine ⟨t, ht, effects, fun o ho => ?_, fun he => ?_, fun hne => ?_⟩
    · exact (hb.gain o).trans ((commitSet_gain hpe hae o).trans (if_neg ho))
    all_goals
      have meter := hb.meter p
      have now := commitSet_meter (f := d.frame) hpe hae
    · rw [if_pos he] at now
      exact meter.trans (congrArg (fun m : Meter => { m with sceneResetOwed := none }) now)
    · rw [if_neg hne] at now
      have meter := meter.trans (congrArg (fun m : Meter => { m with sceneResetOwed := none }) now)
      refine ⟨(congrArg Meter.filters meter :), (congrArg Meter.squares meter :), (congrArg Meter.sumLL meter :),
        (congrArg Meter.sumRR meter :), (congrArg Meter.sumLR meter :), (congrArg Meter.samples meter :),
        (congrArg Meter.ring meter :), fun hm => ?_⟩
      exact (congrArg Meter.correlation meter :).trans (if_pos hm)

end Sys2Proof.Machine
end

section
/-! What the writing of a held frame leaves beside its own programme: the layer under RELEASE and CLEAR (O28). -/

namespace Sys2Proof.Machine

variable {b c : Body} {p : Fin 16}

/-- Segments and waiting order of a bank. -/
def Bank.plan (x : Bank) : List (Option (Fin 16)) × List (Fin 16) := (x.segments, x.waiting)

/-- The other programmes stand, the segments and the waiting order of every bank and the blocks beyond the store too, and no
operation is in flight anew. -/
structure Beside (p : Fin 16) (b c : Body) : Prop where
  programme : ∀ o, o ≠ p → c.programme o = b.programme o
  plan : ∀ k, (c.bank k).plan = (b.bank k).plan
  beyond : c.beyond = b.beyond
  ended : ∀ d ∈ c.line.deferred, d.complete = none → d ∈ b.line.deferred

theorem Beside.refl (p : Fin 16) (b : Body) : Beside p b b := ⟨fun _ _ => rfl, fun _ => rfl, rfl, fun _ h _ => h⟩

theorem Beside.trans {d : Body} (h : Beside p b c) (h' : Beside p c d) : Beside p b d :=
  ⟨fun o ho => (h'.programme o ho).trans (h.programme o ho), fun k => (h'.plan k).trans (h.plan k),
    h'.beyond.trans h.beyond, fun x hx hn => h.ended x (h'.ended x hx hn) hn⟩

/-- Work of a lane alone, or of its reader, which leaves the programmes. -/
theorem Beside.of_aside (ha : c.aside = b.aside) (hs : ∀ k, (c.bank k).plan = (b.bank k).plan)
    (he : ∀ d ∈ c.line.deferred, d.complete = none → d ∈ b.line.deferred) : Beside p b c :=
  ⟨fun o _ => aside_programme ha o, hs, beyond_of_aside ha, he⟩

theorem Beside.onLane (o : Fin 16) (f : Lane → Lane) : Beside p b (b.onLane o f) :=
  .of_aside rfl (fun _ => rfl) fun _ h _ => h

theorem Beside.onProgramme (f : Programme → Programme) : Beside p b (b.onProgramme p f) :=
  ⟨fun o ho => by rw [Body.onProgramme_eq, Body.programme_setProgramme, if_neg ho.symm], fun _ => rfl, rfl,
    fun _ h _ => h⟩

theorem Beside.onBank (k : Fin 4) {f : Bank → Bank} (hf : ∀ x, (f x).plan = x.plan) : Beside p b (b.onBank k f) := by
  refine .of_aside rfl (fun o => ?_) fun _ h _ => h
  rw [Body.onBank_eq, Body.bank_setBank]
  split
  · rename_i e
    subst e
    exact hf _
  · rfl

theorem Beside.grantBank (k : Fin 4) (b : Body) : Beside p b (grantBank k b) := by
  refine .of_aside (grantBank_aside k b) (fun o => ?_) fun d hd _ => ?_
  · obtain ⟨-, -, hw, hs⟩ := grantBank_bank k b o
    exact Prod.ext hs hw
  · rw [grantBank_only] at hd
    exact hd

theorem Beside.openReads (o : Fin 16) (n : Nat) (b : Body) : Beside p b (openReads o n b) := by
  induction n generalizing b with
  | zero => exact .refl p b
  | succ n ih =>
    unfold Machine.openReads
    simp only
    split
    · split
      · exact (Beside.onLane o _).trans (ih _)
      · exact (Beside.onLane o _).trans (.grantBank _ _)
    · exact .refl p b

theorem Beside.pumpReads (o : Fin 16) (b : Body) : Beside p b (pumpReads o b) := by
  unfold Machine.pumpReads
  simp only
  split
  · exact (Beside.onLane o _).trans (.openReads o 10 _)
  · exact .onLane o _

theorem Beside.refreshSetpoint (o : Fin 16) (b : Body) : Beside p b (refreshSetpoint o b) := by
  unfold Machine.refreshSetpoint
  split <;> exact .onLane o _

theorem Beside.endChange (o : Fin 16) (x : OpOutcome) (b : Body) : Beside p b (endChange o x b) := by
  refine .of_aside (endChange_aside o x b) (fun k => ?_) fun d hd hn => ?_
  · unfold Machine.endChange
    split
    · rfl
    · simp only
      split <;> rfl
  · unfold Machine.endChange at hd
    split at hd
    · exact hd
    · simp only at hd
      split at hd
      · exact (completeTag_unended hd hn).1
      · exact hd
      · exact hd

theorem Beside.endTail (o : Fin 16) (b : Body) : Beside p b (endTail o b) := by
  unfold Machine.endTail
  simp only
  refine (Beside.onLane o fun l => { l with tail := none }).trans ?_
  split
  · split
    · split
      · exact .onLane o _
      · exact .endChange o _ _
    · exact .refl p _
  · exact .refl p _

theorem Beside.settleTail (o : Fin 16) (b : Body) : Beside p b (settleTail o b) := by
  unfold Machine.settleTail
  split
  · exact .endTail o b
  · exact .refl p b

theorem Beside.makeTail (o : Fin 16) (b : Body) : Beside p b (makeTail o b) := .onLane o _

theorem Beside.moveReader (o : Fin 16) (d : Count) (b : Body) : Beside p b (moveReader o d b) := by
  unfold Machine.moveReader
  simp only
  split
  · exact .onLane o _
  · exact (Beside.onLane o _).trans ((Beside.onLane o _).trans (.refreshSetpoint o _))

theorem Beside.countSlip (p : Fin 16) (b : Body) : Beside p b (countSlip p b) := by
  unfold Machine.countSlip markSlip
  exact (Beside.onProgramme _).trans (.onLane p _)

theorem Beside.overrun (p : Fin 16) (b : Body) : Beside p b (overrun p b) := by
  unfold Machine.overrun
  extract_lets b1 l d gone b2
  have h2 : Beside p b1 b2 := by
    show Beside p b1 (if _ then _ else _)
    split
    · exact (Beside.makeTail p b1).trans (.moveReader p d _)
    · exact (Beside.moveReader p d b1).trans (.onLane p _)
  exact (Beside.settleTail p b).trans (h2.trans ((Beside.countSlip p b2).trans (.pumpReads p _)))

theorem Beside.afterWrite (p : Fin 16) (b : Body) : Beside p b (afterWrite p b) := by
  unfold Machine.afterWrite
  split
  · exact .refl p b
  · simp only
    split
    · split
      · exact .overrun p b
      · exact .pumpReads p b
    · split
      · exact .onLane p _
      · exact .refl p b
    · split
      · exact .onLane p _
      · exact .refl p b
    · exact .refl p b

theorem Beside.watchOverload (p : Fin 16) (x : List Sample) (b : Body) : Beside p b (watchOverload p x b) := by
  unfold Machine.watchOverload
  exact (Beside.onLane p _).trans (.onProgramme _)

theorem Beside.enterQueue (p : Fin 16) (x : List Sample) (b : Body) : Beside p b (enterQueue p x b) := by
  unfold Machine.enterQueue
  split
  · exact .refl p b
  · rename_i line _
    simp only
    refine Beside.trans ?_ ((Beside.grantBank line.bank _).trans ((Beside.watchOverload p x _).trans (.afterWrite p _)))
    refine Beside.trans ?_ (.onLane p _)
    exact .onBank line.bank fun _ => rfl

/-- The admission of waiting lanes changes no programme but theirs, and no segment. -/
theorem admitWaiting_beside (k : Fin 4) (n : Nat) (b : Body) :
    (∀ o, o ∉ (b.bank k).waiting → (admitWaiting k n b).programme o = b.programme o) ∧
    (∀ i, ((admitWaiting k n b).bank i).segments = (b.bank i).segments) ∧ (admitWaiting k n b).beyond = b.beyond ∧
    ∀ d ∈ (admitWaiting k n b).line.deferred, d.complete = none → d ∈ b.line.deferred := by
  induction n generalizing b with
  | zero => exact ⟨fun _ _ => rfl, fun _ => rfl, rfl, fun _ h _ => h⟩
  | succ n ih =>
    unfold admitWaiting
    split
    · exact ⟨fun _ _ => rfl, fun _ => rfl, rfl, fun _ h _ => h⟩
    · rename_i q rest hw
      split
      · exact ⟨fun _ _ => rfl, fun _ => rfl, rfl, fun _ h _ => h⟩
      · simp only
        generalize hd : Body.onLane _ q _ = d
        have banks : ∀ i, (d.bank i).segments = (b.bank i).segments := fun i => by
          rw [← hd]
          refine (congrArg Bank.segments (Body.bank_setBank b k i _)).trans ?_
          split
          · rename_i e
            rw [e]
          · rfl
        have waiting : (d.bank k).waiting = rest := by
          rw [← hd]
          exact congrArg Bank.waiting (Body.bank_setBank_same b k _)
        have line : d.line = b.line := by rw [← hd]; rfl
        have same : ∀ o, d.programme o = b.programme o := fun o => by rw [← hd]; rfl
        have step : Beside q d (enterQueue q (((b.lane q).holding).getD []) d) := .enterQueue q _ d
        obtain ⟨h1, h2, h4, h3⟩ := ih (enterQueue q (((b.lane q).holding).getD []) d)
        have left : ((enterQueue q (((b.lane q).holding).getD []) d).bank k).waiting = rest :=
          (congrArg Prod.snd (step.plan k)).trans waiting
        rw [left] at h1
        refine ⟨fun o ho => ?_, fun i => ?_, ?_, fun x hx hn => ?_⟩
        · obtain ⟨hq, hr⟩ := not_or.1 (List.mem_cons.not.1 (hw ▸ ho))
          exact (h1 o hr).trans ((step.programme o hq).trans (same o))
        · exact (h2 i).trans ((congrArg Prod.fst (step.plan i)).trans (banks i))
        · exact h4.trans (step.beyond.trans (by rw [← hd]; rfl))
        · exact line ▸ step.ended x (h3 x hx hn) hn

end Sys2Proof.Machine
end

section
/-! O28: RELEASE and CLEAR. -/

namespace Sys2Proof.Machine

variable {b c : Body} {p : Fin 16}

/-! ### Work on every bank -/

theorem filter_bne (p : Fin 16) (l : List (Fin 16)) : l.filter (· != p) = l.filter (· ≠ p) :=
  List.filter_congr fun x _ => by by_cases h : x = p <;> simp [h]

theorem foldl_onBank_line (f : Fin 4 → Bank → Bank) (l : List (Fin 4)) (b : Body) :
    (l.foldl (fun b k => b.onBank k (f k)) b).line = b.line := by
  induction l generalizing b with
  | nil => rfl
  | cons k l ih => exact (ih _).trans rfl

theorem foldl_onBank_bank (f : Fin 4 → Bank → Bank) (l : List (Fin 4)) (hl : l.Nodup) (b : Body) (o : Fin 4) :
    (l.foldl (fun b k => b.onBank k (f k)) b).bank o = if o ∈ l then f o (b.bank o) else b.bank o := by
  induction l generalizing b with
  | nil => rfl
  | cons k l ih =>
    obtain ⟨hk, hl⟩ := List.nodup_cons.1 hl
    rw [List.foldl_cons, ih hl, Body.onBank_eq, Body.bank_setBank]
    by_cases h : k = o
    · subst h
      simp [hk]
    · simp [h, Ne.symm h]

theorem bankIds_foldl_bank (f : Fin 4 → Bank → Bank) (b : Body) (o : Fin 4) :
    (bankIds.foldl (fun b k => b.onBank k (f k)) b).bank o = f o (b.bank o) :=
  (foldl_onBank_bank f bankIds (List.nodup_finRange 4) b o).trans (if_pos (List.mem_finRange o))

theorem killAccess_bank_eq (p : Fin 16) (r w : Bool) (b : Body) (o : Fin 4) :
    (killAccess p r w b).bank o = { b.bank o with access := (b.bank o).access.map (Access.kill p r w) } :=
  bankIds_foldl_bank (fun _ x => { x with access := x.access.map (Access.kill p r w) }) b o

theorem closeRead_bank_eq (p : Fin 16) (b : Body) (o : Fin 4) :
    (closeRead p b).bank o = { b.bank o with access := (b.bank o).access.map (Access.kill p true false) } :=
  killAccess_bank_eq p true false _ o

theorem discardHeld_bank_eq (p : Fin 16) (b : Body) (o : Fin 4) :
    (discardHeld p b).bank o = { b.bank o with waiting := (b.bank o).waiting.filter (· != p) } :=
  bankIds_foldl_bank (fun _ x => { x with waiting := x.waiting.filter (· != p) }) _ o

theorem killAccess_line (p : Fin 16) (r w : Bool) (b : Body) : (killAccess p r w b).line = b.line :=
  foldl_onBank_line (fun _ x => { x with access := x.access.map (Access.kill p r w) }) bankIds b

theorem closeRead_line (p : Fin 16) (b : Body) : (closeRead p b).line = b.line := (killAccess_line ..).trans rfl

/-! ### The line given back -/

/-- The line's segments, job and frames gone, before the waiting lanes are admitted. -/
def Body.lineFreed (b : Body) (p : Fin 16) (line : Line) : Body :=
  ((discardHeld p (closeRead p (killAccess p true true b))).onBank line.bank fun x =>
    { x with segments := setOwner none line.first line.count x.segments
             jobs := x.jobs.filter fun j => j.programme != p
             queue := x.queue.filter fun f => f.lane != p }).onProgramme p fun r => { r with line := none }

theorem releaseLine_eq {line : Line} (h : (b.programme p).line = some line) :
    releaseLine p b = grantBank line.bank (admitWaiting line.bank 16 (b.lineFreed p line)) := by
  unfold releaseLine Body.lineFreed
  simp only [h]

section
variable {line : Line}

theorem onProgramme_line (b : Body) (p : Fin 16) (f : Programme → Programme) : (b.onProgramme p f).line = b.line := rfl
theorem onBank_line (b : Body) (k : Fin 4) (f : Bank → Bank) : (b.onBank k f).line = b.line := rfl
theorem onProgramme_lane (b : Body) (p o : Fin 16) (f : Programme → Programme) :
    (b.onProgramme p f).lane o = b.lane o := rfl
theorem onBank_lane (b : Body) (k : Fin 4) (o : Fin 16) (f : Bank → Bank) : (b.onBank k f).lane o = b.lane o := rfl

theorem lineFreed_line : (b.lineFreed p line).line = b.line := by
  unfold Body.lineFreed
  rw [onProgramme_line, onBank_line, discardHeld_line, closeRead_line, killAccess_line]

theorem onProgramme_aside (b : Body) (p : Fin 16) (f : Programme → Programme) :
    (b.onProgramme p f).aside = b.aside.onProgramme p f := rfl

theorem lineFreed_aside : (b.lineFreed p line).aside = (b.onProgramme p fun r => { r with line := none }).aside := by
  unfold Body.lineFreed
  rw [onProgramme_aside, onProgramme_aside, onBank_aside, discardHeld_aside, closeRead_aside, killAccess_aside]

theorem lineFreed_programme (o : Fin 16) :
    (b.lineFreed p line).programme o = if p = o then { b.programme p with line := none } else b.programme o := by
  rw [aside_programme lineFreed_aside, Body.onProgramme_eq, Body.programme_setProgramme]

/-- The bank of the line loses what is the programme's; a waiting order loses the programme in every bank. -/
theorem lineFreed_bank (o : Fin 4) :
    let x := (b.lineFreed p line).bank o
    x.waiting = (b.bank o).waiting.filter (· != p) ∧
    x.segments = (if line.bank = o then setOwner none line.first line.count (b.bank o).segments else (b.bank o).segments) ∧
    x.jobs = (if line.bank = o then (b.bank o).jobs.filter (fun j => j.programme != p) else (b.bank o).jobs) ∧
    x.queue = if line.bank = o then (b.bank o).queue.filter (fun f => f.lane != p) else (b.bank o).queue := by
  unfold Body.lineFreed
  have hd := discardHeld_bank_eq p (closeRead p (killAccess p true true b)) o
  rw [closeRead_bank_eq, killAccess_bank_eq] at hd
  generalize discardHeld p (closeRead p (killAccess p true true b)) = d at hd ⊢
  have h : ∀ f g, ((d.onBank line.bank f).onProgramme p g).bank o =
      if line.bank = o then f (d.bank line.bank) else d.bank o := fun f _ => Body.bank_setBank d line.bank o _
  simp only [h]
  split
  · rename_i e
    subst e
    simp [hd]
  · simp [hd]

theorem lineFreed_writeSeq (o : Fin 16) : ((b.lineFreed p line).lane o).writeSeq = (b.lane o).writeSeq := by
  have h : ((closeRead p (killAccess p true true b)).lane o).writeSeq = (b.lane o).writeSeq := by
    rw [closeRead_lane]
    simp only [Body.lane, killAccess_lanes]
    split
    · rename_i e
      subst e
      rfl
    · rfl
  unfold Body.lineFreed
  rw [onProgramme_lane, onBank_lane, discardHeld_lane, ← h]
  split
  · rename_i e
    rw [e]
  · rfl

end

/-- Blocks equal beside lanes, banks and the control line differ in these alone. -/
theorem eq_of_aside (h : c.aside = b.aside) : c = { b with lanes := c.lanes, banks := c.banks, line := c.line } := by
  cases c
  cases b
  simp only [Body.aside, Body.mk.injEq, true_and] at h
  simp only [Body.mk.injEq, true_and]
  exact h

theorem Becomes.onStoreAndLine {s t : State} {f : Body} (h : Becomes s c t) (e : c.aside = f.aside) :
    Becomes s { f with banks := t.body.banks, lanes := t.body.lanes, line := t.body.line } t := by
  refine ⟨h.1, ?_⟩
  have hl := congrArg Body.lanes h.2
  have hn := congrArg Body.line h.2
  simp only [Body.quiet] at hl hn
  rw [h.2, eq_of_aside e]
  simp only [Body.quiet, hl, hn, h.banks]

theorem Becomes.ended {s t : State} (h : Becomes s c t) {d : Deferred} (hd : d ∈ t.body.line.deferred)
    (hc : ∀ d' ∈ c.line.deferred, d' = d → d'.complete.isSome = true) : d.complete.isSome = true := by
  by_contra hn
  exact hn (hc d (h.inFlight hd (by simpa using hn)) rfl)

/-! ### RELEASE -/

theorem releaseRequest_ok (h : (b.programme p).state = .filling ∨ (b.programme p).state = .parked) :
    releaseRequest p.val b = (.answer [enum ProgState.all .defined], releaseProgramme p b) := by
  unfold releaseRequest inStates
  rcases h with h | h <;> simp [h]

/-- The blocks from which RELEASE takes the line. -/
def Body.unfilled (b : Body) (p : Fin 16) : Body :=
  if (b.programme p).state = .filling then completeSubject .allocate p .abandoned [] b else b

theorem unfilled_only : b.unfilled p = { b with line := (b.unfilled p).line } := by
  unfold Body.unfilled
  split <;> rfl

/-- With no other lane waiting, RELEASE frees the line and nobody is admitted. -/
theorem releaseProgramme_eq {line : Line} (hl : (b.programme p).line = some line)
    (hw : (b.bank line.bank).waiting.filter (· ≠ p) = []) :
    releaseProgramme p b =
      (grantBank line.bank ((b.unfilled p).lineFreed p line)).onProgramme p fun r => { r with state := .defined } := by
  have hu : ((b.unfilled p).programme p).line = some line := by rw [unfilled_only]; exact hl
  have nobody : (((b.unfilled p).lineFreed p line).bank line.bank).waiting = [] := by
    rw [(lineFreed_bank line.bank).1, unfilled_only]
    exact (filter_bne p _).trans hw
  have h : releaseProgramme p b = (releaseLine p (b.unfilled p)).onProgramme p fun r => { r with state := .defined } := rfl
  rw [h, releaseLine_eq hu, admitWaiting_nobody nobody]

end Sys2Proof.Machine
end

section
/-! O28, the meter's side of CLEAR (R113, R119, R120): no sweep of the programme is left, and its resets are ended. -/

namespace Sys2Proof.Machine

variable {b c : Body} {p : Fin 16}

/-- No sweep of the programme is in flight or asked for. -/
def Unswept (p : Fin 16) (b : Body) : Prop := (∀ w, b.sweep = some w → w.programme ≠ p) ∧ p ∉ b.sweepQueue

/-- With no sweep of the programme about, the engine takes up requests without it: its meter stands. -/
theorem startSweeps_unswept (n : Nat) (b : Body) (h : Unswept p b) :
    Unswept p (startSweeps n b) ∧ (startSweeps n b).meter p = b.meter p ∧ (startSweeps n b).gains = b.gains ∧
      (startSweeps n b).line = b.line := by
  induction n generalizing b with
  | zero => exact ⟨h, rfl, rfl, rfl⟩
  | succ n ih =>
    unfold startSweeps
    split
    · rename_i q rest hs hq
      have hmem := h.2
      rw [hq] at hmem
      obtain ⟨hne, hr⟩ := not_or.1 (List.mem_cons.not.1 hmem)
      simp only
      split
      · generalize hd : Body.onMeter _ q _ = d
        have unswept : Unswept p d := by
          rw [← hd]
          exact ⟨h.1, hr⟩
        have meter : d.meter p = b.meter p := by
          rw [← hd]
          exact (Body.meter_setMeter _ q p _).trans (if_neg (Ne.symm hne))
        obtain ⟨h1, h2, h3, h4⟩ := ih d unswept
        refine ⟨h1, h2.trans meter, h3.trans ?_, h4.trans ?_⟩ <;> rw [← hd] <;> rfl
      · refine ⟨⟨fun w hw => ?_, hr⟩, rfl, rfl, rfl⟩
        cases hw
        exact fun e => hne e.symm
    · exact ⟨h, rfl, rfl, rfl⟩

theorem dropSweep_unswept (p : Fin 16) (b : Body) :
    Unswept p (dropSweep p b) ∧ (dropSweep p b).meter p = b.meter p ∧ (dropSweep p b).gains = b.gains ∧
      (dropSweep p b).line = b.line := by
  refine startSweeps_unswept (p := p) 17
    { b with sweep := if sweeping b p then none else b.sweep, sweepQueue := b.sweepQueue.filter (· != p) }
    ⟨fun w hw => ?_, by simp⟩
  by_cases h : sweeping b p = true
  · simp [h] at hw
  · simp only [h, Bool.false_eq_true, if_false] at hw
    intro e
    exact h (by simp [sweeping, hw, e])

/-- Completing a list of operations touches the deferred table alone, and ends them all. -/
theorem completeTags_unended (ts : List Byte) (o : OpOutcome) (b : Body) :
    (∀ d ∈ (ts.foldl (fun b t => completeTag t o [] b) b).line.deferred, d.complete = none →
      d ∈ b.line.deferred ∧ d.tag ∉ ts) ∧
    ts.foldl (fun b t => completeTag t o [] b) b =
      { b with line := (ts.foldl (fun b t => completeTag t o [] b) b).line } := by
  induction ts generalizing b with
  | nil => exact ⟨fun d hd _ => ⟨hd, List.not_mem_nil⟩, rfl⟩
  | cons t ts ih =>
    obtain ⟨h1, h2⟩ := ih (completeTag t o [] b)
    refine ⟨fun d hd hn => ?_, h2⟩
    obtain ⟨h3, h4⟩ := h1 d hd hn
    obtain ⟨h5, h6⟩ := completeTag_unended h3 hn
    exact ⟨h5, fun hm => (List.mem_cons.1 hm).elim h6 h4⟩

theorem endResets_parts (p : Fin 16) (due : Option ResetDue) (o : OpOutcome) (b : Body) :
    let c := endResets p due o b
    (c.sweep = b.sweep ∧ c.sweepQueue = b.sweepQueue ∧ c.gains = b.gains) ∧
    { c.meter p with sceneResetOwed := none } = { b.meter p with sceneResetOwed := none } ∧
    ∀ d ∈ c.line.deferred, d.complete = none → d ∈ b.line.deferred ∧ ∀ x, due = some x → d.tag ∉ x.tags := by
  unfold endResets
  split
  · exact ⟨⟨rfl, rfl, rfl⟩, rfl, fun d hd _ => ⟨hd, fun _ h => nomatch h⟩⟩
  · rename_i x
    obtain ⟨h1, h2⟩ := completeTags_unended x.tags o b
    simp only
    generalize x.tags.foldl (fun b t => completeTag t o [] b) b = d at h1 h2 ⊢
    have table : ∀ y ∈ d.line.deferred, y.complete = none →
        y ∈ b.line.deferred ∧ ∀ z, some x = some z → y.tag ∉ z.tags := fun y hy hn =>
      ⟨(h1 y hy hn).1, fun z hz => Option.some.inj hz ▸ (h1 y hy hn).2⟩
    have meter : d.meter p = b.meter p := by rw [h2]; rfl
    have rest : d.sweep = b.sweep ∧ d.sweepQueue = b.sweepQueue ∧ d.gains = b.gains := by
      rw [h2]
      exact ⟨rfl, rfl, rfl⟩
    split
    · refine ⟨rest, ?_, table⟩
      rw [Body.onMeter_eq, Body.meter_setMeter_same, meter]
    · exact ⟨rest, by rw [meter], table⟩

/-- What CLEAR makes of meter and sweeps (R120). -/
theorem clearMeter_parts (p : Fin 16) (b : Body) :
    let c := clearMeter p b
    Unswept p c ∧ c.gains = b.gains ∧ { c.meter p with sceneResetOwed := none } = {} ∧
    ∀ d ∈ c.line.deferred, d.complete = none →
      d ∈ b.line.deferred ∧ ∀ x, (b.meter p).resetDue = some x → d.tag ∉ x.tags := by
  unfold clearMeter
  simp only
  obtain ⟨h1, h2, h3, h4⟩ := dropSweep_unswept p (b.setMeter p { sceneResetOwed := (b.meter p).sceneResetOwed })
  rw [Body.meter_setMeter_same] at h2
  generalize dropSweep p (b.setMeter p { sceneResetOwed := (b.meter p).sceneResetOwed }) = e at h1 h2 h3 h4 ⊢
  obtain ⟨⟨h5, h6, h7⟩, h8, h9⟩ := endResets_parts p (b.meter p).resetDue .abandoned e
  refine ⟨⟨h5 ▸ h1.1, h6 ▸ h1.2⟩, h7.trans h3, h8.trans (by rw [h2]), fun d hd hn => ?_⟩
  obtain ⟨h10, h11⟩ := h9 d hd hn
  exact ⟨h4 ▸ h10, h11⟩

theorem clearMeter_programme (p o : Fin 16) (b : Body) : (clearMeter p b).programme o = b.programme o := by
  have h := congrArg (fun x => x.1) (clearMeter_stored p b)
  exact congrArg (fun x : Vector Programme 16 => x[o]) h

theorem clearMeter_lane (p o : Fin 16) (b : Body) : (clearMeter p b).lane o = b.lane o := by
  have h := congrArg (fun x => x.2.1) (clearMeter_stored p b)
  exact congrArg (fun x : Vector Lane 16 => x[o]) h

theorem clearMeter_bank (p : Fin 16) (k : Fin 4) (b : Body) : (clearMeter p b).bank k = b.bank k := by
  have h := congrArg (fun x => x.2.2) (clearMeter_stored p b)
  exact congrArg (fun x : Vector Bank 4 => x[k]) h

end Sys2Proof.Machine
end

section
/-! O28: RELEASE and CLEAR, part by part. -/

namespace Sys2Proof.Machine

variable {b c : Body} {p : Fin 16}

theorem onProgramme_onProgramme (b : Body) (p : Fin 16) (f g : Programme → Programme) :
    (b.onProgramme p f).onProgramme p g = b.onProgramme p fun r => g (f r) := by
  simp [Body.onProgramme, Body.setProgramme, Body.programme]

/-! ### The line given back, in CLEAR -/

/-- What giving the line back leaves: the programme's record but for the line, the programmes that do not wait, the blocks
beyond the store, and its segments FREE. -/
theorem releaseLine_parts (p : Fin 16) (b : Body) :
    (releaseLine p b).programme p = { b.programme p with line := none } ∧
    (∀ o, o ≠ p → (releaseLine p b).programme o = b.programme o ∨ ∃ k, o ∈ (b.bank k).waiting) ∧
    (releaseLine p b).beyond = b.beyond ∧
    (∀ line, (b.programme p).line = some line → ∀ i, line.first ≤ i → i < line.first + line.count →
      ∀ o, ((releaseLine p b).bank line.bank).segments[i]? = some o → o = none) ∧
    ∀ d ∈ (releaseLine p b).line.deferred, d.complete = none → d ∈ b.line.deferred := by
  cases hl : (b.programme p).line with
  | none =>
    have e : releaseLine p b = b := by
      unfold releaseLine
      simp only [hl]
    rw [e]
    refine ⟨?_, fun o _ => .inl rfl, rfl, fun line h => (nomatch h), fun d hd _ => hd⟩
    rw [← hl]
  | some line =>
    obtain ⟨h1, h2, h3, h4⟩ := admitWaiting_beside line.bank 16 (b.lineFreed p line)
    obtain ⟨hw, hs, -⟩ := lineFreed_bank (b := b) (p := p) (line := line) line.bank
    have away : p ∉ ((b.lineFreed p line).bank line.bank).waiting := by
      rw [hw]
      simp
    have line_eq : (b.lineFreed p line).line = b.line := lineFreed_line
    have beyond : (b.lineFreed p line).beyond = b.beyond :=
      (beyond_of_aside lineFreed_aside).trans (onProgramme_beyond b p _)
    rw [releaseLine_eq hl]
    refine ⟨?_, fun o ho => ?_, ?_, fun l' hl' i hi hj o ho => ?_, fun d hd hn => ?_⟩
    · rw [grantBank_programme, h1 p away, lineFreed_programme, if_pos rfl]
    · rw [grantBank_programme]
      by_cases hm : o ∈ ((b.lineFreed p line).bank line.bank).waiting
      · rw [hw] at hm
        exact .inr ⟨line.bank, (List.mem_filter.1 hm).1⟩
      · rw [h1 o hm, lineFreed_programme, if_neg ho.symm]
        exact .inl rfl
    · exact (beyond_of_aside (grantBank_aside ..)).trans (h3.trans beyond)
    · cases hl'
      rw [(grantBank_bank line.bank _ line.bank).2.2.2, h2, hs, if_pos rfl, setOwner_getElem] at ho
      obtain ⟨y, -, hy⟩ := Option.map_eq_some_iff.1 ho
      rw [if_pos ⟨hi, hj⟩] at hy
      exact hy.symm
    · rw [grantBank_only] at hd
      exact line_eq ▸ h4 d hd hn

/-- The blocks from which CLEAR takes the line: the change and the operations of the programme ended. -/
def Body.operationsEnded (b : Body) (p : Fin 16) : Body :=
  completeSubject .delay p .abandoned [] (completeSubject .allocate p .abandoned [] (abandonChange p b))

theorem operationsEnded_aside : (b.operationsEnded p).aside = b.aside := by simp [Body.operationsEnded]

theorem completeSubject_unended {k : OpKind} {n : Nat} {o : OpOutcome} {data : List Field} {d : Deferred}
    (hd : d ∈ (completeSubject k n o data b).line.deferred) (hn : d.complete = none) : d ∈ b.line.deferred := by
  simp only [completeSubject, Body.onLine, List.mem_map] at hd
  obtain ⟨e, he, rfl⟩ := hd
  split at hn
  · cases hn
  · rename_i h
    rw [if_neg h]
    exact he

theorem operationsEnded_ended {d : Deferred} (hd : d ∈ (b.operationsEnded p).line.deferred) (hn : d.complete = none)
    (hs : d.subject = p.val) : d.kind ≠ .allocate ∧ d.kind ≠ .delay := by
  have none_some : ∀ {x : Prop}, d.complete.isSome = true → x := fun h => by rw [hn] at h; cases h
  exact ⟨fun hk => none_some (completeSubject_ended (completeSubject_unended hd hn) hk hs),
    fun hk => none_some (completeSubject_ended hd hk hs)⟩

theorem operationsEnded_bank (k : Fin 4) : (b.operationsEnded p).bank k = b.bank k := by
  show (abandonChange p b).bank k = _
  unfold abandonChange endChange
  split
  · rfl
  · simp only
    split <;> rfl

/-! ### CLEAR -/

/-- An entry of the map names a programme that holds the slot. -/
theorem slotEntry_some {n : Nat} {o : Fin 16} {i : Nat} (h : slotEntry b n = some (o, i)) :
    ∃ l, (b.programme o).active.bind Settings.slots = some l ∧ n ∈ l := by
  unfold slotEntry at h
  obtain ⟨q, -, hq⟩ := List.exists_of_findSome?_eq_some h
  obtain ⟨j, hj, e⟩ := Option.map_eq_some_iff.1 hq
  cases e
  cases hl : (b.programme o).active.bind Settings.slots with
  | none => simp [hl] at hj
  | some l =>
    obtain ⟨hlt, hx, -⟩ := List.findIdx?_eq_some_iff_getElem.1 hj
    simp only [hl, Option.getD_some] at hlt hx
    exact ⟨l, rfl, (beq_iff_eq.1 hx) ▸ List.getElem_mem hlt⟩

theorem clearProgramme_eq (p : Fin 16) (b : Body) :
    clearProgramme p b = reformMap ((clearMeter p (((releaseLine p (b.operationsEnded p)).onLane p fun l =>
      { sceneDelayOwed := l.sceneDelayOwed }).setGain p {})).onProgramme p fun r =>
        { memorySeen := r.memorySeen, runningMark := r.runningMark }) := rfl

theorem clearRequest_ok (hv : (b.programme p).state ≠ .vacant)
    (hw : ∀ w, (b.programme p).pending = some w → w.owner ≠ .scene) :
    clearRequest p.val b = (.answer [enum ProgState.all .vacant], clearProgramme p b) := by
  have own : ownedBy b .scene p = false := by
    rw [Bool.eq_false_iff]
    intro h
    obtain ⟨w, h1, h2⟩ := (ownedBy_iff ..).1 h
    exact hw w h1 h2
  simp [clearRequest, inStates, hv, own]

/-- What CLEAR leaves, read off its steps. -/
theorem clearProgramme_parts (p : Fin 16) (b : Body) :
    let c := clearProgramme p b
    c.programme p = { memorySeen := (b.programme p).memorySeen, runningMark := (b.programme p).runningMark } ∧
    { c.lane p with sceneDelayOwed := none } = {} ∧ { c.meter p with sceneResetOwed := none } = {} ∧ c.gain p = {} ∧
    Unswept p c ∧
    (∀ n : Fin 64, c.outputMap[n.val]? = some (slotEntry c n.val)) ∧
    (∀ line, (b.programme p).line = some line → ∀ i, line.first ≤ i → i < line.first + line.count →
      ∀ o, (c.bank line.bank).segments[i]? = some o → o = none) ∧
    (∀ d ∈ c.line.deferred, d.complete = none → (d.subject = p.val → d.kind ≠ .allocate ∧ d.kind ≠ .delay) ∧
      ∀ due, (b.meter p).resetDue = some due → d.tag ∉ due.tags) ∧
    ∀ o, o ≠ p → c.programme o = b.programme o ∨ ∃ k, o ∈ (b.bank k).waiting := by
  rw [clearProgramme_eq]
  obtain ⟨r1, r2, r3, r4, r5⟩ := releaseLine_parts p (b.operationsEnded p)
  have same : ∀ o, (b.operationsEnded p).programme o = b.programme o := aside_programme operationsEnded_aside
  have resets : ((releaseLine p (b.operationsEnded p)).meter p).resetDue = (b.meter p).resetDue := by
    rw [beyond_meter (r3.trans (beyond_of_aside operationsEnded_aside))]
  generalize he : ((releaseLine p (b.operationsEnded p)).onLane p fun l =>
    { sceneDelayOwed := l.sceneDelayOwed }).setGain p {} = e
  have eProgramme : ∀ o, e.programme o = (releaseLine p (b.operationsEnded p)).programme o := fun o => by rw [← he]; rfl
  have eBank : ∀ k, e.bank k = (releaseLine p (b.operationsEnded p)).bank k := fun k => by rw [← he]; rfl
  have eLine : e.line = (releaseLine p (b.operationsEnded p)).line := by rw [← he]; rfl
  have eMeter : e.meter p = (releaseLine p (b.operationsEnded p)).meter p := by rw [← he]; rfl
  have eLane : { e.lane p with sceneDelayOwed := none } = ({} : Lane) := by
    rw [← he]
    exact congrArg (fun l : Lane => { l with sceneDelayOwed := none })
      (Body.lane_setLane_same (releaseLine p (b.operationsEnded p)) p _)
  have eGain : e.gain p = {} := by
    rw [← he]
    exact Body.gain_setGain_same _ p _
  obtain ⟨m1, m2, m3, m4⟩ := clearMeter_parts p e
  have programme : ∀ o, ((clearMeter p e).onProgramme p fun r =>
      { memorySeen := r.memorySeen, runningMark := r.runningMark }).programme o =
        if p = o then { memorySeen := (e.programme p).memorySeen, runningMark := (e.programme p).runningMark }
        else e.programme o := fun o => by
    rw [Body.onProgramme_eq, Body.programme_setProgramme, clearMeter_programme, clearMeter_programme]
  refine ⟨?_, ?_, m3, ?_, m1, fun n => ?_, fun line hl i hi hj o ho => ?_, fun d hd hn => ?_, fun o ho => ?_⟩
  · refine (programme p).trans ?_
    rw [if_pos rfl, eProgramme, r1, same]
  · exact (congrArg (fun l : Lane => { l with sceneDelayOwed := none }) (clearMeter_lane p p e)).trans eLane
  · exact (congrArg (fun g : Vector GainStage 16 => g[p]) m2).trans eGain
  · rw [reformMap_getElem, slotEntry_sets (reformMap_sets _)]
  · have hb : (clearMeter p e).bank line.bank = (releaseLine p (b.operationsEnded p)).bank line.bank :=
      (clearMeter_bank p line.bank e).trans (eBank line.bank)
    exact r4 line ((congrArg Programme.line (same p)).trans hl) i hi hj o (hb ▸ ho)
  · obtain ⟨h1, h2⟩ := m4 d hd hn
    exact ⟨operationsEnded_ended (r5 d (eLine ▸ h1) hn) hn, fun due hdue => h2 due (by rw [eMeter, resets, hdue])⟩
  · rcases r2 o ho with h1 | ⟨k, hk⟩
    · exact .inl ((programme o).trans ((if_neg ho.symm).trans ((eProgramme o).trans (h1.trans (same o)))))
    · exact .inr ⟨k, operationsEnded_bank (b := b) (p := p) k ▸ hk⟩

/-! ### RELEASE -/

theorem unfilled_bank (k : Fin 4) : (b.unfilled p).bank k = b.bank k := by
  rw [unfilled_only]
  rfl

theorem unfilled_lane (o : Fin 16) : (b.unfilled p).lane o = b.lane o := by
  rw [unfilled_only]
  rfl

theorem unfilled_aside : (b.unfilled p).aside = b.aside := by
  rw [unfilled_only]
  rfl

theorem grantBank_writeSeq (k : Fin 4) (b : Body) (o : Fin 16) : ((grantBank k b).lane o).writeSeq = (b.lane o).writeSeq :=
  (congrArg Lane.writeSeq (grantBank_lane k b o) :)

theorem onProgramme_bank (b : Body) (p : Fin 16) (k : Fin 4) (f : Programme → Programme) :
    (b.onProgramme p f).bank k = b.bank k := rfl

section
variable {line : Line} (hl : (b.programme p).line = some line) (hw : (b.bank line.bank).waiting.filter (· ≠ p) = [])
include hl hw

theorem releaseProgramme_aside :
    (releaseProgramme p b).aside = (b.onProgramme p fun r => { r with state := .defined, line := none }).aside := by
  rw [releaseProgramme_eq hl hw, onProgramme_aside, grantBank_aside, lineFreed_aside, ← onProgramme_aside,
    onProgramme_onProgramme, onProgramme_aside, unfilled_aside]
  rfl

theorem releaseProgramme_bank (k : Fin 4) :
    let x := (releaseProgramme p b).bank k
    x.segments = (if line.bank = k then setOwner none line.first line.count (b.bank k).segments else (b.bank k).segments) ∧
    x.jobs = (if line.bank = k then (b.bank k).jobs.filter (fun j => j.programme != p) else (b.bank k).jobs) ∧
    x.queue = if line.bank = k then (b.bank k).queue.filter (fun f => f.lane != p) else (b.bank k).queue := by
  rw [releaseProgramme_eq hl hw, onProgramme_bank]
  obtain ⟨hq, hj, -, hs⟩ := grantBank_bank line.bank ((b.unfilled p).lineFreed p line) k
  obtain ⟨-, hs', hj', hq'⟩ := lineFreed_bank (b := b.unfilled p) (p := p) (line := line) k
  rw [unfilled_bank] at hs' hj' hq'
  exact ⟨hs.trans hs', hj.trans hj', hq.trans hq'⟩

theorem releaseProgramme_writeSeq : ((releaseProgramme p b).lane p).writeSeq = (b.lane p).writeSeq := by
  rw [releaseProgramme_eq hl hw, onProgramme_lane, grantBank_writeSeq, lineFreed_writeSeq, unfilled_lane]

theorem releaseProgramme_ended (hf : (b.programme p).state = .filling) {d : Deferred}
    (hd : d ∈ (releaseProgramme p b).line.deferred) (hk : d.kind = .allocate) (hn : d.subject = p.val) :
    d.complete.isSome = true := by
  rw [releaseProgramme_eq hl hw, onProgramme_line, grantBank_only] at hd
  have table : d ∈ (b.unfilled p).line.deferred := lineFreed_line (b := b.unfilled p) (p := p) (line := line) ▸ hd
  rw [Body.unfilled, if_pos hf] at table
  exact completeSubject_ended table hk hn

end

/-- Settles O28: each request is its function on the blocks, whose parts stand above. -/
theorem releaseAndClear : Obligations.ReleaseAndClear := by
  refine ⟨fun s tag p line hfree hst hl hw => ?_, fun s tag p hfree hv hown => ?_⟩
  · obtain ⟨hb, hans⟩ := request_result (tag := tag) (r := .release p.val) hfree rfl (releaseRequest_ok hst)
    obtain ⟨hs, hj, hq⟩ := releaseProgramme_bank hl hw line.bank
    have only := hb.onStoreAndLine (releaseProgramme_aside hl hw)
    refine ⟨_, rfl, hans, only, fun i => ?_, ?_, ?_, fun k hk => ?_,
      fun hf d hd hk hn => ?_, (congrArg Lane.writeSeq (hb.lane p) :).trans (releaseProgramme_writeSeq hl hw)⟩
    · rw [hb.bank, hs, if_pos rfl, setOwner_getElem]
    · rw [hb.bank, hj, if_pos rfl]
      exact List.filter_congr fun j _ => by by_cases h : j.programme = p <;> simp [h]
    · rw [hb.bank, hq, if_pos rfl]
      exact List.filter_congr fun f _ => by by_cases h : f.lane = p <;> simp [h]
    · obtain ⟨hs, hj, hq⟩ := releaseProgramme_bank hl hw k
      rw [if_neg hk.symm] at hs hj hq
      rw [hb.bank]
      exact ⟨hs, hj, hq⟩
    · refine hb.ended hd fun d' hd' e => ?_
      subst e
      exact releaseProgramme_ended hl hw hf hd' hk hn
  · obtain ⟨hb, hans⟩ := request_result (tag := tag) (r := .clear p.val) hfree rfl (clearRequest_ok hv hown)
    obtain ⟨h1, h2, h3, h4, ⟨h5, h6⟩, h7, h8, h9, h10⟩ := clearProgramme_parts p s.body
    have fixed := clearProgramme_fixed p s.body
    refine ⟨_, rfl, hans, hb.1, (hb.programme p).trans (by rw [h1]), (hb.lane p).trans h2, (hb.meter p).trans h3,
      (hb.gain p).trans h4, hb.sweep ▸ h5, hb.sweepQueue ▸ h6, fun n => ?_, fun line hl i hi hj o ho => ?_,
      fun d hd hs hk => ?_, fun due hdue d hd ht => ?_, hb.timing.trans (congrArg Fixed.timing fixed),
      hb.ports.trans (congrArg Fixed.ports fixed), hb.contacts.trans (congrArg Fixed.contacts fixed),
      hb.scenes.trans (congrArg Fixed.scenes fixed), fun o ho => ?_⟩
    · refine ⟨_, (congrArg (fun l : List _ => l[n.val]?) hb.outputMap).trans (h7 n), (slotEntry_sets hb.sets n.val).symm, ?_⟩
      intro i he
      obtain ⟨l, h11, -⟩ := slotEntry_some he
      rw [h1] at h11
      cases h11
    · exact h8 line hl i hi hj o (by rwa [hb.bank] at ho)
    · refine hb.ended hd fun d' hd' e => ?_
      subst e
      by_contra hn
      obtain ⟨h11, -⟩ := h9 d' hd' (by simpa using hn)
      exact hk.elim (h11 hs).1 (h11 hs).2
    · refine hb.ended hd fun d' hd' e => ?_
      subst e
      by_contra hn
      exact (h9 d' hd' (by simpa using hn)).2 due hdue ht
    · exact (h10 o ho).imp (fun h => (hb.programme o).trans (by rw [h])) id

end Sys2Proof.Machine
end

section
/-! START and PARK as requests: the first two parts of O27. -/

namespace Sys2Proof.Machine

variable {b c : Body} {p : Fin 16}

/-! ### START -/

theorem startRequest_ok (h : (b.programme p).state = .parked) :
    startRequest p.val b = (.answer [enum ProgState.all .priming], startProgramme p b) := by
  simp [startRequest, inStates, h]

theorem onLane_onLane (b : Body) (p : Fin 16) (f g : Lane → Lane) :
    (b.onLane p f).onLane p g = b.onLane p fun l => g (f l) := by
  simp [Body.onLane, Body.setLane, Body.lane]

/-- The setpoint of a PRIMING lane follows its source's tracker (R71). -/
theorem refreshSetpoint_priming {src : Source} {line : Line} (hs : (b.programme p).state = .priming)
    (hl : (b.programme p).line = some line) (hsrc : (b.lane p).source = some src) :
    let sp := (b.port src.port).tracker.q.map fun q => setpointFor (b.lane p).target q line
    refreshSetpoint p b = b.onLane p fun l =>
      { l with setpoint := sp.map Prod.fst, delayLimited := (sp.map Prod.snd).getD false } := by
  unfold refreshSetpoint setpointQ
  simp only [hs, hl, hsrc, Option.bind_some]
  cases (b.port src.port).tracker.q <;> rfl

theorem startProgramme_eq {st : Settings} {line : Line} (ha : (b.programme p).active = some st)
    (hl : (b.programme p).line = some line) :
    let sp := (b.port st.main.port).tracker.q.map fun q => setpointFor (b.lane p).target q line
    startProgramme p b = (b.onProgramme p fun r =>
      { r with state := .priming, selector := .main, guard := 0, revertCount := st.revertHold, requested := none }).onLane p
        fun l => { l with source := some st.main, readSeq := l.writeSeq, historyStart := l.writeSeq
                          overloadRun := List.replicate 8 0, setpoint := sp.map Prod.fst
                          delayLimited := (sp.map Prod.snd).getD false } := by
  unfold startProgramme clearOverloadRuns
  simp only [ha]
  generalize hd : Body.onProgramme b p _ = d
  rw [onLane_onLane]
  have programme : d.programme p = { b.programme p with
      selector := .main, guard := 0, revertCount := st.revertHold, requested := none, state := .priming } := by
    rw [← hd]
    exact Body.programme_setProgramme_same ..
  have lane : d.lane p = b.lane p := by
    rw [← hd]
    rfl
  have port : d.port st.main.port = b.port st.main.port := by
    rw [← hd]
    rfl
  rw [refreshSetpoint_priming (src := st.main) (line := line), onLane_onLane]
  · simp only [Body.onLane_eq, Body.lane_setLane_same, Body.port_setLane, lane, port]
  · exact congrArg Programme.state programme
  · exact (congrArg Programme.line programme).trans hl
  · rw [Body.onLane_eq, Body.lane_setLane_same]

/-! ### PARK -/

theorem parkRequest_ok (h : carrying (b.programme p).state = true) :
    parkRequest p.val b = (.answer [enum ProgState.all .parked], parkProgramme p b) := by
  simp [parkRequest, inStates, h]

/-- A lane as PARK leaves it, but for a report owed to a scene. -/
def Lane.parked (l : Lane) : Lane :=
  { l with readSeq := l.writeSeq, historyStart := l.writeSeq, fadeIn := 0, tail := none, window := [], marks := []
           ratio := none, increment := 524288, setpoint := none, delayLimited := false, holding := none
           readRequest := none, overloadRun := List.replicate 8 0, change := none
           target := (l.change.map DelayChange.target).getD l.target
           overrideFast := if l.change = none then l.overrideFast else false }

/-- The blocks in which PARK has ended the lane's work and nothing else yet. -/
def Body.laneStopped (b : Body) (p : Fin 16) : Body := discardHeld p (closeRead p (abandonChange p b))

theorem parkProgramme_eq (p : Fin 16) (b : Body) :
    parkProgramme p b = ((leaveRunning p ((b.laneStopped p).onLane p fun l =>
      { l with readSeq := l.writeSeq, historyStart := l.writeSeq, fadeIn := 0, tail := none, window := [], marks := []
               ratio := none, increment := 524288, setpoint := none, delayLimited := false
               overloadRun := List.replicate 8 0 })).onMeter p fun m => { m with disturbed := true }).onProgramme p fun r =>
        { r with state := .parked, requested := none } := rfl

theorem onMeter_lane (b : Body) (p o : Fin 16) (f : Meter → Meter) : (b.onMeter p f).lane o = b.lane o := rfl
theorem onMeter_bank (b : Body) (p : Fin 16) (k : Fin 4) (f : Meter → Meter) : (b.onMeter p f).bank k = b.bank k := rfl
theorem onMeter_line (b : Body) (p : Fin 16) (f : Meter → Meter) : (b.onMeter p f).line = b.line := rfl
theorem leaveRunning_lane (b : Body) (p o : Fin 16) : (leaveRunning p b).lane o = b.lane o := rfl
theorem leaveRunning_bank (b : Body) (p : Fin 16) (k : Fin 4) : (leaveRunning p b).bank k = b.bank k := rfl
theorem leaveRunning_line (b : Body) (p : Fin 16) : (leaveRunning p b).line = b.line := rfl
theorem onLane_bank (b : Body) (p : Fin 16) (k : Fin 4) (f : Lane → Lane) : (b.onLane p f).bank k = b.bank k := rfl
theorem onLane_line (b : Body) (p : Fin 16) (f : Lane → Lane) : (b.onLane p f).line = b.line := rfl

theorem laneStopped_aside : (b.laneStopped p).aside = b.aside := by
  unfold Body.laneStopped
  rw [discardHeld_aside, closeRead_aside, abandonChange_aside]

/-- What is left of a lane whose change is abandoned, but for a report owed to a scene. -/
theorem abandonChange_lane (p o : Fin 16) (b : Body) :
    { (abandonChange p b).lane o with sceneDelayOwed := none } =
      { (if p = o then
          { b.lane p with change := none, target := ((b.lane p).change.map DelayChange.target).getD (b.lane p).target
                          overrideFast := if (b.lane p).change = none then (b.lane p).overrideFast else false }
        else b.lane o) with sceneDelayOwed := none } := by
  unfold abandonChange endChange
  by_cases ho : p = o
  · subst ho
    rw [if_pos rfl, Body.onLane_eq, Body.lane_setLane_same]
    simp only
    cases hc : (b.lane p).change with
    | none => simp
    | some x =>
      simp only
      cases hx : x.origin with
      | none => simp
      | some y => cases y <;> simp [completeTag_lane]
  · rw [if_neg ho]
    split
    · rw [Body.onLane_eq, Body.lane_setLane, if_neg ho]
    · simp only
      split <;> simp [completeTag_lane, ho]

theorem laneStopped_lane (p o : Fin 16) (b : Body) :
    (b.laneStopped p).lane o = if p = o then { (abandonChange p b).lane p with readRequest := none, holding := none }
      else (abandonChange p b).lane o := by
  unfold Body.laneStopped
  rw [discardHeld_lane, closeRead_lane, closeRead_lane, if_pos rfl]
  split <;> rfl

theorem parkProgramme_lane (p o : Fin 16) (b : Body) :
    { (parkProgramme p b).lane o with sceneDelayOwed := none } =
      { (if p = o then (b.lane p).parked else b.lane o) with sceneDelayOwed := none } := by
  have h := abandonChange_lane p o b
  rw [parkProgramme_eq, onProgramme_lane, onMeter_lane, leaveRunning_lane, Body.onLane_eq, Body.lane_setLane,
    laneStopped_lane, laneStopped_lane, if_pos rfl]
  by_cases ho : p = o
  · subst ho
    simp only [if_true] at h ⊢
    exact congrArg (fun l : Lane =>
      { l with readSeq := l.writeSeq, historyStart := l.writeSeq, fadeIn := 0, tail := none, window := [], marks := []
               ratio := none, increment := 524288, setpoint := none, delayLimited := false, holding := none
               readRequest := none, overloadRun := List.replicate 8 0 }) h
  · simp only [if_neg ho] at h ⊢
    exact h

/-- The control line but for what it owes. -/
def LineBlock.still (l : LineBlock) : LineBlock :=
  { l with deferred := l.deferred.filter fun d => d.complete.isNone
           completions := [], breakOwed := none, badFrameOwed := none, overrunOwed := none }

/-- The deferred table without the DELAY operation of the lane's change. -/
def Body.tableWithoutChange (b : Body) (p : Fin 16) : List Deferred :=
  b.line.deferred.filter fun d => (b.lane p).change.bind DelayChange.origin ≠ some (.operation d.tag)

/-- The DELAY operation of an abandoned change is no longer in flight. -/
theorem abandonChange_still (p : Fin 16) (b : Body) :
    (abandonChange p b).line.still = ({ b.line with deferred := b.tableWithoutChange p } : LineBlock).still := by
  have nothing : (b.lane p).change.bind DelayChange.origin = none ∨
      (b.lane p).change.bind DelayChange.origin = some .scene →
      b.line.still = ({ b.line with deferred := b.tableWithoutChange p } : LineBlock).still := by
    intro h
    have all : b.tableWithoutChange p = b.line.deferred :=
      List.filter_eq_self.2 fun d _ => by rcases h with h | h <;> simp [h]
    rw [all]
  unfold abandonChange endChange
  rw [Body.onLane_eq, Body.lane_setLane_same]
  simp only
  cases hc : (b.lane p).change with
  | none => exact nothing (.inl (by simp [hc]))
  | some x =>
    simp only
    cases hx : x.origin with
    | none => exact nothing (.inl (by simp [hc, hx]))
    | some y =>
      cases y with
      | scene => exact nothing (.inr (by simp [hc, hx]))
      | operation tag =>
        have h := completeTag_inFlight tag .abandoned [] b
        have table : (b.line.deferred.filter fun d => d.complete.isNone && d.tag != tag) =
            (b.tableWithoutChange p).filter fun d => d.complete.isNone := by
          rw [Body.tableWithoutChange, List.filter_filter, hc]
          exact List.filter_congr fun d _ => by
            by_cases ht : d.tag = tag
            · simp [hx, ht]
            · simp [hx, ht, Ne.symm ht]
        exact congrArg (fun l : List Deferred => ({ b.line with
          deferred := l, completions := [], breakOwed := none, badFrameOwed := none, overrunOwed := none } : LineBlock))
          (h.trans table)

theorem parkProgramme_line (p : Fin 16) (b : Body) : (parkProgramme p b).line = (abandonChange p b).line := by
  rw [parkProgramme_eq, onProgramme_line, onMeter_line, leaveRunning_line, onLane_line, Body.laneStopped, discardHeld_line,
    closeRead_line]

theorem onMeter_aside (b : Body) (p : Fin 16) (f : Meter → Meter) : (b.onMeter p f).aside = b.aside.onMeter p f := rfl
theorem onGain_aside (b : Body) (p : Fin 16) (f : GainStage → GainStage) : (b.onGain p f).aside = b.aside.onGain p f := rfl

theorem onMeter_onMeter (b : Body) (p : Fin 16) (f g : Meter → Meter) :
    (b.onMeter p f).onMeter p g = b.onMeter p fun m => g (f m) := by
  simp [Body.onMeter, Body.setMeter, Body.meter]

/-- The blocks as PARK calms them: programme, lane, gain stage and meter. -/
def Body.calmed (b : Body) (p : Fin 16) : Body :=
  (((b.onProgramme p fun r => { r with state := .parked, requested := none }).setLane p (b.lane p).parked).onGain p fun x =>
    { x.takeBack b.timing.sampleCounter with gr := 0 }).onMeter p fun m =>
    { m.disturbClosed b.timing.sampleCounter with disturbed := true }

theorem parkProgramme_aside (p : Fin 16) (b : Body) : (parkProgramme p b).aside = (b.calmed p).aside := by
  have timing : (b.laneStopped p).timing = b.timing := (congrArg Body.timing (laneStopped_aside (b := b) (p := p)) :)
  rw [parkProgramme_eq]
  unfold leaveRunning Body.calmed
  rw [onMeter_onMeter, onProgramme_aside, onMeter_aside, onGain_aside, onLane_aside, laneStopped_aside]
  simp only [Body.onGain_eq, Body.onLane_eq, Body.timing_setLane, timing]
  rfl

theorem parkProgramme_quiet (p : Fin 16) (b : Body) :
    (parkProgramme p b).quiet = ({ b.calmed p with
      banks := (parkProgramme p b).banks, line := { b.line with deferred := b.tableWithoutChange p } } : Body).quiet := by
  have lanes : (parkProgramme p b).lanes.map (fun l => { l with sceneDelayOwed := none }) =
      (b.calmed p).lanes.map fun l => { l with sceneDelayOwed := none } := by
    refine Vector.ext fun i hi => ?_
    rw [Vector.getElem_map, Vector.getElem_map]
    refine (parkProgramme_lane p ⟨i, hi⟩ b).trans ?_
    have h : (b.calmed p).lane ⟨i, hi⟩ = if p = ⟨i, hi⟩ then (b.lane p).parked else b.lane ⟨i, hi⟩ :=
      Body.lane_setLane (b.onProgramme p _) p ⟨i, hi⟩ _
    rw [← h]
    rfl
  have still := abandonChange_still p b
  rw [← parkProgramme_line] at still
  conv_lhs => rw [eq_of_aside (parkProgramme_aside p b)]
  simp only [Body.quiet, lanes]
  exact congrArg (fun l : LineBlock => ({ (b.calmed p).quiet with banks := (parkProgramme p b).banks, line := l } : Body)) still

theorem parkProgramme_bank (p : Fin 16) (b : Body) (k : Fin 4) :
    let x := (parkProgramme p b).bank k
    x.segments = (b.bank k).segments ∧ x.queue = (b.bank k).queue ∧ x.jobs = (b.bank k).jobs ∧
      x.waiting = (b.bank k).waiting.filter (· ≠ p) := by
  have abandoned : (abandonChange p b).bank k = b.bank k := operationsEnded_bank (b := b) (p := p) k
  rw [parkProgramme_eq, onProgramme_bank, onMeter_bank, leaveRunning_bank, onLane_bank, Body.laneStopped, discardHeld_bank_eq, closeRead_bank_eq, abandoned]
  exact ⟨rfl, rfl, rfl, filter_bne p _⟩

end Sys2Proof.Machine
end

section
/-! The step boundary as one programme's meter sees the work of the others (R109 to R117): a layer under the third part of
O27. -/

namespace Sys2Proof.Machine

variable {b c : Body} {p q : Fin 16}

/-! ### One programme's turn -/

theorem programmeIds_cut (p : Fin 16) :
    ∃ l r, programmeIds = l ++ p :: r ∧ p ∉ l ∧ p ∉ r := by
  obtain ⟨l, r, h⟩ := List.append_of_mem (List.mem_finRange p)
  have hn : (l ++ p :: r).Nodup := h ▸ List.nodup_finRange 16
  obtain ⟨-, hr, hd⟩ := List.nodup_append.1 hn
  exact ⟨l, r, h, fun hm => hd p hm p List.mem_cons_self rfl, (List.nodup_cons.1 hr).1⟩

/-- Work done programme by programme, seen from one of them: before its turn and after it only the others work. -/
theorem eachProgramme_turn (p : Fin 16) (f : Fin 16 → Body → Body) (R : Body → Body → Prop) (hrefl : ∀ b, R b b)
    (htrans : ∀ a b c, R a b → R b c → R a c) (hf : ∀ q, q ≠ p → ∀ b, R b (f q b)) (b : Body) :
    ∃ c, R b c ∧ R (f p c) (b.eachProgramme f) := by
  have others : ∀ (l : List (Fin 16)) (b : Body), p ∉ l → R b (l.foldl (fun b q => f q b) b) := by
    intro l
    induction l with
    | nil => exact fun b _ => hrefl b
    | cons q l ih =>
      intro b hp
      obtain ⟨hq, hl⟩ := not_or.1 (List.mem_cons.not.1 hp)
      exact htrans _ _ _ (hf q (Ne.symm hq) b) (ih _ hl)
  obtain ⟨l, r, h, hl, hr⟩ := programmeIds_cut p
  refine ⟨l.foldl (fun b q => f q b) b, others l b hl, ?_⟩
  have e : b.eachProgramme f = r.foldl (fun b q => f q b) (f p (l.foldl (fun b q => f q b) b)) := by
    unfold Body.eachProgramme
    rw [h, List.foldl_append, List.foldl_cons]
  rw [e]
  exact others r _ hr

/-! ### A meter while the others work -/

/-- Blocks wait only while the sweep in flight is the programme's. -/
def PendingSwept (p : Fin 16) (b : Body) : Prop := (b.meter p).pendingBlocks = [] ∨ sweeping b p = true

/-- A meter but for the loudness integrated. -/
def Meter.still (m : Meter) : Meter := { m with integrated := none }

/-- A meter but for its integration: of the newest step closed the house sample alone. -/
def Meter.frame (m : Meter) : Meter :=
  { m with integrated := none, histogram := [], admitted := 0, pendingBlocks := [], integState := .idle
           closed := m.closed.map fun x => { sample := x.sample } }

theorem admitBlock_frame (m : Meter) (k : Nat) : (m.admitBlock k).frame = m.frame := by
  unfold Meter.admitBlock Meter.frame
  simp only
  split
  · cases m.closed <;> rfl
  · split
    · cases m.closed <;> rfl
    · rfl

theorem admitPending_frame (m : Meter) : m.admitPending.frame = m.frame := by
  have h : ∀ (l : List Nat) (m : Meter), (l.foldl Meter.admitBlock m).frame = m.frame := by
    intro l
    induction l with
    | nil => exact fun _ => rfl
    | cons k l ih => exact fun m => (ih _).trans (admitBlock_frame m k)
  exact (show m.admitPending.frame = (m.pendingBlocks.foldl Meter.admitBlock m).frame from rfl).trans (h _ m)

/-- Work that leaves a programme's gain stage and meter, but for the loudness integrated, and for the integration where the
blocks that wait are not in the care of a sweep. -/
structure Aloof (p : Fin 16) (b c : Body) : Prop where
  gain : c.gain p = b.gain p
  frame : (c.meter p).frame = (b.meter p).frame
  still : PendingSwept p b → (c.meter p).still = (b.meter p).still ∧ PendingSwept p c

theorem Aloof.refl (p : Fin 16) (b : Body) : Aloof p b b := ⟨rfl, rfl, fun h => ⟨rfl, h⟩⟩

theorem Aloof.trans {d : Body} (h : Aloof p b c) (h' : Aloof p c d) : Aloof p b d :=
  ⟨h'.gain.trans h.gain, h'.frame.trans h.frame, fun hs =>
    ⟨(h'.still (h.still hs).2).1.trans (h.still hs).1, (h'.still (h.still hs).2).2⟩⟩

theorem Aloof.of_eq (hg : c.gain p = b.gain p) (hm : c.meter p = b.meter p)
    (hs : sweeping b p = true → sweeping c p = true) : Aloof p b c :=
  ⟨hg, congrArg Meter.frame hm, fun h => ⟨congrArg Meter.still hm, h.imp (fun e => by rw [hm, e]) hs⟩⟩

theorem Aloof.onMeter (hq : q ≠ p) (f : Meter → Meter) : Aloof p b (b.onMeter q f) :=
  .of_eq rfl (by rw [Body.onMeter_eq, Body.meter_setMeter, if_neg hq]) id

theorem Aloof.onGain (hq : q ≠ p) (f : GainStage → GainStage) : Aloof p b (b.onGain q f) :=
  .of_eq (by rw [Body.onGain_eq, Body.gain_setGain, if_neg hq]) rfl id

theorem not_sweeping (h : b.sweep = none) (p : Fin 16) : sweeping b p = false := by simp [sweeping, h]

theorem Aloof.startSweeps (n : Nat) (b : Body) : Aloof p b (startSweeps n b) := by
  induction n generalizing b with
  | zero => exact .refl p b
  | succ n ih =>
    unfold Machine.startSweeps
    split
    · rename_i q rest hs hq
      have idle : PendingSwept p b → (b.meter p).pendingBlocks = [] := fun h => h.resolve_right (by simp [not_sweeping hs])
      simp only
      split
      · refine Aloof.trans ?_ (ih _)
        generalize hd : Body.onMeter _ q _ = d
        have gain : d.gain p = b.gain p := by rw [← hd]; rfl
        by_cases hqp : q = p
        · subst hqp
          have meter : d.meter q = { b.meter q with integrated := none }.admitPending := by
            rw [← hd]
            exact Body.meter_setMeter_same ..
          refine ⟨gain, by rw [meter, admitPending_frame]; rfl, fun h => ?_⟩
          have e : d.meter q = { b.meter q with integrated := none } := by
            rw [meter]
            simp [Meter.admitPending, idle h]
          exact ⟨by rw [e]; rfl, .inl (by rw [e]; exact idle h)⟩
        · have meter : d.meter p = b.meter p := by
            rw [← hd]
            exact (Body.meter_setMeter _ q p _).trans (if_neg hqp)
          exact ⟨gain, by rw [meter], fun h => ⟨by rw [meter], .inl (by rw [meter]; exact idle h)⟩⟩
      · exact ⟨rfl, rfl, fun h => ⟨rfl, .inl (idle h)⟩⟩
    · exact .refl p b

theorem Aloof.nextSweep (b : Body) : Aloof p b (nextSweep b) := .startSweeps 17 b

theorem Aloof.raiseRequest (o : Fin 16) (b : Body) : Aloof p b (raiseRequest o b) := by
  unfold Machine.raiseRequest
  split
  · exact .refl p b
  · exact .of_eq rfl rfl id

theorem sweeping_iff : sweeping b p = true ↔ ∃ w, b.sweep = some w ∧ w.programme = p := by
  simp [sweeping, Option.any_eq_true]

/-- The sweep of another programme may go. -/
theorem Aloof.endSweep (hq : q ≠ p) (h : sweeping b q = true) (l : List (Fin 16)) :
    Aloof p b { b with sweep := none, sweepQueue := l } := by
  refine .of_eq rfl rfl fun hp => ?_
  obtain ⟨w, hw, e⟩ := sweeping_iff.1 h
  obtain ⟨w', hw', e'⟩ := sweeping_iff.1 hp
  cases hw.symm.trans hw'
  exact absurd (e.symm.trans e') hq

theorem Aloof.dropSweep (hq : q ≠ p) (b : Body) : Aloof p b (dropSweep q b) := by
  unfold Machine.dropSweep
  refine Aloof.trans ?_ (.nextSweep _)
  by_cases h : sweeping b q = true
  · simp only [h, if_true]
    exact .endSweep hq h _
  · simp only [h, Bool.false_eq_true, if_false]
    exact .of_eq rfl rfl id

theorem Aloof.endResets (hq : q ≠ p) (due : Option ResetDue) (o : OpOutcome) (b : Body) :
    Aloof p b (endResets q due o b) := by
  unfold Machine.endResets
  split
  · exact .refl p b
  · rename_i x
    simp only
    have tags : Aloof p b (x.tags.foldl (fun b t => completeTag t o [] b) b) := by
      rw [(completeTags_unended x.tags o b).2]
      exact .of_eq rfl rfl id
    split
    · exact tags.trans (.onMeter hq _)
    · exact tags

theorem Aloof.applyReset (hq : q ≠ p) (b : Body) : Aloof p b (applyReset q b) := by
  unfold Machine.applyReset
  simp only
  split
  · exact .refl p b
  · exact (Aloof.onMeter hq _).trans ((Aloof.dropSweep hq _).trans (.endResets hq _ _ _))

theorem Aloof.riderDecision (hq : q ≠ p) (short : Option Int) (d : Bool) (b : Body) :
    Aloof p b (riderDecision q short d b) := by
  unfold Machine.riderDecision
  split
  · exact .refl p b
  · split
    · split
      · exact .onGain hq _
      · exact .onGain hq _
    · exact .refl p b

theorem Aloof.drawStepEnergy (l : Layout) (m : Meter) (b : Body) : Aloof p b (drawStepEnergy l m b).2 := by
  unfold Machine.drawStepEnergy
  split
  · exact .of_eq rfl rfl id
  · exact .refl p b

theorem Aloof.closeStep (hq : q ≠ p) (l : Layout) (b : Body) : Aloof p b (closeStep q l b) := by
  unfold Machine.closeStep
  exact (Aloof.drawStepEnergy l _ b).trans ((Aloof.onMeter hq _).trans (.riderDecision hq _ _ _))

theorem Aloof.offerBlock (hq : q ≠ p) (k : Nat) (b : Body) : Aloof p b (offerBlock q k b) := by
  unfold Machine.offerBlock
  split
  · exact (Aloof.onMeter hq _).trans ((Aloof.raiseRequest q _).trans (.nextSweep _))
  · rename_i h
    have swept : sweeping b q = true := by simpa using h
    split
    · exact (Aloof.onMeter hq _).trans (.raiseRequest q _)
    · exact (Aloof.endSweep hq swept b.sweepQueue).trans
        ((Aloof.onMeter hq _).trans ((Aloof.raiseRequest q _).trans (.nextSweep _)))

/-- The work of a step boundary in another programme. -/
theorem Aloof.meterBoundary (hq : q ≠ p) (b : Body) : Aloof p b (meterBoundary q b) := by
  unfold Machine.meterBoundary
  split
  · exact .refl p b
  · rename_i st _
    split
    · simp only
      have closed := (Aloof.closeStep hq st.layout b).trans (.applyReset hq _)
      split
      · exact closed.trans ((Aloof.onMeter hq _).trans (.offerBlock hq _ _))
      · exact closed.trans (.onMeter hq _)
    · exact (Aloof.onMeter hq _).trans (.applyReset hq _)

end Sys2Proof.Machine
end

section
/-! The step boundary of one programme, and what a PARK at the same house sample takes back of it (R105, R110, R111, R129; logs
44, 65): the layer under the third part of O27. -/

namespace Sys2Proof.Machine

variable {b c : Body} {p : Fin 16} {now : Count}

/-! ### Taking back a block -/

/-- What of a meter a taking back reads and changes. -/
def Meter.tally (m : Meter) : Meter :=
  { ring := m.ring, closed := m.closed, histogram := m.histogram, admitted := m.admitted, pendingBlocks := m.pendingBlocks
    integState := m.integState }

/-- Histogram, count, pending blocks and integration state. -/
def Meter.counts (m : Meter) : List Nat × Nat × List Nat × IntegState :=
  (m.histogram, m.admitted, m.pendingBlocks, m.integState)

/-- The newest step marked disturbed, and no longer the newest closed. -/
def Meter.reopened (m : Meter) : Meter :=
  { m with ring := m.ring.modify (m.ring.length - 1) fun e => { e with disturbed := true }, closed := none }

theorem disturbClosed_away {m : Meter} (h : m.closed.map ClosedStep.sample ≠ some now) : m.disturbClosed now = m := by
  unfold Meter.disturbClosed
  cases hc : m.closed with
  | none => rfl
  | some x => exact if_neg fun e => h (by simp [hc, e])

theorem disturbClosed_bare {m : Meter} {x : ClosedStep} (hx : m.closed = some x) (hs : x.sample = now)
    (hb : x.block = none) : m.disturbClosed now = m.reopened := by
  unfold Meter.disturbClosed
  simp only [hx, hs, if_true, hb]
  rfl

theorem disturbClosed_block {m : Meter} {x : ClosedStep} {k : Nat} (hx : m.closed = some x) (hs : x.sample = now)
    (hb : x.block = some k) : m.disturbClosed now = m.reopened.withdrawBlock k x.before := by
  unfold Meter.disturbClosed
  simp only [hx, hs, if_true, hb]
  rfl

theorem withdrawBlock_tally (m : Meter) (k : Nat) (i : IntegState) :
    (m.withdrawBlock k i).tally = m.tally.withdrawBlock k i := by
  unfold Meter.withdrawBlock Meter.tally
  simp only
  split
  · rfl
  · split <;> rfl

theorem disturbClosed_tally (m : Meter) (now : Count) : (m.disturbClosed now).tally = m.tally.disturbClosed now := by
  by_cases h : m.closed.map ClosedStep.sample = some now
  · obtain ⟨x, hx, hs⟩ := Option.map_eq_some_iff.1 h
    have hx' : m.tally.closed = some x := hx
    cases hb : x.block with
    | none =>
      rw [disturbClosed_bare hx hs hb, disturbClosed_bare hx' hs hb]
      rfl
    | some k =>
      rw [disturbClosed_block hx hs hb, disturbClosed_block hx' hs hb, withdrawBlock_tally]
      rfl
  · rw [disturbClosed_away h, disturbClosed_away (m := m.tally) h]

theorem counts_of_tally {m n : Meter} (h : n.tally = m.tally) : n.counts = m.counts :=
  (congrArg Meter.counts h : n.tally.counts = m.tally.counts)

/-- After `m` at the boundary of `now`, the meter `n` is such that a taking back restores the counts of `m`; where the block
was let go at the limit, it has nothing to take back. -/
structure Meter.TakesBack (m : Meter) (now : Count) (n : Meter) : Prop where
  restores : m.histogram.length = 750 → m.admitted < 16777215 → m.pendingBlocks.length < 4 →
    (n.disturbClosed now).counts = m.counts
  nothing : m.admitted < 16777215 → 16777215 ≤ m.admitted + 4 → m.pendingBlocks.length = 4 →
    ∀ x, n.closed = some x → x.block = none

theorem Meter.TakesBack.of_tally {m n n' : Meter} (h : m.TakesBack now n) (e : n'.tally = n.tally) : m.TakesBack now n' where
  restores h1 h2 h3 := by
    rw [← h.restores h1 h2 h3]
    exact counts_of_tally (by rw [disturbClosed_tally, disturbClosed_tally, e])
  nothing h1 h2 h3 x hx := h.nothing h1 h2 h3 x ((congrArg Meter.closed e).symm.trans hx)

theorem disturbClosed_nothing {n : Meter} (h : ∀ x, n.closed = some x → x.block = none) :
    (n.disturbClosed now).counts = n.counts := by
  by_cases hc : n.closed.map ClosedStep.sample = some now
  · obtain ⟨x, hx, hs⟩ := Option.map_eq_some_iff.1 hc
    rw [disturbClosed_bare hx hs (h x hx)]
    rfl
  · rw [disturbClosed_away hc]

theorem withdrawBlock_ring (m : Meter) (k : Nat) (i : IntegState) : (m.withdrawBlock k i).ring = m.ring := by
  unfold Meter.withdrawBlock
  split
  · rfl
  · split <;> rfl

/-- The newest entry of the ring is marked. -/
theorem disturbClosed_ring {n : Meter} (hr : n.ring ≠ []) (hc : n.closed.map ClosedStep.sample = some now) :
    (n.disturbClosed now).ring.getLast?.map RingEntry.disturbed = some true := by
  obtain ⟨x, hx, hs⟩ := Option.map_eq_some_iff.1 hc
  have ring : (n.disturbClosed now).ring = n.reopened.ring := by
    cases hb : x.block with
    | none => rw [disturbClosed_bare hx hs hb]
    | some k => rw [disturbClosed_block hx hs hb, withdrawBlock_ring]
  have hpos := List.length_pos_iff.2 hr
  rw [ring, Meter.reopened, List.getLast?_eq_getElem?, List.length_modify, List.getElem?_modify_eq,
    List.getElem?_eq_getElem (by omega)]
  rfl

theorem modify_add_sub (l : List Nat) (k : Nat) : (l.modify k (· + 1)).modify k (· - 1) = l := by
  refine List.ext_getElem? fun i => ?_
  simp only [List.getElem?_modify]
  cases l[i]? with
  | none => rfl
  | some x => by_cases h : k = i <;> simp [h]

theorem admitBlock_admitted (m : Meter) (k : Nat) (h : m.admitted ≤ Config.admittedLimit) :
    (m.admitBlock k).admitted = min Config.admittedLimit (m.admitted + 1) := by
  unfold Meter.admitBlock
  by_cases hle : Config.admittedLimit ≤ m.admitted
  · rw [if_pos hle, min_eq_left (by omega)]
    exact le_antisymm h hle
  · rw [if_neg hle, min_eq_right (by omega)]
    simp only
    split <;> rfl

theorem foldl_admitBlock_admitted (l : List Nat) (m : Meter) (h : m.admitted ≤ Config.admittedLimit) :
    (l.foldl Meter.admitBlock m).admitted = min Config.admittedLimit (m.admitted + l.length) := by
  induction l generalizing m with
  | nil => simp [h]
  | cons k l ih =>
    have step := admitBlock_admitted m k h
    rw [List.foldl_cons, ih _ (by omega), step, List.length_cons]
    omega

section
variable {m M : Meter} {k : Nat} (hcounts : M.counts = m.counts)
include hcounts

theorem takesBack_none (hc : M.closed = some { sample := now, block := none }) : m.TakesBack now M := by
  have h : ∀ x, M.closed = some x → x.block = none := fun x hx => by
    cases hc.symm.trans hx
    rfl
  exact ⟨fun _ _ _ => (disturbClosed_nothing h).trans hcounts, fun _ _ _ => h⟩

/-- A block that went to the histogram comes out of it again, and with it FULL (log 65). -/
theorem takesBack_admitted (hc : M.closed = some { sample := now, block := some k }) (hk : k ≤ 749)
    (hi : m.integState = .integrating) (hp : m.pendingBlocks = []) : m.TakesBack now (M.admitBlock k) := by
  refine ⟨fun hlen hadm _ => ?_, fun _ _ h4 => absurd h4 (by simp [hp])⟩
  obtain ⟨hh, ha, hpend, hint⟩ : M.histogram = m.histogram ∧ M.admitted = m.admitted ∧ M.pendingBlocks = m.pendingBlocks ∧
      M.integState = m.integState := by simpa [Meter.counts] using hcounts
  have held : (M.histogram.modify k (· + 1)).getD k 0 ≠ 0 := by
    rw [List.getD_eq_getElem?_getD, List.getElem?_modify_eq, List.getElem?_eq_getElem (by rw [hh, hlen]; omega)]
    simp
  have room : ¬ Config.admittedLimit ≤ M.admitted := by
    rw [ha]
    exact Nat.not_le.2 hadm
  rw [← hcounts]
  have withdrawn : ∀ n : Meter, n.histogram = M.histogram.modify k (· + 1) → n.admitted = M.admitted + 1 →
      n.pendingBlocks = [] → ∀ i, (n.withdrawBlock k i).counts =
        (M.histogram, M.admitted, [], if n.integState = .full then i else n.integState) := by
    intro n h1 h2 h3 i
    unfold Meter.withdrawBlock
    rw [h3, h1, h2, if_neg (by simp), if_neg (not_or.2 ⟨held, Nat.succ_ne_zero _⟩)]
    simp [Meter.counts, modify_add_sub]
  unfold Meter.admitBlock
  rw [if_neg room]
  simp only
  by_cases hfull : M.admitted + 1 = Config.admittedLimit
  · rw [if_pos hfull, disturbClosed_block (x := { sample := now, block := some k, before := M.integState }) (by simp [hc]) rfl rfl]
    refine (withdrawn _ ?_ ?_ ?_ _).trans ?_ <;> simp [Meter.counts, hpend, hp, Meter.reopened]
  · rw [if_neg hfull, disturbClosed_block (x := { sample := now, block := some k }) (by simp [hc]) rfl rfl]
    refine (withdrawn _ ?_ ?_ ?_ _).trans ?_ <;> simp [Meter.counts, hpend, hp, Meter.reopened, hint, hi]

/-- A block that waits leaves the pending blocks again. -/
theorem takesBack_waiting (hc : M.closed = some { sample := now, block := some k }) (hp : m.pendingBlocks.length < 4) :
    m.TakesBack now { M with pendingBlocks := M.pendingBlocks ++ [k] } := by
  refine ⟨fun _ _ _ => ?_, fun _ _ h4 => absurd h4 hp.ne⟩
  rw [← hcounts, disturbClosed_block (x := { sample := now, block := some k }) (by simp [hc]) rfl rfl]
  unfold Meter.withdrawBlock
  rw [if_pos (by simp [Meter.reopened])]
  simp [Meter.counts, Meter.reopened]

/-- At the limit the block is let go. -/
theorem takesBack_abandoned (h4 : 4 ≤ m.pendingBlocks.length) : m.TakesBack now (M.admitPending.admitBlock k) := by
  refine ⟨fun _ _ hlt => absurd hlt (Nat.not_lt.2 h4), fun hadm hlimit hlen x hx => ?_⟩
  obtain ⟨-, ha, hpend, -⟩ : M.histogram = m.histogram ∧ M.admitted = m.admitted ∧ M.pendingBlocks = m.pendingBlocks ∧
      M.integState = m.integState := by simpa [Meter.counts] using hcounts
  have full : Config.admittedLimit ≤ M.admitPending.admitted := by
    have h := foldl_admitBlock_admitted M.pendingBlocks M (by rw [ha]; exact hadm.le)
    rw [show M.admitPending.admitted = (M.pendingBlocks.foldl Meter.admitBlock M).admitted from rfl, h, hpend, hlen, ha]
    exact le_min le_rfl hlimit
  unfold Meter.admitBlock at hx
  rw [if_pos full] at hx
  obtain ⟨y, -, e⟩ := Option.map_eq_some_iff.1 hx
  exact e ▸ rfl

end

end Sys2Proof.Machine
end

section
/-! STEP_BOUNDARY as a programme in RIDE takes it (R106 to R111, R127, R128): the layer under the third part of O27. -/

namespace Sys2Proof.Machine

variable {b c : Body} {p : Fin 16} {now : Count}

/-! ### The rider's decision, taken back -/

/-- A taking back of `y` at the house sample `now` leaves the rider GATED, with gain and ramp as in `x`. -/
def GainStage.Restores (x : GainStage) (now : Count) (y : GainStage) : Prop :=
  let z := y.takeBack now
  z.g = x.g ∧ z.applied = x.applied ∧ z.ramp = x.ramp ∧ z.rider = .gated ∧ z.desired = none

theorem takeBack_now {y : GainStage} {j : Judged} (hj : y.judged = some j) (hs : j.sample = now) :
    y.takeBack now =
      { y with g := j.g, applied := j.applied, ramp := j.ramp, rider := .gated, desired := none, judged := none } := by
  unfold GainStage.takeBack
  simp only [hj, hs, if_true]

theorem takeBack_away {y : GainStage} (h : ∀ j, y.judged = some j → j.sample ≠ now) : y.takeBack now = y := by
  unfold GainStage.takeBack
  split
  · rename_i j hj
    exact if_neg (h j hj)
  · rfl

theorem ride_judged (x : GainStage) (st : Settings) (short : Int) (now : Count) :
    (x.ride st short now).judged = some { sample := now, g := x.g, applied := x.applied, ramp := x.ramp } := by
  unfold GainStage.ride
  simp only
  split <;> rfl

/-- In RIDE the decision of a step boundary is taken back whole (R129). -/
theorem riderDecision_restores {st : Settings} (ha : (b.programme p).active = some st) (hr : st.gainMode = .ride)
    (hj : ∀ j, (b.gain p).judged = some j → j.sample ≠ b.timing.sampleCounter) (short : Option Int) (d : Bool) :
    (b.gain p).Restores b.timing.sampleCounter ((riderDecision p short d b).gain p) := by
  unfold riderDecision
  simp only [ha, hr, if_true]
  split
  · rw [Body.onGain_eq, Body.gain_setGain_same]
    unfold GainStage.Restores
    rw [takeBack_now (ride_judged ..) rfl]
    exact ⟨rfl, rfl, rfl, rfl, rfl⟩
  · rw [Body.onGain_eq, Body.gain_setGain_same]
    unfold GainStage.Restores
    rw [takeBack_away (y := { b.gain p with rider := .gated, desired := none }) hj]
    exact ⟨rfl, rfl, rfl, rfl, rfl⟩

/-! ### The step closed -/

theorem riderDecision_beside (p : Fin 16) (short : Option Int) (d : Bool) (b : Body) :
    (riderDecision p short d b).meters = b.meters ∧ (riderDecision p short d b).sweep = b.sweep := by
  unfold riderDecision
  split
  · exact ⟨rfl, rfl⟩
  · split
    · split <;> exact ⟨rfl, rfl⟩
    · exact ⟨rfl, rfl⟩

theorem drawStepEnergy_only (l : Layout) (m : Meter) (b : Body) :
    (drawStepEnergy l m b).2 = { b with freeDraws := (drawStepEnergy l m b).2.freeDraws } := by
  unfold drawStepEnergy
  split <;> rfl

/-- The step closed: the meter's figures, and the decision of a rider that can be taken back. -/
theorem closeStep_parts {st : Settings} (ha : (b.programme p).active = some st) (hr : st.gainMode = .ride)
    (hj : ∀ j, (b.gain p).judged = some j → j.sample ≠ b.timing.sampleCounter) (l : Layout) :
    let c := closeStep p l b
    (∃ e, c.meter p = (b.meter p).closeStep l e) ∧ c.sweep = b.sweep ∧
      (b.gain p).Restores b.timing.sampleCounter (c.gain p) := by
  unfold closeStep
  simp only
  rw [drawStepEnergy_only]
  generalize hd : Body.onMeter _ p _ = d
  obtain ⟨hm, hs⟩ := riderDecision_beside p (d.meter p).shortTerm (b.meter p).disturbed d
  have meter : d.meter p = (b.meter p).closeStep l (drawStepEnergy l (b.meter p) b).1 := by
    rw [← hd]
    exact Body.meter_setMeter_same ..
  have same : d.gain p = b.gain p ∧ d.timing = b.timing ∧ d.programme p = b.programme p ∧ d.sweep = b.sweep := by
    rw [← hd]
    exact ⟨rfl, rfl, rfl, rfl⟩
  obtain ⟨gain, timing, programme, sweep⟩ := same
  refine ⟨⟨_, (congrArg (fun x : Vector Meter 16 => x[p]) hm).trans meter⟩, hs.trans sweep, ?_⟩
  rw [← gain, ← timing]
  exact riderDecision_restores (programme ▸ ha) hr (by rw [gain, timing]; exact hj) _ _

theorem applyReset_parts (p : Fin 16) (b : Body) :
    ((applyReset p b).meter p).ring = (b.meter p).ring ∧ (applyReset p b).gain p = b.gain p := by
  unfold applyReset
  simp only
  split
  · exact ⟨rfl, rfl⟩
  · have dropped : Aloof p { b.onMeter p Meter.reset with
        sweep := if sweeping (b.onMeter p Meter.reset) p then none else (b.onMeter p Meter.reset).sweep
        sweepQueue := (b.onMeter p Meter.reset).sweepQueue.filter (· != p) } (dropSweep p (b.onMeter p Meter.reset)) :=
      .nextSweep _
    obtain ⟨⟨-, -, hg⟩, hm, -⟩ := endResets_parts p (b.meter p).resetDue .success (dropSweep p (b.onMeter p Meter.reset))
    refine ⟨?_, (congrArg (fun x : Vector GainStage 16 => x[p]) hg).trans dropped.gain⟩
    have ring : ((dropSweep p (b.onMeter p Meter.reset)).meter p).ring = ((b.onMeter p Meter.reset).meter p).ring :=
      (congrArg Meter.ring dropped.frame :)
    refine (congrArg Meter.ring hm :).trans (ring.trans ?_)
    rw [Body.onMeter_eq, Body.meter_setMeter_same]
    rfl

theorem applyReset_none (h : (b.meter p).resetDue = none) : applyReset p b = b := by
  unfold applyReset
  simp [h]

/-! ### The block offered -/

/-- What an offer makes of the meter: into the histogram, among the blocks that wait, or after them all. -/
def Meter.Offered (m : Meter) (k : Nat) (n : Meter) : Prop :=
  (m.pendingBlocks = [] ∧ n.tally = (m.admitBlock k).tally) ∨
  (m.pendingBlocks.length < 4 ∧ n.tally = Meter.tally { m with pendingBlocks := m.pendingBlocks ++ [k] }) ∨
  (4 ≤ m.pendingBlocks.length ∧ n.tally = (m.admitPending.admitBlock k).tally)

theorem tally_of_still {m n : Meter} (h : n.still = m.still) : n.tally = m.tally :=
  (congrArg Meter.tally h : n.still.tally = m.still.tally)

theorem raiseRequest_meter (p o : Fin 16) (b : Body) : (raiseRequest p b).meter o = b.meter o := by
  unfold raiseRequest
  split <;> rfl

theorem admitBlock_pending (m : Meter) (k : Nat) : (m.admitBlock k).pendingBlocks = m.pendingBlocks := by
  unfold Meter.admitBlock
  simp only
  split
  · rfl
  · split <;> rfl

/-- Ring and newest step closed, which an offer leaves. -/
def Meter.seal (m : Meter) : List RingEntry × Option Count := (m.ring, m.closed.map ClosedStep.sample)

theorem seal_of_frame {m n : Meter} (h : n.frame = m.frame) : n.seal = m.seal := by
  have hs : ∀ x : Meter, x.frame.seal = x.seal := fun x => by
    unfold Meter.frame Meter.seal
    cases x.closed <;> rfl
  rw [← hs n, h, hs m]

theorem offerBlock_parts (p : Fin 16) (k : Nat) (b : Body) :
    let c := offerBlock p k b
    c.gain p = b.gain p ∧ (c.meter p).seal = (b.meter p).seal ∧
    (PendingSwept p b → PendingSwept p c ∧ (b.meter p).Offered k (c.meter p)) := by
  unfold offerBlock
  split
  · rename_i h
    have idle : PendingSwept p b → (b.meter p).pendingBlocks = [] := fun hp => hp.resolve_right (by simpa using h)
    have after : Aloof p (b.onMeter p fun m => m.admitBlock k)
        (nextSweep (raiseRequest p (b.onMeter p fun m => m.admitBlock k))) := (Aloof.raiseRequest p _).trans (.nextSweep _)
    have meter : (b.onMeter p fun m => m.admitBlock k).meter p = (b.meter p).admitBlock k := Body.meter_setMeter_same ..
    refine ⟨after.gain, (seal_of_frame after.frame).trans ?_, fun hp => ?_⟩
    · rw [meter]
      exact seal_of_frame (admitBlock_frame ..)
    · have pend : ((b.onMeter p fun m => m.admitBlock k).meter p).pendingBlocks = [] := by
        rw [meter, admitBlock_pending, idle hp]
      obtain ⟨h1, h2⟩ := after.still (.inl pend)
      exact ⟨h2, .inl ⟨idle hp, (tally_of_still h1).trans (by rw [meter])⟩⟩
  · rename_i h
    have swept : sweeping b p = true := by simpa using h
    split
    · rename_i h4
      have after : Aloof p (b.onMeter p fun m => { m with pendingBlocks := m.pendingBlocks ++ [k] })
          (raiseRequest p (b.onMeter p fun m => { m with pendingBlocks := m.pendingBlocks ++ [k] })) := .raiseRequest p _
      have meter : (b.onMeter p fun m => { m with pendingBlocks := m.pendingBlocks ++ [k] }).meter p =
          { b.meter p with pendingBlocks := (b.meter p).pendingBlocks ++ [k] } := Body.meter_setMeter_same ..
      refine ⟨after.gain, (seal_of_frame after.frame).trans (by rw [meter]; rfl), fun _ => ?_⟩
      obtain ⟨h1, h2⟩ := after.still (.inr swept)
      exact ⟨h2, .inr (.inl ⟨h4, (tally_of_still h1).trans (by rw [meter])⟩)⟩
    · rename_i h4
      simp only
      generalize hd : Body.onMeter _ p _ = d
      have after : Aloof p d (nextSweep (raiseRequest p d)) := (Aloof.raiseRequest p _).trans (.nextSweep _)
      have meter : d.meter p = { (b.meter p).admitPending.admitBlock k with abandoned := bump (b.meter p).abandoned } := by
        rw [← hd]
        exact Body.meter_setMeter_same ..
      have gain : d.gain p = b.gain p := by
        rw [← hd]
        rfl
      refine ⟨after.gain.trans gain, (seal_of_frame after.frame).trans ?_, fun _ => ?_⟩
      · rw [meter]
        exact seal_of_frame (n := (b.meter p).admitPending.admitBlock k) ((admitBlock_frame ..).trans (admitPending_frame _))
      · have pend : (d.meter p).pendingBlocks = [] := by
          rw [meter]
          exact admitBlock_pending ..
        obtain ⟨h1, h2⟩ := after.still (.inl pend)
        exact ⟨h2, .inr (.inr ⟨Nat.not_lt.1 h4, (tally_of_still h1).trans (by rw [meter]; rfl)⟩)⟩

end Sys2Proof.Machine
end

section
/-! STEP_BOUNDARY as a programme in RIDE takes it, assembled: the layer under the third part of O27. -/

namespace Sys2Proof.Machine

variable {b c : Body} {p : Fin 16} {now : Count}

/-- The programme has taken the step boundary of the house sample `now`: what it did to gain stage and meter can be taken
back. `b` are the blocks before, `c` after. -/
structure TookBoundary (p : Fin 16) (now : Count) (b c : Body) : Prop where
  gain : (b.gain p).Restores now (c.gain p)
  ring : (c.meter p).ring ≠ []
  closed : (c.meter p).closed.map ClosedStep.sample = some now
  meter : (b.meter p).resetDue = none → PendingSwept p b → PendingSwept p c ∧ (b.meter p).TakesBack now (c.meter p)

theorem Meter.TakesBack.of_counts {m m' n : Meter} (h : m.TakesBack now n) (e : m'.counts = m.counts) :
    m'.TakesBack now n := by
  have h1 : m'.histogram = m.histogram := congrArg (fun x => x.1) e
  have h2 : m'.admitted = m.admitted := congrArg (fun x => x.2.1) e
  have h3 : m'.pendingBlocks = m.pendingBlocks := congrArg (fun x => x.2.2.1) e
  exact ⟨by rw [h1, h2, h3, e]; exact h.restores, by rw [h2, h3]; exact h.nothing⟩

theorem admissible_some {m : Meter} {k : Nat} (h : m.admissible = some k) : k ≤ 749 ∧ m.integState = .integrating := by
  unfold Meter.admissible at h
  simp only at h
  split at h
  · rename_i hm
    split at h
    · split at h
      · cases h
        exact ⟨min_le_left _ _, hm.1⟩
      · cases h
    · cases h
  · cases h

theorem Meter.Offered.takesBack {m M n : Meter} {k : Nat} (h : M.Offered k n) (hcounts : M.counts = m.counts)
    (hc : M.closed = some { sample := now, block := some k }) (hk : k ≤ 749) (hi : M.integState = .integrating) :
    m.TakesBack now n := by
  have pend : M.pendingBlocks = m.pendingBlocks := congrArg (fun x => x.2.2.1) hcounts
  have state : M.integState = m.integState := congrArg (fun x => x.2.2.2) hcounts
  rcases h with ⟨hp, e⟩ | ⟨hp, e⟩ | ⟨hp, e⟩
  · exact (takesBack_admitted hcounts hc hk (state ▸ hi) (pend ▸ hp)).of_tally e
  · exact (takesBack_waiting hcounts hc (pend ▸ hp)).of_tally e
  · exact (takesBack_abandoned hcounts (pend ▸ hp)).of_tally e

/-- The newest step closed is noted, with its block (log 44). -/
def Body.stepNoted (b : Body) (p : Fin 16) : Body :=
  b.onMeter p fun m => { m with closed := some { sample := b.timing.sampleCounter, block := (b.meter p).admissible } }

theorem meterBoundary_eq {st : Settings} (ha : (b.programme p).active = some st) (hs : (b.meter p).started = true) :
    meterBoundary p b =
      match ((applyReset p (closeStep p st.layout b)).meter p).admissible with
      | some k => offerBlock p k ((applyReset p (closeStep p st.layout b)).stepNoted p)
      | none => (applyReset p (closeStep p st.layout b)).stepNoted p := by
  unfold meterBoundary Body.stepNoted
  simp only [ha, hs, if_true] <;> rfl

theorem meterBoundary_took {st : Settings} (ha : (b.programme p).active = some st) (hr : st.gainMode = .ride)
    (hs : (b.meter p).started = true)
    (hj : ∀ j, (b.gain p).judged = some j → j.sample ≠ b.timing.sampleCounter) :
    TookBoundary p b.timing.sampleCounter b (meterBoundary p b) := by
  obtain ⟨⟨e, hm⟩, hsweep, hg⟩ := closeStep_parts ha hr hj st.layout
  obtain ⟨hring, hgain⟩ := applyReset_parts p (closeStep p st.layout b)
  have timing : (applyReset p (closeStep p st.layout b)).timing = b.timing :=
    congrArg Fixed.timing ((applyReset_fixed ..).trans (closeStep_fixed ..))
  have quiet : (b.meter p).resetDue = none → applyReset p (closeStep p st.layout b) = closeStep p st.layout b := fun h =>
    applyReset_none (by rw [hm]; exact h)
  rw [meterBoundary_eq ha hs]
  generalize hd : applyReset p (closeStep p st.layout b) = d at hring hgain timing quiet ⊢
  have noted : (d.stepNoted p).meter p = { d.meter p with
      closed := some { sample := b.timing.sampleCounter, block := (d.meter p).admissible } } := by
    rw [Body.stepNoted, Body.onMeter_eq, Body.meter_setMeter_same, timing]
  have restores : (b.gain p).Restores b.timing.sampleCounter ((d.stepNoted p).gain p) := by
    rw [show (d.stepNoted p).gain p = d.gain p from rfl, hgain]
    exact hg
  have ring : (d.meter p).ring ≠ [] := by
    rw [hring, hm]
    exact List.append_ne_nil_of_right_ne_nil _ (List.cons_ne_nil _ _)
  have counts : (b.meter p).resetDue = none → ((d.stepNoted p).meter p).counts = (b.meter p).counts := fun h => by
    rw [noted, quiet h, hm]
    rfl
  have swept : (b.meter p).resetDue = none → PendingSwept p b → PendingSwept p (d.stepNoted p) := fun h hp => by
    refine hp.imp (fun h0 => (congrArg (fun x => x.2.2.1) (counts h)).trans h0) fun h1 => ?_
    rw [show sweeping (d.stepNoted p) p = sweeping d p from rfl, quiet h, sweeping, hsweep]
    exact h1
  have sealed : ((d.stepNoted p).meter p).seal = ((d.meter p).ring, some b.timing.sampleCounter) := by
    rw [noted]
    rfl
  split
  · rename_i k hk
    obtain ⟨h1, h2, h3⟩ := offerBlock_parts p k (d.stepNoted p)
    have same := h2.trans sealed
    refine ⟨h1 ▸ restores, ?_, congrArg Prod.snd same, fun hdue hp => ?_⟩
    · rw [show (Body.meter _ p).ring = _ from congrArg Prod.fst same]
      exact ring
    · obtain ⟨hk749, hint⟩ := admissible_some hk
      obtain ⟨after, offered⟩ := h3 (swept hdue hp)
      exact ⟨after, offered.takesBack (counts hdue) (by rw [noted, hk]) hk749 (by rw [noted]; exact hint)⟩
  · rename_i hk
    refine ⟨restores, ?_, congrArg Prod.snd sealed, fun hdue hp =>
      ⟨swept hdue hp, takesBack_none (counts hdue) (by rw [noted, hk])⟩⟩
    rw [noted]
    exact ring

/-- STEP_BOUNDARY, seen from a programme in RIDE that has not taken its work: the others leave it alone. -/
theorem stepBoundaryWork_took {done : List (Fin 16)} {st : Settings} (hdue : b.timing.stepDue = some done) (hp : p ∉ done)
    (ha : (b.programme p).active = some st) (hr : st.gainMode = .ride) (hs : (b.meter p).started = true)
    (hj : ∀ j, (b.gain p).judged = some j → j.sample ≠ b.timing.sampleCounter) :
    TookBoundary p b.timing.sampleCounter b (stepBoundaryWork b) ∧ (stepBoundaryWork b).stored = b.stored ∧
      (stepBoundaryWork b).timing = { b.timing with stepDue := none } := by
  let turn : Fin 16 → Body → Body := fun q b => if done.contains q then b else meterBoundary q b
  let R : Body → Body → Prop := fun b c => Aloof p b c ∧ c.stored = b.stored ∧ c.timing = b.timing
  have kept : ∀ q b, (turn q b).stored = b.stored ∧ (turn q b).timing = b.timing := fun q b => by
    show (if _ then _ else _ : Body).stored = _ ∧ (if _ then _ else _ : Body).timing = _
    split
    · exact ⟨rfl, rfl⟩
    · exact ⟨meterBoundary_stored .., congrArg Fixed.timing (meterBoundary_fixed ..)⟩
  obtain ⟨c, ⟨h1, h2, h3⟩, h4, h5, h6⟩ := eachProgramme_turn p turn R (fun b => ⟨.refl p b, rfl, rfl⟩)
    (fun a b c h h' => ⟨h.1.trans h'.1, h'.2.1.trans h.2.1, h'.2.2.trans h.2.2⟩)
    (fun q hq b => ⟨by
      show Aloof p b (if _ then _ else _)
      split
      · exact .refl p b
      · exact .meterBoundary hq b, kept q b⟩) b
  have own : turn p c = meterBoundary p c := if_neg (by simpa using hp)
  have programme : c.programme p = b.programme p :=
    congrArg (fun x : Vector Programme 16 => x[p]) (congrArg Prod.fst h2)
  have started : (c.meter p).started = true := (congrArg Meter.started h1.frame :).trans hs
  have took := meterBoundary_took (programme ▸ ha) hr started (by rw [h1.gain, h3]; exact hj)
  rw [← own, h3] at took
  have e : stepBoundaryWork b = (b.eachProgramme turn).onTiming fun t => { t with stepDue := none } := by
    unfold stepBoundaryWork
    simp only [hdue]
    rfl
  rw [e]
  have sealed : ((b.eachProgramme turn).meter p).seal = ((turn p c).meter p).seal := seal_of_frame h4.frame
  refine ⟨⟨?_, ?_, ?_, fun hnone hsw => ?_⟩, h5.trans ((kept p c).1.trans h2), ?_⟩
  · rw [← h1.gain]
    exact (h4.gain ▸ took.gain : (c.gain p).Restores _ ((b.eachProgramme turn).gain p))
  · have ring : ((b.eachProgramme turn).meter p).ring = ((turn p c).meter p).ring := congrArg Prod.fst sealed
    exact fun e => took.ring (ring.symm.trans e)
  · exact (congrArg Prod.snd sealed).trans took.closed
  · obtain ⟨still, swept⟩ := h1.still hsw
    obtain ⟨swept', takes⟩ := took.meter ((congrArg Meter.resetDue h1.frame :).trans hnone) swept
    obtain ⟨still', swept''⟩ := h4.still swept'
    exact ⟨swept'', (takes.of_tally (tally_of_still still')).of_counts (counts_of_tally (tally_of_still still)).symm⟩
  · rw [← h3, ← (kept p c).2, ← h6]
    rfl

end Sys2Proof.Machine
end

section
/-! A house sample as one programme sees it (R66, R80, R105, R124): the layer under the third part of O27. -/

namespace Sys2Proof.Machine

variable {b c : Body} {p q : Fin 16} {now : Count}

/-! ### The lane's work -/

/-- A house sample of lane `q` touches no other programme, gain stage or meter, and its own gain stage and meter only where it
leaves RUNNING. -/
structure LaneSampled (q : Fin 16) (b c : Body) : Prop where
  programme : ∀ o, o ≠ q → c.programme o = b.programme o
  gain : ∀ o, o ≠ q → c.gain o = b.gain o
  meter : ∀ o, o ≠ q → c.meter o = b.meter o
  own : (c.programme q).state = .running → c.gain q = b.gain q ∧ c.meter q = b.meter q

theorem Beside.laneSampled (h : Beside q b c) : LaneSampled q b c :=
  ⟨h.programme, fun o _ => beyond_gain h.beyond o, fun o _ => beyond_meter h.beyond o,
    fun _ => ⟨beyond_gain h.beyond q, beyond_meter h.beyond q⟩⟩

theorem Beside.then_sampled {d : Body} (h : Beside q b c) (h' : LaneSampled q c d) : LaneSampled q b d :=
  ⟨fun o ho => (h'.programme o ho).trans (h.programme o ho),
    fun o ho => (h'.gain o ho).trans (beyond_gain h.beyond o), fun o ho => (h'.meter o ho).trans (beyond_meter h.beyond o),
    fun hr => ⟨(h'.own hr).1.trans (beyond_gain h.beyond q), (h'.own hr).2.trans (beyond_meter h.beyond q)⟩⟩

theorem Beside.reachMark (q : Fin 16) (m : SpliceMark) (b : Body) : Beside q b (reachMark q m b) := by
  unfold Machine.reachMark
  exact (Beside.onLane q _).trans (.refreshSetpoint q _)

theorem Beside.stepLoop (q : Fin 16) (n : Nat) (b : Body) : Beside q b (stepLoop q n b).1 := by
  induction n generalizing b with
  | zero => exact .refl q b
  | succ n ih =>
    unfold Machine.stepLoop
    simp only
    split
    · exact .refl q b
    · split
      · exact .refl q b
      · split
        · exact .refl q b
        · split
          · split
            · exact (Beside.onLane q _).trans ((Beside.reachMark q _ _).trans (ih _))
            · exact (Beside.onLane q _).trans (ih _)
          · exact (Beside.onLane q _).trans (ih _)

theorem Beside.stepReader (q : Fin 16) (b : Body) : Beside q b (stepReader q b).1 := by
  unfold Machine.stepReader
  exact (Beside.onLane q _).trans (.stepLoop q _ _)

theorem Beside.silentLane (q : Fin 16) (b : Body) : Beside q b (silentLane q b) := .onLane q _

theorem Beside.setLane (q : Fin 16) (l : Lane) (b : Body) : Beside q b (b.setLane q l) := .onLane q fun _ => l

theorem Beside.memoryErrors (q : Fin 16) (n : Nat) (b : Body) : Beside q b (memoryErrors q n b) := by
  unfold Machine.memoryErrors
  split
  · exact .refl q b
  · exact .onProgramme _

theorem Beside.oweState (q : Fin 16) (x : StateCause) (b : Body) : Beside q b (oweState q x b) := .onProgramme _

theorem Beside.enterRunning (q : Fin 16) (b : Body) : Beside q b (enterRunning q b) := by
  unfold Machine.enterRunning
  split
  · exact .refl q b
  · exact (Beside.onLane q _).trans ((Beside.onProgramme _).trans
      ((Beside.oweState q _ _).trans ((Beside.refreshSetpoint q _).trans (.pumpReads q _))))

/-- An underrun leaves RUNNING (R20, R80). -/
theorem underrun_state (q : Fin 16) (b : Body) : ((underrun q b).programme q).state ≠ .running := by
  unfold underrun
  simp only
  rw [aside_programme (refreshSetpoint_aside ..), oweState, Body.onProgramme_eq, Body.programme_setProgramme_same,
    Body.onProgramme_eq, Body.programme_setProgramme_same]
  simp only
  split <;> decide

theorem closeRead_programme (q o : Fin 16) (b : Body) : (closeRead q b).programme o = b.programme o :=
  aside_programme (closeRead_aside q b) o

theorem Beside.closeRead (q : Fin 16) (b : Body) : Beside q b (closeRead q b) := by
  refine .of_aside (closeRead_aside q b) (fun k => ?_) fun d hd _ => closeRead_line q b ▸ hd
  rw [closeRead_bank_eq]
  rfl

theorem leaveRunning_other {o : Fin 16} (q : Fin 16) (b : Body) (ho : o ≠ q) :
    (leaveRunning q b).gain o = b.gain o ∧ (leaveRunning q b).meter o = b.meter o := by
  unfold leaveRunning
  exact ⟨(Body.gain_setGain b q o _).trans (if_neg ho.symm), (Body.meter_setMeter _ q o _).trans (if_neg ho.symm)⟩

theorem LaneSampled.underrun (q : Fin 16) (b : Body) : LaneSampled q b (underrun q b) := by
  have state := underrun_state q b
  unfold Machine.underrun
  extract_lets b1 b2 b3 next
  have before : Beside q b (endChange q .success b2) :=
    (Beside.closeRead q b).trans ((Beside.countSlip q _).trans ((Beside.onLane q _).trans (.endChange q _ _)))
  have after : Beside q b3 (refreshSetpoint q (oweState q next.2 (b3.onProgramme q fun r => { r with state := next.1 }))) :=
    (Beside.onProgramme _).trans ((Beside.oweState q _ _).trans (.refreshSetpoint q _))
  refine ⟨fun o ho => (after.programme o ho).trans (before.programme o ho), fun o ho => ?_, fun o ho => ?_,
    fun hr => absurd hr state⟩
  · exact (beyond_gain after.beyond o).trans
      ((leaveRunning_other q _ ho).1.trans (beyond_gain before.beyond o))
  · exact (beyond_meter after.beyond o).trans
      ((leaveRunning_other q _ ho).2.trans (beyond_meter before.beyond o))

theorem LaneSampled.silent (h : LaneSampled q b c) : LaneSampled q b (silentLane q c) :=
  ⟨h.programme, h.gain, h.meter, h.own⟩

theorem LaneSampled.runLane (q : Fin 16) (b : Body) : LaneSampled q b (runLane q b) := by
  have stepped := Beside.stepReader q b
  unfold Machine.runLane
  split
  · rename_i d e
    rw [e] at stepped
    exact stepped.then_sampled (LaneSampled.underrun q d).silent
  · rename_i d e
    rw [e] at stepped
    exact (stepped.trans ((Beside.onLane q _).trans ((Beside.pumpReads q _).trans
      ((Beside.setLane q _ _).trans (.memoryErrors q _ _))))).laneSampled

theorem LaneSampled.sampleLane (q : Fin 16) (b : Body) : LaneSampled q b (sampleLane q b) := by
  unfold Machine.sampleLane
  simp only
  have settled := Beside.settleTail (p := q) q b
  split
  · exact settled.then_sampled (.runLane q _)
  · split
    · exact (settled.trans (.enterRunning q _)).then_sampled (.runLane q _)
    · exact (settled.trans (.silentLane q _)).laneSampled
  · exact (settled.trans (.silentLane q _)).laneSampled

/-! ### Meter and gain stage -/

theorem sampleMeter_parts (q : Fin 16) (b : Body) :
    (sampleMeter q b).programmes = b.programmes ∧ (sampleMeter q b).gains = b.gains ∧
    (∀ o, o ≠ q → (sampleMeter q b).meter o = b.meter o) ∧ ((sampleMeter q b).meter q).tally = (b.meter q).tally := by
  unfold sampleMeter
  split
  · exact ⟨rfl, rfl, fun _ _ => rfl, rfl⟩
  · refine ⟨rfl, rfl, fun o ho => (Body.meter_setMeter b q o _).trans (if_neg ho.symm), ?_⟩
    rw [Body.onMeter_eq, Body.meter_setMeter_same]
    rfl

/-- A gain stage but for limiter and output. -/
def GainStage.core (x : GainStage) : GainStage := { x with gr := 0, activations := 0, output := [] }

/-- A gain stage one house sample on, with what a taking back would restore (R126; log 44). -/
def GainStage.advanced (x : GainStage) (now : Count) : GainStage := { x.advance with judged := x.advanceJudged now }

theorem sampleGain_parts (q : Fin 16) (b : Body) :
    (sampleGain q b).programmes = b.programmes ∧ (sampleGain q b).meters = b.meters ∧
    (∀ o, o ≠ q → (sampleGain q b).gain o = b.gain o) ∧
    ((b.programme q).active.isSome = true →
      ((sampleGain q b).gain q).core = ((b.gain q).advanced b.timing.sampleCounter).core) := by
  unfold sampleGain
  simp only
  split
  · rename_i h
    exact ⟨rfl, rfl, fun o ho => (Body.gain_setGain b q o _).trans (if_neg ho.symm), fun hs => by simp [h] at hs⟩
  · refine ⟨rfl, rfl, fun o ho => (Body.gain_setGain b q o _).trans (if_neg ho.symm), fun _ => ?_⟩
    rw [Body.onGain_eq, Body.gain_setGain_same]
    split <;> rfl

theorem takeBack_core (x : GainStage) (now : Count) : (x.takeBack now).core = x.core.takeBack now := by
  by_cases h : ∃ j, x.judged = some j ∧ j.sample = now
  · obtain ⟨j, hj, hs⟩ := h
    rw [takeBack_now hj hs, takeBack_now (y := x.core) hj hs]
    rfl
  · rw [takeBack_away fun j hj hs => h ⟨j, hj, hs⟩, takeBack_away (y := x.core) fun j hj hs => h ⟨j, hj, hs⟩]

theorem GainStage.Restores.of_core {x y z : GainStage} (h : x.Restores now y) (e : z.core = y.core) : x.Restores now z := by
  have same : (z.takeBack now).core = (y.takeBack now).core := by rw [takeBack_core, takeBack_core, e]
  obtain ⟨h1, h2, h3, h4, h5⟩ := h
  exact ⟨(congrArg GainStage.g same :).trans h1, (congrArg GainStage.applied same :).trans h2,
    (congrArg GainStage.ramp same :).trans h3, (congrArg GainStage.rider same :).trans h4,
    (congrArg GainStage.desired same :).trans h5⟩

/-- What an advance reads and gives: applied gain and ramp. -/
theorem advance_congr {x y : GainStage} (ha : y.applied = x.applied) (hr : y.ramp = x.ramp) :
    y.advance.applied = x.advance.applied ∧ y.advance.ramp = x.advance.ramp := by
  unfold GainStage.advance
  rw [hr]
  split
  · exact ⟨ha, hr⟩
  · split
    · exact ⟨ha, rfl⟩
    · exact ⟨rfl, rfl⟩

theorem advance_beside (x : GainStage) :
    x.advance.g = x.g ∧ x.advance.rider = x.rider ∧ x.advance.desired = x.desired ∧ x.advance.judged = x.judged := by
  unfold GainStage.advance
  split
  · exact ⟨rfl, rfl, rfl, rfl⟩
  · split <;> exact ⟨rfl, rfl, rfl, rfl⟩

/-- One house sample on, the decision can still be taken back, and the ramp that stood has gone on (log 44). -/
theorem GainStage.Restores.advanced {x y : GainStage} (h : x.Restores now y) :
    x.advance.Restores now (y.advanced now) := by
  obtain ⟨h1, h2, h3, h4, h5⟩ := h
  obtain ⟨xg, -⟩ := advance_beside x
  by_cases hj : ∃ j, y.judged = some j ∧ j.sample = now
  · obtain ⟨j, hj, hs⟩ := hj
    rw [takeBack_now hj hs] at h1 h2 h3 h4 h5
    obtain ⟨ha, hr⟩ := advance_congr (x := x) (y := { y with applied := j.applied, ramp := j.ramp }) h2 h3
    have judged : (y.advanced now).judged = some { j with
        applied := { y with applied := j.applied, ramp := j.ramp }.advance.applied
        ramp := { y with applied := j.applied, ramp := j.ramp }.advance.ramp } := by
      simp [GainStage.advanced, GainStage.advanceJudged, hj, hs]
    unfold GainStage.Restores
    rw [takeBack_now judged hs]
    exact ⟨(show j.g = x.g from h1).trans xg.symm, ha, hr, rfl, rfl⟩
  · rw [takeBack_away fun j h hs => hj ⟨j, h, hs⟩] at h1 h2 h3 h4 h5
    obtain ⟨yg, yr, yd, -⟩ := advance_beside y
    obtain ⟨ha, hr⟩ := advance_congr h2 h3
    have judged : (y.advanced now).judged = none := by
      unfold GainStage.advanced GainStage.advanceJudged
      cases hy : y.judged with
      | none => rfl
      | some j => simp [show j.sample ≠ now from fun hs => hj ⟨j, hy, hs⟩]
    unfold GainStage.Restores
    rw [takeBack_away fun j h => by rw [judged] at h; cases h]
    exact ⟨yg.trans (h1.trans xg.symm), ha, hr, yr.trans h4, yd.trans h5⟩

end Sys2Proof.Machine
end

section
/-! O27: START and PARK. -/

namespace Sys2Proof.Machine

variable {b c : Body} {p q : Fin 16} {now : Count}

/-! ### The house sample -/

/-- The work of a house sample in one programme. -/
def sampleTurn (q : Fin 16) (b : Body) : Body := sampleGain q (sampleMeter q (sampleLane q b))

theorem sampleTurn_timing (q : Fin 16) (b : Body) : (sampleTurn q b).timing = b.timing := by
  have h : (sampleTurn q b).fixed = b.fixed := by simp [sampleTurn]
  exact congrArg Fixed.timing h

theorem sampleTurn_other {o : Fin 16} (ho : o ≠ q) (b : Body) :
    (sampleTurn q b).programme o = b.programme o ∧ (sampleTurn q b).gain o = b.gain o ∧
      (sampleTurn q b).meter o = b.meter o := by
  obtain ⟨l1, l2, l3, -⟩ := LaneSampled.sampleLane q b
  obtain ⟨m1, m2, m3, -⟩ := sampleMeter_parts q (sampleLane q b)
  obtain ⟨g1, g2, g3, -⟩ := sampleGain_parts q (sampleMeter q (sampleLane q b))
  refine ⟨?_, ?_, ?_⟩
  · exact (congrArg (fun x : Vector Programme 16 => x[o]) (g1.trans m1)).trans (l1 o ho)
  · exact (g3 o ho).trans ((congrArg (fun x : Vector GainStage 16 => x[o]) m2).trans (l2 o ho))
  · exact (congrArg (fun x : Vector Meter 16 => x[o]) g2).trans ((m3 o ho).trans (l3 o ho))

theorem sampleTurn_own (b : Body) (ha : (b.programme q).active.isSome = true)
    (hr : ((sampleTurn q b).programme q).state = .running) :
    ((sampleTurn q b).gain q).core = ((b.gain q).advanced b.timing.sampleCounter).core ∧
      ((sampleTurn q b).meter q).tally = (b.meter q).tally := by
  obtain ⟨-, -, -, l4⟩ := LaneSampled.sampleLane q b
  obtain ⟨m1, m2, -, m4⟩ := sampleMeter_parts q (sampleLane q b)
  obtain ⟨g1, g2, -, g4⟩ := sampleGain_parts q (sampleMeter q (sampleLane q b))
  have programmes : (sampleTurn q b).programmes = (sampleLane q b).programmes := g1.trans m1
  obtain ⟨h1, h2⟩ := l4 ((congrArg (fun x : Vector Programme 16 => x[q].state) programmes).symm.trans hr)
  have active : ((sampleMeter q (sampleLane q b)).programme q).active = (b.programme q).active :=
    (congrArg (fun x : Vector Programme 16 => x[q].active) m1).trans (sets_programme (sampleLane_sets q b) q).1
  have timing : (sampleMeter q (sampleLane q b)).timing = b.timing :=
    congrArg Fixed.timing ((sampleMeter_fixed ..).trans (sampleLane_fixed ..))
  have gain : (sampleMeter q (sampleLane q b)).gain q = b.gain q :=
    (congrArg (fun x : Vector GainStage 16 => x[q]) m2).trans h1
  have own := g4 (active ▸ ha)
  rw [gain, timing] at own
  exact ⟨own, (congrArg (fun x : Vector Meter 16 => x[q].tally) g2).trans (m4.trans (congrArg Meter.tally h2))⟩

theorem samplePipeline_eq (b : Body) : samplePipeline b = assemble (b.eachProgramme sampleTurn) := rfl

theorem samplePipeline_timing (b : Body) : (samplePipeline b).timing = b.timing := by
  have h := samplePipeline_fixed b
  generalize samplePipeline b = c at h ⊢
  exact congrArg Fixed.timing h

theorem assemble_parts (b : Body) : (assemble b).programme p = b.programme p ∧ (assemble b).gain p = b.gain p ∧
    (assemble b).meter p = b.meter p := ⟨rfl, rfl, rfl⟩

/-- A house sample after which the programme still runs: its ramp one sample on, its meter's integration untouched. -/
theorem samplePipeline_own (b : Body) (ha : (b.programme p).active.isSome = true)
    (hr : ((samplePipeline b).programme p).state = .running) :
    ((samplePipeline b).gain p).core = ((b.gain p).advanced b.timing.sampleCounter).core ∧
      ((samplePipeline b).meter p).tally = (b.meter p).tally := by
  let R : Body → Body → Prop := fun b c =>
    (c.programme p = b.programme p ∧ c.gain p = b.gain p ∧ c.meter p = b.meter p) ∧ c.timing = b.timing
  obtain ⟨c, ⟨⟨h1, h2, h3⟩, h4⟩, ⟨h5, h6, h7⟩, -⟩ := eachProgramme_turn p sampleTurn R (fun _ => ⟨⟨rfl, rfl, rfl⟩, rfl⟩)
    (fun a b c h h' => ⟨⟨h'.1.1.trans h.1.1, h'.1.2.1.trans h.1.2.1, h'.1.2.2.trans h.1.2.2⟩, h'.2.trans h.2⟩)
    (fun q hq b => ⟨sampleTurn_other (Ne.symm hq) b, sampleTurn_timing q b⟩) b
  obtain ⟨a1, a2, a3⟩ := assemble_parts (p := p) (b.eachProgramme sampleTurn)
  rw [samplePipeline_eq, a1, h5] at hr
  obtain ⟨h8, h9⟩ := sampleTurn_own c (h1 ▸ ha) hr
  rw [h2, h4] at h8
  rw [samplePipeline_eq, a2, a3]
  exact ⟨(congrArg GainStage.core h6).trans h8, (congrArg Meter.tally h7).trans (h9.trans (congrArg Meter.tally h3))⟩

/-! ### PARK -/

theorem parkProgramme_gain (p : Fin 16) (b : Body) :
    (parkProgramme p b).gain p = { (b.gain p).takeBack b.timing.sampleCounter with gr := 0 } :=
  (beyond_gain (beyond_of_aside (parkProgramme_aside p b)) p).trans (Body.gain_setGain_same _ p _)

theorem parkProgramme_meter (p : Fin 16) (b : Body) :
    (parkProgramme p b).meter p = { (b.meter p).disturbClosed b.timing.sampleCounter with disturbed := true } :=
  (beyond_meter (beyond_of_aside (parkProgramme_aside p b)) p).trans (Body.meter_setMeter_same _ p _)

/-- What PARK takes back: the rider's decision and the step closed, where both belong to the house sample of the PARK. -/
theorem park_takesBack {t : State} {tag : Byte} {y : GainStage} (hfree : LineFree t)
    (hrun : (t.body.programme p).state = .running) (hnow : t.body.timing.sampleCounter = now)
    (hy : y.Restores now (t.body.gain p)) (hring : (t.body.meter p).ring ≠ [])
    (hclosed : (t.body.meter p).closed.map ClosedStep.sample = some now) :
    ∃ u, exec (.park tag p.val) t = .next u ∧
      (let z := u.body.gain p
       z.g = y.g ∧ z.applied = y.applied ∧ z.ramp = y.ramp ∧ z.rider = .gated ∧ z.desired = none ∧ z.gr = 0) ∧
      (u.body.meter p).ring.getLast?.map RingEntry.disturbed = some true ∧
      (u.body.meter p).counts = ((t.body.meter p).disturbClosed now).counts := by
  obtain ⟨hb, -⟩ := request_result (tag := tag) (r := .park p.val) hfree rfl (parkRequest_ok (by rw [hrun]; decide))
  have gain := (hb.gain p).trans (parkProgramme_gain p t.body)
  have meter := (hb.meter p).trans (congrArg (fun m : Meter => { m with sceneResetOwed := none })
    (parkProgramme_meter p t.body))
  rw [hnow] at gain meter
  obtain ⟨h1, h2, h3, h4, h5⟩ := hy
  refine ⟨_, rfl, ?_, ?_, (congrArg Meter.counts meter :)⟩
  · rw [gain]
    exact ⟨h1, h2, h3, h4, h5, rfl⟩
  · exact (congrArg (fun m : Meter => m.ring.getLast?.map RingEntry.disturbed) meter :).trans
      (disturbClosed_ring hring hclosed)

/-- The counts of a meter that PARK leaves, as O27 says them. -/
theorem takesBack_counts {m x n : Meter} {swept : Prop} (h : m.resetDue = none → m.pendingBlocks = [] ∨ swept → m.TakesBack now x)
    (hn : n.counts = (x.disturbClosed now).counts) :
    (m.resetDue = none → m.histogram.length = 750 → m.admitted < 16777215 →
      (m.pendingBlocks = [] ∨ (m.pendingBlocks.length < 4 ∧ swept)) →
      n.histogram = m.histogram ∧ n.admitted = m.admitted ∧ n.pendingBlocks = m.pendingBlocks ∧ n.integState = m.integState) ∧
    (m.resetDue = none → m.admitted < 16777215 → 16777215 ≤ m.admitted + 4 → m.pendingBlocks.length = 4 → swept →
      n.histogram = x.histogram ∧ n.admitted = x.admitted ∧ n.pendingBlocks = x.pendingBlocks ∧
        n.integState = x.integState) := by
  refine ⟨fun h1 h2 h3 h4 => ?_, fun h1 h2 h3 h4 h5 => ?_⟩
  · have short : m.pendingBlocks.length < 4 := h4.elim (fun e => by simp [e]) And.left
    have same := hn.trans ((h h1 (h4.imp_right And.right)).restores h2 h3 short)
    simpa [Meter.counts] using same
  · have same := hn.trans (disturbClosed_nothing ((h h1 (.inr h5)).nothing h2 h3 h4))
    simpa [Meter.counts] using same

/-- Settles O27: START and PARK as requests on the blocks; and PARK after STEP_BOUNDARY by what the boundary left to be taken
back, which a house sample between carries on. -/
theorem startAndPark : Obligations.StartAndPark := by
  refine ⟨fun s tag p st line hfree hs ha hl => ?_, fun s tag p hfree hs => ?_,
    fun s done tag p st => ?_⟩
  · obtain ⟨hb, hans⟩ := request_result (tag := tag) (r := .start p.val) hfree rfl (startRequest_ok hs)
    rw [startProgramme_eq ha hl] at hb
    exact ⟨_, rfl, hans, hb⟩
  · obtain ⟨hb, hans⟩ := request_result (tag := tag) (r := .park p.val) hfree rfl (parkRequest_ok ((carrying_iff _).2 hs))
    have quiet := parkProgramme_quiet p s.body
    rw [← hb.banks] at quiet
    exact ⟨_, rfl, hans, ⟨hb.1, hb.2.trans quiet⟩, fun k => by
      rw [hb.bank]
      exact parkProgramme_bank p s.body k⟩
  · intro x m now hdue hp hrun ha hride hstarted hjudged parked
    have hj : ∀ j, (s.body.gain p).judged = some j → j.sample ≠ s.body.timing.sampleCounter := fun j hj => by
      have h : (s.body.gain p).judged.all (fun j => decide (j.sample ≠ s.body.timing.sampleCounter)) = true := hjudged
      rw [hj] at h
      simpa using h
    obtain ⟨t, ht, hb⟩ := bodyEvent_becomes stepBoundaryWork s
    obtain ⟨took, stored, timing⟩ := stepBoundaryWork_took hdue hp ha hride hstarted hj
    have tMeter := hb.meter p
    have tTally : (t.body.meter p).tally = ((stepBoundaryWork s.body).meter p).tally := (congrArg Meter.tally tMeter :)
    have programme : (stepBoundaryWork s.body).programme p = s.body.programme p :=
      congrArg (fun x : Vector Programme 16 => x[p]) (congrArg Prod.fst stored)
    have tTiming : t.body.timing = { s.body.timing with stepDue := none } := hb.timing.trans timing
    have tNow : t.body.timing.sampleCounter = now := (congrArg Timing.sampleCounter tTiming :)
    have tRun : (t.body.programme p).state = .running := (hb.programme_state p).trans (programme ▸ hrun)
    have takes : (s.body.meter p).resetDue = none → (s.body.meter p).pendingBlocks = [] ∨
        (∃ w : Sweep, s.body.sweep = some w ∧ w.programme = p) → (s.body.meter p).TakesBack now (t.body.meter p) :=
      fun h1 h2 => (took.meter h1 (h2.imp_right sweeping_iff.2)).2.of_tally tTally
    have gain : (s.body.gain p).Restores now (t.body.gain p) := by
      rw [hb.gain]
      exact took.gain
    have ring : (t.body.meter p).ring ≠ [] := fun e => took.ring ((congrArg Meter.ring tTally :).symm.trans e)
    have closed : (t.body.meter p).closed.map ClosedStep.sample = some now :=
      (congrArg (fun m : Meter => m.closed.map ClosedStep.sample) tTally :).trans took.closed
    have done_park : ∀ (u : State) (y : GainStage), (u.body.programme p).state = .running →
        u.body.timing.sampleCounter = now → y.Restores now (u.body.gain p) → y.g = x.g →
        (u.body.meter p).tally = (t.body.meter p).tally → parked u y := by
      intro u y hru hnow hy hg htally hfree
      have uring : (u.body.meter p).ring ≠ [] := fun e => ring ((congrArg Meter.ring htally :).symm.trans e)
      have uclosed : (u.body.meter p).closed.map ClosedStep.sample = some now :=
        (congrArg (fun m : Meter => m.closed.map ClosedStep.sample) htally :).trans closed
      obtain ⟨v, hv, ⟨hz, hrest⟩, hr, hcounts⟩ := park_takesBack (tag := tag) hfree hru hnow hy uring uclosed
      obtain ⟨h3, h4⟩ := takesBack_counts (fun h1 h2 => (takes h1 h2).of_tally htally) hcounts
      exact ⟨v, hv, ⟨hz.trans hg, hrest⟩, hr, h3, h4⟩
    refine ⟨t, ht, done_park t x tRun tNow gain rfl rfl, fun howed => ?_⟩
    obtain ⟨u, hu, hbu⟩ := bodyEvent_becomes houseSampleWork t
    refine ⟨u, hu, fun hru => ?_⟩
    have owed : t.body.timing.samplesOwed ≠ 0 := by
      rw [tTiming]
      exact howed ▸ Nat.one_ne_zero
    have work : houseSampleWork t.body =
        samplePipeline (t.body.onTiming fun t => { t with samplesOwed := t.samplesOwed - 1 }) := if_pos owed
    rw [work] at hbu
    generalize hd : (t.body.onTiming fun t => { t with samplesOwed := t.samplesOwed - 1 }) = d at hbu
    have dNow : d.timing.sampleCounter = now := by
      rw [← hd]
      exact tNow
    have same : d.programme p = t.body.programme p ∧ d.gain p = t.body.gain p ∧ d.meter p = t.body.meter p := by
      rw [← hd]
      exact ⟨rfl, rfl, rfl⟩
    obtain ⟨dProgramme, dGain, dMeter⟩ := same
    have tActive : (t.body.programme p).active = some st :=
      (congrArg Programme.active (hb.programme p) :).trans ((congrArg Programme.active programme).trans ha)
    obtain ⟨core, tally⟩ := samplePipeline_own (p := p) d (by rw [dProgramme, tActive]; rfl)
      ((hbu.programme_state p).symm.trans hru)
    have timing := samplePipeline_timing d
    generalize samplePipeline d = e at hbu core tally timing
    have uNow : u.body.timing.sampleCounter = now :=
      (congrArg Timing.sampleCounter (hbu.timing.trans timing)).trans dNow
    have advanced := core.trans (congrArg₂ (fun x n => (GainStage.advanced x n).core) dGain dNow)
    refine done_park u x.advance hru uNow ?_ (advance_beside x).1
      ((congrArg Meter.tally (hbu.meter p) :).trans (tally.trans (congrArg Meter.tally dMeter)))
    rw [hbu.gain]
    exact gain.advanced.of_core advanced

end Sys2Proof.Machine
end

section
/-! What the work of a frame boundary leaves of a programme: the lane keeps its source under everything the reader does. The
first layer under O7. -/

namespace Sys2Proof.Machine

variable {b c : Body} {p o : Fin 16}

/-- Work on lanes, banks and operations in flight that leaves every lane its source and the watch list its entries. -/
structure LaneWork (b c : Body) : Prop where
  aside : c.aside = b.aside
  source : ∀ o, (c.lane o).source = (b.lane o).source
  watch : c.line.watch = b.line.watch

namespace LaneWork

theorem refl (b : Body) : LaneWork b b := ⟨rfl, fun _ => rfl, rfl⟩

theorem trans {d : Body} (h : LaneWork b c) (h' : LaneWork c d) : LaneWork b d :=
  ⟨h'.aside.trans h.aside, fun o => (h'.source o).trans (h.source o), h'.watch.trans h.watch⟩

theorem programme (h : LaneWork b c) (o : Fin 16) : c.programme o = b.programme o := aside_programme h.aside o

theorem onLane (p : Fin 16) {f : Lane → Lane} (hf : ∀ l, (f l).source = l.source) :
    LaneWork b (b.onLane p f) := ⟨rfl, fun _ => source_onLane hf, rfl⟩

theorem pumpReads (p : Fin 16) (b : Body) : LaneWork b (pumpReads p b) :=
  ⟨pumpReads_aside p b, fun o => (congrArg Lane.source (pumpReads_lane p o b) :), congrArg _ (pumpReads_line p b)⟩

theorem refreshSetpoint (p : Fin 16) (b : Body) : LaneWork b (refreshSetpoint p b) :=
  ⟨refreshSetpoint_aside p b, (refreshSetpoint_source p · b), congrArg _ (refreshSetpoint_line p b)⟩

theorem discardHeld (p : Fin 16) (b : Body) : LaneWork b (discardHeld p b) :=
  ⟨discardHeld_aside p b, (discardHeld_source p · b), congrArg _ (discardHeld_line p b)⟩

theorem completeTag (t : Byte) (x : OpOutcome) (l : List Field) (b : Body) : LaneWork b (completeTag t x l b) :=
  ⟨rfl, fun _ => rfl, rfl⟩

theorem endChange (p : Fin 16) (x : OpOutcome) (b : Body) : LaneWork b (endChange p x b) := by
  unfold Machine.endChange
  split
  · exact refl b
  · refine trans (onLane p (f := fun l => { l with change := none, overrideFast := false }) fun _ => rfl) ?_
    simp only
    split
    · exact completeTag _ _ _ _
    · exact onLane p fun _ => rfl
    · exact refl _

theorem endTail (p : Fin 16) (b : Body) : LaneWork b (endTail p b) := by
  unfold Machine.endTail
  refine trans (onLane p (f := fun l => { l with tail := none }) fun _ => rfl) ?_
  simp only
  split
  · split
    · split
      · exact onLane p fun _ => rfl
      · exact endChange p _ _
    · exact refl _
  · exact refl _

theorem settleTail (p : Fin 16) (b : Body) : LaneWork b (settleTail p b) := by
  unfold Machine.settleTail
  split
  · exact endTail p b
  · exact refl b

theorem reachMark (p : Fin 16) (m : SpliceMark) (b : Body) : LaneWork b (reachMark p m b) :=
  (onLane p (f := fun l => { l.takeMark m (markQ b m) with marks := l.marks.tail, fadeIn := 64 }) fun _ => rfl).trans
    (refreshSetpoint p _)

theorem makeTail (p : Fin 16) (b : Body) : LaneWork b (makeTail p b) := by
  refine onLane p fun l => ?_
  split <;> rfl

theorem moveReader (p : Fin 16) (d : Count) (b : Body) : LaneWork b (moveReader p d b) := by
  unfold Machine.moveReader
  extract_lets l gone b1
  have moved : LaneWork b b1 := onLane p fun _ => rfl
  split
  · exact moved
  · rename_i m _
    exact moved.trans ((onLane p (f := fun l => l.takeMark m (markQ b1 m)) fun _ => rfl).trans (refreshSetpoint p _))

theorem makeCut (p : Fin 16) (x : DelayChange) (b : Body) : LaneWork b (makeCut p x b) := by
  unfold Machine.makeCut
  extract_lets b1 l
  have aimed : LaneWork b b1 := (onLane p (f := fun l => { l with target := x.target }) fun _ => rfl).trans (refreshSetpoint p _)
  split
  · simp only
    split
    · exact aimed.trans (endChange p _ _)
    · exact aimed.trans ((makeTail p b1).trans ((moveReader p _ _).trans (trans (onLane p (by exact fun _ => rfl)) (pumpReads p _))))
  · exact aimed

theorem cutDue (p : Fin 16) (f : Count) (b : Body) : LaneWork b (cutDue p f b) := by
  unfold Machine.cutDue
  simp only
  refine (settleTail p b).trans ?_
  split
  · split
    · exact makeCut p _ _
    · exact refl _
  · exact refl _

theorem forcedJump (p : Fin 16) (b : Body) : LaneWork b (forcedJump p b) := by
  unfold Machine.forcedJump
  extract_lets b1
  have ended : LaneWork b b1 := by
    show LaneWork b (if _ then _ else _)
    split
    · exact endTail p b
    · exact refl b
  split
  · exact ended
  · rename_i m _ _
    exact ended.trans ((onLane p (f := fun l => { l with readSeq := m.seq }) fun _ => rfl).trans
      ((reachMark p m _).trans (pumpReads p _)))

theorem placeMark (p : Fin 16) (src : Source) (b : Body) : LaneWork b (placeMark p src b) := by
  unfold Machine.placeMark
  simp only
  split
  · exact onLane p fun _ => rfl
  · split
    · exact (forcedJump p b).trans (onLane p (by exact fun _ => rfl))
    · exact onLane p fun _ => rfl

theorem emptyLine (p : Fin 16) (b : Body) : LaneWork b (emptyLine p b) := onLane p fun _ => rfl

theorem clearOverloadRuns (p : Fin 16) (b : Body) : LaneWork b (clearOverloadRuns p b) := onLane p fun _ => rfl

theorem endDelayWrite (p : Fin 16) (n : Nat) (x : Option DelayOrigin) (b : Body) :
    LaneWork b (endDelayWrite p n x b) := by
  unfold Machine.endDelayWrite
  split
  · exact completeTag _ _ _ _
  · exact onLane p fun _ => rfl
  · exact refl b

theorem beginChange (p : Fin 16) (new : Settings) (x : Option DelayOrigin) (f : Count) (b : Body) :
    LaneWork b (beginChange p new x f b) := by
  unfold Machine.beginChange
  refine (endChange p .superseded b).trans ?_
  simp only
  split
  · exact trans (onLane p (by exact fun _ => rfl)) (refreshSetpoint p _)
  · exact onLane p fun _ => rfl

theorem commitDelay (p : Fin 16) (old new : Settings) (x : Option DelayOrigin) (f : Count) (b : Body) :
    LaneWork b (commitDelay p old new x f b) := by
  unfold Machine.commitDelay
  split
  · exact endDelayWrite ..
  · split
    · exact beginChange ..
    · exact (onLane p (f := fun l => { l with target := new.delayTarget }) fun _ => rfl).trans
        ((refreshSetpoint p _).trans (endDelayWrite ..))

end LaneWork

end Sys2Proof.Machine
end

section
/-! A programme's turn at a frame boundary: what a switch, a commit or a cut of one programme leaves of the others, and what it
keeps of its own course. The second layer under O7. -/

namespace Sys2Proof.Machine

variable {b c : Body} {p o : Fin 16}

/-- The course of a programme is kept: it carries a feed, and runs, where it did before; its running mark stands, and no
selector is requested anew. -/
structure Programme.Follows (r x : Programme) : Prop where
  carrying : Machine.carrying x.state = Machine.carrying r.state
  running : (x.state == .running) = (r.state == .running)
  mark : x.runningMark = r.runningMark
  request : r.requested = none → x.requested = none

theorem Programme.Follows.refl (r : Programme) : r.Follows r := ⟨rfl, rfl, rfl, id⟩

theorem Programme.Follows.trans {r x y : Programme} (h : r.Follows x) (h' : x.Follows y) : r.Follows y :=
  ⟨h'.carrying.trans h.carrying, h'.running.trans h.running, h'.mark.trans h.mark, h'.request ∘ h.request⟩

/-- Work for one programme: it keeps its course, the others stand with the sources of their lanes, and so does the watch
list. -/
structure Turn (p : Fin 16) (b c : Body) : Prop where
  own : (b.programme p).Follows (c.programme p)
  programme : ∀ o, o ≠ p → c.programme o = b.programme o
  source : ∀ o, o ≠ p → (c.lane o).source = (b.lane o).source
  watch : c.line.watch = b.line.watch

theorem LaneWork.turn (h : LaneWork b c) (p : Fin 16) : Turn p b c :=
  ⟨h.programme p ▸ .refl _, fun o _ => h.programme o, fun o _ => h.source o, h.watch⟩

namespace Turn

theorem refl (p : Fin 16) (b : Body) : Turn p b b := (LaneWork.refl b).turn p

theorem trans {d : Body} (h : Turn p b c) (h' : Turn p c d) : Turn p b d :=
  ⟨h.own.trans h'.own, fun o ho => (h'.programme o ho).trans (h.programme o ho),
    fun o ho => (h'.source o ho).trans (h.source o ho), h'.watch.trans h.watch⟩

theorem onProgramme {f : Programme → Programme} (hf : (b.programme p).Follows (f (b.programme p))) :
    Turn p b (b.onProgramme p f) := by
  refine ⟨?_, fun o ho => ?_, fun _ _ => rfl, rfl⟩
  · rw [Body.onProgramme_eq, Body.programme_setProgramme_same]
    exact hf
  · rw [Body.onProgramme_eq, Body.programme_setProgramme_other _ _ _ _ ho.symm]

theorem onLane (f : Lane → Lane) : Turn p b (b.onLane p f) := by
  refine ⟨.refl _, fun _ _ => rfl, fun o ho => ?_, rfl⟩
  rw [Body.onLane_eq, Body.lane_setLane_other _ _ _ _ ho.symm]

theorem oweState (p : Fin 16) (x : StateCause) (b : Body) : Turn p b (oweState p x b) :=
  onProgramme ⟨rfl, rfl, rfl, id⟩

theorem resumeProgramme (h : (b.programme p).state = .starved) : Turn p b (resumeProgramme p b) := by
  unfold Machine.resumeProgramme
  refine (onLane fun l => { l with readSeq := l.writeSeq, historyStart := l.writeSeq, marks := [] }).trans ?_
  refine trans (onProgramme (f := fun r => { r with state := .priming }) ?_)
    ((oweState p .resumed _).trans ((LaneWork.clearOverloadRuns p _).turn p))
  exact ⟨by rw [Body.onLane_eq, Body.programme_setLane, h]; rfl, by rw [Body.onLane_eq, Body.programme_setLane, h]; rfl,
    rfl, id⟩

theorem switchSource (p : Fin 16) (src : Source) (x : StateCause) (b : Body) : Turn p b (switchSource p src x b) := by
  unfold Machine.switchSource
  extract_lets b1 b2 b3 b4 b5
  have loaded : Turn p b1 b2 := by
    refine onProgramme ?_
    split <;> exact ⟨rfl, rfl, rfl, id⟩
  have marked : Turn p b2 b3 := by
    show Turn p b2 (if _ then _ else _)
    split
    · exact (LaneWork.placeMark p src b2).turn p
    · exact refl p b2
  have sourced : Turn p b b4 := (oweState p x b).trans (loaded.trans (marked.trans
    ((onLane _).trans ((LaneWork.clearOverloadRuns p _).turn p))))
  have held : Turn p b (Machine.discardHeld p b4) := sourced.trans ((LaneWork.discardHeld p b4).turn p)
  have state5 : (Machine.discardHeld p b4).programme p = b4.programme p := (LaneWork.discardHeld p b4).programme p
  clear_value b4
  split
  · exact held.trans (((LaneWork.emptyLine p _).turn p).trans ((LaneWork.refreshSetpoint p _).turn p))
  · rename_i hs
    split
    · refine held.trans (((LaneWork.emptyLine p _).turn p).trans ((resumeProgramme ?_).trans
        ((oweState p x _).trans ((LaneWork.refreshSetpoint p _).turn p))))
      rw [(LaneWork.emptyLine p _).programme, state5, hs]
    · exact held
  · exact sourced

theorem changeSelector (p : Fin 16) (side : Selector) (x : StateCause) (b : Body) :
    Turn p b (changeSelector p side x b) := by
  unfold Machine.changeSelector
  refine (onProgramme (f := fun r => { r with selector := side }) ⟨rfl, rfl, rfl, id⟩).trans ?_
  simp only
  split
  · split
    · exact oweState p x _
    · exact switchSource p _ x _
  · exact refl p _

theorem reconcile (p : Fin 16) (b : Body) : Turn p b (reconcile p b) := by
  unfold Machine.reconcile
  simp only
  split
  · exact refl p b
  · split
    · split
      · exact changeSelector p _ _ b
      · exact (onProgramme (f := fun r => { r with selector := .main }) ⟨rfl, rfl, rfl, id⟩).trans (oweState p _ _)
    · split
      · exact switchSource p _ _ b
      · exact refl p b

theorem takeFailover (a : FailoverAction) (b : Body) : Turn a.programme b (takeFailover a b) := by
  unfold Machine.takeFailover
  split
  · exact refl _ b
  · exact changeSelector ..

theorem guardStep (p : Fin 16) (b : Body) : Turn p b (guardStep p b) := onProgramme ⟨rfl, rfl, rfl, id⟩

theorem applyRequested (p : Fin 16) (b : Body) : Turn p b (applyRequested p b) := by
  unfold Machine.applyRequested
  refine (onProgramme (f := fun r => { r with requested := none }) ⟨rfl, rfl, rfl, fun _ => rfl⟩).trans ?_
  simp only
  split
  · exact refl p _
  · split
    · exact refl p _
    · exact changeSelector ..

theorem revertTest (p : Fin 16) (b : Body) : Turn p b (revertTest p b) := by
  unfold Machine.revertTest
  simp only
  split
  · exact refl p b
  · split
    · exact onProgramme ⟨rfl, rfl, rfl, id⟩
    · have counted : Turn p b (b.onProgramme p fun r => { r with revertCount := (b.programme p).revertCount - 1 }) :=
        onProgramme ⟨rfl, rfl, rfl, id⟩
      split
      · exact counted.trans (changeSelector ..)
      · exact counted

theorem switchingWork (p : Fin 16) (b : Body) : Turn p b (switchingWork p b) := by
  unfold Machine.switchingWork
  split
  · exact (guardStep p b).trans ((applyRequested p _).trans (revertTest p _))
  · exact refl p b

theorem takeSet (p : Fin 16) (old : Settings) (w : Pending) (b : Body) : Turn p b (b.takeSet p old w) := by
  have stored : Turn p b (b.onProgramme p fun r => { r with active := some w.settings, pending := none }) :=
    onProgramme ⟨rfl, rfl, rfl, id⟩
  refine ⟨?_, fun o ho => ?_, fun o _ => congrArg Lane.source (takeSet_lane o), congrArg _ takeSet_line⟩
  · rw [takeSet_programme]
    exact ⟨rfl, rfl, rfl, id⟩
  · refine Eq.trans ?_ (stored.programme o ho)
    unfold Body.takeSet
    simp only
    split <;> split <;> rfl

theorem commitSet (p : Fin 16) (f : Count) (b : Body) : Turn p b (commitSet p f b) := by
  cases hp : (b.programme p).pending with
  | none => unfold Machine.commitSet; simp only [hp]; exact refl p b
  | some w =>
    cases ha : (b.programme p).active with
    | none => unfold Machine.commitSet; simp only [hp, ha]; exact refl p b
    | some old =>
      rw [commitSet_eq hp ha]
      exact (takeSet p old w b).trans (((LaneWork.commitDelay ..).turn p).trans (reconcile p _))

theorem commitDirect (p : Fin 16) (f : Count) (b : Body) : Turn p b (commitDirect p f b) := by
  unfold Machine.commitDirect
  split
  · exact commitSet p f b
  · exact refl p b

theorem discardScene (p : Fin 16) (b : Body) : Turn p b (discardScene p b) := by
  have dropped : ∀ c, Turn p c (c.onProgramme p fun r => { r with pending := none }) :=
    fun c => onProgramme ⟨rfl, rfl, rfl, id⟩
  unfold Machine.discardScene
  simp only
  split
  · split
    · exact ((LaneWork.completeTag _ _ _ b).turn p).trans (dropped _)
    · exact dropped b
  · exact refl p b

end Turn

end Sys2Proof.Machine
end

section
/-! What the sequencer's part and the evaluation of a frame boundary leave of the programmes. The third layer under O7. -/

namespace Sys2Proof.Machine

variable {b c : Body} {p : Fin 16}

/-! ### All programmes, and one of them -/

/-- Every programme keeps its course, and the watch list stands. -/
structure Along (b c : Body) : Prop where
  own : ∀ p, (b.programme p).Follows (c.programme p)
  watch : c.line.watch = b.line.watch

theorem Along.refl (b : Body) : Along b b := ⟨fun _ => .refl _, rfl⟩

theorem Along.trans {d : Body} (h : Along b c) (h' : Along c d) : Along b d :=
  ⟨fun p => (h.own p).trans (h'.own p), h'.watch.trans h.watch⟩

theorem Turn.along (h : Turn p b c) : Along b c := by
  refine ⟨fun o => ?_, h.watch⟩
  by_cases e : o = p
  · exact e ▸ h.own
  · exact h.programme o e ▸ .refl _

theorem Along.foldl {α : Type} (l : List α) (f : Body → α → Body) (h : ∀ b a, Along b (f b a)) (b : Body) :
    Along b (l.foldl f b) := by
  induction l generalizing b with
  | nil => exact .refl b
  | cons a l ih => exact (h b a).trans (ih _)

/-- A programme stands, with the source of its lane. -/
structure Apart (p : Fin 16) (b c : Body) : Prop where
  programme : c.programme p = b.programme p
  source : (c.lane p).source = (b.lane p).source

theorem Apart.refl (p : Fin 16) (b : Body) : Apart p b b := ⟨rfl, rfl⟩

theorem Apart.trans {d : Body} (h : Apart p b c) (h' : Apart p c d) : Apart p b d :=
  ⟨h'.programme.trans h.programme, h'.source.trans h.source⟩

theorem Turn.apart {o : Fin 16} (h : Turn o b c) (ho : o ≠ p) : Apart p b c :=
  ⟨h.programme p ho.symm, h.source p ho.symm⟩

theorem LaneWork.apart (h : LaneWork b c) (p : Fin 16) : Apart p b c := ⟨h.programme p, h.source p⟩

theorem Apart.owned (h : Apart p b c) (o : Owner) : ownedBy c o p = ownedBy b o p := by
  unfold ownedBy
  rw [h.programme]

/-! ### The sequencer -/

/-- The sequencer's work: no programme leaves its course, and one without a set of the scene stands. -/
structure SceneWork (p : Fin 16) (b c : Body) : Prop where
  along : Along b c
  apart : ownedBy b .scene p = false → Apart p b c

namespace SceneWork

theorem refl (p : Fin 16) (b : Body) : SceneWork p b b := ⟨.refl b, fun _ => .refl p b⟩

theorem trans {d : Body} (h : SceneWork p b c) (h' : SceneWork p c d) : SceneWork p b d :=
  ⟨h.along.trans h'.along, fun ho => (h.apart ho).trans (h'.apart (((h.apart ho).owned _).trans ho))⟩

/-- Work beside programmes and lanes. -/
theorem of_eq (hp : c.programmes = b.programmes) (hl : c.lanes = b.lanes) (hw : c.line.watch = b.line.watch) :
    SceneWork p b c := by
  have same : ∀ o, c.programme o = b.programme o := fun o => by unfold Body.programme; rw [hp]
  exact ⟨⟨fun o => same o ▸ .refl _, hw⟩, fun _ => ⟨same p, by unfold Body.lane; rw [hl]⟩⟩

theorem endTake (o : OpOutcome) (f : Count) (b : Body) : SceneWork p b (endTake o f b) := by
  unfold Machine.endTake
  simp only
  split <;> exact of_eq rfl rfl rfl

theorem discardScene (o : Fin 16) (b : Body) : SceneWork p b (discardScene o b) := by
  refine ⟨(Turn.discardScene o b).along, fun h => ?_⟩
  by_cases e : o = p
  · subst e
    have idle : Machine.discardScene o b = b := by simp [Machine.discardScene, h]
    rw [idle]
    exact .refl o b
  · exact (Turn.discardScene o b).apart e

theorem abandonTake (f : Count) (b : Body) : SceneWork p b (abandonTake f b) := by
  have each : ∀ (l : List (Fin 16)) (b : Body), SceneWork p b (l.foldl (fun b o => Machine.discardScene o b) b) := by
    intro l
    induction l with
    | nil => exact refl p
    | cons o l ih => exact fun b => (discardScene o b).trans (ih _)
  exact (each programmeIds b).trans (endTake _ f _)

theorem applyCommitItem (f : Count) (i : CommitItem) (b : Body) : SceneWork p b (applyCommitItem f i b).2 := by
  cases i with
  | alarmcfg e x => exact of_eq rfl rfl rfl
  | integrate o a =>
    unfold Machine.applyCommitItem
    simp only
    split
    · exact of_eq rfl rfl rfl
    · split <;> exact of_eq rfl rfl rfl

theorem applyCommitList (f : Count) (is : List CommitItem) (b : Body) : SceneWork p b (applyCommitList f is b).2 := by
  induction is generalizing b with
  | nil => exact refl p b
  | cons i is ih => exact (applyCommitItem f i b).trans (ih _)

theorem afterCommit (f : Count) (b : Body) : SceneWork p b (afterCommit f b) := by
  unfold Machine.afterCommit
  split
  · exact endTake _ f b
  · exact of_eq rfl rfl rfl
  · exact of_eq rfl rfl rfl

theorem commitSets (f : Count) (b : Body) :
    SceneWork p b ((programmeIds.filter (ownedBy b .scene)).foldl (fun b o => commitSet o f b) b) := by
  refine ⟨.foldl _ _ (fun b o => (Turn.commitSet o f b).along) b, fun h => ?_⟩
  have others : ∀ (l : List (Fin 16)) (b : Body), p ∉ l → Apart p b (l.foldl (fun b o => commitSet o f b) b) := by
    intro l
    induction l with
    | nil => exact fun b _ => .refl p b
    | cons o l ih =>
      intro b hp
      obtain ⟨ho, hl⟩ := not_or.1 (List.mem_cons.not.1 hp)
      exact ((Turn.commitSet o f b).apart (Ne.symm ho)).trans (ih _ hl)
  exact others _ b (by simp [h])

theorem commitSegment (f : Count) (b : Body) : SceneWork p b (commitSegment f b) := by
  unfold Machine.commitSegment
  extract_lets programmes items b1 x b2
  have listed : SceneWork p b x.2 := (commitSets f b).trans (applyCommitList f items b1)
  exact listed.trans ((of_eq rfl rfl rfl : SceneWork p x.2 b2).trans (afterCommit f b2))

theorem sequencerStep (f : Count) (b : Body) : SceneWork p b (sequencerStep f b) := by
  unfold Machine.sequencerStep
  simp only
  split
  · split <;> exact of_eq rfl rfl rfl
  · exact commitSegment f b
  · split <;> exact of_eq rfl rfl rfl
  · split
    · split
      · exact abandonTake f b
      · exact of_eq rfl rfl rfl
    · exact refl p b
  · exact refl p b
  · exact refl p b

end SceneWork

/-- A sequencer that commits nothing leaves the alarm entries. -/
theorem sequencerStep_entries (f : Count) (h : b.sequencer.state ≠ .committing) :
    (sequencerStep f b).entries = b.entries := by
  have ended : ∀ (o : OpOutcome) (b : Body), (endTake o f b).entries = b.entries := fun o b => by
    unfold endTake
    simp only
    split <;> rfl
  unfold sequencerStep
  simp only
  split
  · split <;> rfl
  · rename_i e
    exact absurd e h
  · split <;> rfl
  · split
    · split
      · exact (ended _ _).trans (fixed_entries (eachProgramme_fixed b _ discardScene_fixed))
      · rfl
    · rfl
  · rfl
  · rfl

/-! ### The evaluation -/

/-- Evaluating entries changes entries alone. -/
theorem evaluateEntries_only (f : Count) (es : List (Fin 154)) (b : Body) :
    ∃ v, (evaluateEntries f es b).1 = { b with entries := v } := by
  induction es generalizing b with
  | nil => exact ⟨b.entries, rfl⟩
  | cons e es ih =>
    obtain ⟨v, hv⟩ := ih (evaluateEntry f e b).1
    refine ⟨v, hv.trans ?_⟩
    unfold evaluateEntry
    simp only
    split <;> rfl

theorem clearSeen_programme (l : List (Fin 154)) (b : Body) (p : Fin 16) :
    (clearSeen l b).programme p =
      { b.programme p with memorySeen := (b.programme p).memorySeen && l.contains (programmeEntry p 7)
                           runningMark := (b.programme p).state == .running
                           ownMarks := (b.programme p).ownMarks.filter fun x => evaluatedKind l p x.1 } := by
  simp [clearSeen, Body.programme]

theorem clearSeen_source (l : List (Fin 154)) (b : Body) (p : Fin 16) :
    ((clearSeen l b).lane p).source = (b.lane p).source := by
  simp [clearSeen, Body.lane]

/-- The blocks when the entries are evaluated and the seen flags cleared, before the failover actions (R139). -/
def judged (d : Boundary) (b : Body) : Body :=
  clearSeen d.evaluated (evaluateEntries d.frame (entryIds.filter fun e => !d.evaluated.contains e) b).1

/-- The failover actions of an evaluation. -/
def raised (d : Boundary) (b : Body) : List FailoverAction :=
  d.actions ++ (evaluateEntries d.frame (entryIds.filter fun e => !d.evaluated.contains e) b).2

theorem evaluate_eq (d : Boundary) (b : Body) :
    evaluate d b = recomputeContacts (takeActions (raised d b) (judged d b)) := rfl

theorem judged_programme (d : Boundary) (b : Body) (p : Fin 16) :
    (judged d b).programme p =
      { b.programme p with memorySeen := (b.programme p).memorySeen && d.evaluated.contains (programmeEntry p 7)
                           runningMark := (b.programme p).state == .running
                           ownMarks := (b.programme p).ownMarks.filter fun x => evaluatedKind d.evaluated p x.1 } := by
  unfold judged
  obtain ⟨v, hv⟩ := evaluateEntries_only d.frame (entryIds.filter fun e => !d.evaluated.contains e) b
  rw [clearSeen_programme, hv]
  rfl

theorem judged_source (d : Boundary) (b : Body) (p : Fin 16) : ((judged d b).lane p).source = (b.lane p).source := by
  unfold judged
  obtain ⟨v, hv⟩ := evaluateEntries_only d.frame (entryIds.filter fun e => !d.evaluated.contains e) b
  rw [clearSeen_source, hv]
  rfl

theorem judged_line (d : Boundary) (b : Body) : (judged d b).line = b.line := by
  obtain ⟨v, hv⟩ := evaluateEntries_only d.frame (entryIds.filter fun e => !d.evaluated.contains e) b
  unfold judged
  rw [hv]
  rfl

theorem judged_sequencer (d : Boundary) (b : Body) : (judged d b).sequencer = b.sequencer := by
  obtain ⟨v, hv⟩ := evaluateEntries_only d.frame (entryIds.filter fun e => !d.evaluated.contains e) b
  unfold judged
  rw [hv]
  rfl

theorem takeActions_along (l : List FailoverAction) (b : Body) : Along b (takeActions l b) :=
  .foldl _ _ (fun b a => (Turn.takeFailover a b).along) b

theorem recomputeContacts_programme (b : Body) (p : Fin 16) : (recomputeContacts b).programme p = b.programme p := rfl
theorem recomputeContacts_lane (b : Body) (p : Fin 16) : (recomputeContacts b).lane p = b.lane p := rfl

/-- After an evaluation the running mark says whether the programme runs; its feed and its request stand (R141). -/
theorem evaluate_programme (d : Boundary) (b : Body) (p : Fin 16) :
    carrying ((evaluate d b).programme p).state = carrying (b.programme p).state ∧
      ((evaluate d b).programme p).runningMark = (((evaluate d b).programme p).state == .running) ∧
      ((b.programme p).requested = none → ((evaluate d b).programme p).requested = none) := by
  have h := (takeActions_along (raised d b) (judged d b)).own p
  rw [judged_programme] at h
  rw [evaluate_eq, recomputeContacts_programme]
  exact ⟨h.carrying, h.mark.trans h.running.symm, h.request⟩

theorem evaluate_watch (d : Boundary) (b : Body) : (evaluate d b).line.watch = b.line.watch :=
  (takeActions_along (raised d b) (judged d b)).watch.trans (congrArg LineBlock.watch (judged_line d b))

theorem evaluate_sequencer (d : Boundary) (b : Body) : (evaluate d b).sequencer = b.sequencer :=
  (fixed_sequencer (takeActions_fixed (raised d b) (judged d b))).trans (judged_sequencer d b)

end Sys2Proof.Machine
end

section
/-! The scheme under O7: a property that every piece of a frame boundary keeps stands when the boundary is closed, with every
block taken, in whatever order. -/

namespace Sys2Proof.Machine

variable {b c : Body} {p : Fin 16} {s : State}

/-! ### How far a boundary is taken -/

/-- The same boundary, taken as far or further. -/
structure Boundary.Further (d e : Boundary) : Prop where
  frame : e.frame = d.frame
  evaluated : e.evaluated = d.evaluated
  actions : e.actions = d.actions
  committed : ∀ p ∈ d.committed, p ∈ e.committed
  worked : ∀ p ∈ d.worked, p ∈ e.worked
  cut : ∀ p ∈ d.cut, p ∈ e.cut
  alarms : d.alarmsDone = true → e.alarmsDone = true
  sequencer : d.sequencerDone = true → e.sequencerDone = true
  watch : d.watchDone = true → e.watchDone = true

theorem Boundary.Further.refl (d : Boundary) : d.Further d :=
  ⟨rfl, rfl, rfl, fun _ => id, fun _ => id, fun _ => id, id, id, id⟩

theorem Boundary.Further.trans {d e g : Boundary} (h : d.Further e) (h' : e.Further g) : d.Further g where
  frame := h'.frame.trans h.frame
  evaluated := h'.evaluated.trans h.evaluated
  actions := h'.actions.trans h.actions
  committed p hp := h'.committed p (h.committed p hp)
  worked p hp := h'.worked p (h.worked p hp)
  cut p hp := h'.cut p (h.cut p hp)
  alarms := h'.alarms ∘ h.alarms
  sequencer := h'.sequencer ∘ h.sequencer
  watch := h'.watch ∘ h.watch

/-- A block's work is done at the boundary. -/
def Boundary.Taken (d : Boundary) : BoundaryBlock → Prop
  | .commits => ∀ p, p ∈ d.committed
  | .sequencer => d.sequencerDone = true
  | .programmes => ∀ p, p ∈ d.worked
  | .alarms => d.alarmsDone = true
  | .cuts => ∀ p, p ∈ d.cut
  | .watch => d.watchDone = true

theorem Boundary.Further.taken {d e : Boundary} (h : d.Further e) {k : BoundaryBlock} (hk : d.Taken k) : e.Taken k := by
  cases k with
  | commits => exact fun p => h.committed p (hk p)
  | sequencer => exact h.sequencer hk
  | programmes => exact fun p => h.worked p (hk p)
  | alarms => exact h.alarms hk
  | cuts => exact fun p => h.cut p (hk p)
  | watch => exact h.watch hk

/-! ### What each piece must keep -/

/-- A property of the blocks, and of how far the boundary `d` is taken, that every piece keeps. -/
structure Keeping (d : Boundary) (P : Boundary → State → Prop) : Prop where
  place : ∀ {e s}, P e s → P e (placeReports s)
  timing : ∀ {e s} f, P e s → P e (onBody (fun b => b.onTiming f) s)
  commit : ∀ {e s} p, d.Further e → p ∉ e.committed → P e s →
    P { e with committed := p :: e.committed } (onBody (commitDirect p e.frame) s)
  work : ∀ {e s} p, d.Further e → p ∉ e.worked → P e s →
    P { e with worked := p :: e.worked } (onBody (switchingWork p) s)
  cut : ∀ {e s} p, d.Further e → P e s → P { e with cut := p :: e.cut } (onBody (cutDue p e.frame) s)
  sequencer : ∀ {e s}, d.Further e → e.sequencerDone = false → P e s →
    P { e with sequencerDone := true } (onBody (sequencerStep e.frame) s)
  alarms : ∀ {e s}, d.Further e → e.alarmsDone = false → P e s →
    P { e with alarmsDone := true } (onBody (evaluate e) s)
  watch : ∀ {e s}, d.Further e → e.watchDone = false → P e s → P { e with watchDone := true } (watchWork e.frame s)

/-- A property that holds anywhere is kept. -/
theorem Keeping.anything (d : Boundary) : Keeping d fun _ _ => True := by constructor <;> intros <;> exact .intro

/-- Timing but for the boundary in progress. -/
def Timing.At (t : Timing) (e : Boundary) : Timing := { t with boundary := some e }

/-- The state of an invariant in the midst of a boundary: its timing, how far the boundary is, and the property. -/
structure Midst (d : Boundary) (P : Boundary → State → Prop) (t : Timing) (e : Boundary) (s : State) : Prop where
  timing : s.body.timing = t.At e
  further : d.Further e
  holds : P e s

variable {d e : Boundary} {P : Boundary → State → Prop} {t : Timing}

theorem mark_at {f : Boundary → Boundary} (h : b.timing = t.At e) : (mark f b).timing = t.At (f e) := by
  rw [mark_timing, h]
  rfl

/-- Work of programme after programme: what holds of the ids left to do, one less each time. -/
theorem eachProgramme_left {Q : List (Fin 16) → Body → Prop} {f : Fin 16 → Body → Body}
    (h : ∀ p l b, p ∉ l → Q (p :: l) b → Q l (f p b)) (b : Body) (hb : Q programmeIds b) : Q [] (b.eachProgramme f) := by
  have each : ∀ (l : List (Fin 16)) (b : Body), l.Nodup → Q l b → Q [] (l.foldl (fun b p => f p b) b) := by
    intro l
    induction l with
    | nil => exact fun _ _ h => h
    | cons p l ih =>
      intro b hn hq
      obtain ⟨hp, hl⟩ := List.nodup_cons.1 hn
      exact ih _ hl (h p l b hp hq)
  exact each _ b (List.nodup_finRange 16) hb

/-- Where a block stands in the midst of its programmes: those left are marked where they were at its start, the others
all are. -/
structure Left (marks : Boundary → List (Fin 16)) (e : Boundary) (l : List (Fin 16)) (g : Boundary) : Prop where
  fresh : ∀ p ∈ l, p ∈ marks g → p ∈ marks e
  gone : ∀ p, p ∉ l → p ∈ marks g

section
variable {marks : Boundary → List (Fin 16)} {l : List (Fin 16)} {g g' : Boundary}

/-- A programme marked leaves the ones left. -/
theorem Left.cons (h : Left marks e (p :: l) g) (hp : p ∉ l) (hm : marks g' = p :: marks g) : Left marks e l g' := by
  refine ⟨fun q hq hg => ?_, fun q hq => ?_⟩
  · rw [hm, List.mem_cons] at hg
    refine hg.elim (fun eq => absurd (eq ▸ hq) hp) (h.fresh q (List.mem_cons_of_mem _ hq))
  · rw [hm, List.mem_cons]
    by_cases eq : q = p
    · exact .inl eq
    · exact .inr (h.gone q fun hc => (List.mem_cons.1 hc).elim eq hq)

/-- A programme that was marked already leaves the ones left. -/
theorem Left.skip (h : Left marks e (p :: l) g) (hp : p ∈ marks g) : Left marks e l g := by
  refine ⟨fun q hq => h.fresh q (List.mem_cons_of_mem _ hq), fun q hq => ?_⟩
  by_cases eq : q = p
  · exact eq ▸ hp
  · exact h.gone q fun hc => (List.mem_cons.1 hc).elim eq hq

theorem Left.start (e : Boundary) : Left marks e programmeIds e :=
  ⟨fun _ _ => id, fun p hp => absurd (List.mem_finRange p) hp⟩

end

/-! ### Block by block -/

variable (K : Keeping d P)
include K

theorem Midst.commitPiece {s : State} {g : Boundary} (h : Midst d P t e s) (hf : g.frame = e.frame)
    (hc : p ∈ g.committed ↔ p ∈ e.committed) :
    ∃ e', Midst d P t e' (onBody (commitPiece g p) s) ∧ e.Further e' ∧ p ∈ e'.committed ∧
      (e' = e ∨ e' = { e with committed := p :: e.committed }) := by
  have eq : onBody (Machine.commitPiece g p) s =
      if p ∈ g.committed then s
      else onBody (mark fun d => { d with committed := p :: d.committed }) (onBody (commitDirect p e.frame) s) := by
    unfold onBody Machine.commitPiece
    rw [hf]
    by_cases hm : p ∈ g.committed <;> simp [hm]
  rw [eq]
  split
  · rename_i hm
    exact ⟨e, h, .refl e, hc.1 hm, .inl rfl⟩
  · rename_i hm
    refine ⟨{ e with committed := p :: e.committed }, ⟨mark_at ((fixed_timing (commitDirect_fixed p _ s.body)).trans
      h.timing), ?_, K.timing _ (K.commit p h.further (hm ∘ hc.2) h.holds)⟩, ?_, List.mem_cons_self, .inr rfl⟩
    · exact h.further.trans ⟨rfl, rfl, rfl, fun _ => List.mem_cons_of_mem _, fun _ => id, fun _ => id, id, id, id⟩
    · exact ⟨rfl, rfl, rfl, fun _ => List.mem_cons_of_mem _, fun _ => id, fun _ => id, id, id, id⟩

theorem Midst.commits {s : State} (h : Midst d P t e s) :
    ∃ g, Midst d P t g (onBody (fun b => b.eachProgramme (Machine.commitPiece e)) s) ∧ e.Further g ∧ g.Taken .commits := by
  let Q (l : List (Fin 16)) (b : Body) : Prop :=
    ∃ g, Midst d P t g { s with body := b } ∧ e.Further g ∧ Left Boundary.committed e l g
  have step : ∀ p l b, p ∉ l → Q (p :: l) b → Q l (Machine.commitPiece e p b) := by
    rintro p l b hp ⟨g, hm, hf, hl⟩
    obtain ⟨g', hm', hf', hg, eq⟩ := Midst.commitPiece K hm (p := p) hf.frame.symm
      ⟨hf.committed p, hl.fresh p List.mem_cons_self⟩
    refine ⟨g', hm', hf.trans hf', ?_⟩
    rcases eq with rfl | rfl
    · exact hl.skip hg
    · exact hl.cons hp rfl
  obtain ⟨g, hm, hf, hl⟩ := eachProgramme_left step s.body ⟨e, h, .refl e, .start e⟩
  exact ⟨g, hm, hf, fun p => hl.gone p List.not_mem_nil⟩

theorem Midst.programmePiece {s : State} {g : Boundary} (h : Midst d P t e s) (hf : g.frame = e.frame)
    (hc : p ∈ g.committed ↔ p ∈ e.committed) (hw : p ∉ e.worked) (hg : p ∉ g.worked) :
    ∃ e', Midst d P t e' (onBody (programmePiece g p) s) ∧ e.Further e' ∧ e'.worked = p :: e.worked ∧
      (∀ q, q ≠ p → q ∈ e'.committed → q ∈ e.committed) := by
  obtain ⟨e', hm, he, -, eq⟩ := Midst.commitPiece K h hf hc
  have worked : e'.worked = e.worked := by rcases eq with rfl | rfl <;> rfl
  have form : onBody (Machine.programmePiece g p) s =
      onBody (mark fun d => { d with worked := p :: d.worked })
        (onBody (switchingWork p) (onBody (Machine.commitPiece g p) s)) := by
    unfold onBody Machine.programmePiece
    simp [hg]
  have further : e'.Further { e' with worked := p :: e'.worked } :=
    ⟨rfl, rfl, rfl, fun _ => id, fun _ => List.mem_cons_of_mem _, fun _ => id, id, id, id⟩
  rw [form]
  refine ⟨{ e' with worked := p :: e'.worked }, ⟨mark_at ((fixed_timing (switchingWork_fixed p _)).trans hm.timing),
    hm.further.trans further, K.timing _ (K.work p hm.further (worked ▸ hw) hm.holds)⟩, he.trans further,
    by rw [worked], fun q hq hqe => ?_⟩
  rcases eq with rfl | rfl
  · exact hqe
  · exact (List.mem_cons.1 hqe).resolve_left hq

theorem Midst.programmes {s : State} (h : Midst d P t e s) :
    ∃ g, Midst d P t g (onBody (fun b => b.eachProgramme (Machine.programmePiece e)) s) ∧ e.Further g ∧
      g.Taken .programmes := by
  let Q (l : List (Fin 16)) (b : Body) : Prop :=
    ∃ g, Midst d P t g { s with body := b } ∧ e.Further g ∧ Left Boundary.worked e l g ∧
      ∀ q ∈ l, q ∈ g.committed → q ∈ e.committed
  have step : ∀ p l b, p ∉ l → Q (p :: l) b → Q l (Machine.programmePiece e p b) := by
    rintro p l b hp ⟨g, hm, hf, hl, hc⟩
    by_cases hw : p ∈ e.worked
    · have idle : Machine.programmePiece e p b = b := by simp [Machine.programmePiece, hw]
      rw [idle]
      exact ⟨g, hm, hf, hl.skip (hf.worked p hw), fun q hq => hc q (List.mem_cons_of_mem _ hq)⟩
    · obtain ⟨g', hm', hf', hg, hc'⟩ := Midst.programmePiece K hm (p := p) hf.frame.symm
        ⟨hf.committed p, hc p List.mem_cons_self⟩ (hw ∘ hl.fresh p List.mem_cons_self) hw
      exact ⟨g', hm', hf.trans hf', hl.cons hp hg, fun q hq hqg =>
        hc q (List.mem_cons_of_mem _ hq) (hc' q (fun eq => hp (eq ▸ hq)) hqg)⟩
  obtain ⟨g, hm, hf, hl, -⟩ := eachProgramme_left step s.body ⟨e, h, .refl e, .start e, fun _ _ => id⟩
  exact ⟨g, hm, hf, fun p => hl.gone p List.not_mem_nil⟩

theorem Midst.cuts {s : State} (h : Midst d P t e s) :
    ∃ g, Midst d P t g (onBody (fun b => b.eachProgramme (cutPiece e)) s) ∧ e.Further g ∧ g.Taken .cuts := by
  let Q (l : List (Fin 16)) (b : Body) : Prop :=
    ∃ g, Midst d P t g { s with body := b } ∧ e.Further g ∧ Left Boundary.cut e l g
  have step : ∀ p l b, p ∉ l → Q (p :: l) b → Q l (Machine.cutPiece e p b) := by
    rintro p l b hp ⟨g, hm, hf, hl⟩
    by_cases hw : p ∈ e.cut
    · have idle : Machine.cutPiece e p b = b := by simp [Machine.cutPiece, hw]
      rw [idle]
      exact ⟨g, hm, hf, hl.skip (hf.cut p hw)⟩
    · have form : Machine.cutPiece e p b = mark (fun d => { d with cut := p :: d.cut }) (cutDue p g.frame b) := by
        simp [Machine.cutPiece, hw, hf.frame]
      have further : g.Further { g with cut := p :: g.cut } :=
        ⟨rfl, rfl, rfl, fun _ => id, fun _ => id, fun _ => List.mem_cons_of_mem _, id, id, id⟩
      rw [form]
      exact ⟨_, ⟨mark_at ((fixed_timing (cutDue_fixed p _ b)).trans hm.timing), hm.further.trans further,
        K.timing _ (K.cut p hm.further hm.holds)⟩, hf.trans further, hl.cons hp rfl⟩
  obtain ⟨g, hm, hf, hl⟩ := eachProgramme_left step s.body ⟨e, h, .refl e, .start e⟩
  exact ⟨g, hm, hf, fun p => hl.gone p List.not_mem_nil⟩

theorem Midst.sequencer {s : State} (h : Midst d P t e s) :
    ∃ g, Midst d P t g (onBody (sequencerPiece e) s) ∧ e.Further g ∧ g.Taken .sequencer := by
  by_cases hd : e.sequencerDone = true
  · have idle : onBody (sequencerPiece e) s = s := by simp [onBody, sequencerPiece, hd]
    rw [idle]
    exact ⟨e, h, .refl e, hd⟩
  · have form : onBody (sequencerPiece e) s =
        onBody (mark fun d => { d with sequencerDone := true }) (onBody (sequencerStep e.frame) s) := by
      simp [onBody, sequencerPiece, hd]
    have further : e.Further { e with sequencerDone := true } :=
      ⟨rfl, rfl, rfl, fun _ => id, fun _ => id, fun _ => id, id, fun _ => rfl, id⟩
    rw [form]
    exact ⟨_, ⟨mark_at ((sequencerStep_calm _ s.body).1.trans h.timing), h.further.trans further,
      K.timing _ (K.sequencer h.further (Bool.not_eq_true _ ▸ hd) h.holds)⟩, further, rfl⟩

theorem Midst.alarms {s : State} (h : Midst d P t e s) :
    ∃ g, Midst d P t g (onBody (alarmPiece e) s) ∧ e.Further g ∧ g.Taken .alarms := by
  by_cases hd : e.alarmsDone = true
  · have idle : onBody (alarmPiece e) s = s := by simp [onBody, alarmPiece, hd]
    rw [idle]
    exact ⟨e, h, .refl e, hd⟩
  · have form : onBody (alarmPiece e) s =
        onBody (mark fun d => { d with alarmsDone := true }) (onBody (evaluate e) s) := by
      simp [onBody, alarmPiece, hd]
    have further : e.Further { e with alarmsDone := true } :=
      ⟨rfl, rfl, rfl, fun _ => id, fun _ => id, fun _ => id, fun _ => rfl, id, id⟩
    rw [form]
    exact ⟨_, ⟨mark_at ((evaluate_spec e s.body).1.trans h.timing), h.further.trans further,
      K.timing _ (K.alarms h.further (Bool.not_eq_true _ ▸ hd) h.holds)⟩, further, rfl⟩

end Sys2Proof.Machine
end

section
/-! The scheme of O7, from the blocks to the boundary closed. -/

namespace Sys2Proof.Machine

variable {b c : Body} {p : Fin 16} {s : State} {d e : Boundary} {P : Boundary → State → Prop} {t : Timing}

/-! ### The watch list -/

/-- The watch list counted down, what is due reloaded (R185). -/
def countedDown (l : List Watch) : List Watch :=
  l.map fun w => { w with countdown := if w.countdown ≤ 1 then w.period else w.countdown - 1 }

/-- The METER reports of a boundary enter behind what waits, or are counted as dropped; nothing else changes (R181). -/
theorem offerMeters_only (f : Count) (l : List (List Field)) (s : State) :
    ∃ q m, l.foldl (offerMeter f) s =
      { s with body := s.body.onLine fun x => { x with meterDrops := m }, tx := { s.tx with queue := s.tx.queue ++ q } } := by
  induction l generalizing s with
  | nil => exact ⟨[], s.body.line.meterDrops, by simp [Body.onLine]⟩
  | cons x l ih =>
    obtain ⟨q, m, h⟩ := ih (offerMeter f s x)
    rw [List.foldl_cons, h]
    unfold offerMeter
    split
    · exact ⟨_, m, by rw [List.append_assoc]⟩
    · exact ⟨q, m, rfl⟩

theorem watchWork_only (f : Count) (s : State) :
    ∃ q m, watchWork f s =
      { s with body := s.body.onLine fun x => { x with watch := countedDown s.body.line.watch, meterDrops := m }
               tx := { s.tx with queue := s.tx.queue ++ q } } :=
  offerMeters_only f _ _

/-! ### A block and the placing of reports -/

theorem Midst.watch (K : Keeping d P) (h : Midst d P t e s) :
    ∃ g, Midst d P t g (watchPiece e s) ∧ e.Further g ∧ g.Taken .watch := by
  by_cases hd : e.watchDone = true
  · have idle : watchPiece e s = s := by simp [watchPiece, hd]
    rw [idle]
    exact ⟨e, h, .refl e, hd⟩
  · have form : watchPiece e s = onBody (mark fun d => { d with watchDone := true }) (watchWork e.frame s) := by
      simp [watchPiece, hd]
    have further : e.Further { e with watchDone := true } :=
      ⟨rfl, rfl, rfl, fun _ => id, fun _ => id, fun _ => id, id, id, fun _ => rfl⟩
    have timing : (watchWork e.frame s).body.timing = t.At e := by
      obtain ⟨q, m, eq⟩ := watchWork_only e.frame s
      rw [eq]
      exact h.timing
    rw [form]
    exact ⟨_, ⟨mark_at timing, h.further.trans further,
      K.timing _ (K.watch h.further (Bool.not_eq_true _ ▸ hd) h.holds)⟩, further, rfl⟩

theorem Midst.block (K : Keeping d P) (h : Midst d P t e s) (k : BoundaryBlock) :
    ∃ g, Midst d P t g (blockPiece k s) ∧ e.Further g ∧ g.Taken k := by
  have hd : s.body.timing.boundary = some e := congrArg Timing.boundary h.timing
  unfold blockPiece
  simp only [hd]
  cases k with
  | commits => exact Midst.commits K h
  | sequencer => exact Midst.sequencer K h
  | programmes => exact Midst.programmes K h
  | alarms => exact Midst.alarms K h
  | cuts => exact Midst.cuts K h
  | watch => exact Midst.watch K h

theorem placeReports_timing (s : State) : (placeReports s).body.timing = s.body.timing :=
  (congrArg Body.timing (placeReports_quiet s) :)

theorem Midst.place (K : Keeping d P) (h : Midst d P t e s) : Midst d P t e (placeReports s) :=
  ⟨(placeReports_timing s).trans h.timing, h.further, K.place h.holds⟩

/-- Blocks taken one after another, each an event's end. -/
def blocksWork (l : List BoundaryBlock) (s : State) : State := l.foldl (fun s k => placeReports (blockPiece k s)) s

theorem Midst.blocks (K : Keeping d P) (l : List BoundaryBlock) (h : Midst d P t e s) :
    ∃ g, Midst d P t g (blocksWork l s) ∧ e.Further g ∧ ∀ k ∈ l, g.Taken k := by
  induction l generalizing s e with
  | nil => exact ⟨e, h, .refl e, fun _ hk => absurd hk List.not_mem_nil⟩
  | cons k l ih =>
    obtain ⟨e', hm, hf, hk⟩ := Midst.block K h k
    obtain ⟨g, hg, hfg, hl⟩ := ih (Midst.place K hm)
    refine ⟨g, hg, hf.trans hfg, fun x hx => ?_⟩
    rcases List.mem_cons.1 hx with rfl | hx
    · exact hfg.taken hk
    · exact hl x hx

/-! ### The boundary closed -/

/-- The boundary leaves the timing record (R32). -/
def close (s : State) : State := onBody (fun b => b.onTiming fun t => { t with boundary := none }) s

/-- The machine after FRAME_BOUNDARY. -/
def boundaryClosed (order : List BoundaryBlock) (d : Boundary) (s : State) : State :=
  placeReports (close (blocksWork (order ++ usualOrder) (onBody (enterBoundary d) s)))

theorem exec_frameBoundary (order : List BoundaryBlock) (h : s.body.timing.boundary = some d) :
    exec (.frameBoundary order) s = .next (boundaryClosed order d s) := by
  have form : frameBoundaryWork order s = close (blocksWork (order ++ usualOrder) (onBody (enterBoundary d) s)) := by
    unfold frameBoundaryWork
    simp only [h]
    rfl
  exact congrArg (fun u => Host.Outcome.next (placeReports u)) form

/-- The blocks as FRAME_BOUNDARY finds them, the count taken. -/
theorem Midst.enter (h : s.body.timing.boundary = some d) (hP : P d (onBody (enterBoundary d) s)) :
    Midst d P { s.body.timing with frameCounter := d.frame } d (onBody (enterBoundary d) s) :=
  ⟨by simp [onBody, Timing.At, ← h], .refl d, hP⟩

/-- The end of a boundary from the midst of it. -/
theorem Midst.closed (K : Keeping d P) {order : List BoundaryBlock} (h : Midst d P t e s) :
    let u := placeReports (close (blocksWork (order ++ usualOrder) s))
    ∃ g, (∀ k, g.Taken k) ∧ d.Further g ∧ u.body.timing = { t with boundary := none } ∧ P g u := by
  obtain ⟨g, hm, -, hk⟩ := Midst.blocks K (order ++ usualOrder) h
  refine ⟨g, fun k => hk k (List.mem_append_right _ (by cases k <;> decide)), hm.further, ?_, K.place (K.timing _ hm.holds)⟩
  refine (placeReports_timing _).trans ?_
  show { (blocksWork (order ++ usualOrder) s).body.timing with boundary := none } = _
  rw [hm.timing]
  rfl

/-- What every piece keeps holds at the end of FRAME_BOUNDARY. -/
theorem Keeping.closed (K : Keeping d P) (order : List BoundaryBlock) (h : s.body.timing.boundary = some d)
    (hP : P d (onBody (enterBoundary d) s)) :
    ∃ g, (∀ k, g.Taken k) ∧ d.Further g ∧
      (boundaryClosed order d s).body.timing = { s.body.timing with frameCounter := d.frame, boundary := none } ∧
      P g (boundaryClosed order d s) :=
  (Midst.enter h hP).closed K

/-- The same from the end of a first block. -/
theorem Keeping.closed_after (K : Keeping d P) (k : BoundaryBlock) (order : List BoundaryBlock)
    (h : s.body.timing.boundary = some d)
    (hP : ∀ e, (blockPiece k (onBody (enterBoundary d) s)).body.timing.boundary = some e → d.Further e → e.Taken k →
      P e (blockPiece k (onBody (enterBoundary d) s))) :
    ∃ g, (∀ k, g.Taken k) ∧ d.Further g ∧ P g (boundaryClosed (k :: order) d s) := by
  obtain ⟨e, hm, hf, hk⟩ := Midst.block (.anything d) (Midst.enter h trivial) k
  have first : Midst d P _ e (blockPiece k (onBody (enterBoundary d) s)) :=
    ⟨hm.timing, hm.further, hP e (congrArg Timing.boundary hm.timing) hf hk⟩
  obtain ⟨g, hg, hd, -, hP⟩ := (Midst.place K first).closed K (order := order)
  exact ⟨g, hg, hd, hP⟩

end Sys2Proof.Machine
end

section
/-! FRAME_BOUNDARY as a whole (the first and the fifth part of O7): scene store, ports and contacts, DIRECT sets, running marks,
watch list, requested selectors. -/

namespace Sys2Proof.Machine

variable {b c : Body} {p : Fin 16} {s : State} {d : Boundary}

/-! ### What no owed report tells -/

theorem quiet_programme (h : c.quiet = b.quiet) (p : Fin 16) :
    { c.programme p with stateOwed := none } = { b.programme p with stateOwed := none } := by
  have := congrArg (fun x : Body => x.programmes[p]) h
  simpa [Body.quiet, Body.programme] using this

theorem quiet_follows (h : c.quiet = b.quiet) (p : Fin 16) : (b.programme p).Follows (c.programme p) := by
  have e := quiet_programme h p
  have state : (c.programme p).state = (b.programme p).state := (congrArg Programme.state e :)
  have request : (c.programme p).requested = (b.programme p).requested := (congrArg Programme.requested e :)
  exact ⟨by rw [state], by rw [state], (congrArg Programme.runningMark e :), by rw [request]; exact id⟩

theorem quiet_source (h : c.quiet = b.quiet) (p : Fin 16) : (c.lane p).source = (b.lane p).source := by
  have e : { c.lane p with sceneDelayOwed := none } = { b.lane p with sceneDelayOwed := none } := by
    have := congrArg (fun x : Body => x.lanes[p]) h
    simpa [Body.quiet, Body.lane] using this
  exact (congrArg Lane.source e :)

theorem quiet_along (h : c.quiet = b.quiet) : Along b c :=
  ⟨quiet_follows h, (congrArg (fun x : Body => x.line.watch) h :)⟩

theorem quiet_sets (h : c.quiet = b.quiet) (p : Fin 16) : c.sets[p] = b.sets[p] := by
  have e := quiet_programme h p
  rw [sets_get, sets_get]
  exact Prod.ext (congrArg Programme.active e :) (congrArg Programme.pending e :)

/-! ### The scheme for a property of the blocks alone -/

/-- What every piece must keep of a property of the blocks that heeds neither an owed report nor timing. -/
structure BodyKeeping (d : Boundary) (Q : Boundary → Body → Prop) : Prop where
  quiet : ∀ {e b c}, c.quiet = b.quiet → Q e b → Q e c
  timing : ∀ {e b} f, Q e b → Q e (b.onTiming f)
  commit : ∀ {e b} p, d.Further e → p ∉ e.committed → Q e b →
    Q { e with committed := p :: e.committed } (commitDirect p e.frame b)
  work : ∀ {e b} p, d.Further e → p ∉ e.worked → Q e b → Q { e with worked := p :: e.worked } (switchingWork p b)
  cut : ∀ {e b} p, d.Further e → Q e b → Q { e with cut := p :: e.cut } (cutDue p e.frame b)
  sequencer : ∀ {e b}, d.Further e → e.sequencerDone = false → Q e b →
    Q { e with sequencerDone := true } (sequencerStep e.frame b)
  alarms : ∀ {e b}, d.Further e → e.alarmsDone = false → Q e b → Q { e with alarmsDone := true } (evaluate e b)
  watch : ∀ {e b} m, d.Further e → e.watchDone = false → Q e b →
    Q { e with watchDone := true } (b.onLine fun x => { x with watch := countedDown b.line.watch, meterDrops := m })

theorem BodyKeeping.keeping {Q : Boundary → Body → Prop} (K : BodyKeeping d Q) : Keeping d fun e s => Q e s.body where
  place h := K.quiet (placeReports_quiet _) h
  timing f h := K.timing f h
  commit p hf hm h := K.commit p hf hm h
  work p hf hm h := K.work p hf hm h
  cut p hf h := K.cut p hf h
  sequencer hf hm h := K.sequencer hf hm h
  alarms hf hm h := K.alarms hf hm h
  watch {e s} hf hm h := by
    obtain ⟨q, m, eq⟩ := watchWork_only e.frame s
    rw [eq]
    exact K.watch m hf hm h

/-! ### The control line's sides, the DRAM -/

theorem Keeps.onBody {u : State} (f : Body → Body) (h : Keeps s u) : Keeps s (onBody f u) := h

theorem keeps_keeping (d : Boundary) (s : State) : Keeping d fun _ u => Keeps s u where
  place h := ⟨by simp [h.1], by simp [h.2.1], by simp [h.2.2.1], h.2.2.2.trans (placeReports_prefix _)⟩
  timing _ := Keeps.onBody _
  commit _ _ _ := Keeps.onBody _
  work _ _ _ := Keeps.onBody _
  cut _ _ := Keeps.onBody _
  sequencer _ _ := Keeps.onBody _
  alarms _ _ := Keeps.onBody _
  watch {e u} _ _ h := by
    obtain ⟨q, m, eq⟩ := watchWork_only e.frame u
    rw [eq]
    exact ⟨h.1, h.2.1, h.2.2.1, h.2.2.2.trans (List.prefix_append _ _)⟩

/-! ### Scene store, contacts, ports -/

/-- A port whose tracker's JUMP seen is cleared unless it is to be kept (R44). -/
def Port.jumpKept (x : Port) (keep : Bool) : Port :=
  { x with tracker := { x.tracker with jumpSeen := x.tracker.jumpSeen && keep } }

/-- Scene store and contacts as they were, the ports too until the evaluation. -/
structure Calmly (d : Boundary) (b : Body) (e : Boundary) (c : Body) : Prop where
  scenes : c.scenes = b.scenes
  contacts : contactsRight b → contactsRight c
  ports : (e.alarmsDone = d.alarmsDone ∧ c.ports = b.ports) ∨ (d.alarmsDone = false ∧ e.alarmsDone = true ∧
    ∀ q, c.port q = (b.port q).jumpKept (d.evaluated.contains (portEntry q 2)))

theorem Calmly.after {e e' : Boundary} {x : Body} (h : Calmly d b e c) (hc : Calm c x)
    (he : e'.alarmsDone = e.alarmsDone) : Calmly d b e' x := by
  obtain ⟨-, ports, scenes, contacts⟩ := hc
  refine ⟨scenes.trans h.scenes, contacts ∘ h.contacts, ?_⟩
  rw [he]
  refine h.ports.imp (fun ⟨k, hp⟩ => ⟨k, ports.trans hp⟩) fun ⟨k, k', hp⟩ => ⟨k, k', fun q => ?_⟩
  rw [← hp q]
  unfold Body.port
  rw [ports]

theorem calmly_keeping (d : Boundary) (b : Body) : BodyKeeping d (Calmly d b) where
  quiet {e x y} hq h := by
    refine ⟨(congrArg Body.scenes hq :) ▸ h.scenes, fun hb => ?_, ?_⟩
    · rw [← contactsRight_quiet, hq, contactsRight_quiet]
      exact h.contacts hb
    · have ports : y.ports = x.ports := (congrArg Body.ports hq :)
      unfold Body.port
      rw [ports]
      exact h.ports
  timing _ h := ⟨h.scenes, h.contacts, h.ports⟩
  commit _ _ _ h := h.after (.of_fixed (commitDirect_fixed ..)) rfl
  work _ _ _ h := h.after (.of_fixed (switchingWork_fixed ..)) rfl
  cut _ _ h := h.after (.of_fixed (cutDue_fixed ..)) rfl
  sequencer _ _ h := h.after (sequencerStep_calm ..) rfl
  alarms {e x} hf hm h := by
    obtain ⟨-, scenes, -, ports, contacts⟩ := evaluate_spec e x
    refine ⟨scenes.trans h.scenes, fun _ => contacts, .inr ?_⟩
    rcases h.ports with ⟨k, hp⟩ | ⟨-, k, -⟩
    · refine ⟨k ▸ hm, rfl, fun q => (ports q).trans ?_⟩
      have same : x.port q = b.port q := by unfold Body.port; rw [hp]
      rw [same, hf.evaluated]
      rfl
    · exact absurd (hm.symm.trans k) Bool.false_ne_true
  watch _ _ _ h := ⟨h.scenes, h.contacts, h.ports⟩

/-! ### DIRECT sets -/

/-- A DIRECT set waits for its commit, or is the active one. -/
def Committing (p : Fin 16) (w : Pending) (old : Settings) (e : Boundary) (b : Body) : Prop :=
  (b.sets[p] = (some old, some w) ∧ p ∉ e.committed) ∨ b.sets[p] = (some w.settings, none)

theorem Committing.after {w : Pending} {old : Settings} {e e' : Boundary} (h : Committing p w old e b)
    (hs : c.sets[p] = b.sets[p]) (he : p ∉ e.committed → p ∉ e'.committed) : Committing p w old e' c := by
  unfold Committing
  rw [hs]
  exact h.imp (fun ⟨k, hp⟩ => ⟨k, he hp⟩) id

theorem Committing.unowned {w : Pending} {old : Settings} {e : Boundary} (h : Committing p w old e b)
    (hw : w.owner = .direct) : ownedBy b .scene p = false := by
  have eq : ownedBy b .scene p = b.sets[p].2.any fun w => w.owner = .scene := by
    rw [sets_get]
    rfl
  rw [eq]
  rcases h with ⟨k, -⟩ | k <;> simp [k, hw]

theorem Committing.commit {w : Pending} {old : Settings} {e : Boundary} (hw : w.owner = .direct)
    (h : Committing p w old e b) (f : Count) : (commitDirect p f b).sets[p] = (some w.settings, none) := by
  rcases h with ⟨k, -⟩ | k
  · rw [sets_get, Prod.mk.injEq] at k
    obtain ⟨ha, hp⟩ := k
    have owned : ownedBy b .direct p = true := (ownedBy_iff b .direct p).2 ⟨w, hp, hw⟩
    unfold commitDirect
    rw [if_pos owned, commitSet_sets hp ha, Fin.getElem_fin, Vector.getElem_set_self]
  · have none : ownedBy b .direct p = false := by
      rw [sets_get, Prod.mk.injEq] at k
      simp [ownedBy, k.2]
    rw [commitDirect_none none, k]

theorem committing_keeping (d : Boundary) {w : Pending} (old : Settings) (hw : w.owner = .direct) :
    BodyKeeping d (Committing p w old) where
  quiet hq h := h.after (quiet_sets hq p) id
  timing _ h := h
  commit {e b} q _ _ h := by
    by_cases eq : q = p
    · subst eq
      exact .inr (h.commit hw e.frame)
    · refine h.after (commitDirect_sets_other b q p e.frame (Ne.symm eq)) fun hp hc => ?_
      exact (List.mem_cons.1 hc).elim (fun k => eq k.symm) hp
  work _ _ _ h := h.after (by rw [switchingWork_sets]) id
  cut _ _ h := h.after (by rw [cutDue_sets]) id
  sequencer _ _ h := h.after (sequencerStep_sets _ _ p (h.unowned hw)) id
  alarms {e b} _ _ h := h.after (by rw [(evaluate_spec e b).2.2.1]) id
  watch _ _ _ h := h

/-! ### Running marks -/

/-- Once the alarm table is evaluated the running marks are those of the running programmes. -/
def Marked (e : Boundary) (b : Body) : Prop :=
  e.alarmsDone = true → ∀ p, (b.programme p).runningMark = ((b.programme p).state == .running)

theorem Marked.after {e e' : Boundary} (h : Marked e b) (ha : Along b c) (he : e'.alarmsDone = e.alarmsDone) :
    Marked e' c := fun k p =>
  (ha.own p).mark.trans ((h (he ▸ k) p).trans (ha.own p).running.symm)

theorem Along.onTiming (f : Timing → Timing) (b : Body) : Along b (b.onTiming f) := ⟨fun _ => .refl _, rfl⟩

theorem marked_keeping (d : Boundary) : BodyKeeping d Marked where
  quiet hq h := h.after (quiet_along hq) rfl
  timing _ h := h
  commit _ _ _ h := h.after (Turn.commitDirect ..).along rfl
  work _ _ _ h := h.after (Turn.switchingWork ..).along rfl
  cut p _ h := h.after ((LaneWork.cutDue ..).turn p).along rfl
  sequencer _ _ h := h.after (SceneWork.sequencerStep (p := 0) ..).along rfl
  alarms {e b} _ _ _ := fun _ p => (evaluate_programme e b p).2.1
  watch _ _ _ h := h

/-! ### The watch list -/

/-- The watch list as it was, or counted down once the boundary has taken it. -/
def WatchCounted (d : Boundary) (l : List Watch) (e : Boundary) (b : Body) : Prop :=
  b.line.watch = if d.watchDone = true then l else if e.watchDone = true then countedDown l else l

theorem WatchCounted.after {l : List Watch} {e e' : Boundary} (h : WatchCounted d l e b)
    (hw : c.line.watch = b.line.watch) (he : e'.watchDone = e.watchDone) : WatchCounted d l e' c := by
  unfold WatchCounted
  rw [hw, he]
  exact h

theorem watchCounted_keeping (d : Boundary) (l : List Watch) : BodyKeeping d (WatchCounted d l) where
  quiet hq h := h.after (quiet_along hq).watch rfl
  timing _ h := h
  commit _ _ _ h := h.after (Turn.commitDirect ..).watch rfl
  work _ _ _ h := h.after (Turn.switchingWork ..).watch rfl
  cut _ _ h := h.after (LaneWork.cutDue ..).watch rfl
  sequencer _ _ h := h.after (SceneWork.sequencerStep (p := 0) ..).along.watch rfl
  alarms {e b} _ _ h := h.after (evaluate_watch e b) rfl
  watch {e b} m hf hm h := by
    have before : d.watchDone = false := by
      cases hd : d.watchDone
      · rfl
      · exact absurd (hm.symm.trans (hf.watch hd)) Bool.false_ne_true
    have still : b.line.watch = l := by
      rw [h, before, hm]
      rfl
    show countedDown b.line.watch = _
    rw [still, before]
    rfl

/-! ### Requested selectors -/

theorem applyRequested_request (p : Fin 16) (b : Body) : ((applyRequested p b).programme p).requested = none := by
  have cleared : ((b.onProgramme p fun r => { r with requested := none }).programme p).requested = none := by simp
  unfold applyRequested
  simp only
  split
  · exact cleared
  · split
    · exact cleared
    · exact (Turn.changeSelector ..).own.request cleared

theorem switchingWork_request (h : carrying (b.programme p).state = true) :
    ((switchingWork p b).programme p).requested = none := by
  unfold switchingWork
  rw [if_pos h]
  exact (Turn.revertTest p _).own.request (applyRequested_request p _)

/-- A programme carries a feed and has its boundary work before it, or has no requested selector. -/
def Unrequested (p : Fin 16) (e : Boundary) (b : Body) : Prop :=
  (carrying (b.programme p).state = true ∧ p ∉ e.worked) ∨ (b.programme p).requested = none

theorem Unrequested.after {e e' : Boundary} (h : Unrequested p e b) (hf : (b.programme p).Follows (c.programme p))
    (he : p ∉ e.worked → p ∉ e'.worked) : Unrequested p e' c :=
  h.imp (fun ⟨k, hp⟩ => ⟨hf.carrying.trans k, he hp⟩) hf.request

theorem unrequested_keeping (d : Boundary) (p : Fin 16) : BodyKeeping d (Unrequested p) where
  quiet hq h := h.after (quiet_follows hq p) id
  timing _ h := h
  commit _ _ _ h := h.after ((Turn.commitDirect ..).along.own p) id
  work {e b} q _ _ h := by
    by_cases eq : q = p
    · subst eq
      rcases h with ⟨k, -⟩ | k
      · exact .inr (switchingWork_request k)
      · exact .inr ((Turn.switchingWork q b).own.request k)
    · exact h.after ((Turn.switchingWork q b).along.own p) fun hp hc =>
        (List.mem_cons.1 hc).elim (fun k => eq k.symm) hp
  cut q _ h := h.after (((LaneWork.cutDue ..).turn q).along.own p) id
  sequencer _ _ h := h.after ((SceneWork.sequencerStep (p := p) ..).along.own p) id
  alarms {e b} _ _ h :=
    h.imp (fun ⟨k, hp⟩ => ⟨(evaluate_programme e b p).1.trans k, hp⟩) (evaluate_programme e b p).2.2
  watch _ _ _ h := h

end Sys2Proof.Machine
end

section
/-! What FRAME_BOUNDARY leaves, whatever the order (the first and the fifth part of O7), and the conditions of the alarm table
(the third). -/

namespace Sys2Proof.Machine

variable {s : State} {d : Boundary} {p : Fin 16}

section
variable (order : List BoundaryBlock) (h : s.body.timing.boundary = some d)
include h

theorem boundaryClosed_keeps : Keeps s (boundaryClosed order d s) := by
  obtain ⟨-, -, -, -, hk⟩ := (keeps_keeping d s).closed order h ⟨rfl, rfl, rfl, List.prefix_rfl⟩
  exact hk

theorem boundaryClosed_timing :
    (boundaryClosed order d s).body.timing = { s.body.timing with frameCounter := d.frame, boundary := none } := by
  obtain ⟨-, -, -, ht, -⟩ := (Keeping.anything d).closed order h trivial
  exact ht

theorem boundaryClosed_calmly : ∃ e, e.alarmsDone = true ∧ Calmly d s.body e (boundaryClosed order d s).body := by
  obtain ⟨e, hk, -, -, hc⟩ := (calmly_keeping d s.body).keeping.closed order h ⟨rfl, id, .inl ⟨rfl, rfl⟩⟩
  exact ⟨e, hk .alarms, hc⟩

theorem boundaryClosed_port (q : Fin 8) :
    (boundaryClosed order d s).body.port q =
      (s.body.port q).jumpKept (d.alarmsDone || d.evaluated.contains (portEntry q 2)) := by
  obtain ⟨e, he, hc⟩ := boundaryClosed_calmly order h
  rcases hc.ports with ⟨k, hp⟩ | ⟨k, -, hp⟩
  · have kept : d.alarmsDone = true := k.symm.trans he
    unfold Body.port
    rw [hp, kept]
    simp [Port.jumpKept]
  · rw [hp q, k]
    rfl

theorem boundaryClosed_direct {w : Pending} {old : Settings} (hp : (s.body.programme p).pending = some w)
    (hw : w.owner = .direct) (ha : (s.body.programme p).active = some old) (hc : p ∉ d.committed) :
    ((boundaryClosed order d s).body.programme p).active = some w.settings ∧
      ((boundaryClosed order d s).body.programme p).pending = none := by
  have start : Committing p w old d (enterBoundary d s.body) := .inl ⟨by
    rw [enterBoundary_sets, sets_get, ha, hp], hc⟩
  obtain ⟨e, hk, -, -, hs⟩ := (committing_keeping d old hw).keeping.closed order h start
  rcases hs with ⟨-, k⟩ | k
  · exact absurd (hk .commits p) k
  · rw [sets_get, Prod.mk.injEq] at k
    exact k

theorem boundaryClosed_marks (ha : d.alarmsDone = false) (p : Fin 16) :
    ((boundaryClosed order d s).body.programme p).runningMark =
      (((boundaryClosed order d s).body.programme p).state == .running) := by
  have start : Marked d (enterBoundary d s.body) := fun k => absurd (ha.symm.trans k) Bool.false_ne_true
  obtain ⟨e, hk, -, -, hm⟩ := (marked_keeping d).keeping.closed order h start
  exact hm (hk .alarms) p

theorem boundaryClosed_watch :
    (boundaryClosed order d s).body.line.watch =
      if d.watchDone = true then s.body.line.watch else countedDown s.body.line.watch := by
  have start : WatchCounted d s.body.line.watch d (enterBoundary d s.body) := by
    unfold WatchCounted
    split <;> rfl
  obtain ⟨e, hk, -, -, hw⟩ := (watchCounted_keeping d s.body.line.watch).keeping.closed order h start
  have taken : e.watchDone = true := hk .watch
  rw [WatchCounted, if_pos taken] at hw
  exact hw

theorem boundaryClosed_unrequested (hp : p ∉ d.worked) (hc : carrying (s.body.programme p).state = true) :
    ((boundaryClosed order d s).body.programme p).requested = none := by
  obtain ⟨e, hk, -, -, hu⟩ := (unrequested_keeping d p).keeping.closed order h (.inl ⟨hc, hp⟩)
  exact hu.resolve_left fun k => k.2 (hk .programmes p)

end

/-! ### The conditions -/

theorem subjectOf_programmeEntry (p : Fin 16) (k : Fin 8) : subjectOf (programmeEntry p k) = .programme p k.val := by
  have hp : 8 * p.val + k.val < 128 := by omega
  unfold subjectOf programmeEntry
  rw [dif_pos hp, Subject.programme.injEq, Fin.ext_iff]
  exact ⟨by simp only; omega, by simp only; omega⟩

theorem subjectOf_portEntry (q : Fin 8) (k : Fin 3) : subjectOf (portEntry q k) = .port q k.val := by
  have hp : ¬ 128 + 3 * q.val + k.val < 128 := by omega
  have hq : 128 + 3 * q.val + k.val < 152 := by omega
  unfold subjectOf portEntry
  rw [dif_neg hp, dif_pos hq, Subject.port.injEq, Fin.ext_iff]
  exact ⟨by simp only; omega, by simp only; omega⟩

theorem condition_programmeEntry (b : Body) (p : Fin 16) (k : Fin 8) :
    condition b (programmeEntry p k) = programmeCondition b p k.val := by
  unfold condition
  rw [subjectOf_programmeEntry]

theorem condition_portEntry (b : Body) (q : Fin 8) (k : Fin 3) :
    condition b (portEntry q k) = portCondition b q k.val := by
  unfold condition
  rw [subjectOf_portEntry]

section
variable {b : Body} {st : Settings}

theorem programmeCondition_none (h : (b.programme p).active = none) (k : Nat) : programmeCondition b p k = false := by
  unfold programmeCondition
  simp only [h]

theorem silenceHolds_iff (st : Settings) (m : Meter) :
    silenceHolds st m = true ↔ ∀ v, m.shortTerm = some v → v < st.silenceThreshold := by
  unfold silenceHolds
  split
  · rename_i h
    simp [h]
  · rename_i v h
    simp [h]

theorem running_carries {x : ProgState} (h : x = .running) : carrying x = true := by rw [h]; rfl

/-- A condition of a running programme. -/
theorem runningCondition_iff (x : ProgState) (c : Bool) :
    (carrying x && (x == .running && c)) = true ↔ x = .running ∧ c = true := by
  rw [Bool.and_eq_true, Bool.and_eq_true, beq_iff_eq]
  exact ⟨fun h => h.2, fun h => ⟨running_carries h.1, h⟩⟩

/-- An event condition of a programme that carries a feed (R141). -/
theorem heededCondition_iff (r : Programme) (k : Nat) (seen : Bool) :
    (carrying r.state && heeded r k seen) = true ↔
      (r.state = .priming ∨ r.state = .running ∨ r.state = .starved) ∧ seen = true ∧
        ((r.ownMarks.lookup k).getD r.runningMark = true ∨ r.state = .running) := by
  rw [Bool.and_eq_true, carrying_iff]
  unfold heeded Programme.markOf
  rw [Bool.and_eq_true, Bool.or_eq_true, beq_iff_eq]

theorem any_lt_iff (x : Option Int) (f : Int → Prop) [DecidablePred f] :
    (x.any fun v => decide (f v)) = true ↔ ∃ v, x = some v ∧ f v := by
  rw [Option.any_eq_true]
  exact exists_congr fun v => and_congr_right fun _ => decide_eq_true_iff

/-- The eight conditions of a programme (R140, R141). -/
theorem programmeConditions (h : (b.programme p).active = some st) :
    let r := b.programme p
    let m := b.meter p
    let l := b.lane p
    let running : Prop := r.state = .running
    let silence : Prop := ∀ v, m.shortTerm = some v → v < st.silenceThreshold
    let heeded (kind : Nat) (seen : Bool) : Prop :=
      (r.state = .priming ∨ r.state = .running ∨ r.state = .starved) ∧ seen = true ∧
        ((r.ownMarks.lookup kind).getD r.runningMark = true ∨ running)
    (programmeCondition b p 0 = true ↔ running ∧ silence) ∧
    (programmeCondition b p 1 = true ↔ heeded 1 l.overloadSeen) ∧
    (programmeCondition b p 2 = true ↔ running ∧ ∃ v, m.shortTerm = some v ∧ st.loudHigh < v) ∧
    (programmeCondition b p 3 = true ↔ running ∧ ¬ silence ∧ ∃ v, m.shortTerm = some v ∧ v < st.loudLow) ∧
    (programmeCondition b p 4 = true ↔ running ∧ ∃ v, m.correlation = some v ∧ v < st.phaseThreshold) ∧
    (programmeCondition b p 5 = true ↔ heeded 5 l.slipSeen) ∧
    (programmeCondition b p 6 = true ↔ r.state = .starved) ∧
    (programmeCondition b p 7 = true ↔ heeded 7 r.memorySeen) := by
  unfold programmeCondition
  simp only [h]
  refine ⟨?_, heededCondition_iff .., ?_, ?_, ?_, heededCondition_iff .., ?_, heededCondition_iff ..⟩
  · rw [runningCondition_iff, silenceHolds_iff]
  · rw [runningCondition_iff, any_lt_iff]
  · rw [Bool.and_assoc, runningCondition_iff, Bool.and_eq_true, any_lt_iff, Bool.not_eq_true', ← Bool.not_eq_true,
      silenceHolds_iff]
  · rw [runningCondition_iff, any_lt_iff]
  · cases (b.programme p).state <;> decide

/-- The conditions of a port (R44, R142). -/
theorem portConditions (b : Body) (q : Fin 8) :
    let t := (b.port q).tracker
    (portCondition b q 0 = true ↔ (t.state = .holdover ∨ t.state = .absent) ∧
      ∃ (p : Fin 16) (src : Source), (b.lane p).source = some src ∧ src.port = q ∧
        ((b.programme p).state = .priming ∨ (b.programme p).state = .running ∨ (b.programme p).state = .starved)) ∧
    (portCondition b q 1 = true ↔ t.rangeHeld = true) ∧ (portCondition b q 2 = true ↔ t.jumpSeen = true) := by
  have used : (usersOf b q != []) = true ↔ ∃ (p : Fin 16) (src : Source), (b.lane p).source = some src ∧ src.port = q ∧
      ((b.programme p).state = .priming ∨ (b.programme p).state = .running ∨ (b.programme p).state = .starved) := by
    rw [bne_iff_ne, ne_eq, List.eq_nil_iff_forall_not_mem, not_forall]
    refine exists_congr fun p => ?_
    rw [not_not]
    unfold usersOf
    rw [List.mem_filter, Bool.and_eq_true, carrying_iff, Option.any_eq_true]
    simp only [programmeIds, List.mem_finRange, true_and, decide_eq_true_eq]
    exact ⟨fun ⟨k, src, hs, hq⟩ => ⟨src, hs, hq, k⟩, fun ⟨src, hs, hq, k⟩ => ⟨k, src, hs, hq⟩⟩
  refine ⟨?_, Iff.rfl, Iff.rfl⟩
  rw [← used]
  unfold portCondition
  simp only [Bool.and_eq_true, Bool.or_eq_true, beq_iff_eq]

end

end Sys2Proof.Machine
end

section
/-! The entries of the alarm table at a FRAME_BOUNDARY whose first block they are (the second part of O7), and the reports due
of entries and programmes. -/

namespace Sys2Proof.Machine

variable {s t : State} {d : Boundary} {b c : Body}

/-! ### Reports due when the reports are placed -/

/-- What a class's report leaves of an alarm entry: all of it, or its report placed. -/
theorem classReport_entry {m : Message} {x : OwnerClass} (h : classReport s x = some (m, t)) (e : Fin 154) :
    t.body.entry e = s.body.entry e ∨
      (t.body.entry e = { s.body.entry e with reportOwed := false } ∧ m = alarmMessage e (s.body.entry e)) := by
  cases x
  · cases h
  · left
    simp only [classReport, completionReport] at h
    split at h
    · cases h; rfl
    · obtain ⟨x, -, hx⟩ := Option.map_eq_some_iff.1 h
      cases hx; rfl
  · simp only [classReport, alarmReport, Option.map_eq_some_iff] at h
    obtain ⟨o, -, hx⟩ := h
    cases hx
    by_cases eq : o = e
    · subst eq
      exact .inr ⟨by simp [Body.onEntry, Body.setEntry, Body.entry], rfl⟩
    · refine .inl ?_
      have ne : o.val ≠ e.val := fun hv => eq (Fin.ext hv)
      simp [Body.onEntry, Body.setEntry, Body.entry, ne]
  · left
    simp only [classReport, stateReport] at h
    obtain ⟨p, -, hp⟩ := List.exists_of_findSome?_eq_some h
    obtain ⟨x, -, hx⟩ := Option.map_eq_some_iff.1 hp
    cases hx; rfl
  · left
    simp only [classReport, sceneReport] at h
    split at h
    · cases h; rfl
    · rw [Option.or_eq_some_iff] at h
      rcases h with h | ⟨-, h⟩
      · obtain ⟨p, -, hp⟩ := List.exists_of_findSome?_eq_some h
        obtain ⟨x, -, hx⟩ := Option.map_eq_some_iff.1 hp
        cases hx; rfl
      · obtain ⟨p, -, hp⟩ := List.exists_of_findSome?_eq_some h
        obtain ⟨x, -, hx⟩ := Option.map_eq_some_iff.1 hp
        cases hx; rfl
  · left
    simp only [classReport, lineReport] at h
    split at h <;> (cases h; try rfl)

/-- What a class's report leaves of a programme: all of it, or its report placed. -/
theorem classReport_programme {m : Message} {x : OwnerClass} (h : classReport s x = some (m, t)) (p : Fin 16) :
    t.body.programme p = s.body.programme p ∨
      (t.body.programme p = { s.body.programme p with stateOwed := none } ∧
        ∃ c, (s.body.programme p).stateOwed = some c ∧ m = stateMessage p (s.body.programme p) c) := by
  cases x
  · cases h
  · left
    simp only [classReport, completionReport] at h
    split at h
    · cases h; rfl
    · obtain ⟨x, -, hx⟩ := Option.map_eq_some_iff.1 h
      cases hx; rfl
  · left
    simp only [classReport, alarmReport, Option.map_eq_some_iff] at h
    obtain ⟨o, -, hx⟩ := h
    cases hx; rfl
  · simp only [classReport, stateReport] at h
    obtain ⟨o, -, ho⟩ := List.exists_of_findSome?_eq_some h
    obtain ⟨c, hc, hx⟩ := Option.map_eq_some_iff.1 ho
    cases hx
    by_cases eq : o = p
    · subst eq
      exact .inr ⟨by simp, c, hc, rfl⟩
    · exact .inl (by rw [Body.onProgramme_eq, Body.programme_setProgramme_other _ _ _ _ eq])
  · left
    simp only [classReport, sceneReport] at h
    split at h
    · cases h; rfl
    · rw [Option.or_eq_some_iff] at h
      rcases h with h | ⟨-, h⟩
      · obtain ⟨p, -, hp⟩ := List.exists_of_findSome?_eq_some h
        obtain ⟨x, -, hx⟩ := Option.map_eq_some_iff.1 hp
        cases hx; rfl
      · obtain ⟨p, -, hp⟩ := List.exists_of_findSome?_eq_some h
        obtain ⟨x, -, hx⟩ := Option.map_eq_some_iff.1 hp
        cases hx; rfl
  · left
    simp only [classReport, lineReport] at h
    split at h <;> (cases h; try rfl)

/-- A property that each report placed keeps stands at the end of an event. -/
theorem placeReports_keeps {P : State → Prop} (hs : P s) (sync : ∀ s, P s → P (syncCompletions s))
    (place : ∀ {s t x m}, classReport s x = some (m, t) → P s → P (putMessage x m t)) : P (placeReports s) := by
  have loop : ∀ n s, P s → P (placeLoop n s) := by
    intro n
    induction n with
    | zero => exact fun _ h => h
    | succ n ih =>
      intro s h
      unfold placeLoop
      split
      · exact h
      · rename_i t ht
        obtain ⟨x, m, u, hc, rfl⟩ := placeOne_classReport ht
        exact ih _ (place hc h)
  exact loop _ _ (sync s hs)

/-- An ALARM report that is due is due after the reports are placed. -/
theorem placeReports_alarmDue {e : Fin 154} (h : AlarmDue e s) : AlarmDue e (placeReports s) := by
  refine placeReports_keeps h (fun _ h => h) fun {s t x m} hc h => ?_
  have queue := (classReport_same hc).2.2.2.1
  unfold AlarmDue at h ⊢
  rw [putMessage_queue, queue, List.mem_append, List.mem_singleton]
  show (t.body.entry e).reportOwed = true ∨ alarmMessage e (t.body.entry e) ∈ s.tx.queue ∨ alarmMessage e (t.body.entry e) = m
  rcases classReport_entry hc e with k | ⟨k, hm⟩
  · rw [k]
    exact h.imp id .inl
  · rw [k]
    exact .inr (.inr hm.symm)

/-- A STATE report that is due is due after the reports are placed. -/
theorem placeReports_stateDue {p : Fin 16} {c : StateCause} (h : StateDue p c s) : StateDue p c (placeReports s) := by
  refine placeReports_keeps h (fun _ h => h) fun {s t x m} hc h => ?_
  have queue := (classReport_same hc).2.2.2.1
  unfold StateDue at h ⊢
  rw [putMessage_queue, queue, List.mem_append, List.mem_singleton]
  show (t.body.programme p).stateOwed = some c ∨ stateMessage p (t.body.programme p) c ∈ s.tx.queue ∨
    stateMessage p (t.body.programme p) c = m
  rcases classReport_programme hc p with k | ⟨k, x, hx, hm⟩
  · rw [k]
    exact h.imp id .inl
  · rw [k]
    refine .inr (h.elim (fun ho => .inr ?_) .inl)
    cases hx.symm.trans ho
    exact hm.symm

/-! ### The evaluation, entry by entry -/

/-- An entry after its evaluation (R139). -/
def Body.steppedEntry (b : Body) (f : Count) (e : Fin 154) : Entry :=
  if (b.entry e).enabled then (b.entry e).advance (condition b e) f else b.entry e

/-- The failover actions an entry raises (R146). -/
def Body.raisedBy (b : Body) (e : Fin 154) : List FailoverAction :=
  if (b.entry e).enabled && (b.entry e).hasOnset (condition b e) then onsetActions b e else []

theorem entry_setEntry (b : Body) (e o : Fin 154) (x : Entry) :
    (b.setEntry e x).entry o = if e = o then x else b.entry o := by
  simp only [Body.setEntry, Body.entry, Fin.getElem_fin, Vector.getElem_set, Fin.ext_iff]

theorem condition_setEntry (b : Body) (e o : Fin 154) (x : Entry) : condition (b.setEntry e x) o = condition b o := rfl

theorem evaluateEntry_eq (f : Count) (e : Fin 154) (b : Body) :
    evaluateEntry f e b = (b.setEntry e (b.steppedEntry f e), b.raisedBy e) := by
  have same : b.setEntry e (b.entry e) = b := by
    unfold Body.setEntry Body.entry
    rw [Fin.getElem_fin, Vector.set_getElem_self]
  unfold evaluateEntry Body.steppedEntry Body.raisedBy
  by_cases h : (b.entry e).enabled
  · simp [h]
  · simp [h, same]

/-- Each entry of the list takes its step by the conditions as they stand at the start. -/
theorem evaluateEntries_eq (f : Count) (es : List (Fin 154)) (hn : es.Nodup) (b : Body) :
    (∀ e, (evaluateEntries f es b).1.entry e = if e ∈ es then b.steppedEntry f e else b.entry e) ∧
      (evaluateEntries f es b).2 = es.flatMap b.raisedBy := by
  induction es generalizing b with
  | nil => exact ⟨fun e => by simp [evaluateEntries], rfl⟩
  | cons o es ih =>
    obtain ⟨ho, hes⟩ := List.nodup_cons.1 hn
    obtain ⟨h1, h2⟩ := ih hes (b.setEntry o (b.steppedEntry f o))
    have other : ∀ e, o ≠ e → (b.setEntry o (b.steppedEntry f o)).entry e = b.entry e := fun e he => by
      rw [entry_setEntry, if_neg he]
    have stepped : ∀ e, o ≠ e → (b.setEntry o (b.steppedEntry f o)).steppedEntry f e = b.steppedEntry f e :=
      fun e he => by
        rw [Body.steppedEntry, other e he]
        rfl
    have raises : ∀ e, o ≠ e → (b.setEntry o (b.steppedEntry f o)).raisedBy e = b.raisedBy e := fun e he => by
      rw [Body.raisedBy, other e he]
      rfl
    have ne : ∀ e ∈ es, o ≠ e := fun e he k => ho (k ▸ he)
    unfold evaluateEntries
    rw [evaluateEntry_eq]
    refine ⟨fun e => ?_, ?_⟩
    · simp only [h1]
      by_cases he : e ∈ es
      · rw [if_pos he, if_pos (List.mem_cons_of_mem _ he), stepped e (ne e he)]
      · rw [if_neg he, entry_setEntry]
        by_cases k : o = e
        · subst k
          rw [if_pos rfl, if_pos List.mem_cons_self]
        · rw [if_neg k, if_neg fun hm => (List.mem_cons.1 hm).elim (fun k' => k k'.symm) he]
    · simp only [h2, List.flatMap_cons]
      congr 1
      exact List.flatMap_congr fun e he => raises e (ne e he)

theorem judged_entry (d : Boundary) (b : Body) (e : Fin 154) :
    (judged d b).entry e = if e ∈ d.evaluated then b.entry e else b.steppedEntry d.frame e := by
  have h := (evaluateEntries_eq d.frame (entryIds.filter fun e => !d.evaluated.contains e)
    ((List.nodup_finRange 154).filter _) b).1 e
  refine (h : (judged d b).entry e = _).trans ?_
  simp [entryIds, List.mem_finRange]

theorem evaluate_entry (d : Boundary) (b : Body) (e : Fin 154) :
    (evaluate d b).entry e = if e ∈ d.evaluated then b.entry e else b.steppedEntry d.frame e := by
  have h : (takeActions (raised d b) (judged d b)).entries = (judged d b).entries :=
    fixed_entries (takeActions_fixed (raised d b) (judged d b))
  rw [← judged_entry]
  exact congrArg (fun v : Vector Entry 154 => v[e]) h

/-! ### An entry after its step -/

/-- An entry has taken its step at the boundary, and no scene commits any more before its end. -/
structure EntrySettled (e : Fin 154) (y : Entry) (g : Boundary) (u : State) : Prop where
  alarms : g.alarmsDone = true
  scene : g.sequencerDone = true ∨ u.body.sequencer.state ≠ .committing
  entry : { u.body.entry e with reportOwed := false } = { y with reportOwed := false }
  due : y.reportOwed = true → AlarmDue e u

theorem AlarmDue.onBody {e : Fin 154} {f : Body → Body} (h : AlarmDue e s) (he : (f s.body).entries = s.body.entries) :
    AlarmDue e (onBody f s) := by
  have entry : (f s.body).entry e = s.body.entry e := by unfold Body.entry; rw [he]
  unfold AlarmDue Machine.onBody
  rw [entry]
  exact h

theorem EntrySettled.onBody {e : Fin 154} {y : Entry} {g g' : Boundary} {u : State} {f : Body → Body}
    (h : EntrySettled e y g u) (hg : g'.alarmsDone = g.alarmsDone)
    (hs : g'.sequencerDone = true ∨ (g'.sequencerDone = g.sequencerDone ∧ (f u.body).sequencer = u.body.sequencer))
    (he : (f u.body).entries = u.body.entries) : EntrySettled e y g' (onBody f u) := by
  have entry : (f u.body).entry e = u.body.entry e := by unfold Body.entry; rw [he]
  refine ⟨hg.trans h.alarms, ?_, ?_, fun k => (h.due k).onBody he⟩
  · rcases hs with hs | ⟨hs, hq⟩
    · exact .inl hs
    · rw [hs]
      unfold Machine.onBody
      rw [hq]
      exact h.scene
  · unfold Machine.onBody
    rw [entry]
    exact h.entry

theorem quiet_entry (h : c.quiet = b.quiet) (e : Fin 154) :
    { c.entry e with reportOwed := false } = { b.entry e with reportOwed := false } := by
  have := congrArg (fun x : Body => x.entries[e]) h
  simpa [Body.quiet, Body.entry] using this

theorem entrySettled_keeping (d : Boundary) (e : Fin 154) (y : Entry) : Keeping d (EntrySettled e y) where
  place {g u} h := by
    have quiet := placeReports_quiet u
    have state : (placeReports u).body.sequencer.state = u.body.sequencer.state :=
      (congrArg (fun x : Body => x.sequencer.state) quiet :)
    exact ⟨h.alarms, state ▸ h.scene, (quiet_entry quiet e).trans h.entry, fun k => placeReports_alarmDue (h.due k)⟩
  timing f h := h.onBody rfl (.inr ⟨rfl, rfl⟩) rfl
  commit p _ _ h := h.onBody rfl (.inr ⟨rfl, fixed_sequencer (commitDirect_fixed ..)⟩) (fixed_entries (commitDirect_fixed ..))
  work p _ _ h :=
    h.onBody rfl (.inr ⟨rfl, fixed_sequencer (switchingWork_fixed ..)⟩) (fixed_entries (switchingWork_fixed ..))
  cut p _ h := h.onBody rfl (.inr ⟨rfl, fixed_sequencer (cutDue_fixed ..)⟩) (fixed_entries (cutDue_fixed ..))
  sequencer {g u} _ hm h := by
    refine h.onBody rfl (.inl rfl) (sequencerStep_entries _ (h.scene.resolve_left fun k => ?_))
    exact Bool.false_ne_true (hm.symm.trans k)
  alarms _ hm h := absurd (hm.symm.trans h.alarms) Bool.false_ne_true
  watch {g u} _ _ h := by
    obtain ⟨q, m, eq⟩ := watchWork_only g.frame u
    rw [eq]
    exact ⟨h.alarms, h.scene, h.entry, fun k => (h.due k).imp id (List.mem_append_left _)⟩

/-- The alarm table first: an entry not yet evaluated takes its step, and a report it owes is due (R143 to R145). -/
theorem boundaryClosed_entry (order : List BoundaryBlock) (e : Fin 154) (h : s.body.timing.boundary = some d)
    (ha : d.alarmsDone = false) (he : e ∉ d.evaluated) (hs : s.body.sequencer.state ≠ .committing ∨ d.sequencerDone = true)
    {y : Entry} (hy : s.body.steppedEntry d.frame e = y) :
    ∃ t, exec (.frameBoundary (.alarms :: order)) s = .next t ∧
      { t.body.entry e with reportOwed := false } = { y with reportOwed := false } ∧ (y.reportOwed = true → AlarmDue e t) := by
  have first : blockPiece .alarms (onBody (enterBoundary d) s) =
      onBody (mark fun d => { d with alarmsDone := true }) (onBody (evaluate d) (onBody (enterBoundary d) s)) := by
    unfold blockPiece
    simp [onBody, h, alarmPiece, ha]
  have stepped : (evaluate d (enterBoundary d s.body)).entry e = y := by
    rw [evaluate_entry, if_neg he, ← hy]
    rfl
  obtain ⟨g, -, -, hg⟩ := (entrySettled_keeping d e y).closed_after .alarms order h (by
    intro g hb hf hk
    rw [first] at hb ⊢
    refine ⟨hk, ?_, ?_, fun ho => .inl ?_⟩
    · refine hs.symm.imp hf.sequencer fun hc => ?_
      show (evaluate d (enterBoundary d s.body)).sequencer.state ≠ _
      rw [evaluate_sequencer]
      exact hc
    · exact congrArg (fun x : Entry => { x with reportOwed := false }) stepped
    · exact (congrArg Entry.reportOwed stepped).trans ho)
  exact ⟨_, exec_frameBoundary _ h, hg.entry, hg.due⟩

end Sys2Proof.Machine
end

section
/-! A FRAME_BOUNDARY as one programme without a pending set sees it, and the counting of its guard and revert countdown where
the programmes come first (the last part of O7). -/

namespace Sys2Proof.Machine

variable {s : State} {d : Boundary} {b c : Body} {p : Fin 16} {st : Settings}

/-! ### The scheme for one programme -/

/-- What must be shown of a property of a programme with no pending set: the work of the others leaves it, and its own does,
so does the evaluation. -/
structure SeatKeeping (d : Boundary) (p : Fin 16) (P : Boundary → State → Prop) : Prop where
  place : ∀ {g u}, P g u → P g (placeReports u)
  pending : ∀ {g u}, P g u → (u.body.programme p).pending = none
  apart : ∀ {g g' u} (f : Body → Body), Apart p u.body (f u.body) → (p ∈ g'.worked ↔ p ∈ g.worked) →
    g'.alarmsDone = g.alarmsDone → P g u → P g' (onBody f u)
  work : ∀ {g u}, d.Further g → p ∉ g.worked → P g u →
    P { g with worked := p :: g.worked } (onBody (switchingWork p) u)
  alarms : ∀ {g u}, d.Further g → g.alarmsDone = false → P g u → P { g with alarmsDone := true } (onBody (evaluate g) u)
  watch : ∀ {g u} l (q : List Message), P g u →
    P { g with watchDone := true } { u with body := u.body.onLine l, tx := { u.tx with queue := u.tx.queue ++ q } }

theorem ownedBy_none (h : (b.programme p).pending = none) (o : Owner) : ownedBy b o p = false := by
  simp [ownedBy, h]

theorem commitDirect_apart (h : (b.programme p).pending = none) (q : Fin 16) (f : Count) :
    Apart p b (commitDirect q f b) := by
  by_cases eq : q = p
  · subst eq
    rw [commitDirect_none (ownedBy_none h .direct)]
    exact .refl q b
  · exact (Turn.commitDirect q f b).apart eq

theorem SeatKeeping.keeping {P : Boundary → State → Prop} (K : SeatKeeping d p P) : Keeping d P where
  place := K.place
  timing {g u} f h := K.apart (g := g) _ ⟨rfl, rfl⟩ Iff.rfl rfl h
  commit {g u} q _ _ h := K.apart (g := g) _ (commitDirect_apart (K.pending h) q _) Iff.rfl rfl h
  work {g u} q hf hm h := by
    by_cases eq : q = p
    · subst eq
      exact K.work hf hm h
    · refine K.apart (g := g) _ ((Turn.switchingWork q u.body).apart eq) ?_ rfl h
      rw [List.mem_cons]
      exact ⟨fun k => k.resolve_left (Ne.symm eq), .inr⟩
  cut {g u} q _ h := K.apart (g := g) _ ((LaneWork.cutDue q _ _).apart p) Iff.rfl rfl h
  sequencer {g u} _ _ h :=
    K.apart (g := g) _ ((SceneWork.sequencerStep _ _).apart (ownedBy_none (K.pending h) .scene)) Iff.rfl rfl h
  alarms := K.alarms
  watch {g u} _ _ h := by
    obtain ⟨q, m, eq⟩ := watchWork_only g.frame u
    rw [eq]
    exact K.watch _ q h

/-! ### A programme's boundary work where nothing is requested and nothing switches -/

/-- The boundary work counts: the guard down, the revert countdown set. -/
theorem switchingWork_counts {n : Nat} (hc : carrying (b.programme p).state = true)
    (hr : (b.programme p).requested = none)
    (hn : ((b.programme p).selector = .main ∧ n = (b.programme p).revertCount) ∨
      ((b.programme p).selector = .backup ∧ revertSatisfied b p = false ∧
        n = ((b.programme p).active.map Settings.revertHold).getD 0) ∨
      ((b.programme p).selector = .backup ∧ revertSatisfied b p = true ∧ n = (b.programme p).revertCount - 1 ∧ n ≠ 0)) :
    switchingWork p b =
      b.onProgramme p fun r => { r with guard := r.guard - 1, requested := none, revertCount := n } := by
  have requested : applyRequested p (guardStep p b) =
      b.onProgramme p fun r => { r with guard := r.guard - 1, requested := none } := by
    have absent : ((guardStep p b).programme p).requested = none := by simp [guardStep, hr]
    unfold applyRequested
    simp only [absent]
    exact onProgramme_onProgramme b p _ _
  have own : ((b.onProgramme p fun r => { r with guard := r.guard - 1, requested := none }).programme p) =
      { b.programme p with guard := (b.programme p).guard - 1, requested := none } := by simp
  have satisfied : revertSatisfied (b.onProgramme p fun r => { r with guard := r.guard - 1, requested := none }) p =
      revertSatisfied b p := by
    unfold revertSatisfied
    rw [own]
    rfl
  have twice : ∀ m, ((b.onProgramme p fun r => { r with guard := r.guard - 1, requested := none }).onProgramme p fun r =>
      { r with revertCount := m }) = b.onProgramme p fun r =>
        { r with guard := r.guard - 1, requested := none, revertCount := m } := fun m =>
    onProgramme_onProgramme b p _ _
  unfold switchingWork
  rw [if_pos hc, requested]
  unfold revertTest
  simp only [own, satisfied]
  rcases hn with ⟨hs, rfl⟩ | ⟨hs, hk, rfl⟩ | ⟨hs, hk, rfl, hn⟩
  · rw [if_pos (by rw [hs]; decide)]
    rw [Body.onProgramme_eq, Body.onProgramme_eq]
  · rw [if_neg (by rw [hs]; decide), hk, if_pos (by decide), onProgramme_onProgramme]
    rw [Body.onProgramme_eq, Body.onProgramme_eq]
  · rw [if_neg (by rw [hs]; decide), hk, if_neg (by decide), twice, if_neg fun k => hn k.1]

/-! ### The programmes first -/

/-- Selector, countdowns and source of a programme that the rest of a boundary leaves. -/
structure Counted (p : Fin 16) (st : Settings) (x : Selector × Nat × Nat) (src : Option Source) (g : Boundary)
    (u : State) : Prop where
  worked : p ∈ g.worked
  active : (u.body.programme p).active = some st
  pending : (u.body.programme p).pending = none
  place : (u.body.programme p).place = x
  source : (u.body.lane p).source = src

section
variable {x : Selector × Nat × Nat} {src : Option Source}

theorem Counted.onBody {g g' : Boundary} {u : State} {f : Body → Body} (h : Counted p st x src g u)
    (hg : p ∈ g.worked → p ∈ g'.worked) (hf : Apart p u.body (f u.body)) : Counted p st x src g' (onBody f u) := by
  obtain ⟨hp, hs⟩ := hf
  refine ⟨hg h.worked, ?_, ?_, ?_, hs.trans h.source⟩ <;>
    (show _ = _; simp only [Machine.onBody, hp])
  · exact h.active
  · exact h.pending
  · exact h.place

/-- A programme that heeds no failure stands while the failover actions are taken (R89). -/
theorem takeActions_never (hst : st.failover = .never) (l : List FailoverAction) (b : Body)
    (ha : (b.programme p).active = some st) : Apart p b (takeActions l b) := by
  induction l generalizing b with
  | nil => exact .refl p b
  | cons a l ih =>
    have step : Apart p b (takeFailover a b) := by
      by_cases eq : a.programme = p
      · have target : failoverTarget b a = none := by
          unfold failoverTarget
          simp only [eq, ha]
          split
          · rfl
          · simp [policyAdmits, hst]
        unfold takeFailover
        rw [target]
        exact .refl p b
      · exact (Turn.takeFailover a b).apart eq
    exact step.trans (ih _ (step.programme ▸ ha))

theorem Counted.evaluate {g : Boundary} {u : State} (hst : st.failover = .never) (h : Counted p st x src g u) :
    Counted p st x src { g with alarmsDone := true } (Machine.onBody (Machine.evaluate g) u) := by
  have programme := judged_programme g u.body p
  have active : ((judged g u.body).programme p).active = some st := by rw [programme]; exact h.active
  have still := takeActions_never hst (raised g u.body) (judged g u.body) active
  have same : (Machine.evaluate g u.body).programme p = _ := still.programme.trans programme
  refine ⟨h.worked, ?_, ?_, ?_, ?_⟩
  · exact (congrArg Programme.active same).trans h.active
  · exact (congrArg Programme.pending same).trans h.pending
  · exact (congrArg Programme.place same).trans h.place
  · exact (still.source.trans (judged_source g u.body p)).trans h.source

theorem counted_keeping (d : Boundary) (hst : st.failover = .never) : SeatKeeping d p (Counted p st x src) where
  place {g u} h := by
    have quiet := placeReports_quiet u
    have e := quiet_programme quiet p
    exact ⟨h.worked, (congrArg Programme.active e :).trans h.active, (congrArg Programme.pending e :).trans h.pending,
      (congrArg Programme.place e :).trans h.place, (quiet_source quiet p).trans h.source⟩
  pending h := h.pending
  apart f hf hg _ h := h.onBody hg.2 hf
  work _ hm h := absurd h.worked hm
  alarms _ _ h := h.evaluate hst
  watch _ _ h := ⟨h.worked, h.active, h.pending, h.place, h.source⟩

end

/-- A programme stands with its lane's source, and so do ports and entries. -/
structure Aside (p : Fin 16) (b c : Body) : Prop where
  apart : Apart p b c
  ports : c.ports = b.ports
  entries : c.entries = b.entries

theorem Aside.of_fixed (h : Apart p b c) (hf : c.fixed = b.fixed) : Aside p b c :=
  ⟨h, fixed_ports hf, fixed_entries hf⟩

theorem Aside.refl (p : Fin 16) (b : Body) : Aside p b b := ⟨.refl p b, rfl, rfl⟩

theorem Aside.trans {e : Body} (h : Aside p b c) (h' : Aside p c e) : Aside p b e :=
  ⟨h.apart.trans h'.apart, h'.ports.trans h.ports, h'.entries.trans h.entries⟩

theorem Aside.mark (f : Boundary → Boundary) (b : Body) : Aside p b (mark f b) := ⟨⟨rfl, rfl⟩, rfl, rfl⟩

theorem commitPiece_aside (d : Boundary) (q : Fin 16) (b : Body) (h : q ≠ p ∨ (b.programme p).pending = none) :
    Aside p b (commitPiece d q b) := by
  unfold commitPiece
  split
  · exact .refl p b
  · refine (Aside.of_fixed ?_ (commitDirect_fixed q d.frame b)).trans (.mark _ _)
    exact h.elim (fun hq => (Turn.commitDirect q d.frame b).apart hq) fun hp => commitDirect_apart hp q _

theorem programmePiece_aside (d : Boundary) {q : Fin 16} (hq : q ≠ p) (b : Body) : Aside p b (programmePiece d q b) := by
  unfold programmePiece
  split
  · exact .refl p b
  · exact (commitPiece_aside d q b (.inl hq)).trans
      ((Aside.of_fixed ((Turn.switchingWork q _).apart hq) (switchingWork_fixed q _)).trans (.mark _ _))

theorem Aside.satisfied (h : Aside p b c) : revertSatisfied c p = revertSatisfied b p := by
  have lock : ∀ q, isLocked c q = isLocked b q := fun q => by unfold isLocked Body.port; rw [h.ports]
  have entry : ∀ e, c.entry e = b.entry e := fun e => by unfold Body.entry; rw [h.entries]
  unfold revertSatisfied
  simp only [h.apart.programme, lock, entry]

/-- The programmes first: one that nothing switches counts its guard down, and its revert countdown (R88, R91). -/
theorem boundaryClosed_counts (order : List BoundaryBlock) (n : Nat) (h : s.body.timing.boundary = some d)
    (hw : p ∉ d.worked) (ha : (s.body.programme p).active = some st) (hp : (s.body.programme p).pending = none)
    (hr : (s.body.programme p).requested = none) (hc : carrying (s.body.programme p).state = true)
    (hst : st.failover = .never)
    (hn : ((s.body.programme p).selector = .main ∧ n = (s.body.programme p).revertCount) ∨
      ((s.body.programme p).selector = .backup ∧ revertSatisfied s.body p = false ∧ n = st.revertHold) ∨
      ((s.body.programme p).selector = .backup ∧ revertSatisfied s.body p = true ∧
        n = (s.body.programme p).revertCount - 1 ∧ n ≠ 0)) :
    ∃ t, exec (.frameBoundary (.programmes :: order)) s = .next t ∧
      (t.body.programme p).guard = (s.body.programme p).guard - 1 ∧ (t.body.programme p).revertCount = n ∧
      (t.body.programme p).selector = (s.body.programme p).selector ∧
      (t.body.lane p).source = (s.body.lane p).source := by
  obtain ⟨c, hbc, hca⟩ := eachProgramme_turn p (programmePiece d) (Aside p) (.refl p) (fun _ _ _ => .trans)
    (fun q hq b => programmePiece_aside d hq b) (enterBoundary d s.body)
  have before : Aside p s.body (commitPiece d p c) := by
    refine Aside.trans (c := c) ⟨⟨hbc.apart.programme, hbc.apart.source⟩, hbc.ports, hbc.entries⟩
      (commitPiece_aside d p c (.inr ?_))
    rw [hbc.apart.programme]
    exact hp
  have own := before.apart.programme
  have counts := switchingWork_counts (b := commitPiece d p c) (p := p) (n := n) (by rw [own, hc]) (by rw [own, hr]) (by
    rw [own, before.satisfied, ha]
    exact hn)
  have turned : Aside p (switchingWork p (commitPiece d p c)) ((enterBoundary d s.body).eachProgramme (programmePiece d)) := by
    have piece : programmePiece d p c =
        mark (fun d => { d with worked := p :: d.worked }) (switchingWork p (commitPiece d p c)) := by
      simp [programmePiece, hw]
    rw [piece] at hca
    exact (Aside.mark _ _).trans hca
  have programme := turned.apart.programme
  rw [counts, Body.onProgramme_eq, Body.programme_setProgramme_same, own] at programme
  have source := turned.apart.source
  rw [counts, Body.onProgramme_eq, Body.lane_setProgramme, before.apart.source] at source
  have first : blockPiece .programmes (onBody (enterBoundary d) s) =
      onBody (fun b => b.eachProgramme (programmePiece d)) (onBody (enterBoundary d) s) := by
    unfold blockPiece
    simp [onBody, h]
  obtain ⟨g, -, -, hg⟩ := (counted_keeping d hst).keeping.closed_after
    (P := Counted p st ((s.body.programme p).selector, (s.body.programme p).guard - 1, n) (s.body.lane p).source)
    .programmes order h (by
      intro g _ _ hk
      rw [first]
      refine ⟨hk p, (congrArg Programme.active programme).trans ha, (congrArg Programme.pending programme).trans hp,
        congrArg Programme.place programme, source⟩)
  obtain ⟨hsel, hguard, hcount⟩ : _ ∧ _ ∧ _ := by simpa only [Programme.place, Prod.mk.injEq] using hg.place
  exact ⟨_, exec_frameBoundary _ h, hguard, hcount, hsel, hg.source⟩

end Sys2Proof.Machine
end

section
/-! Failover at a FRAME_BOUNDARY whose first block is the alarm table (R89, R146): the fourth part of O7. -/

namespace Sys2Proof.Machine

variable {s : State} {d : Boundary} {b c : Body} {p : Fin 16} {st : Settings} {src : Source}

/-! ### A switch and its cause -/

theorem oweState_owes (p : Fin 16) (x : StateCause) (b : Body) : ((oweState p x b).programme p).stateOwed = some x := by
  simp [oweState]

/-- A switch owes the report of its cause (R100). -/
theorem switchSource_owes (p : Fin 16) (src : Source) (x : StateCause) (b : Body) :
    ((switchSource p src x b).programme p).stateOwed = some x := by
  unfold switchSource
  extract_lets b1 b2 b3 b4 b5
  have owed2 : (b2.programme p).stateOwed = some x := by
    have owed1 : (b1.programme p).stateOwed = some x := oweState_owes p x b
    show ((b1.onProgramme p _).programme p).stateOwed = _
    rw [Body.onProgramme_eq, Body.programme_setProgramme_same]
    split <;> exact owed1
  have owed3 : (b3.programme p).stateOwed = some x := by
    show ((if _ then _ else b2 : Body).programme p).stateOwed = _
    split
    · rw [(LaneWork.placeMark p src b2).programme]
      exact owed2
    · exact owed2
  have owed4 : (b4.programme p).stateOwed = some x := owed3
  have owed5 : ((discardHeld p b4).programme p).stateOwed = some x := by
    rw [(LaneWork.discardHeld p b4).programme]
    exact owed4
  clear_value b4
  split
  · rw [(LaneWork.refreshSetpoint p _).programme, (LaneWork.emptyLine p _).programme]
    exact owed5
  · split
    · rw [(LaneWork.refreshSetpoint p _).programme]
      exact oweState_owes p x _
    · exact owed5
  · exact owed4

/-- A programme that may fail over to `src`: nothing pending or requested, on MAIN, the guard run out (R89). -/
structure Ready (p : Fin 16) (st : Settings) (src : Source) (b : Body) : Prop where
  carries : carrying (b.programme p).state = true
  active : (b.programme p).active = some st
  pending : (b.programme p).pending = none
  requested : (b.programme p).requested = none
  selector : (b.programme p).selector = .main
  source : (b.lane p).source = some st.main
  guard : (b.programme p).guard = 0
  locked : isLocked b src.port = true
  held : (b.entry (lossEntry src.port)).state ≠ .active ∧ (b.entry (lossEntry src.port)).state ≠ .latched

/-- A programme on its backup source, its guard at `n`. -/
structure OnBackup (p : Fin 16) (st : Settings) (src : Source) (n : Nat) (b : Body) : Prop where
  carries : carrying (b.programme p).state = true
  active : (b.programme p).active = some st
  pending : (b.programme p).pending = none
  requested : (b.programme p).requested = none
  selector : (b.programme p).selector = .backup
  source : (b.lane p).source = some src
  guard : (b.programme p).guard = n

theorem Ready.apart (h : Ready p st src b) (ha : Apart p b c) (hf : c.fixed = b.fixed) : Ready p st src c := by
  obtain ⟨hp, hs⟩ := ha
  have lock : isLocked c src.port = isLocked b src.port := by unfold isLocked Body.port; rw [fixed_ports hf]
  have entry : c.entry (lossEntry src.port) = b.entry (lossEntry src.port) := by
    unfold Body.entry
    rw [fixed_entries hf]
  exact ⟨hp ▸ h.carries, hp ▸ h.active, hp ▸ h.pending, hp ▸ h.requested, hp ▸ h.selector, hs.trans h.source,
    hp ▸ h.guard, lock.trans h.locked, entry ▸ h.held⟩

theorem OnBackup.apart {n : Nat} (h : OnBackup p st src n b) (ha : Apart p b c) : OnBackup p st src n c := by
  obtain ⟨hp, hs⟩ := ha
  exact ⟨hp ▸ h.carries, hp ▸ h.active, hp ▸ h.pending, hp ▸ h.requested, hp ▸ h.selector, hs.trans h.source,
    hp ▸ h.guard⟩

/-- A failure that the policy heeds, of the programme or of its main port, takes it to its backup source. -/
theorem Ready.failsOver (h : Ready p st src b) (hb : st.backup = some src) (hne : src ≠ st.main) {a : FailoverAction}
    (hp : a.programme = p) (hpol : policyAdmits st a = true) (hq : ∀ q, a.lossPort = some q → q = st.main.port) :
    OnBackup p st src st.switchGuard (takeFailover a b) ∧
      ((takeFailover a b).programme p).stateOwed = some (if a.lossPort.isSome then .loss else .silence) := by
  subst hp
  have matched : (a.lossPort.all fun q => (selectedSource st .main).any fun s => s.port = q) = true := by
    rw [Option.all_eq_true]
    intro q hm
    simp [selectedSource, hq q hm]
  have target : failoverTarget b a = some src := by
    unfold failoverTarget
    simp only [h.active, h.selector, otherSide, selectedSource, hb]
    have lost : ((b.entry (lossEntry src.port)).state != .active && (b.entry (lossEntry src.port)).state != .latched) = true := by
      simp [h.held.1, h.held.2]
    rw [if_pos]
    rw [Bool.and_eq_true, bne_iff_ne, bne_iff_ne] at lost
    simp only [h.carries, hpol, h.guard, h.locked, Bool.and_eq_true, bne_iff_ne, lost.1, lost.2, beq_self_eq_true,
      ne_eq, not_false_eq_true, and_true, true_and]
    exact matched
  have form : takeFailover a b =
      changeSelector a.programme .backup (if a.lossPort.isSome then .loss else .silence) b := by
    unfold takeFailover
    rw [target]
    simp only [h.selector, otherSide]
  rw [form]
  generalize (if a.lossPort.isSome then StateCause.loss else .silence) = x
  have turn := (Turn.changeSelector a.programme .backup x b).own
  have sets := sets_programme (changeSelector_sets a.programme .backup x b) a.programme
  obtain ⟨selector, source⟩ := changeSelector_source (p := a.programme) (side := .backup) (src := src) x h.active hb
  have switched : changeSelector a.programme .backup x b =
      switchSource a.programme src x (b.onProgramme a.programme fun r => { r with selector := .backup }) := by
    have active : ((b.onProgramme a.programme fun r => { r with selector := .backup }).programme a.programme).active =
        some st := by simp [h.active]
    have other : ((b.onProgramme a.programme fun r => { r with selector := .backup }).lane a.programme).source ≠
        some src := by
      rw [Body.onProgramme_eq, Body.lane_setProgramme, h.source]
      exact fun k => hne (Option.some.inj k).symm
    unfold changeSelector
    simp only [active, Option.bind_some, selectedSource, hb]
    exact if_neg other
  have guard : ((changeSelector a.programme .backup x b).programme a.programme).guard = st.switchGuard := by
    have place := (switchSource_switches (p := a.programme) (src := src) (st := st)
      (b := b.onProgramme a.programme fun r => { r with selector := .backup }) x (by simp [h.active])).place
    rw [switched]
    exact (congrArg (fun y : Selector × Nat × Nat => y.2.1) place :)
  refine ⟨⟨turn.carrying.trans h.carries, sets.1.trans h.active, sets.2.trans h.pending, turn.request h.requested,
    selector, source, guard⟩, ?_⟩
  rw [switched]
  exact switchSource_owes ..

/-- On BACKUP, a failure of a main port that is not LOCKED takes the programme nowhere. -/
theorem OnBackup.staysLost {n : Nat} (h : OnBackup p st src n b) (hl : isLocked b st.main.port = false)
    {a : FailoverAction} (hp : a.programme = p) : takeFailover a b = b := by
  have target : failoverTarget b a = none := by
    unfold failoverTarget
    simp only [hp, h.active, h.selector, otherSide, selectedSource, hl]
    simp
  unfold takeFailover
  rw [target]

/-- A failure that the policy does not heed takes the programme nowhere. -/
theorem Ready.heedsNot (h : Ready p st src b) (hb : st.backup = some src) {a : FailoverAction} (hp : a.programme = p)
    (hpol : policyAdmits st a = false) : takeFailover a b = b := by
  have target : failoverTarget b a = none := by
    unfold failoverTarget
    simp only [hp, h.active, h.selector, otherSide, selectedSource, hb, hpol]
    simp
  unfold takeFailover
  rw [target]

/-! ### The actions of an evaluation, one after another -/

/-- The failures of other programmes leave one that is ready. -/
theorem Ready.others (h : Ready p st src b) {l : List FailoverAction} (hl : ∀ a ∈ l, a.programme ≠ p) :
    Ready p st src (takeActions l b) := by
  induction l generalizing b with
  | nil => exact h
  | cons a l ih =>
    have ha := hl a List.mem_cons_self
    exact ih (h.apart ((Turn.takeFailover a b).apart ha) (takeFailover_fixed a b))
      fun x hx => hl x (List.mem_cons_of_mem _ hx)

/-- Failures of a main port that is not LOCKED leave a programme on BACKUP. -/
theorem OnBackup.losses {n : Nat} {x : StateCause} (h : OnBackup p st src n b)
    (ho : (b.programme p).stateOwed = some x) {l : List FailoverAction}
    (hl : ∀ a ∈ l, a.programme = p → isLocked b st.main.port = false) :
    OnBackup p st src n (takeActions l b) ∧ ((takeActions l b).programme p).stateOwed = some x := by
  induction l generalizing b with
  | nil => exact ⟨h, ho⟩
  | cons a l ih =>
    have lock : isLocked (takeFailover a b) st.main.port = isLocked b st.main.port := by
      unfold isLocked Body.port
      rw [fixed_ports (takeFailover_fixed a b)]
    have rest : ∀ a' ∈ l, a'.programme = p → isLocked (takeFailover a b) st.main.port = false :=
      fun a' hm hp => lock.trans (hl a' (List.mem_cons_of_mem _ hm) hp)
    have step : Apart p b (takeFailover a b) := by
      by_cases ha : a.programme = p
      · rw [h.staysLost (hl a List.mem_cons_self ha) ha]
        exact .refl p b
      · exact (Turn.takeFailover a b).apart ha
    exact ih (h.apart step) (step.programme ▸ ho) rest

/-- The first failure of its main port takes a ready programme to BACKUP, and it stays there. -/
theorem Ready.losses (h : Ready p st src b) (hb : st.backup = some src) (hne : src ≠ st.main) (hpol : st.failover ≠ .never)
    {l : List FailoverAction}
    (hl : ∀ a ∈ l, a.programme = p → a.lossPort = some st.main.port ∧ isLocked b st.main.port = false)
    (hex : ∃ a ∈ l, a.programme = p) :
    OnBackup p st src st.switchGuard (takeActions l b) ∧ ((takeActions l b).programme p).stateOwed = some .loss := by
  induction l generalizing b with
  | nil =>
    obtain ⟨a, ha, -⟩ := hex
    exact absurd ha List.not_mem_nil
  | cons a l ih =>
    have lock : isLocked (takeFailover a b) st.main.port = isLocked b st.main.port := by
      unfold isLocked Body.port
      rw [fixed_ports (takeFailover_fixed a b)]
    by_cases ha : a.programme = p
    · obtain ⟨hport, -⟩ := hl a List.mem_cons_self ha
      have admits : policyAdmits st a = true := by
        unfold policyAdmits
        split
        · contradiction
        · rw [hport]; rfl
        · rfl
      obtain ⟨on, owed⟩ := h.failsOver hb hne ha admits fun q hq => (Option.some.inj (hport.symm.trans hq)).symm
      rw [hport] at owed
      exact on.losses owed fun a' hm hp => lock.trans (hl a' (List.mem_cons_of_mem _ hm) hp).2
    · refine ih (h.apart ((Turn.takeFailover a b).apart ha) (takeFailover_fixed a b)) (fun a' hm hp => ?_) ?_
      · rw [lock]
        exact hl a' (List.mem_cons_of_mem _ hm) hp
      · obtain ⟨a', hm, hp⟩ := hex
        exact ⟨a', (List.mem_cons.1 hm).resolve_left fun k => ha (k ▸ hp), hp⟩

/-! ### The actions that an evaluation raises -/

theorem subjectOf_eq_programme {e : Fin 154} {k : Fin 8} (h : subjectOf e = .programme p k.val) : e = programmeEntry p k := by
  unfold subjectOf at h
  split at h
  · rw [Subject.programme.injEq, Fin.ext_iff] at h
    obtain ⟨hp, hk⟩ := h
    refine Fin.ext ?_
    show e.val = 8 * p.val + k.val
    simp only at hp
    omega
  · split at h
    · cases h
    · split at h <;> cases h

theorem subjectOf_eq_port {e : Fin 154} {q : Fin 8} {k : Fin 3} (h : subjectOf e = .port q k.val) : e = portEntry q k := by
  unfold subjectOf at h
  split at h
  · cases h
  · split at h
    · rw [Subject.port.injEq, Fin.ext_iff] at h
      obtain ⟨hq, hk⟩ := h
      refine Fin.ext ?_
      show e.val = 128 + 3 * q.val + k.val
      simp only at hq
      omega
    · split at h <;> cases h

/-- A failure that an entry's onset raises for a programme: of its own SILENCE entry, or of the LOSS entry of the port of its
source in use (R146). -/
theorem raisedBy_programme {e : Fin 154} {a : FailoverAction} (h : a ∈ b.raisedBy e) (hp : a.programme = p) :
    (e = programmeEntry p 0 ∧ a.lossPort = none) ∨
      ∃ q, e = portEntry q 0 ∧ a.lossPort = some q ∧ p ∈ usersOf b q ∧ condition b e = true := by
  unfold Body.raisedBy at h
  split at h
  · rename_i hon
    have cond : condition b e = true := by
      rw [Bool.and_eq_true] at hon
      unfold Entry.hasOnset at hon
      exact (Bool.and_eq_true _ _ ▸ hon.2).1
    unfold onsetActions at h
    split at h
    · rename_i o hs
      obtain rfl := List.mem_singleton.1 h
      subst hp
      exact .inl ⟨subjectOf_eq_programme (k := 0) hs, rfl⟩
    · rename_i q hs
      obtain ⟨o, ho, rfl⟩ := List.mem_map.1 h
      subst hp
      exact .inr ⟨q, subjectOf_eq_port (k := 0) hs, rfl, ho, cond⟩
    · exact absurd h List.not_mem_nil
  · exact absurd h List.not_mem_nil

/-- An entry has its onset at the evaluation (R145). -/
def Body.onsetAt (b : Body) (e : Fin 154) : Prop :=
  (b.entry e).enabled = true ∧ condition b e = true ∧
    (((b.entry e).state = .clear ∧ (b.entry e).onsetHold = 0) ∨ ((b.entry e).state = .onset ∧ (b.entry e).countdown ≤ 1))

theorem raisedBy_onset {e : Fin 154} (h : b.onsetAt e) : b.raisedBy e = onsetActions b e := by
  obtain ⟨he, hc, hs⟩ := h
  unfold Body.raisedBy Entry.hasOnset
  refine if_pos ?_
  simpa [he, hc] using hs

/-- The failures raised, cut at the SILENCE entry of a programme: none of it before, and after it those of the port of its
source alone, which has lost its clock. -/
theorem raised_cut (hs : (b.lane p).source = some st.main) (he : d.evaluated = []) (ha : d.actions = []) :
    ∃ l r, raised d b = l ++ (b.raisedBy (programmeEntry p 0) ++ r) ∧ (∀ a ∈ l, a.programme ≠ p) ∧
      (∀ a ∈ r, a.programme = p → a.lossPort = some st.main.port ∧ isLocked b st.main.port = false) ∧
      ∀ q, ∀ a ∈ b.raisedBy (portEntry q 0), a ∈ r := by
  obtain ⟨l, r, hlr⟩ := List.append_of_mem (List.mem_finRange (programmeEntry p 0))
  have sorted : (l ++ programmeEntry p 0 :: r).Pairwise (· < ·) := hlr ▸ List.pairwise_lt_finRange 154
  obtain ⟨-, after, before⟩ := List.pairwise_append.1 sorted
  have all : raised d b = (l ++ programmeEntry p 0 :: r).flatMap b.raisedBy := by
    have ids : (entryIds.filter fun e => !d.evaluated.contains e) = List.finRange 154 := by
      rw [he]
      exact List.filter_eq_self.2 fun _ _ => rfl
    unfold raised
    rw [ha, ids, (evaluateEntries_eq d.frame _ (List.nodup_finRange 154) b).2, hlr]
    rfl
  have low : ∀ q : Fin 8, programmeEntry p 0 < portEntry q 0 := fun q => by
    show 8 * p.val + 0 < 128 + 3 * q.val + 0
    omega
  refine ⟨l.flatMap b.raisedBy, r.flatMap b.raisedBy, ?_, fun a hm hp => ?_, fun a hm hp => ?_, fun q a hm => ?_⟩
  · rw [all, List.flatMap_append, List.flatMap_cons]
  · obtain ⟨e, hel, hae⟩ := List.mem_flatMap.1 hm
    have less : e < programmeEntry p 0 := before e hel _ List.mem_cons_self
    rcases raisedBy_programme hae hp with ⟨rfl, -⟩ | ⟨q, rfl, -⟩
    · exact lt_irrefl _ less
    · exact lt_asymm less (low q)
  · obtain ⟨e, her, hae⟩ := List.mem_flatMap.1 hm
    have greater : programmeEntry p 0 < e := (List.pairwise_cons.1 after).1 e her
    rcases raisedBy_programme hae hp with ⟨rfl, -⟩ | ⟨q, rfl, hport, hu, hc⟩
    · exact absurd greater (lt_irrefl _)
    · have port : q = st.main.port := by
        unfold usersOf at hu
        obtain ⟨-, used⟩ := List.mem_filter.1 hu
        rw [hs, Bool.and_eq_true] at used
        exact (of_decide_eq_true used.2).symm
      subst port
      refine ⟨hport, ?_⟩
      rw [condition_portEntry] at hc
      obtain ⟨lost, -⟩ := ((portConditions b st.main.port).1).1 hc
      unfold isLocked
      rcases lost with k | k <;> rw [k] <;> decide
  · have mem : portEntry q 0 ∈ l ++ programmeEntry p 0 :: r := hlr ▸ List.mem_finRange _
    refine List.mem_flatMap.2 ⟨portEntry q 0, ?_, hm⟩
    rcases List.mem_append.1 mem with k | k
    · exact absurd (before _ k _ List.mem_cons_self) (lt_asymm (low q))
    · exact (List.mem_cons.1 k).resolve_left (ne_of_gt (low q))

end Sys2Proof.Machine
end

section
/-! The failover at a FRAME_BOUNDARY from the evaluation to its end, and O7. -/

namespace Sys2Proof.Machine

variable {s : State} {d : Boundary} {b c : Body} {p : Fin 16} {st : Settings} {src : Source}

/-! ### The evaluation takes a ready programme to its backup source -/

theorem takeActions_append (l r : List FailoverAction) (b : Body) :
    takeActions (l ++ r) b = takeActions r (takeActions l b) := List.foldl_append

theorem judged_isLocked (d : Boundary) (b : Body) (q : Fin 8) : isLocked (judged d b) q = isLocked b q := by
  obtain ⟨v, hv⟩ := evaluateEntries_only d.frame (entryIds.filter fun e => !d.evaluated.contains e) b
  unfold judged
  rw [hv]
  simp [isLocked, clearSeen, Body.port]

theorem takeActions_isLocked (l : List FailoverAction) (b : Body) (q : Fin 8) :
    isLocked (takeActions l b) q = isLocked b q := by
  unfold isLocked Body.port
  rw [fixed_ports (takeActions_fixed l b)]

/-- An entry that is neither ACTIVE nor LATCHED does not become so where its condition does not hold. -/
theorem advance_down {x : Entry} (f : Count) (h : x.state ≠ .active ∧ x.state ≠ .latched) :
    (x.advance false f).state ≠ .active ∧ (x.advance false f).state ≠ .latched := by
  obtain ⟨ha, hl⟩ := h
  unfold Entry.advance
  cases hs : x.state with
  | clear => exact ⟨ha, hl⟩
  | onset => simp
  | active => exact absurd hs ha
  | release =>
    simp only
    split
    · simp [Entry.toClear, Entry.owe]
    · simp
  | latched => exact absurd hs hl

/-- A locked port does not lose its clock at the evaluation. -/
theorem judged_lossEntry {q : Fin 8} (he : d.evaluated = []) (hl : isLocked b q = true)
    (h : (b.entry (lossEntry q)).state ≠ .active ∧ (b.entry (lossEntry q)).state ≠ .latched) :
    ((judged d b).entry (lossEntry q)).state ≠ .active ∧ ((judged d b).entry (lossEntry q)).state ≠ .latched := by
  have calm : condition b (portEntry q 0) = false := by
    rw [condition_portEntry, ← Bool.not_eq_true]
    intro hc
    obtain ⟨lost, -⟩ := ((portConditions b q).1).1 hc
    unfold isLocked at hl
    rcases lost with k | k <;> rw [k] at hl <;> exact absurd hl (by decide)
  have form : (judged d b).entry (lossEntry q) = b.steppedEntry d.frame (portEntry q 0) := by
    refine (judged_entry d b _).trans ?_
    rw [he]
    exact if_neg List.not_mem_nil
  rw [form]
  unfold Body.steppedEntry
  rw [calm]
  split
  · exact advance_down d.frame h
  · exact h

theorem Ready.judged (h : Ready p st src b) (he : d.evaluated = []) : Ready p st src (judged d b) := by
  have same := judged_programme d b p
  exact
    { carries := (congrArg (fun r : Programme => carrying r.state) same :).trans h.carries
      active := (congrArg Programme.active same).trans h.active
      pending := (congrArg Programme.pending same).trans h.pending
      requested := (congrArg Programme.requested same).trans h.requested
      selector := (congrArg Programme.selector same).trans h.selector
      source := (judged_source d b p).trans h.source
      guard := (congrArg Programme.guard same).trans h.guard
      locked := (judged_isLocked d b src.port).trans h.locked
      held := judged_lossEntry he h.locked h.held }

theorem raisedBy_silence (h : b.onsetAt (programmeEntry p 0)) :
    b.raisedBy (programmeEntry p 0) = [{ programme := p, lossPort := none }] := by
  rw [raisedBy_onset h]
  unfold onsetActions
  rw [subjectOf_programmeEntry]
  rfl

theorem raisedBy_none {e : Fin 154} (h : ¬ b.onsetAt e) : b.raisedBy e = [] := by
  unfold Body.raisedBy Entry.hasOnset
  refine if_neg fun k => h ?_
  unfold Body.onsetAt
  simpa [and_assoc] using k

/-- The onset of the SILENCE entry, where the policy heeds it (R89, R146). -/
theorem evaluate_silence (h : Ready p st src b) (hb : st.backup = some src) (hne : src ≠ st.main) (he : d.evaluated = [])
    (ha : d.actions = []) (hs : b.onsetAt (programmeEntry p 0)) (hp : st.failover = .onLossOrSilence) :
    OnBackup p st src st.switchGuard (evaluate d b) ∧ ((evaluate d b).programme p).stateOwed = some .silence := by
  obtain ⟨l, r, cut, hl, hr, -⟩ := raised_cut (p := p) h.source he ha
  have ready : Ready p st src (takeActions l (judged d b)) := (h.judged he).others hl
  obtain ⟨on, owed⟩ := ready.failsOver (a := { programme := p, lossPort := none }) hb hne rfl (by
    unfold policyAdmits
    rw [hp]) (fun q hq => by cases hq)
  have form : evaluate d b = recomputeContacts
      (takeActions r (takeFailover { programme := p, lossPort := none } (takeActions l (judged d b)))) := by
    rw [evaluate_eq, cut, raisedBy_silence hs, takeActions_append, takeActions_append]
    rfl
  have lock : isLocked (takeFailover { programme := p, lossPort := none } (takeActions l (judged d b))) st.main.port =
      isLocked b st.main.port := by
    refine (takeActions_isLocked [{ programme := p, lossPort := none }] _ _).trans ?_
    rw [takeActions_isLocked, judged_isLocked]
  obtain ⟨on', owed'⟩ := on.losses owed fun a hm hq => lock.trans (hr a hm hq).2
  rw [form]
  exact ⟨on'.apart ⟨rfl, rfl⟩, owed'⟩

/-- The onset of the LOSS entry of the main port, where the policy heeds it and no silence comes before it. -/
theorem evaluate_loss (h : Ready p st src b) (hb : st.backup = some src) (hne : src ≠ st.main) (he : d.evaluated = [])
    (ha : d.actions = []) (hs : ¬ (b.onsetAt (programmeEntry p 0) ∧ st.failover = .onLossOrSilence))
    (hl : b.onsetAt (portEntry st.main.port 0)) (hp : st.failover ≠ .never) :
    OnBackup p st src st.switchGuard (evaluate d b) ∧ ((evaluate d b).programme p).stateOwed = some .loss := by
  obtain ⟨l, r, cut, hbefore, hr, hmem⟩ := raised_cut (p := p) h.source he ha
  have ready : Ready p st src (takeActions l (judged d b)) := (h.judged he).others hbefore
  have silent : takeActions (b.raisedBy (programmeEntry p 0)) (takeActions l (judged d b)) =
      takeActions l (judged d b) := by
    by_cases hon : b.onsetAt (programmeEntry p 0)
    · have policy : st.failover ≠ .onLossOrSilence := fun k => hs ⟨hon, k⟩
      rw [raisedBy_silence hon]
      refine ready.heedsNot hb rfl ?_
      unfold policyAdmits
      cases hf : st.failover with
      | never => rfl
      | onLoss => rfl
      | onLossOrSilence => exact absurd hf policy
    · rw [raisedBy_none hon]
      rfl
  have form : evaluate d b = recomputeContacts (takeActions r (takeActions l (judged d b))) := by
    rw [evaluate_eq, cut, takeActions_append, takeActions_append, silent]
  have lock : isLocked (takeActions l (judged d b)) st.main.port = isLocked b st.main.port := by
    rw [takeActions_isLocked, judged_isLocked]
  have failure : ({ programme := p, lossPort := some st.main.port } : FailoverAction) ∈ r := by
    refine hmem st.main.port _ ?_
    rw [raisedBy_onset hl]
    unfold onsetActions
    rw [subjectOf_portEntry]
    refine List.mem_map.2 ⟨p, ?_, rfl⟩
    unfold usersOf
    rw [List.mem_filter, h.carries, h.source]
    exact ⟨List.mem_finRange p, by simp⟩
  obtain ⟨on, owed⟩ := ready.losses hb hne hp (fun a hm hq => ⟨(hr a hm hq).1, lock.trans (hr a hm hq).2⟩)
    ⟨_, failure, rfl⟩
  rw [form]
  exact ⟨on.apart ⟨rfl, rfl⟩, owed⟩

/-! ### From the evaluation to the end of the boundary -/

/-- A programme failed over at the boundary `d`: its guard counts down once where its boundary work is yet to come, and the
report of the cause is due. -/
structure FailedOver (d : Boundary) (p : Fin 16) (st : Settings) (src : Source) (x : StateCause) (g : Boundary)
    (u : State) : Prop where
  alarms : g.alarmsDone = true
  backup : OnBackup p st src (if p ∈ g.worked ∧ p ∉ d.worked then st.switchGuard - 1 else st.switchGuard) u.body
  due : StateDue p x u

/-- A STATE report that is due is due while the programme's state, selector and owed report stand. -/
theorem StateDue.of_same {x : StateCause} {u : State} (h : StateDue p x s)
    (hs : (u.body.programme p).state = (s.body.programme p).state)
    (hsel : (u.body.programme p).selector = (s.body.programme p).selector)
    (ho : (u.body.programme p).stateOwed = (s.body.programme p).stateOwed) (hq : s.tx.queue ⊆ u.tx.queue) :
    StateDue p x u := by
  have message : stateMessage p (u.body.programme p) x = stateMessage p (s.body.programme p) x := by
    unfold stateMessage
    rw [hs, hsel]
  unfold StateDue
  rw [ho, message]
  exact h.imp id fun k => hq k

theorem failedOver_keeping (hm : st.revert = .manual) (x : StateCause) :
    SeatKeeping d p (FailedOver d p st src x) where
  place {g u} h := by
    have quiet := placeReports_quiet u
    have same := quiet_programme quiet p
    refine ⟨h.alarms, ?_, placeReports_stateDue h.due⟩
    exact
      { carries := (congrArg (fun r : Programme => carrying r.state) same :).trans h.backup.carries
        active := (congrArg Programme.active same :).trans h.backup.active
        pending := (congrArg Programme.pending same :).trans h.backup.pending
        requested := (congrArg Programme.requested same :).trans h.backup.requested
        selector := (congrArg Programme.selector same :).trans h.backup.selector
        source := (quiet_source quiet p).trans h.backup.source
        guard := (congrArg Programme.guard same :).trans h.backup.guard }
  pending h := h.backup.pending
  apart {g g' u} f ha hw hg h := by
    refine ⟨hg.trans h.alarms, ?_, h.due.of_same (u := onBody f u) ?_ ?_ ?_ (List.Subset.refl _)⟩
    · simp only [hw]
      exact h.backup.apart ha
    · exact congrArg Programme.state ha.programme
    · exact congrArg Programme.selector ha.programme
    · exact congrArg Programme.stateOwed ha.programme
  work {g u} hf hw h := by
    have fresh : p ∉ d.worked := fun k => hw (hf.worked p k)
    have unsatisfied : revertSatisfied u.body p = false := by
      unfold revertSatisfied
      simp [h.backup.active, hm]
    have counts := switchingWork_counts h.backup.carries h.backup.requested
      (.inr (.inl ⟨h.backup.selector, unsatisfied, rfl⟩))
    have own : ((switchingWork p u.body).programme p) = { u.body.programme p with
        guard := (u.body.programme p).guard - 1, requested := none
        revertCount := ((u.body.programme p).active.map Settings.revertHold).getD 0 } := by
      rw [counts, Body.onProgramme_eq, Body.programme_setProgramme_same]
    have source : ((switchingWork p u.body).lane p).source = (u.body.lane p).source := by
      rw [counts]
      rfl
    have guard : (u.body.programme p).guard = st.switchGuard := h.backup.guard.trans (if_neg fun k => hw k.1)
    refine ⟨h.alarms, ?_, h.due.of_same (u := onBody (switchingWork p) u) ?_ ?_ ?_ (List.Subset.refl _)⟩
    · rw [if_pos ⟨List.mem_cons_self, fresh⟩]
      exact
        { carries := (congrArg (fun r : Programme => carrying r.state) own).trans h.backup.carries
          active := (congrArg Programme.active own).trans h.backup.active
          pending := (congrArg Programme.pending own).trans h.backup.pending
          requested := congrArg Programme.requested own
          selector := (congrArg Programme.selector own).trans h.backup.selector
          source := source.trans h.backup.source
          guard := (congrArg Programme.guard own).trans (congrArg (· - 1) guard) }
    · exact (congrArg Programme.state own :)
    · exact (congrArg Programme.selector own :)
    · exact (congrArg Programme.stateOwed own :)
  alarms _ hd h := absurd (hd.symm.trans h.alarms) Bool.false_ne_true
  watch l q h :=
    ⟨h.alarms, h.backup.apart ⟨rfl, rfl⟩, h.due.of_same rfl rfl rfl (List.subset_append_left _ q)⟩

/-- The alarm table first: a programme that the evaluation takes to its backup source is there at the end, its guard loaded,
the cause due (R89, R100). -/
theorem boundaryClosed_failsOver (order : List BoundaryBlock) {x : StateCause} (h : s.body.timing.boundary = some d)
    (ha : d.alarmsDone = false) (hm : st.revert = .manual)
    (hon : OnBackup p st src st.switchGuard (evaluate d (enterBoundary d s.body)))
    (ho : ((evaluate d (enterBoundary d s.body)).programme p).stateOwed = some x) :
    let t := boundaryClosed (.alarms :: order) d s
    (t.body.programme p).selector = .backup ∧ (t.body.lane p).source = some src ∧
      (t.body.programme p).guard = (if p ∈ d.worked then st.switchGuard else st.switchGuard - 1) ∧ StateDue p x t := by
  have first : blockPiece .alarms (onBody (enterBoundary d) s) =
      onBody (mark fun d => { d with alarmsDone := true }) (onBody (evaluate d) (onBody (enterBoundary d) s)) := by
    unfold blockPiece
    simp [onBody, h, alarmPiece, ha]
  obtain ⟨g, hk, -, hg⟩ := (failedOver_keeping (d := d) (p := p) (src := src) hm x).keeping.closed_after .alarms order h (by
    intro g hb _ hk
    rw [first] at hb ⊢
    have eq : g.worked = d.worked := by
      have at_end : some { d with alarmsDone := true } = some g := by
        refine Eq.trans ?_ hb
        show _ = ((evaluate d (enterBoundary d s.body)).timing.boundary.map fun d : Boundary => { d with alarmsDone := true })
        rw [(evaluate_spec d (enterBoundary d s.body)).1]
        show _ = s.body.timing.boundary.map _
        rw [h]
        rfl
      rw [← Option.some.inj at_end]
    refine ⟨hk, ?_, .inl ?_⟩
    · rw [eq, if_neg fun k => k.2 k.1]
      exact hon.apart ⟨rfl, rfl⟩
    · exact ho)
  refine ⟨hg.backup.selector, hg.backup.source, hg.backup.guard.trans ?_, hg.due⟩
  by_cases hw : p ∈ d.worked
  · rw [if_pos hw, if_neg fun k => k.2 hw]
  · rw [if_neg hw, if_pos ⟨hk .programmes p, hw⟩]

/-! ### The table of an entry -/

section
variable (x : Entry) (f : Count)

/-- What the entry owes after a step that is reported (R153). -/
def Entry.owing (y : Entry) : Entry := { y with reportOwed := true, changeFrame := f, withheld := false }

/-- An enabled entry whose condition holds goes up (R143 to R145). -/
theorem advance_holds :
    (x.state = .clear →
      (x.onsetHold = 0 → x.advance true f = Entry.owing f
        { x with state := .active, unacked := true, countdown := 0, onsets := min 65535 (x.onsets + 1) }) ∧
      (x.onsetHold ≠ 0 → x.advance true f = { x with state := .onset, countdown := x.onsetHold })) ∧
    (x.state = .onset →
      (x.countdown ≤ 1 → x.advance true f = Entry.owing f
        { x with state := .active, unacked := true, countdown := 0, onsets := min 65535 (x.onsets + 1) }) ∧
      (1 < x.countdown → x.advance true f = { x with countdown := x.countdown - 1 })) ∧
    (x.state = .active → x.advance true f = x) ∧
    (x.state = .release → x.advance true f = { x with state := .active, countdown := 0 }) ∧
    (x.state = .latched → x.advance true f = Entry.owing f { x with state := .active }) := by
  unfold Entry.advance
  refine ⟨fun h => ⟨fun k => ?_, fun k => ?_⟩, fun h => ⟨fun k => ?_, fun k => ?_⟩, fun h => ?_, fun h => ?_, fun h => ?_⟩
  all_goals rw [h]
  · exact if_pos k
  · exact if_neg k
  · exact if_pos k
  · exact if_neg (Nat.not_le.2 k)
  · rfl

/-- An enabled entry whose condition does not hold goes down (R143, R144). -/
theorem advance_fails :
    (x.state = .clear → x.advance false f = x) ∧
    (x.state = .onset → x.advance false f = { x with state := .clear, countdown := 0 }) ∧
    (x.state = .active →
      (x.latching = true → x.advance false f = Entry.owing f { x with state := .latched }) ∧
      (x.latching = false →
        (x.releaseHold = 0 → x.advance false f = Entry.owing f { x with state := .clear, unacked := false }) ∧
        (x.releaseHold ≠ 0 → x.advance false f = { x with state := .release, countdown := x.releaseHold }))) ∧
    (x.state = .release →
      (x.countdown ≤ 1 → x.advance false f = Entry.owing f { x with state := .clear, unacked := false }) ∧
      (1 < x.countdown → x.advance false f = { x with countdown := x.countdown - 1 })) ∧
    (x.state = .latched → x.advance false f = x) := by
  unfold Entry.advance
  refine ⟨fun h => ?_, fun h => ?_, fun h => ⟨fun k => ?_, fun k => ⟨fun k' => ?_, fun k' => ?_⟩⟩,
    fun h => ⟨fun k => ?_, fun k => ?_⟩, fun h => ?_⟩
  all_goals rw [h]
  · exact if_pos k
  · exact (if_neg (by rw [k]; decide)).trans (if_pos k')
  · exact (if_neg (by rw [k]; decide)).trans (if_neg k')
  · exact if_pos k
  · exact if_neg (Nat.not_le.2 k)

end

/-- Settles O7: the first and the fifth part hold by the properties that every piece keeps, the second by the step of the entry,
the third by the definitions, the fourth by the actions taken in the order of their entries, the last by the turn of the
programme. -/
theorem frameBoundary : Obligations.FrameBoundary := by
  unfold Obligations.FrameBoundary
  refine ⟨fun s order d h => ?_, fun s order d e h ha he hs => ?_, fun b => ⟨fun p st ha => ?_, fun p k ha => ?_,
    fun q => ?_, ?_, ?_⟩, fun s order d p st src => ?_, fun s order d h => ?_, fun s order d p st => ?_⟩
  · obtain ⟨e, -, hc⟩ := boundaryClosed_calmly order h
    exact ⟨_, exec_frameBoundary order h, boundaryClosed_keeps order h, boundaryClosed_timing order h, hc.scenes,
      boundaryClosed_port order h, fun p w old hp hw ha hm => boundaryClosed_direct order h hp hw ha hm,
      boundaryClosed_marks order h, hc.contacts⟩
  · have becomes : ∀ y, s.body.steppedEntry d.frame e = y → ∃ t, exec (.frameBoundary (.alarms :: order)) s = .next t ∧
        { t.body.entry e with reportOwed := false } = { y with reportOwed := false } ∧
          (y.reportOwed = true → AlarmDue e t) := fun y => boundaryClosed_entry order e h ha he hs
    have off : (s.body.entry e).enabled = false → s.body.steppedEntry d.frame e = s.body.entry e := fun k => by
      simp [Body.steppedEntry, k]
    have on : ∀ v, (s.body.entry e).enabled = true → condition s.body e = v →
        s.body.steppedEntry d.frame e = (s.body.entry e).advance v d.frame := fun v k hv => by
      simp [Body.steppedEntry, k, hv]
    refine ⟨fun k => becomes _ (off k), fun k hv => ?_, fun k hv => ?_⟩
    · obtain ⟨clear, onset, active, release, latched⟩ := advance_holds (s.body.entry e) d.frame
      rw [on true k hv] at becomes
      exact ⟨fun h => ⟨fun z => becomes _ ((clear h).1 z), fun z => becomes _ ((clear h).2 z)⟩,
        fun h => ⟨fun z => becomes _ ((onset h).1 z), fun z => becomes _ ((onset h).2 z)⟩,
        fun h => becomes _ (active h), fun h => becomes _ (release h), fun h => becomes _ (latched h)⟩
    · obtain ⟨clear, onset, active, release, latched⟩ := advance_fails (s.body.entry e) d.frame
      rw [on false k hv] at becomes
      exact ⟨fun h => becomes _ (clear h), fun h => becomes _ (onset h),
        fun h => ⟨fun l => becomes _ ((active h).1 l), fun l =>
          ⟨fun z => becomes _ (((active h).2 l).1 z), fun z => becomes _ (((active h).2 l).2 z)⟩⟩,
        fun h => ⟨fun z => becomes _ ((release h).1 z), fun z => becomes _ ((release h).2 z)⟩,
        fun h => becomes _ (latched h)⟩
  · simp only [condition_programmeEntry]
    exact programmeConditions ha
  · rw [condition_programmeEntry]
    exact programmeCondition_none ha k.val
  · simp only [condition_portEntry]
    exact portConditions b q
  · exact beq_iff_eq
  · exact beq_iff_eq
  · intro b onsets silence loss lossState h hdone he ha _ hc hact hpend hreq hsel hsrc hb hne hguard hm hlock hl1 hl2 hor
    have ready : Ready p st src (enterBoundary d s.body) :=
      ⟨(carrying_iff _).2 hc, hact, hpend, hreq, hsel, hsrc, hguard, beq_iff_eq.2 hlock, hl1, hl2⟩
    by_cases hsil : silence
    · obtain ⟨on, owed⟩ := evaluate_silence ready hb hne he ha hsil.1 hsil.2
      obtain ⟨h1, h2, h3, h4⟩ := boundaryClosed_failsOver order h hdone hm on owed
      exact ⟨_, exec_frameBoundary _ h, h1, h2, h3, fun _ => h4, fun k => absurd hsil k⟩
    · obtain ⟨hloss, hpol⟩ := hor.resolve_left hsil
      obtain ⟨on, owed⟩ := evaluate_loss ready hb hne he ha hsil hloss hpol
      obtain ⟨h1, h2, h3, h4⟩ := boundaryClosed_failsOver order h hdone hm on owed
      exact ⟨_, exec_frameBoundary _ h, h1, h2, h3, fun k => absurd k hsil, fun _ => h4⟩
  · exact ⟨_, exec_frameBoundary order h, boundaryClosed_watch order h, fun p hw hc =>
      boundaryClosed_unrequested order h hw ((carrying_iff _).2 hc)⟩
  · intro r satisfied h hw ha hp hr hc hf counted
    have sat : revertSatisfied s.body p = true ↔ satisfied := by
      unfold revertSatisfied isLocked
      rw [show (s.body.programme p).active = some st from ha]
      simp only [Option.any_some, Bool.and_eq_true, decide_eq_true_eq, beq_iff_eq, and_assoc]
      exact Iff.rfl
    have counts := fun n => boundaryClosed_counts order n h hw ha hp hr ((carrying_iff _).2 hc) hf
    refine ⟨fun hs => counts _ (.inl ⟨hs, rfl⟩), fun hs hn => counts _ (.inr (.inl ⟨hs, ?_, rfl⟩)), fun hs hy hn =>
      counts _ (.inr (.inr ⟨hs, sat.2 hy, rfl, ?_⟩))⟩
    · exact Bool.not_eq_true _ ▸ fun k => hn (sat.1 k)
    · omega

end Sys2Proof.Machine
end

section
/-! House timing: the start of a house sample and the frame boundaries that edges and lengths make (O4, O5, O6). -/

namespace Sys2Proof.Machine

variable {s t : State}

/-! ### The start of a house sample -/

/-- A waiting VREF edge touches the boundary and the two lengths alone (R31). -/
theorem takeVrefEdge_only (t : Timing) :
    takeVrefEdge t = { t with boundary := (takeVrefEdge t).boundary, sinceBoundary := (takeVrefEdge t).sinceBoundary
                              vrefWaiting := (takeVrefEdge t).vrefWaiting
                              measuredLength := (takeVrefEdge t).measuredLength
                              generatedLength := (takeVrefEdge t).generatedLength } := by
  unfold takeVrefEdge
  split <;> rfl

/-- The counters and cadences of a new house sample; what an edge that waited makes of the boundary stands apart. -/
theorem nextSample_only (t : Timing) :
    t.nextSample =
      { t with sampleCounter := t.sampleCounter + 1, tickCount := (t.sampleCounter + 1) * 256
               samplesOwed := t.samplesOwed + 1
               regulationDue := t.regulationDue || (t.sampleCounter + 1).toNat % 480 == 0
               stepDue := if (t.sampleCounter + 1).toNat % 4800 = 0 then t.stepDue.or (some []) else t.stepDue
               boundary := t.nextSample.boundary, sinceBoundary := t.nextSample.sinceBoundary
               vrefWaiting := t.nextSample.vrefWaiting, measuredLength := t.nextSample.measuredLength
               generatedLength := t.nextSample.generatedLength } :=
  takeVrefEdge_only _

/-- The house sample that a VREF edge waits for is a frame boundary (R29, R31, R32). -/
theorem nextSample_of_edge {t : Timing} {d : Option Nat} (hw : t.vrefWaiting = some d) (hb : t.boundary = none) :
    t.nextSample.boundary = some { frame := t.frameCounter + 1 } ∧ t.nextSample.sinceBoundary = 0 ∧
      t.nextSample.vrefWaiting = none ∧ t.nextSample.measuredLength = d.or t.measuredLength ∧
      t.nextSample.generatedLength = d.getD t.generatedLength := by
  simp [Timing.nextSample, takeCadences, takeVrefEdge, openBoundary, hw, hb]

/-- One that no edge waits for adds to the distance. -/
theorem nextSample_of_no_edge {t : Timing} (hw : t.vrefWaiting = none) :
    t.nextSample.boundary = t.boundary ∧ t.nextSample.sinceBoundary = t.sinceBoundary + 1 ∧
      t.nextSample.vrefWaiting = none ∧ t.nextSample.measuredLength = t.measuredLength ∧
      t.nextSample.generatedLength = t.generatedLength := by
  simp [Timing.nextSample, takeCadences, takeVrefEdge, hw]

/-- The timing block as a change of the reference leaves it: `href`, its last interval and the tick spacing anew. -/
def Timing.referenced (t : Timing) (href : RefState) (interval spacing : Nat) : Timing :=
  { t with href := href, lastInterval := interval, tickSpacing := spacing }

theorem stepDue_nextSample (t : Timing) :
    t.nextSample.stepDue.isSome = true ↔ t.stepDue.isSome = true ∨ (t.sampleCounter + 1).toNat % 4800 = 0 := by
  rw [nextSample_only]
  show (if (t.sampleCounter + 1).toNat % 4800 = 0 then t.stepDue.or (some []) else t.stepDue).isSome = true ↔ _
  split
  · rename_i h
    simp only [h, or_true, iff_true]
    cases t.stepDue <;> rfl
  · rename_i h
    simp only [h, or_false]

theorem startSample_port (b : Body) (q : Fin 8) :
    (startSample b).port q = { b.port q with tracker := { (b.port q).tracker with
      holdover := (b.port q).tracker.holdover.map fun n => min 48000 (n + 1) } } := by
  simp [startSample, Body.port]

theorem Becomes.port {b : Body} (h : Becomes s b t) (q : Fin 8) : t.body.port q = b.port q := by
  simp only [Body.port, h.ports]

/-- The start of a house sample, whatever the reference has become, is the one that `SampleStarts` says. -/
theorem startSample_starts {href : RefState} {interval spacing : Nat}
    (h : Becomes s (startSample { s.body with timing := s.body.timing.referenced href interval spacing }) t) :
    SampleStarts s t spacing ∧ t.body.timing = (s.body.timing.referenced href interval spacing).nextSample := by
  have ht : t.body.timing = (s.body.timing.referenced href interval spacing).nextSample := h.timing
  refine ⟨⟨?_, ?_, ?_, ?_, ?_, ?_, ?_, ?_, ?_, ?_, fun q => ?_, ?_⟩, ht⟩
  case refine_5 =>
    rw [ht, nextSample_only]
    simp [Timing.referenced]
  case refine_6 =>
    rw [ht, stepDue_nextSample]
    rfl
  case refine_11 => exact (h.port q).trans (startSample_port _ q)
  case refine_12 =>
    refine ⟨h.1, h.2.trans ?_⟩
    rw [h.timing, h.ports]
    rfl
  all_goals rw [ht, nextSample_only]; rfl

/-- A command of the blocks that starts a house sample. -/
theorem bodyEvent_starts {f : Body → Body} {href : RefState} {interval spacing : Nat}
    (h : f s.body = startSample { s.body with timing := s.body.timing.referenced href interval spacing }) :
    ∃ t, bodyEvent f s = .next t ∧ SampleStarts s t spacing ∧
      t.body.timing = (s.body.timing.referenced href interval spacing).nextSample := by
  obtain ⟨t, ht, hb⟩ := bodyEvent_result h
  exact ⟨t, ht, startSample_starts hb⟩

theorem nextSample_reference (t : Timing) : t.nextSample.href = t.href ∧ t.nextSample.lastInterval = t.lastInterval := by
  rw [nextSample_only]
  exact ⟨rfl, rfl⟩

/-! ### What starts a house sample -/

theorem hrefEdgeWork_accepted {elapsed : Nat} (hl : s.body.timing.href = .locked)
    (he : Config.nominalInterval ≤ 2 * elapsed) :
    hrefEdgeWork elapsed s.body =
      startSample { s.body with timing := s.body.timing.referenced .locked elapsed elapsed } := by
  simp only [hrefEdgeWork, hl, if_pos he, Body.onTiming, Timing.referenced]

theorem hrefEdgeWork_returns (elapsed : Nat) (hf : s.body.timing.href = .free) :
    hrefEdgeWork elapsed s.body = startSample { s.body with
      timing := s.body.timing.referenced .locked s.body.timing.lastInterval Config.nominalInterval } := by
  simp only [hrefEdgeWork, hf, Body.onTiming, Timing.referenced]

theorem hrefEdgeWork_glitch {elapsed : Nat} (hl : s.body.timing.href = .locked)
    (he : 2 * elapsed < Config.nominalInterval) :
    hrefEdgeWork elapsed s.body = { s.body with timing := { s.body.timing with
      hrefGlitches := min 65535 (s.body.timing.hrefGlitches + 1) } } := by
  simp only [hrefEdgeWork, hl, if_neg (Nat.not_le.2 he), Body.onTiming]
  rfl

theorem hrefLossWork_locked (hl : s.body.timing.href = .locked) :
    hrefLossWork s.body = startSample { s.body with
      timing := s.body.timing.referenced .free s.body.timing.lastInterval Config.nominalInterval } := by
  simp only [hrefLossWork, hl, Body.onTiming, Timing.referenced]

/-- In FREE with no house sample owed the oscillator starts one and its work is taken (R26; log 28). -/
theorem houseSampleWork_free (hf : s.body.timing.href = .free) (ho : s.body.timing.samplesOwed = 0) :
    houseSampleWork s.body = takeSample (startSample s.body) := by
  simp [houseSampleWork, hf, ho]

theorem houseSampleWork_owed {b : Body} (ho : b.timing.samplesOwed ≠ 0) : houseSampleWork b = takeSample b := by
  simp [houseSampleWork, ho]

theorem takeSample_timing (b : Body) :
    (takeSample b).timing = { b.timing with samplesOwed := b.timing.samplesOwed - 1 } := samplePipeline_timing _

/-- A machine in which the house sample has started, and nothing else. -/
theorem started_starts (s : State) :
    SampleStarts s { s with body := startSample s.body } s.body.timing.tickSpacing :=
  (startSample_starts (s := s) (t := { s with body := startSample s.body }) (href := s.body.timing.href)
    (interval := s.body.timing.lastInterval) ⟨⟨rfl, rfl, rfl, List.prefix_rfl⟩, rfl⟩).1

/-- Settles O4: each command's work is a change of the reference followed by `startSample`. -/
theorem hrefEdgeAndLoss : Obligations.HrefEdgeAndLoss := by
  refine ⟨fun s elapsed => ⟨fun hl he => ?_, fun hl he => bodyEvent_result (hrefEdgeWork_glitch hl he), fun hf => ?_⟩,
    fun s hl => ?_, fun s ho => ⟨fun hf => ?_, fun hl => ?_⟩⟩
  · obtain ⟨t, ht, hs, hx⟩ := bodyEvent_starts (hrefEdgeWork_accepted hl he)
    obtain ⟨h1, h2⟩ := nextSample_reference (s.body.timing.referenced .locked elapsed elapsed)
    exact ⟨t, ht, hs, hx ▸ h1, hx ▸ h2⟩
  · obtain ⟨t, ht, hs, hx⟩ := bodyEvent_starts (hrefEdgeWork_returns elapsed hf)
    obtain ⟨h1, h2⟩ := nextSample_reference
      (s.body.timing.referenced .locked s.body.timing.lastInterval Config.nominalInterval)
    exact ⟨t, ht, hs, hx ▸ h1, hx ▸ h2⟩
  · obtain ⟨t, ht, hs, hx⟩ := bodyEvent_starts (hrefLossWork_locked hl)
    obtain ⟨h1, h2⟩ := nextSample_reference
      (s.body.timing.referenced .free s.body.timing.lastInterval Config.nominalInterval)
    exact ⟨t, ht, hs, hx ▸ h1, hx ▸ h2⟩
  · obtain ⟨h1, h2⟩ := nextSample_reference s.body.timing
    have owed : (startSample s.body).timing.samplesOwed = 1 :=
      (congrArg Timing.samplesOwed (nextSample_only s.body.timing) :).trans (by rw [ho])
    have same : houseSampleWork (startSample s.body) = houseSampleWork s.body := by
      rw [houseSampleWork_free hf ho, houseSampleWork_owed (by rw [owed]; decide)]
    refine ⟨{ s with body := startSample s.body }, started_starts s, rfl, rfl, h1.trans hf, h2, owed, ?_, ?_⟩
    · show bodyEvent _ _ = bodyEvent _ _
      simp only [bodyEvent, same]
    · obtain ⟨t, ht, hb⟩ := bodyEvent_result (houseSampleWork_free hf ho)
      refine ⟨t, ht, hb.timing.trans ?_⟩
      rw [takeSample_timing, owed]
  · refine bodyEvent_result ?_
    simp [houseSampleWork, ho, hl]

/-! ### VREF edges and the boundaries they make -/

/-- Whatever starts a house sample, the timing block goes on to the next sample from the reference it has then (log 28). -/
theorem sampleStart_timing {c : Instr} {elapsed : Nat}
    (h : (c = .hrefEdge elapsed ∧ (s.body.timing.href = .free ∨ Config.nominalInterval ≤ 2 * elapsed)) ∨
      (c = .hrefLoss ∧ s.body.timing.href = .locked) ∨
      (c = .houseSample ∧ s.body.timing.href = .free ∧ s.body.timing.samplesOwed = 0)) :
    ∃ u href interval spacing owed, exec c s = .next u ∧
      u.body.timing = { (s.body.timing.referenced href interval spacing).nextSample with samplesOwed := owed } := by
  have started : ∀ {f : Body → Body} {href : RefState} {interval spacing : Nat},
      f s.body = startSample { s.body with timing := s.body.timing.referenced href interval spacing } →
      ∃ u href interval spacing owed, bodyEvent f s = .next u ∧
        u.body.timing = { (s.body.timing.referenced href interval spacing).nextSample with samplesOwed := owed } :=
    fun e => by
      obtain ⟨u, hu, -, ht⟩ := bodyEvent_starts e
      exact ⟨u, _, _, _, _, hu, ht⟩
  rcases h with ⟨rfl, h⟩ | ⟨rfl, hl⟩ | ⟨rfl, hf, ho⟩
  · cases hr : s.body.timing.href with
    | free => exact started (hrefEdgeWork_returns elapsed hr)
    | locked => exact started (hrefEdgeWork_accepted hr (h.resolve_left (by simp [hr])))
  · exact started (hrefLossWork_locked hl)
  · obtain ⟨t, ht, hb⟩ := bodyEvent_result (houseSampleWork_free hf ho)
    exact ⟨t, _, s.body.timing.lastInterval, s.body.timing.tickSpacing, _, ht,
      hb.timing.trans (takeSample_timing (startSample s.body))⟩

/-- A VREF edge in LOCKED, none waiting, judged by its distance (R29, R31; log 8). -/
theorem vrefEdgeWork_locked {b : Body} (hl : b.timing.vref = .locked) (hw : b.timing.vrefWaiting = none) :
    vrefEdgeWork b = { b with timing :=
      if b.timing.sinceBoundary + 1 < 800 then { b.timing with vrefGlitches := bump b.timing.vrefGlitches }
      else if b.timing.sinceBoundary + 1 ≤ 2000 then
        { b.timing with vrefWaiting := some (some (b.timing.sinceBoundary + 1)) }
      else if b.timing.sinceBoundary + 1 ≤ 2099 then { b.timing with vrefWaiting := some none }
      else b.timing } := by
  simp only [vrefEdgeWork, Body.onTiming, hl, hw, Option.isSome_none, Bool.false_eq_true, if_false]

/-- Settles O5: the edge by the branches of `vrefEdgeWork`, the boundary by the two lemmas on `nextSample`. -/
theorem vrefEdgeJudgedAndMade : Obligations.VrefEdgeJudgedAndMade := by
  refine ⟨fun s => ⟨fun hf => bodyEvent_result ?_, fun hl hw => ⟨fun hd => bodyEvent_result ?_,
    fun ⟨h1, h2⟩ => bodyEvent_result ?_, fun ⟨h1, h2⟩ => bodyEvent_result ?_⟩, fun hl hw => bodyEvent_result ?_⟩,
    fun s c elapsed => ?_⟩
  · simp [vrefEdgeWork, Body.onTiming, hf]
  · rw [vrefEdgeWork_locked hl hw, if_pos hd]
    rfl
  · rw [vrefEdgeWork_locked hl hw, if_neg (by omega), if_pos h2]
  · rw [vrefEdgeWork_locked hl hw, if_neg (by omega), if_neg (by omega), if_pos h2]
  · simp [vrefEdgeWork, Body.onTiming, hl, hw]
  · intro t h
    obtain ⟨u, href, interval, spacing, owed, hu, ht⟩ := sampleStart_timing h
    refine ⟨u, hu, fun d hw hb => ?_, fun hw => ?_⟩
    · rw [ht]
      exact nextSample_of_edge (t := t.referenced href interval spacing) hw hb
    · rw [ht]
      exact nextSample_of_no_edge (t := t.referenced href interval spacing) hw

/-- Settles O6: both boundaries are opened where the count of house samples is due. -/
theorem boundariesGenerated : Obligations.BoundariesGenerated := by
  refine fun s hb => ⟨fun hl hn => bodyEvent_result ?_, fun hf hn => bodyEvent_result ?_⟩
  · simp [vrefLossWork, Body.onTiming, openBoundary, hl, hn, hb]
  · simp [generatedWork, Body.onTiming, openBoundary, hf, hn, hb]

end Sys2Proof.Machine
end

section
/-! Requests refused with nothing changed (O54): what each request's function answers on each failing check. -/

namespace Sys2Proof.Machine

variable {b : Body} {p : Fin 16}

/-! ### A refused request -/

/-- A request whose function refuses it leaves the blocks as they were. -/
theorem request_refused {tag : Byte} {r : Request} {s : State} {f : Body → Answer × Body} {reason : Reason}
    (h : LineFree s) (hf : carryOut tag r s = onBlocks f s) (hr : f s.body = (refuse reason, s.body)) :
    ∃ t, Host.Outcome.next (φ := Fault) (ρ := Refusal) (arriveRequest tag r s) = .next t ∧
      Answers s ((refuse reason).message r.kind tag) t ∧ Becomes s s.body t := by
  obtain ⟨hb, ha⟩ := request_result h hf hr
  exact ⟨_, rfl, ha, hb⟩

/-! ### Requests on a programme that must be in one of some states -/

theorem inStates_noProgramme {n : Nat} (hn : 15 < n) (ok : ProgState → Bool) (f : Fin 16 → Answer × Body) :
    inStates n ok b f = (refuse .badField, b) := by
  simp only [inStates, idOf_eq_none (show 16 ≤ n from hn)]

theorem inStates_wrongState {ok : ProgState → Bool} (h : ok (b.programme p).state = false) (f : Fin 16 → Answer × Body) :
    inStates p.val ok b f = (refuse .wrongState, b) := by
  simp [inStates, h]

theorem inStates_passed {ok : ProgState → Bool} (h : ok (b.programme p).state = true) (f : Fin 16 → Answer × Body) :
    inStates p.val ok b f = f p := by
  simp [inStates, h]

theorem clearRequest_sceneOwned (hv : (b.programme p).state ≠ .vacant) (ho : (b.programme p).sceneOwned = true) :
    clearRequest p.val b = (refuse .sceneBusy, b) := by
  rw [clearRequest, inStates_passed (by simpa using hv)]
  exact if_pos ho

/-! ### ALLOCATE -/

theorem natIn_eq_false {lo hi n : Nat} (h : n < lo ∨ hi < n) : natIn lo hi n = false := by
  simp only [natIn, decide_eq_false_iff_not]
  omega

theorem natIn_eq_true {lo hi n : Nat} (h1 : lo ≤ n) (h2 : n ≤ hi) : natIn lo hi n = true := by
  simp [natIn, h1, h2]

theorem allocateRequest_badCount (tag : Byte) (m : Nat) {n : Nat} (h : n < 1 ∨ 512 < n) :
    allocateRequest tag m n b = (refuse .badField, b) := by
  simp [allocateRequest, natIn_eq_false h]

theorem allocateRequest_inRange (tag : Byte) (m : Nat) {n : Nat} (h1 : 1 ≤ n) (h2 : n ≤ 512) :
    allocateRequest tag m n b = inStates m (· == .defined) b fun p =>
      if layoutPending (b.programme p) then (refuse .wrongState, b)
      else if !deferredFree tag b then (refuse .busy, b)
      else (.accepted, allocate tag p n (beginDeferred tag .allocate p b)) := by
  simp [allocateRequest, natIn_eq_true h1 h2]

theorem allocateRequest_noProgramme (tag : Byte) {m : Nat} (hm : 15 < m) (n : Nat) :
    allocateRequest tag m n b = (refuse .badField, b) := by
  by_cases h : n < 1 ∨ 512 < n
  · exact allocateRequest_badCount tag m h
  · rw [allocateRequest_inRange tag m (by omega) (by omega)]
    exact inStates_noProgramme hm _ _

theorem layoutPending_iff (r : Programme) :
    layoutPending r = true ↔ ∃ w a, r.pending = some w ∧ r.active = some a ∧ w.settings.layout ≠ a.layout := by
  unfold layoutPending
  cases r.pending <;> cases r.active <;> simp

section
variable {tag : Byte} {n : Nat} (h1 : 1 ≤ n) (h2 : n ≤ 512)
include h1 h2

theorem allocateRequest_wrongState (hs : (b.programme p).state ≠ .defined) :
    allocateRequest tag p.val n b = (refuse .wrongState, b) := by
  rw [allocateRequest_inRange tag p.val h1 h2]
  exact inStates_wrongState (by simpa using hs) _

theorem allocateRequest_layoutPending (hs : (b.programme p).state = .defined)
    (hl : layoutPending (b.programme p) = true) : allocateRequest tag p.val n b = (refuse .wrongState, b) := by
  rw [allocateRequest_inRange tag p.val h1 h2, inStates_passed (by simp [hs]), if_pos hl]

theorem allocateRequest_busy (hs : (b.programme p).state = .defined) (hl : ¬ layoutPending (b.programme p) = true)
    (hf : deferredFree tag b = false) : allocateRequest tag p.val n b = (refuse .busy, b) := by
  rw [allocateRequest_inRange tag p.val h1 h2, inStates_passed (by simp [hs]), if_neg hl, hf]
  rfl

end

/-! ### DEFINE, SET and DELAY -/

theorem defineRequest_noProgramme {n : Nat} (hn : 15 < n) (is : List SettingItem) :
    defineRequest n is b = (refuse .badField, b) := by
  simp only [defineRequest, idOf_eq_none (show 16 ≤ n from hn)]

theorem defineRequest_wrongState (hv : (b.programme p).state ≠ .vacant) (is : List SettingItem) :
    defineRequest p.val is b = (refuse .wrongState, b) := by
  simp [defineRequest, hv]

theorem defineRequest_failed {is : List SettingItem} {r : Reason} (hv : (b.programme p).state = .vacant)
    (hd : definedSet b p is = .error r) : defineRequest p.val is b = (refuse r, b) := by
  simp [defineRequest, hv, hd]

theorem setRequest_unformed {is : List SettingItem} (hf : setForm is = false) (t : Target) :
    setRequest t is b = (refuse .badField, b) := by
  simp [setRequest, hf]

theorem setRequest_noProgramme {n : Nat} (hn : 15 < n) (is : List SettingItem) :
    setRequest (.programme n) is b = (refuse .badField, b) := by
  by_cases hf : setForm is = true
  · simp [setRequest, hf, setOne, idOf_eq_none (show 16 ≤ n from hn)]
  · exact setRequest_unformed (Bool.eq_false_iff.2 hf) _

theorem setRequest_badGroup {g : Nat} {is : List SettingItem} (h : 3 < g ∨ setForm is = false ∨ groupNames is = false) :
    setRequest (.group g) is b = (refuse .badField, b) := by
  by_cases hf : setForm is = true
  · have hg : 3 < g ∨ groupNames is = false := h.imp_right fun h => h.resolve_left (by simp [hf])
    simp [setRequest, hf, hg]
  · exact setRequest_unformed (Bool.eq_false_iff.2 hf) _

theorem setRequest_failed {is : List SettingItem} {r : Reason} (hf : setForm is = true)
    (hr : writeRefusal b p false (setNames is) is = some r) : setRequest (.programme p.val) is b = (refuse r, b) := by
  simp [setRequest, hf, setOne, hr]

section
variable (tag : Byte) (n : Nat) (m : DelayMode)

theorem delayRequest_noProgramme {k : Nat} (hk : 15 < k) :
    delayRequest tag (.programme k) n m b = (refuse .badField, b) := by
  simp only [delayRequest, idOf_eq_none (show 16 ≤ k from hk)]

variable {n m}

theorem delayRequest_failed {r : Reason} (hr : writeRefusal b p false true [.delayTarget n, .delayMode m] = some r) :
    delayRequest tag (.programme p.val) n m b = (refuse r, b) := by
  simp [delayRequest, hr]

theorem delayRequest_busy (hr : writeRefusal b p false true [.delayTarget n, .delayMode m] = none)
    (hf : deferredFree tag b = false) : delayRequest tag (.programme p.val) n m b = (refuse .busy, b) := by
  simp [delayRequest, hr, hf]

end

/-! ### Ports and alarm entries -/

theorem portRequest_noPort {q : Nat} (hq : 7 < q) (cls : PortClass) : portRequest q cls b = (refuse .badField, b) := by
  simp only [portRequest, idOf_eq_none (show 8 ≤ q from hq)]

theorem alarmcfgRequest_noEntry {e : Nat} (he : 153 < e) (f : AlarmFields) :
    alarmcfgRequest e f b = (refuse .badField, b) := by
  simp [alarmcfgRequest, alarmcfgTarget, idOf_eq_none (show 154 ≤ e from he)]

theorem ackRequest_noEntry {e : Nat} (he : 153 < e) : ackRequest (some e) b = (refuse .badField, b) := by
  simp only [ackRequest, idOf_eq_none (show 154 ≤ e from he)]

/-! ### The statement -/

theorem carrying_eq_false {x : ProgState} (h : ¬ (x = .priming ∨ x = .running ∨ x = .starved)) : carrying x = false :=
  Bool.eq_false_iff.2 fun k => h ((carrying_iff x).1 k)

/-- Settles O54: each clause is the refusal of its request's function, by the check that fails. -/
theorem requestsRefused : Obligations.RequestsRefused := by
  intro s tag hfree refused
  refine ⟨fun n hn => ⟨?_, ?_, ?_, ?_, fun side => ?_, fun k => ?_, ?_, ?_, ?_, fun is => ⟨?_, ?_⟩, fun k m => ?_⟩,
    fun q cls hq => ?_, fun e f he => ⟨?_, ?_⟩, fun m n hn => ?_, fun g n m => ?_, fun g is h => ?_, fun m is hf => ?_,
    fun p => ⟨fun hs => ?_, fun hc => ⟨?_, fun side => ?_⟩, fun h1 h2 => ?_, fun hv => ⟨?_, ?_, ?_, ?_⟩, fun hv ho => ?_,
      fun hs n h1 h2 => ?_, fun n hs h1 h2 => ⟨fun hl => ?_, fun hl hf => ?_⟩, fun hv is => ?_, fun hv is r hd => ?_,
      fun is r hf hr => ?_, fun n m => ⟨fun r hr => ?_, fun hr hf => ?_⟩⟩⟩
  -- a number that names no programme
  · exact request_refused (r := .start n) hfree rfl (inStates_noProgramme hn _ _)
  · exact request_refused (r := .park n) hfree rfl (inStates_noProgramme hn _ _)
  · exact request_refused (r := .release n) hfree rfl (inStates_noProgramme hn _ _)
  · exact request_refused (r := .clear n) hfree rfl (inStates_noProgramme hn _ _)
  · exact request_refused (r := .select n side) hfree rfl (inStates_noProgramme hn _ _)
  · exact request_refused (r := .allocate n k) hfree rfl (allocateRequest_noProgramme tag hn k)
  · exact request_refused (r := .integrate n .start) hfree rfl (inStates_noProgramme hn _ _)
  · exact request_refused (r := .integrate n .pause) hfree rfl (inStates_noProgramme hn _ _)
  · exact request_refused (r := .integrate n .reset) hfree rfl (inStates_noProgramme hn _ _)
  · exact request_refused (r := .define n is) hfree rfl (defineRequest_noProgramme hn is)
  · exact request_refused (r := .set (.programme n) is) hfree rfl (setRequest_noProgramme hn is)
  · exact request_refused (r := .delay (.programme n) k m) hfree rfl (delayRequest_noProgramme tag k m hn)
  -- a port, an entry, a segment count, a group out of range
  · exact request_refused (r := .port q cls) hfree rfl (portRequest_noPort hq cls)
  · exact request_refused (r := .alarmcfg e f) hfree rfl (alarmcfgRequest_noEntry he f)
  · exact request_refused (r := .ack (some e)) hfree rfl (ackRequest_noEntry he)
  · exact request_refused (r := .allocate m n) hfree rfl (allocateRequest_badCount tag m hn)
  · exact request_refused (r := .delay (.group g) n m) hfree rfl rfl
  · exact request_refused (r := .set (.group g) is) hfree rfl (setRequest_badGroup h)
  · exact request_refused (r := .set (.programme m) is) hfree rfl (setRequest_unformed hf _)
  -- a programme in a state that does not take the request
  · exact request_refused (r := .start p) hfree rfl (inStates_wrongState (by simpa using hs) _)
  · exact request_refused (r := .park p) hfree rfl (inStates_wrongState (carrying_eq_false hc) _)
  · exact request_refused (r := .select p side) hfree rfl (inStates_wrongState (carrying_eq_false hc) _)
  · exact request_refused (r := .release p) hfree rfl (inStates_wrongState (by simp [h1, h2]) _)
  · exact request_refused (r := .clear p) hfree rfl (inStates_wrongState (by simpa using hv) _)
  · exact request_refused (r := .integrate p .start) hfree rfl (inStates_wrongState (by simpa using hv) _)
  · exact request_refused (r := .integrate p .pause) hfree rfl (inStates_wrongState (by simpa using hv) _)
  · exact request_refused (r := .integrate p .reset) hfree rfl (inStates_wrongState (by simpa using hv) _)
  · exact request_refused (r := .clear p) hfree rfl (clearRequest_sceneOwned hv ho)
  -- the checks of ALLOCATE, DEFINE, SET and DELAY
  · exact request_refused (r := .allocate p n) hfree rfl (allocateRequest_wrongState h1 h2 hs)
  · exact request_refused (r := .allocate p n) hfree rfl
      (allocateRequest_layoutPending h1 h2 hs ((layoutPending_iff _).2 hl))
  · refine request_refused (r := .allocate p n) hfree rfl (allocateRequest_busy h1 h2 hs (fun k => ?_) hf)
    obtain ⟨w, a, hw, ha, hne⟩ := (layoutPending_iff _).1 k
    exact hne (hl w a hw ha)
  · exact request_refused (r := .define p is) hfree rfl (defineRequest_wrongState hv is)
  · exact request_refused (r := .define p is) hfree rfl (defineRequest_failed hv hd)
  · exact request_refused (r := .set (.programme p) is) hfree rfl (setRequest_failed hf hr)
  · exact request_refused (r := .delay (.programme p) n m) hfree rfl (delayRequest_failed tag hr)
  · exact request_refused (r := .delay (.programme p) n m) hfree rfl (delayRequest_busy tag hr hf)

end Sys2Proof.Machine
end

section
/-! Ports and trackers: presence, the two timeouts, and the PORT request (O18, O30). -/

namespace Sys2Proof.Machine

variable {b c : Body} {s t : State} {q : Fin 8}

/-! ### What a tracker that is not LOCKED means to the lanes (R71) -/

/-- The lane is in PRIMING on the port: its setpoint is taken anew when the tracker changes (R71). -/
def PrimingOn (q : Fin 8) (b : Body) (p : Fin 16) : Prop :=
  (b.programme p).state = .priming ∧ ((b.lane p).source.any fun src => src.port = q) = true

/-- A lane's part of `afterTracker`. -/
def trackerTurn (q : Fin 8) (p : Fin 16) (b : Body) : Body :=
  if (b.lane p).source.any fun src => src.port = q then
    let b := if (b.programme p).state = .starved ∧ isLocked b q then resumeProgramme p b else b
    if (b.programme p).state = .priming then refreshSetpoint p b else b
  else b

theorem afterTracker_eq (q : Fin 8) (b : Body) : afterTracker q b = b.eachProgramme (trackerTurn q) := rfl

/-- `c` is `b` but for lanes in PRIMING on the port, whose source is the same. -/
structure PrimingChanged (q : Fin 8) (b c : Body) : Prop where
  only   : c = { b with lanes := c.lanes }
  source : ∀ p, (c.lane p).source = (b.lane p).source
  others : ∀ p, ¬ PrimingOn q b p → c.lane p = b.lane p

theorem PrimingChanged.refl (q : Fin 8) (b : Body) : PrimingChanged q b b := ⟨rfl, fun _ => rfl, fun _ _ => rfl⟩

theorem PrimingChanged.programme (h : PrimingChanged q b c) (p : Fin 16) : c.programme p = b.programme p := by
  rw [h.only]
  rfl

theorem PrimingChanged.locked (h : PrimingChanged q b c) (o : Fin 8) : isLocked c o = isLocked b o := by
  rw [h.only]
  rfl

theorem PrimingChanged.trans {d : Body} (h : PrimingChanged q b c) (h' : PrimingChanged q c d) :
    PrimingChanged q b d where
  only := by
    rw [h'.only]
    exact congrArg (fun x : Body => { x with lanes := d.lanes }) h.only
  source p := (h'.source p).trans (h.source p)
  others p hp := by
    have : ¬ PrimingOn q c p := by
      rw [PrimingOn, h.programme, h.source]
      exact hp
    exact (h'.others p this).trans (h.others p hp)

theorem refreshSetpoint_onLane (p : Fin 16) (b : Body) :
    ∃ n f, refreshSetpoint p b = b.onLane p fun l => { l with setpoint := n, delayLimited := f } := by
  unfold refreshSetpoint
  split
  · exact ⟨_, _, rfl⟩
  · exact ⟨_, _, rfl⟩

theorem PrimingChanged.refreshSetpoint {p : Fin 16} (h : PrimingOn q b p) :
    PrimingChanged q b (refreshSetpoint p b) := by
  obtain ⟨n, f, e⟩ := refreshSetpoint_onLane p b
  rw [e]
  refine ⟨rfl, fun o => source_onLane fun _ => rfl, fun o ho => ?_⟩
  exact Body.lane_setLane_other b p o _ fun k => ho (k ▸ h)

theorem PrimingChanged.trackerTurn (h : isLocked b q = false) (p : Fin 16) : PrimingChanged q b (trackerTurn q p b) := by
  unfold Machine.trackerTurn
  split
  · rename_i hs
    simp only [h, Bool.false_eq_true, and_false, if_false]
    split
    · rename_i hp
      exact .refreshSetpoint ⟨hp, hs⟩
    · exact .refl q b
  · exact .refl q b

/-- With the port not LOCKED no programme resumes, and the lanes in PRIMING on it alone may change. -/
theorem PrimingChanged.afterTracker (h : isLocked b q = false) : PrimingChanged q b (afterTracker q b) := by
  rw [afterTracker_eq]
  refine List.foldlRecOn (motive := PrimingChanged q b) programmeIds _ (.refl q b) fun c hc p _ => ?_
  exact hc.trans (.trackerTurn ((hc.locked q).trans h) p)

/-- A tracker that changes to one not LOCKED: the port, and lanes in PRIMING on it. -/
theorem Becomes.trackerUnlocked {y : Port} (h : Becomes s (afterTracker q (s.body.setPort q y)) t)
    (hy : y.tracker.state ≠ .locked) :
    Becomes s { s.body.setPort q y with lanes := t.body.lanes } t ∧
      ∀ p : Fin 16, (s.body.programme p).state ≠ .priming ∨ (∀ src, (s.body.lane p).source = some src → src.port ≠ q) →
        { t.body.lane p with sceneDelayOwed := none } = { s.body.lane p with sceneDelayOwed := none } := by
  have unlocked : isLocked (s.body.setPort q y) q = false := by simpa [isLocked] using hy
  have changed := PrimingChanged.afterTracker unlocked
  refine ⟨h.onLanes changed.only, fun p hp => ?_⟩
  have apart : ¬ PrimingOn q (s.body.setPort q y) p := by
    rintro ⟨h1, h2⟩
    obtain ⟨src, hsrc, hport⟩ := (Option.any_eq_true ..).1 h2
    exact hp.elim (fun k => k h1) (fun k => k src hsrc (of_decide_eq_true hport))
  rw [h.lane, changed.others p apart]
  rfl

/-! ### Presence (R34, R42) -/

theorem misalignedWork_present {elapsed : Nat} (h : (b.port q).clockPresent = true) :
    misalignedWork q elapsed b = b.setPort q { (b.port q).leaveSync .noSync (tickAt b.timing elapsed) with
      bitCount := 0, syncSeen := true } := by
  simp [misalignedWork, h]

theorem syncAbsentWork_present {elapsed : Nat} (h : (b.port q).clockPresent = true) :
    syncAbsentWork q elapsed b = b.setPort q { (b.port q).leaveSync .noSync (tickAt b.timing elapsed) with
      bitCount := 257 } := by
  simp [syncAbsentWork, h]

theorem clockLossWork_present {elapsed : Nat} (h : (b.port q).clockPresent = true) :
    clockLossWork q elapsed b = b.setPort q { (b.port q).leaveSync .noClock (tickAt b.timing elapsed) with
      bitCount := 0, clockPresent := false, syncSeen := false } := by
  simp [clockLossWork, h]

theorem clockReturnWork_absent (h : (b.port q).clockPresent = false) :
    clockReturnWork q b = b.setPort q { b.port q with
      clockPresent := true, syncSeen := false, bitCount := 0, presence := .noSync } := by
  simp [clockReturnWork, h]

/-! ### The timeouts (R42, R43) -/

theorem lossTimeoutWork_due {elapsed : Nat} {since : Count} (hs : (b.port q).tracker.lossSince = some since)
    (hd : 4096 ≤ (tickAt b.timing elapsed - since).toNat) :
    lossTimeoutWork q elapsed b =
      afterTracker q (b.setPort q { b.port q with tracker := (b.port q).tracker.lossTimeout }) := by
  have due : (b.port q).tracker.lossDue (tickAt b.timing elapsed) = true := by
    rw [Tracker.lossDue, hs]
    exact decide_eq_true hd
  rw [lossTimeoutWork, if_pos due]
  rfl

theorem lossTimeout_locked {u : Tracker} (h : u.state = .locked) :
    u.lossTimeout = { u with state := .holdover, holdover := some 0, lossSince := none } := by
  simp only [Tracker.lossTimeout, h]

theorem lossTimeout_acquiring {u : Tracker} (h : u.state = .acquiring) :
    u.lossTimeout = { u.clearHistory with state := .absent, lossSince := none } := by
  simp only [Tracker.lossTimeout, h]

theorem holdoverTimeoutWork_due {n : Nat} (hs : (b.port q).tracker.state = .holdover)
    (hh : (b.port q).tracker.holdover = some n) (hn : 48000 ≤ n) :
    holdoverTimeoutWork q b =
      afterTracker q (b.setPort q { b.port q with tracker := (b.port q).tracker.holdoverTimeout }) := by
  have due : (b.port q).tracker.holdoverDue = true := by simp [Tracker.holdoverDue, hs, hh, hn]
  rw [holdoverTimeoutWork, if_pos due]
  rfl

/-- Settles O18: presence by the four works of a port, the timeouts by `Becomes.trackerUnlocked`. -/
theorem presenceAndTimeouts : Obligations.PresenceAndTimeouts := by
  refine ⟨fun s q elapsed => ⟨fun hc => ⟨bodyEvent_result (misalignedWork_present hc),
    bodyEvent_result (syncAbsentWork_present hc), bodyEvent_result (clockLossWork_present hc)⟩,
    fun hc => bodyEvent_result (clockReturnWork_absent hc)⟩, fun s q elapsed => ⟨fun since hs hd => ⟨fun hl => ?_, fun ha => ?_⟩,
    fun n hh hn hd => ?_⟩⟩
  · obtain ⟨t, ht, hb⟩ := bodyEvent_result (lossTimeoutWork_due hs hd)
    rw [lossTimeout_locked hl] at hb
    exact ⟨t, ht, hb.trackerUnlocked (by simp)⟩
  · obtain ⟨t, ht, hb⟩ := bodyEvent_result (lossTimeoutWork_due hs hd)
    rw [lossTimeout_acquiring ha] at hb
    exact ⟨t, ht, hb.trackerUnlocked (by simp)⟩
  · obtain ⟨t, ht, hb⟩ := bodyEvent_result (holdoverTimeoutWork_due hh hn hd)
    exact ⟨t, ht, hb.trackerUnlocked (by simp [Tracker.holdoverTimeout])⟩

/-! ### PORT (R36) -/

/-- A port that PORT declares for another class: its tracker starts over. -/
def Port.reclassed (x : Port) (cls : PortClass) : Port :=
  { x with cls := cls, tracker := { x.tracker.clearHistory with
      lossSince := none, holdover := none, state := if x.presence = .synced then .acquiring else .absent } }

theorem setClass_same (h : (b.port q).cls = cls) : setClass q cls b = b := if_pos h

theorem setClass_other (h : (b.port q).cls ≠ cls) :
    setClass q cls b = afterTracker q (b.setPort q ((b.port q).reclassed cls)) := if_neg h

theorem afterTracker_port (q o : Fin 8) (b : Body) : (afterTracker q b).port o = b.port o := by
  simp only [Body.port, fixed_ports (afterTracker_fixed q b)]

theorem reclassed_unlocked (x : Port) (cls : PortClass) : (x.reclassed cls).tracker.state ≠ .locked := by
  unfold Port.reclassed
  simp only
  split <;> simp

theorem portRequest_eq (q : Fin 8) (cls : PortClass) (b : Body) :
    portRequest q.val cls b = (.answer [num1 q, enum PortClass.all (b.port q).cls, enum PortClass.all cls,
      enum TrackerState.all ((setClass q cls b).port q).tracker.state], setClass q cls b) := by
  simp only [portRequest, idOf_val]

end Sys2Proof.Machine

namespace Sys2Proof
open Machine

/-- Settles O30: with the class declared nothing is done, with another the port is `reclassed`. -/
theorem portRequest : Obligations.PortRequest := by
  intro s tag q cls hfree x answered state
  obtain ⟨hb, ha⟩ := request_result (tag := tag) (r := .port q.val cls) hfree rfl (portRequest_eq q cls s.body)
  refine ⟨fun hc => ⟨_, rfl, ?_, ?_⟩, fun hc => ⟨_, rfl, ?_, ?_⟩⟩
  · rw [setClass_same hc] at ha
    exact ha
  · rw [setClass_same hc] at hb
    exact hb
  · rw [setClass_other hc, afterTracker_port, Body.port_setPort_same] at ha
    exact ha
  · rw [setClass_other hc] at hb
    exact hb.trackerUnlocked (reclassed_unlocked _ _)

end Sys2Proof
end

section
/-! PORT_FRAME_EDGE, the port's side: what an edge makes of port and tracker (R34, R38 to R43), the first part of O17. -/

namespace Sys2Proof.Machine

variable {b : Body} {s t : State} {q : Fin 8}

/-! ### The tracker (R38 to R41) -/

theorem apart_iff (a b n : Nat) : apart a b n = true ↔ n < a - b ∨ n < b - a := by simp [apart]

section
variable {u : Tracker} {nominal d : Nat} {tick last : Count}

/-- Whether a window is out of range, and whether it jumps from the good window before it. -/
def OutOfRange (nominal d : Nat) : Prop := nominal / 200 < d - nominal ∨ nominal / 200 < nominal - d
def Tracker.Jumps (u : Tracker) (d : Nat) : Prop := ∃ e, u.prevSpan = some e ∧ (e / 512 < d - e ∨ e / 512 < e - d)

theorem jumps_iff (u : Tracker) (d : Nat) : (u.prevSpan.any fun e => apart d e (e / 512)) = true ↔ u.Jumps d := by
  simp only [Option.any_eq_true, apart_iff]
  rfl

theorem outOfRange_iff (nominal d : Nat) : apart d nominal (nominal / 200) = true ↔ OutOfRange nominal d :=
  apart_iff _ _ _

theorem closeWindow_good (hr : ¬ OutOfRange nominal d) (hj : ¬ u.Jumps d) (h9 : u.stamps.length ≠ 9) :
    u.closeWindow nominal d = { u with span := some d, prevSpan := some d, jumpRun := 0, rangeHeld := false } := by
  unfold Tracker.closeWindow
  simp only [Bool.eq_false_iff.2 (mt (outOfRange_iff nominal d).1 hr), Bool.eq_false_iff.2 (mt (jumps_iff u d).1 hj),
    Bool.not_false, Bool.and_self, if_true]
  split
  · rw [if_neg h9]
  · rfl

theorem closeWindow_locks {oldest newest : Count} (hr : ¬ OutOfRange nominal d) (hj : ¬ u.Jumps d)
    (h9 : u.stamps.length = 9) (ho : u.stamps.head? = some oldest) (hn : u.stamps.getLast? = some newest) :
    u.closeWindow nominal d = { u with span := some d, prevSpan := some d, jumpRun := 0, rangeHeld := false
                                       q := some (newest - oldest).toNat, state := .locked } := by
  unfold Tracker.closeWindow
  simp only [Bool.eq_false_iff.2 (mt (outOfRange_iff nominal d).1 hr), Bool.eq_false_iff.2 (mt (jumps_iff u d).1 hj),
    Bool.not_false, Bool.and_self, if_true, ho, hn, if_pos h9]

theorem closeWindow_range (hr : OutOfRange nominal d) (hj : ¬ u.Jumps d) :
    u.closeWindow nominal d = { u with span := some d, rangeHeld := true } := by
  unfold Tracker.closeWindow
  simp [(outOfRange_iff nominal d).2 hr, Bool.eq_false_iff.2 (mt (jumps_iff u d).1 hj)]

theorem closeWindow_jump {held : Bool} (hj : u.Jumps d) (hn : u.jumpRun < 2)
    (hh : held = true ↔ u.rangeHeld = true ∨ OutOfRange nominal d) :
    u.closeWindow nominal d = { u with span := some d, rangeHeld := held, jumpSeen := true, jumpRun := u.jumpRun + 1 } := by
  have e : (u.rangeHeld || apart d nominal (nominal / 200)) = held := by
    rw [Bool.eq_iff_iff, Bool.or_eq_true, outOfRange_iff, hh]
  unfold Tracker.closeWindow
  simp only [(jumps_iff u d).2 hj, e, Bool.not_true, Bool.and_false, Bool.false_eq_true, if_false,
    if_pos (show u.jumpRun + 1 < 3 by omega)]

/-- The third JUMP in a row clears the history (R41). -/
theorem closeWindow_third (hj : u.Jumps d) (hn : u.jumpRun = 2) :
    u.closeWindow nominal d = { u.clearHistory with state := .acquiring, jumpSeen := true } := by
  unfold Tracker.closeWindow
  simp only [(jumps_iff u d).2 hj, hn, Bool.not_true, Bool.and_false, Bool.false_eq_true, if_false, Nat.lt_irrefl,
    Nat.reduceAdd]
  rfl

/-- The stamps after one more is taken: nine at most (R38). -/
def Tracker.kept (u : Tracker) (tick : Count) : List Count :=
  (if 9 ≤ u.stamps.length then u.stamps.drop 1 else u.stamps) ++ [tick]

theorem stamp_first (h : u.stamps = []) : u.stamp nominal tick = { u with stamps := [tick], frameCount := 0 } := by
  simp [Tracker.stamp, h]

theorem stamp_closes (h : u.stamps.getLast? = some last) :
    u.stamp nominal tick =
      ({ u with stamps := u.kept tick, frameCount := 0 } : Tracker).closeWindow nominal (tick - last).toNat := by
  unfold Tracker.stamp
  rw [h]
  rfl

theorem frameEdge_first (hs : u.state = .acquiring ∨ u.state = .locked) (h : u.stamps = []) :
    u.frameEdge nominal tick = { u with stamps := [tick], frameCount := 0 } := by
  rw [Tracker.frameEdge, if_pos hs, if_pos (.inl h), stamp_first h]

theorem frameEdge_counts (hs : u.state = .acquiring ∨ u.state = .locked) (h : u.stamps ≠ []) (hn : u.frameCount < 255) :
    u.frameEdge nominal tick = { u with frameCount := u.frameCount + 1 } := by
  rw [Tracker.frameEdge, if_pos hs, if_neg (not_or.2 ⟨h, Nat.not_le.2 hn⟩)]

theorem frameEdge_closes (hs : u.state = .acquiring ∨ u.state = .locked) (h : u.stamps.getLast? = some last)
    (hn : 255 ≤ u.frameCount) :
    u.frameEdge nominal tick =
      ({ u with stamps := u.kept tick, frameCount := 0 } : Tracker).closeWindow nominal (tick - last).toNat := by
  rw [Tracker.frameEdge, if_pos hs, if_pos (.inr hn), stamp_closes h]

theorem frameEdge_idle (hs : u.state = .holdover ∨ u.state = .absent) : u.frameEdge nominal tick = u := by
  rw [Tracker.frameEdge, if_neg]
  rcases hs with hs | hs <;> simp [hs]

/-- The sync that makes presence SYNCED is itself the first stamp (log 7). -/
theorem presenceReturns_absent (h : u.state = .absent) :
    u.presenceReturns.frameEdge nominal tick =
      { u with state := .acquiring, stamps := [tick], frameCount := 0, lossSince := none } := by
  simp only [Tracker.presenceReturns, h]
  rw [frameEdge_first (.inl rfl) rfl]

theorem presenceReturns_known (h : u.state ≠ .absent) :
    u.presenceReturns.frameEdge nominal tick =
      { u with state := .acquiring, stamps := [tick], frameCount := 0, span := none, prevSpan := none, q := none
               jumpRun := 0, rangeHeld := false, lossSince := none
               holdover := if u.state = .holdover then none else u.holdover } := by
  have first : ∀ v : Tracker, v.state = .acquiring → v.stamps = [] →
      v.frameEdge nominal tick = { v with stamps := [tick], frameCount := 0 } := fun v hv hn => frameEdge_first (.inl hv) hn
  unfold Tracker.presenceReturns
  cases hu : u.state with
  | absent => exact absurd hu h
  | acquiring => simp only; rw [first _ rfl rfl]; rfl
  | locked => simp only; rw [first _ rfl rfl]; rfl
  | holdover => simp only; rw [first _ rfl rfl]; rfl

end

/-! ### The port -/

/-- The port as an aligned sync leaves it before the edge is counted: SYNCED, nothing counted or assembled (R34). -/
def Port.edged (x : Port) : Port :=
  { x with presence := .synced, bitCount := 0, assembly := []
           tracker := if x.presence = .synced then x.tracker else x.tracker.presenceReturns }

/-- The port with the edge counted. -/
def Port.counted (x : Port) (tick : Count) : Port :=
  { x.edged with tracker := x.edged.tracker.frameEdge (nominalSpan x.cls) tick }

theorem deliver_port (q o : Fin 8) (x : Vector Sample 8) (b : Body) : (deliver q x b).port o = b.port o := by
  simp only [Body.port, fixed_ports (deliver_fixed q x b)]

/-- An edge that can arrive: port SYNCED, frame delivered, edge counted, lanes told of the tracker (R34, R35). -/
theorem frameEdgeWork_eq {elapsed : Nat} (slots : Vector Sample 8) (hc : (b.port q).clockPresent = true)
    (hs : (b.port q).syncSeen = true) (hb : (b.port q).bitCount ≠ 257) :
    frameEdgeWork q elapsed slots b =
      afterTracker q ((deliver q slots (b.setPort q (b.port q).edged)).setPort q
        ((b.port q).counted (tickAt b.timing elapsed))) := by
  have possible : edgePossible (b.port q) = true := by simp [edgePossible, hc, hs, hb]
  unfold frameEdgeWork
  simp only
  rw [if_pos possible, Body.onPort_eq, deliver_port]
  simp only [Body.port_setPort_same]
  rfl

theorem edgeBody_fixed (q : Fin 8) (slots : Vector Sample 8) (x y : Port) (b : Body) :
    (afterTracker q ((deliver q slots (b.setPort q x)).setPort q y)).fixed = (b.setPort q y).fixed := by
  have set : ∀ c : Body, c.fixed = (b.setPort q x).fixed → (c.setPort q y).fixed = (b.setPort q y).fixed := fun c h => by
    have ports : (c.setPort q y).ports = (b.setPort q y).ports := by
      show c.ports.set q y = b.ports.set q y
      rw [fixed_ports h]
      show (b.ports.set q x).set q y = _
      simp
    have e : (c.setPort q y).fixed = { c.fixed with ports := (c.setPort q y).ports } := rfl
    rw [e, h, ports]
    rfl
  rw [afterTracker_fixed]
  exact set _ (deliver_fixed ..)

theorem setPort_sets (b : Body) (q : Fin 8) (x : Port) : (b.setPort q x).sets = b.sets := rfl

theorem edgeBody_sets (q : Fin 8) (slots : Vector Sample 8) (x y : Port) (b : Body) :
    (afterTracker q ((deliver q slots (b.setPort q x)).setPort q y)).sets = b.sets := by
  rw [afterTracker_sets, setPort_sets, deliver_sets, setPort_sets]

/-- What PORT_FRAME_EDGE makes of the port and leaves of everything beside lanes, banks and programme records. -/
theorem portFrameEdge_port {elapsed : Nat} (slots : Vector Sample 8) (hc : (s.body.port q).clockPresent = true)
    (hs : (s.body.port q).syncSeen = true) (hb : (s.body.port q).bitCount ≠ 257) :
    ∃ t, exec (.portFrameEdge q elapsed slots) s = .next t ∧ Keeps s t ∧
      t.body.port q = (s.body.port q).counted (tickAt s.body.timing elapsed) ∧
      (∀ o : Fin 8, o ≠ q → t.body.port o = s.body.port o) ∧ t.body.timing = s.body.timing ∧
      t.body.sets = s.body.sets ∧ t.body.contacts = s.body.contacts ∧ t.body.scenes = s.body.scenes := by
  obtain ⟨t, ht, hbec⟩ := bodyEvent_result (frameEdgeWork_eq (elapsed := elapsed) slots hc hs hb)
  have fixed := edgeBody_fixed q slots (s.body.port q).edged ((s.body.port q).counted (tickAt s.body.timing elapsed)) s.body
  obtain ⟨h1, h2, h3, h4, h5⟩ := hbec.fixedParts fixed (edgeBody_sets ..)
  have port : ∀ o, t.body.port o = (s.body.setPort q ((s.body.port q).counted (tickAt s.body.timing elapsed))).port o :=
    fun o => by simp only [Body.port, h2]
  exact ⟨t, ht, hbec.1, (port q).trans (Body.port_setPort_same ..),
    fun o ho => (port o).trans (Body.port_setPort_other _ _ _ _ ho.symm), h1, h3, h5, h4⟩

end Sys2Proof.Machine
end

section
/-! PORT_FRAME_EDGE, the lane that takes the frame: delivery to it alone, and what its tracker's change leaves of it (R21, R35,
R52, R53, R63, R71): the layer under the second and the third part of O17. -/

namespace Sys2Proof.Machine

variable {b c : Body} {s t : State} {p o : Fin 16} {q : Fin 8}

/-! ### A frame offered to one lane (R35, R63) -/

theorem takesFrom_congr (hs : (c.programme o).state = (b.programme o).state)
    (hl : (c.lane o).source = (b.lane o).source) (q : Fin 8) : takesFrom c o q = takesFrom b o q := by
  simp only [takesFrom, hs, hl]

theorem takesFrom_iff : takesFrom b p q = true ↔
    ((b.programme p).state = .priming ∨ (b.programme p).state = .running ∨ (b.programme p).state = .starved) ∧
      ∃ src, (b.lane p).source = some src ∧ src.port = q := by
  simp only [takesFrom, Bool.and_eq_true, Bool.or_eq_true, decide_eq_true_eq, Option.any_eq_true, or_assoc]

theorem takesFrom_onLane {f : Lane → Lane} (hf : ∀ l, (f l).source = l.source) :
    takesFrom (b.onLane p f) o q = takesFrom b o q :=
  takesFrom_congr (b := b) (c := b.onLane p f) rfl (source_onLane hf) q

theorem takesFrom_onProgramme {f : Programme → Programme} (hf : ∀ r, (f r).state = r.state) :
    takesFrom (b.onProgramme p f) o q = takesFrom b o q := by
  refine takesFrom_congr (b := b) (c := b.onProgramme p f) ?_ rfl q
  rw [Body.onProgramme_eq, Body.programme_setProgramme]
  split
  · rename_i e
    subst e
    exact hf _
  · rfl

theorem takesFrom_onBank (k : Fin 4) (f : Bank → Bank) : takesFrom (b.onBank k f) o q = takesFrom b o q := rfl

theorem enterQueue_takesFrom (p : Fin 16) (x : List Sample) (b : Body) (o : Fin 16) (q : Fin 8) :
    takesFrom (enterQueue p x b) o q = takesFrom b o q := by
  cases hl : (b.programme p).line with
  | none => simp only [enterQueue, hl]
  | some line =>
    refine takesFrom_congr (congrArg Prod.fst (enterQueue_programme p x b o) :) ?_ q
    have h : ((enterQueue p x b).lane o).source = _ := congrArg Prod.fst (enterQueue_lane (x := x) hl o)
    rw [h, apply_ite Prod.fst]
    split
    · rename_i e
      subst e
      rfl
    · rfl

/-- A frame handed over leaves every programme its state and every lane its source. -/
theorem handOver_takesFrom (p : Fin 16) (x : List Sample) (b : Body) (o : Fin 16) (q : Fin 8) :
    takesFrom (handOver p x b) o q = takesFrom b o q := by
  unfold handOver
  split
  · rfl
  · split
    · exact enterQueue_takesFrom p x b o q
    · refine (takesFrom_onBank _ _).trans ((takesFrom_onLane (by exact fun _ => rfl)).trans ?_)
      split
      · exact (takesFrom_onLane (by exact fun _ => rfl)).trans (takesFrom_onProgramme (by exact fun _ => rfl))
      · rfl

/-- A lane's part of `deliver`. -/
def deliverTurn (q : Fin 8) (slots : Vector Sample 8) (p : Fin 16) (b : Body) : Body :=
  if takesFrom b p q then
    match (b.lane p).source with
    | some src => handOver p (slotSamples slots src.slot (channels b p)) b
    | none => b
  else b

theorem deliver_eq (q : Fin 8) (slots : Vector Sample 8) (b : Body) :
    deliver q slots b = b.eachProgramme (deliverTurn q slots) := rfl

theorem deliverTurn_takes {src : Source} (slots : Vector Sample 8) (ht : takesFrom b p q = true)
    (hsrc : (b.lane p).source = some src) :
    deliverTurn q slots p b = handOver p (slotSamples slots src.slot (channels b p)) b := by
  simp only [deliverTurn, ht, hsrc, if_true]

/-- No other programme takes the frames of the port. -/
def TakesAlone (q : Fin 8) (p : Fin 16) (b : Body) : Prop := ∀ o : Fin 16, o ≠ p → takesFrom b o q = false

/-- Where one programme alone takes the frames of a port, a frame delivered is the one handed over to its lane. -/
theorem deliver_one {src : Source} (slots : Vector Sample 8)
    (hst : (b.programme p).state = .priming ∨ (b.programme p).state = .running ∨ (b.programme p).state = .starved)
    (hsrc : (b.lane p).source = some src) (hq : src.port = q) (ho : TakesAlone q p b) :
    deliver q slots b = handOver p (slotSamples slots src.slot (channels b p)) b := by
  obtain ⟨x, h1, h2⟩ := eachProgramme_turn p (deliverTurn q slots) (fun x y => TakesAlone q p x → y = x)
    (fun _ _ => rfl)
    (fun x y z hxy hyz hx => by
      have hy := hxy hx
      subst hy
      exact hyz hx)
    (fun o ho x hx => by
      rw [deliverTurn, hx o ho]
      rfl) b
  have hx := h1 ho
  subst hx
  rw [deliverTurn_takes slots (takesFrom_iff.2 ⟨hst, src, hsrc, hq⟩) hsrc] at h2
  rw [deliver_eq]
  exact h2 fun o h => (handOver_takesFrom ..).trans (ho o h)

/-! ### What a tracker's change leaves of lanes and programmes -/

/-- A lane without what the refreshing of its setpoint and the pumping of its reads change. -/
def Lane.seat (l : Lane) : Lane := { l.unread with setpoint := none, delayLimited := false }

/-- A programme record without its state and the report that the state owes. -/
def Programme.stateless (r : Programme) : Programme := { r with state := .vacant, stateOwed := none }

theorem seat_onLane {f : Lane → Lane} (hf : ∀ l, (f l).seat = l.seat) :
    ((b.onLane p f).lane o).seat = (b.lane o).seat := by
  rw [Body.onLane_eq, Body.lane_setLane]
  split
  · rename_i e
    subst e
    exact hf _
  · rfl

theorem refreshSetpoint_seat (p o : Fin 16) (b : Body) : ((refreshSetpoint p b).lane o).seat = (b.lane o).seat := by
  obtain ⟨n, f, e⟩ := refreshSetpoint_onLane p b
  rw [e]
  exact seat_onLane fun _ => rfl

theorem pumpReads_seat (p o : Fin 16) (b : Body) : ((pumpReads p b).lane o).seat = (b.lane o).seat :=
  (congrArg (fun l : Lane => { l with setpoint := none, delayLimited := false }) (pumpReads_lane p o b) :)

/-- What a tracker's change does to the lanes: the write side stays; a programme keeps its state and its reader's place, or
it was STARVED and resumes (R21, R71). -/
structure TrackerWork (b c : Body) : Prop where
  banks  : c.banks = b.banks
  lane   : ∀ o, (c.lane o).writeSide = (b.lane o).writeSide
  record : ∀ o, (c.programme o).stateless = (b.programme o).stateless
  moves  : ∀ o, ((c.programme o).state = (b.programme o).state ∧ (c.lane o).seat = (b.lane o).seat) ∨
    ((b.programme o).state = .starved ∧ (c.programme o).state = .priming)

namespace TrackerWork

theorem refl (b : Body) : TrackerWork b b := ⟨rfl, fun _ => rfl, fun _ => rfl, fun _ => .inl ⟨rfl, rfl⟩⟩

theorem trans {d : Body} (h : TrackerWork b c) (h' : TrackerWork c d) : TrackerWork b d where
  banks := h'.banks.trans h.banks
  lane o := (h'.lane o).trans (h.lane o)
  record o := (h'.record o).trans (h.record o)
  moves o := by
    rcases h.moves o with ⟨h1, h2⟩ | ⟨h1, h2⟩
    · rcases h'.moves o with ⟨h3, h4⟩ | ⟨h3, h4⟩
      · exact .inl ⟨h3.trans h1, h4.trans h2⟩
      · exact .inr ⟨h1.symm.trans h3, h4⟩
    · rcases h'.moves o with ⟨h3, -⟩ | ⟨h3, -⟩
      · exact .inr ⟨h1, h3.trans h2⟩
      · rw [h2] at h3
        cases h3

theorem refreshSetpoint (p : Fin 16) (b : Body) : TrackerWork b (refreshSetpoint p b) := by
  have programme : ∀ o, (Machine.refreshSetpoint p b).programme o = b.programme o :=
    aside_programme (refreshSetpoint_aside p b)
  refine ⟨?_, fun o => writeSide_lane (refreshSetpoint_writeSide p b) o, fun o => by rw [programme],
    fun o => .inl ⟨by rw [programme], refreshSetpoint_seat p o b⟩⟩
  obtain ⟨n, f, e⟩ := refreshSetpoint_onLane p b
  rw [e]
  rfl

theorem resumeProgramme (h : (b.programme p).state = .starved) : TrackerWork b (resumeProgramme p b) := by
  refine ⟨rfl, fun o => ?_, fun o => ?_, fun o => ?_⟩
  · rw [Machine.resumeProgramme]
    simp only [clearOverloadRuns, oweState]
    rw [Body.onLane_eq, Body.lane_setLane]
    split
    · rename_i e
      subst e
      simp [Lane.writeSide]
    · rename_i e
      simp [e]
  · show (((b.onProgramme p fun r => { r with state := .priming }).onProgramme p
      fun r => { r with stateOwed := some .resumed }).programme o).stateless = _
    rw [onProgramme_onProgramme, Body.onProgramme_eq, Body.programme_setProgramme]
    split
    · rename_i e
      subst e
      rfl
    · rfl
  · by_cases e : p = o
    · subst e
      refine .inr ⟨h, ?_⟩
      simp [Machine.resumeProgramme, clearOverloadRuns, oweState]
    · refine .inl ⟨?_, ?_⟩ <;> simp [Machine.resumeProgramme, clearOverloadRuns, oweState, e]

theorem trackerTurn (q : Fin 8) (p : Fin 16) (b : Body) : TrackerWork b (trackerTurn q p b) := by
  have refreshed : ∀ c : Body, TrackerWork c
      (if (c.programme p).state = .priming then Machine.refreshSetpoint p c else c) := fun c => by
    split
    · exact refreshSetpoint p c
    · exact refl c
  unfold Machine.trackerTurn
  split
  · simp only
    refine trans ?_ (refreshed _)
    split
    · rename_i h
      exact resumeProgramme h.1
    · exact refl b
  · exact refl b

theorem afterTracker (q : Fin 8) (b : Body) : TrackerWork b (afterTracker q b) := by
  rw [afterTracker_eq]
  exact List.foldlRecOn (motive := TrackerWork b) programmeIds _ (refl b) fun c hc p _ => hc.trans (trackerTurn q p c)

/-- Where a programme is found in the state it had, its lane was left in its place. -/
theorem seat_of_state (h : TrackerWork b c) (hs : (c.programme o).state = (b.programme o).state) :
    (c.lane o).seat = (b.lane o).seat := by
  rcases h.moves o with ⟨-, h1⟩ | ⟨h1, h2⟩
  · exact h1
  · rw [h1, h2] at hs
    cases hs

end TrackerWork

/-! ### The frame edge for that lane -/

/-- The frame edge of a port whose frames one programme takes: the frame handed over, the edge counted, the lanes told. -/
theorem portFrameEdge_one {elapsed : Nat} {src : Source} {st : Settings} (slots : Vector Sample 8)
    (hc : (s.body.port q).clockPresent = true) (hs : (s.body.port q).syncSeen = true)
    (hb : (s.body.port q).bitCount ≠ 257)
    (hst : (s.body.programme p).state = .priming ∨ (s.body.programme p).state = .running ∨
      (s.body.programme p).state = .starved)
    (hsrc : (s.body.lane p).source = some src) (hq : src.port = q) (ha : (s.body.programme p).active = some st)
    (ho : ∀ o : Fin 16, o ≠ p → takesFrom s.body o q = false) :
    ∃ t c, exec (.portFrameEdge q elapsed slots) s = .next t ∧ Becomes s c t ∧
      TrackerWork (handOver p ((slots.toList.drop src.slot.val).take (channelsOf st.layout))
        (s.body.setPort q (s.body.port q).edged)) c := by
  obtain ⟨t, ht, hbec⟩ := bodyEvent_result (frameEdgeWork_eq (elapsed := elapsed) slots hc hs hb)
  refine ⟨t, _, ht, hbec, ?_⟩
  rw [deliver_one (b := s.body.setPort q (s.body.port q).edged) slots hst hsrc hq ho,
    channels_eq (b := s.body.setPort q (s.body.port q).edged) ha]
  obtain ⟨h1, h2, h3, h4⟩ := TrackerWork.afterTracker q ((handOver p (slotSamples slots src.slot (channelsOf st.layout))
    (s.body.setPort q (s.body.port q).edged)).setPort q ((s.body.port q).counted (tickAt s.body.timing elapsed)))
  exact ⟨h1, h2, h3, h4⟩

end Sys2Proof.Machine
end

section
/-! A frame written: the overload runs, the place of the reader after the write, the overrun (R64, R65, R77, R81, R99): the
layer under the third part of O17. -/

namespace Sys2Proof.Machine

variable {b c : Body} {p o : Fin 16} {l : Lane}

/-! ### Overload runs (R65) -/

/-- The run of channel `i` after a frame. -/
def overloadAt (rs : List Nat) (xs : List Sample) (i : Nat) : Nat :=
  (xs[i]?.map fun x => if 8388607 ≤ x.toInt.natAbs then min 3 (rs.getD i 0 + 1) else 0).getD (rs.getD i 0)

theorem overloadNext_eq (n : Nat) (x : Sample) :
    overloadNext n x = if 8388607 ≤ x.toInt.natAbs then min 3 (n + 1) else 0 := by
  simp only [overloadNext, fullScaleSample, decide_eq_true_eq]

theorem overloadRuns_getElem? (rs : List Nat) (xs : List Sample) {i : Nat} (h : i < rs.length) :
    (overloadRuns rs xs)[i]? = some (overloadAt rs xs i) := by
  induction rs generalizing xs i with
  | nil => exact absurd h (Nat.not_lt_zero i)
  | cons r rs ih =>
    cases xs with
    | nil =>
      simp only [overloadRuns, overloadAt, List.getElem?_nil, Option.map_none, Option.getD_none, List.getD_eq_getElem?_getD,
        List.getElem?_eq_getElem h, Option.getD_some]
    | cons x xs =>
      cases i with
      | zero => simp [overloadRuns, overloadAt, overloadNext_eq]
      | succ i =>
        have := ih xs (i := i) (by simpa using h)
        simpa [overloadRuns, overloadAt] using this

theorem overloadEvents_eq (rs : List Nat) (xs : List Sample) :
    overloadEvents rs xs =
      ((List.range rs.length).filter fun i => rs.getD i 0 < 3 ∧ overloadAt rs xs i = 3).length := by
  induction rs generalizing xs with
  | nil => rfl
  | cons r rs ih =>
    cases xs with
    | nil =>
      have none : (List.range (r :: rs).length).filter
          (fun i => (r :: rs).getD i 0 < 3 ∧ overloadAt (r :: rs) [] i = 3) = [] := by
        rw [List.filter_eq_nil_iff]
        intro i _ hi
        obtain ⟨h1, h2⟩ := of_decide_eq_true hi
        rw [overloadAt, List.getElem?_nil, Option.map_none, Option.getD_none] at h2
        omega
      rw [none]
      rfl
    | cons x xs =>
      rw [overloadEvents, ih, List.length_cons, List.range_succ_eq_map, List.filter_cons, List.filter_map,
        overloadNext_eq]
      have tail : (fun i => decide ((r :: rs).getD i 0 < 3 ∧ overloadAt (r :: rs) (x :: xs) i = 3)) ∘ Nat.succ =
          fun i => decide (rs.getD i 0 < 3 ∧ overloadAt rs xs i = 3) := by
        funext i
        simp [overloadAt]
      rw [tail]
      have head : overloadAt (r :: rs) (x :: xs) 0 = if 8388607 ≤ x.toInt.natAbs then min 3 (r + 1) else 0 := by
        simp [overloadAt]
      rw [head, List.getD_cons_zero]
      generalize (if 8388607 ≤ x.toInt.natAbs then min 3 (r + 1) else 0) = n
      by_cases h : r < 3 ∧ n = 3 <;> simp only [h, decide_true, decide_false, if_true, if_false, List.length_cons,
        List.length_map, Bool.false_eq_true, Nat.add_comm, Nat.zero_add, and_self]

/-! ### The frame entered (R52, R64, R65) -/

/-- A lane whose writer has written a frame. -/
def Lane.written (l : Lane) (x : List Sample) : Lane :=
  { l with writeSeq := l.writeSeq + 1, historyStart := trailingStart (l.writeSeq + 1) l.historyStart
           overloadRun := overloadRuns l.overloadRun x
           overloadSeen := l.overloadSeen || overloadEvents l.overloadRun x != 0 }

/-- The blocks with the frame in the queue and the overload watched, before the reader's place is looked at. -/
def Body.frameEntered (b : Body) (p : Fin 16) (x : List Sample) (line : Line) : Body :=
  let b' := b.onBank line.bank fun k =>
    { k with queue := k.queue ++ [{ lane := p, seq := (b.lane p).writeSeq
                                    position := (b.lane p).writeSeq.toNat % line.length, samples := x }] }
  watchOverload p x (grantBank line.bank (b'.onLane p fun l =>
    { l with writeSeq := l.writeSeq + 1, historyStart := trailingStart (l.writeSeq + 1) l.historyStart }))

section
variable {x : List Sample} {line : Line}

theorem handOver_enters (hl : (b.programme p).line = some line) (h : (b.bank line.bank).queue.length < 16) :
    handOver p x b = afterWrite p (b.frameEntered p x line) := by
  have enters : handOver p x b = enterQueue p x b := by
    unfold handOver
    rw [hl]
    exact if_pos h
  rw [enters, enterQueue, hl]
  rfl

theorem lane_of_unrequested {l m : Lane} (h : { l with readRequest := none } = { m with readRequest := none }) :
    l = { m with readRequest := l.readRequest } :=
  (congrArg (fun k : Lane => { k with readRequest := l.readRequest }) h :)

theorem frameEntered_lane (b : Body) (p : Fin 16) (x : List Sample) (line : Line) :
    ∃ rr, (b.frameEntered p x line).lane p = { (b.lane p).written x with readRequest := rr } := by
  unfold Body.frameEntered
  simp only
  generalize hd : Body.onLane _ p _ = d
  have entered : d.lane p = { b.lane p with
      writeSeq := (b.lane p).writeSeq + 1
      historyStart := trailingStart ((b.lane p).writeSeq + 1) (b.lane p).historyStart } := by
    rw [← hd, Body.onLane_eq, Body.lane_setLane_same]
    rfl
  have granted := lane_of_unrequested (grantBank_lane line.bank d p)
  rw [entered] at granted
  refine ⟨((grantBank line.bank d).lane p).readRequest, ?_⟩
  unfold watchOverload
  simp only
  rw [Body.onProgramme_eq, Body.lane_setProgramme, Body.onLane_eq, Body.lane_setLane_same]
  generalize (grantBank line.bank d).lane p = g at granted
  rw [granted]
  rfl

theorem frameEntered_programme (b : Body) (p : Fin 16) (x : List Sample) (line : Line) :
    (b.frameEntered p x line).programme p =
      { b.programme p with overloads := bumpBy (overloadEvents (b.lane p).overloadRun x) (b.programme p).overloads } := by
  unfold Body.frameEntered
  simp only
  generalize hd : Body.onLane _ p _ = d
  have entered : (d.lane p).overloadRun = (b.lane p).overloadRun := by
    rw [← hd, Body.onLane_eq, Body.lane_setLane_same]
    rfl
  have record : d.programme p = b.programme p := by rw [← hd]; rfl
  have granted : ((grantBank line.bank d).lane p).overloadRun = (d.lane p).overloadRun :=
    (congrArg Lane.overloadRun (grantBank_lane line.bank d p) :)
  unfold watchOverload
  simp only
  rw [Body.onProgramme_eq, Body.programme_setProgramme_same, granted, entered, Body.onLane_eq, Body.programme_setLane,
    grantBank_programme, record]

theorem frameEntered_fixed (b : Body) (p : Fin 16) (x : List Sample) (line : Line) :
    (b.frameEntered p x line).fixed = b.fixed := by
  simp [Body.frameEntered]

end

/-! ### The reader moved, and the overrun (R81, R99) -/

/-- The Q loaded at a mark: that of its port's LOCKED tracker, else its own, else the nominal one (R98). -/
theorem markQ_eq (b : Body) (m : SpliceMark) :
    markQ b m = ((lockedQ b m.port).or m.q).getD (8 * nominalSpan (b.port m.port).cls) := by
  unfold markQ
  cases lockedQ b m.port <;> rfl

theorem markQ_of_ports (h : c.ports = b.ports) (m : SpliceMark) : markQ c m = markQ b m := by
  have port : ∀ q, c.port q = b.port q := fun q => by simp only [Body.port, h]
  have locked : lockedQ c m.port = lockedQ b m.port := by
    unfold lockedQ isLocked
    rw [port]
  rw [markQ_eq, markQ_eq, locked, port]

/-- A lane whose reader has moved to `d`, the last mark on the way loaded with its Q (R99). -/
def Lane.movedTo (l : Lane) (d : Count) (loaded : SpliceMark → Nat) : Lane :=
  let moved := { l with readSeq := d, marks := l.marks.drop (l.passed d).length }
  match (l.passed d).getLast? with
  | none => moved
  | some m => moved.takeMark m (loaded m)

theorem movedTo_only (l : Lane) (d : Count) (f : SpliceMark → Nat) :
    l.movedTo d f = { l with readSeq := d, marks := l.marks.drop (l.passed d).length
                             historyStart := (l.movedTo d f).historyStart, ratio := (l.movedTo d f).ratio
                             acc := (l.movedTo d f).acc } := by
  unfold Lane.movedTo
  simp only
  split <;> rfl

theorem movedTo_unmarked {d : Count} {f : SpliceMark → Nat} (h : l.passed d = []) :
    (l.movedTo d f).ratio = l.ratio ∧ (l.movedTo d f).acc = l.acc := by
  simp [Lane.movedTo, h]

theorem movedTo_marked {d : Count} {f : SpliceMark → Nat} {m : SpliceMark} (h : (l.passed d).getLast? = some m) :
    (l.movedTo d f).ratio = some { port := m.port, q := f m } ∧ (l.movedTo d f).acc = f m / 2 ∧
      (l.movedTo d f).historyStart = m.seq := by
  simp [Lane.movedTo, h, Lane.takeMark]

theorem moveReader_seat (p : Fin 16) (d : Count) (b : Body) :
    ((moveReader p d b).lane p).seat = ((b.lane p).movedTo d (markQ b)).seat := by
  unfold moveReader Lane.movedTo
  simp only
  cases hg : ((b.lane p).passed d).getLast? with
  | none => rw [Body.onLane_eq, Body.lane_setLane_same]
  | some m =>
    simp only
    rw [refreshSetpoint_seat, markQ_of_ports (b := b) (c := b.onLane p _) rfl]
    simp only [Body.onLane_eq, Body.lane_setLane_same]

/-- The tail that an overrun makes of a reader with a ratio record (R77, R81). -/
def Lane.withTail (l : Lane) (r : RatioRecord) : Lane :=
  { l with tail := some { readSeq := l.readSeq, acc := l.acc, q := r.q, stop := l.marks.head?.map (·.seq)
                          historyStart := l.historyStart } }

theorem makeTail_ratio {r : RatioRecord} (h : (b.lane p).ratio = some r) :
    makeTail p b = b.setLane p ((b.lane p).withTail r) := by
  unfold makeTail
  rw [Body.onLane_eq]
  split
  · rename_i h'
    cases h.symm.trans h'
  · rename_i h'
    cases h.symm.trans h'
    rfl

theorem settleTail_going (h : (b.lane p).tail.all (fun y => y.remaining ≠ 0) = true) : settleTail p b = b := by
  unfold settleTail
  rw [if_neg]
  rw [Option.all_eq_true] at h
  rw [Option.any_eq_true]
  rintro ⟨y, hy, h0⟩
  exact of_decide_eq_true (h y hy) (of_decide_eq_true h0)

/-- The end of an overrun: the slip counted, and the reads pumped. -/
theorem countSlip_pumped (p : Fin 16) (b : Body) :
    ((pumpReads p (countSlip p b)).lane p).seat = { (b.lane p).seat with slipSeen := true, stickySlip := true } := by
  rw [pumpReads_seat, countSlip, markSlip, Body.onLane_eq, Body.lane_setLane_same]
  rfl

/-- The lane after an overrun that takes its reader to `d`, but for what reads and setpoint change. Where no tail is active
the reader leaves one; a tail that goes on keeps its place, and the fade-in starts where marks are consumed (R81, R99). -/
def Lane.overrunTo (l : Lane) (d : Count) (r : RatioRecord) (loaded : SpliceMark → Nat) : Lane :=
  if l.tail = none then { (l.withTail r).movedTo d loaded with slipSeen := true, stickySlip := true }
  else { l.movedTo d loaded with
    fadeIn := if l.passed d = [] then l.fadeIn else 64, slipSeen := true, stickySlip := true }

theorem overrun_seat {n : Nat} {r : RatioRecord} (hsp : (b.lane p).setpoint = some n) (hr : (b.lane p).ratio = some r)
    (hg : (b.lane p).tail.all (fun y => y.remaining ≠ 0) = true) :
    ((overrun p b).lane p).seat =
      ((b.lane p).overrunTo ((b.lane p).writeSeq - cnt n) r (markQ b)).seat := by
  unfold overrun Lane.overrunTo
  simp only
  rw [settleTail_going hg, hsp, countSlip_pumped]
  split
  · rw [moveReader_seat, makeTail_ratio hr, Body.lane_setLane_same]
    rfl
  · rw [Body.onLane_eq, Body.lane_setLane_same]
    have moved := moveReader_seat p ((b.lane p).writeSeq - cnt n) b
    have fade : ((moveReader p ((b.lane p).writeSeq - cnt n) b).lane p).fadeIn = (b.lane p).fadeIn :=
      (congrArg Lane.fadeIn moved :).trans (congrArg Lane.fadeIn (movedTo_only ..) :)
    simp only [Option.getD_some, fade]
    exact (congrArg (fun m : Lane => { m with
      fadeIn := if (b.lane p).passed ((b.lane p).writeSeq - cnt n) = [] then (b.lane p).fadeIn else 64
      slipSeen := true, stickySlip := true }) moved :)

/-- An open read request has no part in an overrun. -/
theorem movedTo_requested (l : Lane) (rr : Option ReadRequest) (d : Count) (f : SpliceMark → Nat) :
    ({ l with readRequest := rr } : Lane).movedTo d f = { l.movedTo d f with readRequest := rr } := by
  have same : ({ l with readRequest := rr } : Lane).passed d = l.passed d := rfl
  unfold Lane.movedTo
  rw [same]
  cases (l.passed d).getLast? <;> rfl

theorem overrunTo_requested (l : Lane) (rr : Option ReadRequest) (d : Count) (r : RatioRecord) (f : SpliceMark → Nat) :
    (({ l with readRequest := rr } : Lane).overrunTo d r f).seat = (l.overrunTo d r f).seat := by
  have tail : ({ l with readRequest := rr } : Lane).withTail r = { l.withTail r with readRequest := rr } := rfl
  unfold Lane.overrunTo
  rw [tail, movedTo_requested (l.withTail r), movedTo_requested l]
  by_cases h : l.tail = none
  · rw [if_pos h, if_pos h]
    rfl
  · rw [if_neg h, if_neg h]
    rfl

theorem overrun_programme (p : Fin 16) (b : Body) :
    (overrun p b).programme p = { b.programme p with slips := bump (b.programme p).slips } := by
  have moved : ∀ c : Body, c.programme p = b.programme p →
      (pumpReads p (countSlip p c)).programme p = { b.programme p with slips := bump (b.programme p).slips } := fun c h => by
    rw [aside_programme (pumpReads_aside ..)]
    show (c.onProgramme p fun r => { r with slips := bump r.slips }).programme p = _
    rw [Body.onProgramme_eq, Body.programme_setProgramme_same, h]
  have settled := LaneWork.settleTail p b
  unfold overrun
  simp only
  refine moved _ ?_
  split
  · exact ((settled.trans (.makeTail p _)).trans (.moveReader p _ _)).programme p
  · exact ((settled.trans (.moveReader p _ _)).trans (.onLane p (by exact fun _ => rfl))).programme p

/-! ### What the reader leaves of the overload watch -/

def Lane.watch (l : Lane) : List Nat × Bool := (l.overloadRun, l.overloadSeen)

theorem watch_onLane {f : Lane → Lane} (hf : ∀ l, (f l).watch = l.watch) :
    ((b.onLane p f).lane p).watch = (b.lane p).watch := by
  rw [Body.onLane_eq, Body.lane_setLane_same]
  exact hf _

theorem watch_of_seat (h : (c.lane p).seat = (b.lane p).seat) : (c.lane p).watch = (b.lane p).watch :=
  (congrArg Lane.watch h :)

theorem endChange_watch (p : Fin 16) (x : OpOutcome) (b : Body) :
    ((endChange p x b).lane p).watch = (b.lane p).watch := by
  unfold endChange
  split
  · rfl
  · simp only
    split
    · rw [completeTag_lane]
      exact watch_onLane fun _ => rfl
    · exact (watch_onLane (by exact fun _ => rfl)).trans (watch_onLane (by exact fun _ => rfl))
    · exact watch_onLane fun _ => rfl

theorem settleTail_watch (p : Fin 16) (b : Body) : ((settleTail p b).lane p).watch = (b.lane p).watch := by
  have ended : ((b.onLane p fun l => { l with tail := none }).lane p).watch = (b.lane p).watch := watch_onLane fun _ => rfl
  unfold settleTail endTail
  split
  · simp only
    split
    · split
      · split
        · exact (watch_onLane (by exact fun _ => rfl)).trans ended
        · exact (endChange_watch ..).trans ended
      · exact ended
    · exact ended
  · rfl

theorem makeTail_watch (p : Fin 16) (b : Body) : ((makeTail p b).lane p).watch = (b.lane p).watch := by
  refine watch_onLane fun l => ?_
  split <;> rfl

theorem moveReader_watch (p : Fin 16) (d : Count) (b : Body) :
    ((moveReader p d b).lane p).watch = (b.lane p).watch :=
  (congrArg Lane.watch (moveReader_seat p d b) :).trans (congrArg Lane.watch (movedTo_only ..) :)

theorem overrun_watch (p : Fin 16) (b : Body) : ((overrun p b).lane p).watch = (b.lane p).watch := by
  have slipped : ∀ c : Body, ((pumpReads p (countSlip p c)).lane p).watch = (c.lane p).watch := fun c =>
    (congrArg Lane.watch (countSlip_pumped p c) :)
  unfold overrun
  simp only
  rw [slipped]
  split
  · rw [moveReader_watch, makeTail_watch, settleTail_watch]
  · refine (watch_onLane (by exact fun _ => rfl)).trans ?_
    rw [moveReader_watch, settleTail_watch]

/-! ### After a write (R64, R81) -/

section
variable {line : Line} (hl : (b.programme p).line = some line)
include hl

/-- In PRIMING and STARVED the occupancy is held at L - 64 (R64). -/
theorem afterWrite_held (hs : (b.programme p).state = .priming ∨ (b.programme p).state = .starved) :
    afterWrite p b = if line.limit < (b.lane p).occupancy then
      b.setLane p { b.lane p with readSeq := (b.lane p).writeSeq - cnt line.limit } else b := by
  unfold afterWrite
  rw [hl]
  rcases hs with hs | hs <;> (rw [hs]; rfl)

theorem afterWrite_running (hs : (b.programme p).state = .running) :
    afterWrite p b = if line.limit < (b.lane p).occupancy then overrun p b else pumpReads p b := by
  unfold afterWrite
  rw [hl, hs]

variable (hs : (b.programme p).state = .priming ∨ (b.programme p).state = .running ∨ (b.programme p).state = .starved)
include hs

theorem afterWrite_watch : ((afterWrite p b).lane p).watch = (b.lane p).watch := by
  by_cases hr : (b.programme p).state = .running
  · rw [afterWrite_running hl hr]
    split
    · exact overrun_watch p b
    · exact watch_of_seat (pumpReads_seat p p b)
  · rw [afterWrite_held hl (hs.imp_right (·.resolve_left hr))]
    split
    · rw [Body.lane_setLane_same]
      rfl
    · rfl

/-- Of the programme record a write leaves all but the count of slips. -/
theorem afterWrite_programme :
    (afterWrite p b).programme p = { b.programme p with slips := ((afterWrite p b).programme p).slips } := by
  by_cases hr : (b.programme p).state = .running
  · rw [afterWrite_running hl hr]
    split
    · rw [overrun_programme]
    · rw [aside_programme (pumpReads_aside p b)]
  · rw [afterWrite_held hl (hs.imp_right (·.resolve_left hr))]
    split <;> rfl

end

end Sys2Proof.Machine
end

section
/-! What is seen of lane and programme record after a frame edge: the last layer under O17. -/

namespace Sys2Proof.Machine

variable {b c : Body} {s t : State} {p : Fin 16} {q : Fin 8}

/-! ### What is seen of a lane and a programme record after the event -/

/-- A lane without what reads, setpoint and reports change. -/
def Lane.seen (l : Lane) : Lane := { l.seat with sceneDelayOwed := none }

/-- Two lanes that agree in what is seen of them. -/
structure Lane.SeenAs (m n : Lane) : Prop where
  writeSeq     : m.writeSeq = n.writeSeq
  readSeq      : m.readSeq = n.readSeq
  historyStart : m.historyStart = n.historyStart
  acc          : m.acc = n.acc
  ratio        : m.ratio = n.ratio
  change       : m.change = n.change
  fadeIn       : m.fadeIn = n.fadeIn
  tail         : m.tail = n.tail
  marks        : m.marks = n.marks
  overloadRun  : m.overloadRun = n.overloadRun
  overloadSeen : m.overloadSeen = n.overloadSeen
  slipSeen     : m.slipSeen = n.slipSeen
  stickySlip   : m.stickySlip = n.stickySlip

theorem Lane.SeenAs.of_seen {m n : Lane} (h : m.seen = n.seen) : m.SeenAs n where
  writeSeq := (congrArg Lane.writeSeq h :)
  readSeq := (congrArg Lane.readSeq h :)
  historyStart := (congrArg Lane.historyStart h :)
  acc := (congrArg Lane.acc h :)
  ratio := (congrArg Lane.ratio h :)
  change := (congrArg Lane.change h :)
  fadeIn := (congrArg Lane.fadeIn h :)
  tail := (congrArg Lane.tail h :)
  marks := (congrArg Lane.marks h :)
  overloadRun := (congrArg Lane.overloadRun h :)
  overloadSeen := (congrArg Lane.overloadSeen h :)
  slipSeen := (congrArg Lane.slipSeen h :)
  stickySlip := (congrArg Lane.stickySlip h :)

theorem Lane.SeenAs.trans {m n k : Lane} (h : m.SeenAs n) (h' : n.SeenAs k) : m.SeenAs k where
  writeSeq := h.writeSeq.trans h'.writeSeq
  readSeq := h.readSeq.trans h'.readSeq
  historyStart := h.historyStart.trans h'.historyStart
  acc := h.acc.trans h'.acc
  ratio := h.ratio.trans h'.ratio
  change := h.change.trans h'.change
  fadeIn := h.fadeIn.trans h'.fadeIn
  tail := h.tail.trans h'.tail
  marks := h.marks.trans h'.marks
  overloadRun := h.overloadRun.trans h'.overloadRun
  overloadSeen := h.overloadSeen.trans h'.overloadSeen
  slipSeen := h.slipSeen.trans h'.slipSeen
  stickySlip := h.stickySlip.trans h'.stickySlip

theorem seen_of_seat {m n : Lane} (h : m.seat = n.seat) : m.seen = n.seen :=
  congrArg (fun l : Lane => { l with sceneDelayOwed := none }) h

/-- What a record keeps of its counts where it is known but for its state. -/
theorem counts_of_stateless {x y : Programme} (h : x.stateless = y.stateless) :
    x.slips = y.slips ∧ x.writeDrops = y.writeDrops ∧ x.overloads = y.overloads :=
  ⟨(congrArg Programme.slips h :), (congrArg Programme.writeDrops h :), (congrArg Programme.overloads h :)⟩

theorem Becomes.stateless (h : Becomes s c t) (o : Fin 16) :
    (t.body.programme o).stateless = (c.programme o).stateless := (congrArg Programme.stateless (h.programme o) :)

theorem Becomes.seen (h : Becomes s c t) (o : Fin 16) : (t.body.lane o).seen = (c.lane o).seen :=
  (congrArg Lane.seen (h.lane o) :)

/-- The Q that a mark loads once the edge has made the port SYNCED: a tracker that had lost presence starts over, and lends
none (R42, R98). -/
theorem markQ_edged (b : Body) (q : Fin 8) (k : SpliceMark) :
    markQ (b.setPort q (b.port q).edged) k =
      ((if k.port = q ∧ (b.port q).presence ≠ .synced then none else lockedQ b k.port).or k.q).getD
        (8 * nominalSpan (b.port k.port).cls) := by
  have cls : ((b.setPort q (b.port q).edged).port k.port).cls = (b.port k.port).cls := by
    rw [Body.port_setPort]
    split
    · rename_i e
      subst e
      rfl
    · rfl
  have locked : lockedQ (b.setPort q (b.port q).edged) k.port =
      if k.port = q ∧ (b.port q).presence ≠ .synced then none else lockedQ b k.port := by
    unfold lockedQ isLocked
    rw [Body.port_setPort]
    by_cases e : q = k.port
    · subst e
      by_cases hp : (b.port k.port).presence = .synced
      · have same : (b.port k.port).edged.tracker = (b.port k.port).tracker := if_pos hp
        rw [if_pos rfl, same, if_neg (show ¬ (k.port = k.port ∧ _ ≠ _) from fun h => h.2 hp)]
      · have start : (b.port k.port).edged.tracker.state = .acquiring := by
          simp only [Port.edged, if_neg hp, Tracker.presenceReturns]
          split <;> rfl
        rw [if_pos rfl, if_pos (show k.port = k.port ∧ _ ≠ _ from ⟨rfl, hp⟩), start]
        rfl
    · rw [if_neg e, if_neg (show ¬ (k.port = q ∧ _ ≠ _) from fun h => e h.1.symm)]
  rw [markQ_eq, locked, cls]

/-! ### The frame written -/

section
variable {x : List Sample} {line : Line} (hl : (b.programme p).line = some line)
include hl

theorem frameEntered_state : ((b.frameEntered p x line).programme p).state = (b.programme p).state ∧
    ((b.frameEntered p x line).programme p).line = some line := by
  rw [frameEntered_programme]
  exact ⟨rfl, hl⟩

variable (hst : (b.programme p).state = .priming ∨ (b.programme p).state = .running ∨ (b.programme p).state = .starved)
include hst

/-- What a frame written makes of the write side, whatever the reader does then (R52, R65). -/
theorem frameWritten_watch :
    ((afterWrite p (b.frameEntered p x line)).lane p).writeSeq = (b.lane p).writeSeq + 1 ∧
      ((afterWrite p (b.frameEntered p x line)).lane p).overloadRun = overloadRuns (b.lane p).overloadRun x ∧
      ((afterWrite p (b.frameEntered p x line)).lane p).overloadSeen =
        ((b.lane p).overloadSeen || overloadEvents (b.lane p).overloadRun x != 0) ∧
      ((afterWrite p (b.frameEntered p x line)).programme p).overloads =
        min 65535 ((b.programme p).overloads + overloadEvents (b.lane p).overloadRun x) ∧
      ((afterWrite p (b.frameEntered p x line)).programme p).state = (b.programme p).state := by
  obtain ⟨hs, hl'⟩ := frameEntered_state (x := x) hl
  obtain ⟨rr, entered⟩ := frameEntered_lane b p x line
  have hst' := hs.symm ▸ hst
  have watch := afterWrite_watch hl' hst'
  have side := writeSide_lane (afterWrite_writeSide p (b.frameEntered p x line)) p
  have record := afterWrite_programme hl' hst'
  rw [entered] at watch side
  rw [frameEntered_programme] at record
  exact ⟨congrArg (fun y => y.2.1) side, congrArg Prod.fst watch, congrArg Prod.snd watch,
    (congrArg Programme.overloads record :), (congrArg Programme.state record :)⟩

/-- Outside RUNNING the occupancy is held at L - 64, and no slip is counted (R64). -/
theorem frameWritten_held (hr : (b.programme p).state ≠ .running) :
    ((afterWrite p (b.frameEntered p x line)).programme p).slips = (b.programme p).slips ∧
      ∃ rr, (afterWrite p (b.frameEntered p x line)).lane p = { (b.lane p).written x with
        readRequest := rr
        readSeq := if line.limit < ((b.lane p).writeSeq + 1 - (b.lane p).readSeq).toNat
          then (b.lane p).writeSeq + 1 - cnt line.limit else (b.lane p).readSeq } := by
  obtain ⟨hs, hl'⟩ := frameEntered_state (x := x) hl
  obtain ⟨rr, entered⟩ := frameEntered_lane b p x line
  have occupancy : ((b.frameEntered p x line).lane p).occupancy =
      ((b.lane p).writeSeq + 1 - (b.lane p).readSeq).toNat := by rw [entered]; rfl
  have slips : ((b.frameEntered p x line).programme p).slips = (b.programme p).slips := by rw [frameEntered_programme]
  rw [afterWrite_held hl' (hs.symm ▸ hst.imp_right (·.resolve_left hr)), occupancy]
  refine ⟨?_, rr, ?_⟩
  · split
    · exact slips
    · exact slips
  · split
    · rw [Body.lane_setLane_same, entered]
      rfl
    · exact entered

omit hst in
/-- In RUNNING, with no overrun, the reader stands where it stood (R81). -/
theorem frameWritten_running (hr : (b.programme p).state = .running)
    (hb : ¬ line.limit < ((b.lane p).writeSeq + 1 - (b.lane p).readSeq).toNat) :
    ((afterWrite p (b.frameEntered p x line)).programme p).slips = (b.programme p).slips ∧
      ((afterWrite p (b.frameEntered p x line)).lane p).seat = ((b.lane p).written x).seat := by
  obtain ⟨hs, hl'⟩ := frameEntered_state (x := x) hl
  obtain ⟨rr, entered⟩ := frameEntered_lane b p x line
  have occupancy : ((b.frameEntered p x line).lane p).occupancy =
      ((b.lane p).writeSeq + 1 - (b.lane p).readSeq).toNat := by rw [entered]; rfl
  rw [afterWrite_running hl' (hs.trans hr), occupancy, if_neg hb]
  constructor
  · rw [aside_programme (pumpReads_aside ..), frameEntered_programme]
  · rw [pumpReads_seat, entered]
    rfl

omit hst in
/-- In RUNNING, an overrun: a slip, and the reader a setpoint behind the writer (R81). -/
theorem frameWritten_overrun {n : Nat} {r : RatioRecord} (hr : (b.programme p).state = .running)
    (hb : line.limit < ((b.lane p).writeSeq + 1 - (b.lane p).readSeq).toNat) (hsp : (b.lane p).setpoint = some n)
    (hratio : (b.lane p).ratio = some r) (hg : (b.lane p).tail.all (fun y => y.remaining ≠ 0) = true) :
    ((afterWrite p (b.frameEntered p x line)).programme p).slips = min 65535 ((b.programme p).slips + 1) ∧
      ((afterWrite p (b.frameEntered p x line)).lane p).seat =
        (((b.lane p).written x).overrunTo ((b.lane p).writeSeq + 1 - cnt n) r (markQ b)).seat := by
  obtain ⟨hs, hl'⟩ := frameEntered_state (x := x) hl
  obtain ⟨rr, entered⟩ := frameEntered_lane b p x line
  have occupancy : ((b.frameEntered p x line).lane p).occupancy =
      ((b.lane p).writeSeq + 1 - (b.lane p).readSeq).toNat := by rw [entered]; rfl
  have loaded : markQ (b.frameEntered p x line) = markQ b :=
    funext (markQ_of_ports (fixed_ports (frameEntered_fixed b p x line)))
  have hsp' : ((b.frameEntered p x line).lane p).setpoint = some n := by rw [entered]; exact hsp
  rw [afterWrite_running hl' (hs.trans hr), occupancy, if_pos hb]
  constructor
  · rw [overrun_programme, frameEntered_programme]
    rfl
  · rw [overrun_seat hsp' (by rw [entered]; exact hratio) (by rw [entered]; exact hg), loaded, entered]
    exact overrunTo_requested ((b.lane p).written x) rr _ r (markQ b)

end

/-! ### The lane after an overrun, field by field -/

section
variable {l : Lane} {d : Count} {r : RatioRecord} {f : SpliceMark → Nat}

theorem overrunTo_moved : (l.overrunTo d r f).readSeq = d ∧ (l.overrunTo d r f).marks = l.marks.drop (l.passed d).length ∧
    (l.overrunTo d r f).change = l.change ∧ (l.overrunTo d r f).slipSeen = true ∧ (l.overrunTo d r f).stickySlip = true := by
  unfold Lane.overrunTo
  split
  · rw [movedTo_only]
    exact ⟨rfl, rfl, rfl, rfl, rfl⟩
  · rw [movedTo_only]
    exact ⟨rfl, rfl, rfl, rfl, rfl⟩

theorem overrunTo_leaves_tail (h : l.tail = none) :
    (l.overrunTo d r f).fadeIn = l.fadeIn ∧ (l.overrunTo d r f).tail = (l.withTail r).tail := by
  unfold Lane.overrunTo
  rw [if_pos h, movedTo_only]
  exact ⟨rfl, rfl⟩

theorem overrunTo_keeps_tail (h : l.tail ≠ none) :
    (l.overrunTo d r f).tail = l.tail ∧ (l.overrunTo d r f).fadeIn = if l.passed d = [] then l.fadeIn else 64 := by
  unfold Lane.overrunTo
  rw [if_neg h, movedTo_only]
  exact ⟨rfl, rfl⟩

theorem overrunTo_unmarked (h : l.passed d = []) :
    (l.overrunTo d r f).ratio = l.ratio ∧ (l.overrunTo d r f).acc = l.acc := by
  unfold Lane.overrunTo
  split
  · exact movedTo_unmarked (l := l.withTail r) h
  · exact movedTo_unmarked h

theorem overrunTo_marked {m : SpliceMark} (h : (l.passed d).getLast? = some m) :
    (l.overrunTo d r f).ratio = some { port := m.port, q := f m } ∧ (l.overrunTo d r f).acc = f m / 2 ∧
      (l.overrunTo d r f).historyStart = m.seq := by
  unfold Lane.overrunTo
  split
  · exact movedTo_marked (l := l.withTail r) h
  · exact movedTo_marked h

end

/-! ### The event -/

/-- An edge can arrive at the port (R34), and the programme alone takes its frames (R63). -/
structure FrameArrives (s : State) (q : Fin 8) (p : Fin 16) (src : Source) (line : Line) (st : Settings) : Prop where
  clock   : (s.body.port q).clockPresent = true
  sync    : (s.body.port q).syncSeen = true
  bits    : (s.body.port q).bitCount ≠ 257
  carries : (s.body.programme p).state = .priming ∨ (s.body.programme p).state = .running ∨
    (s.body.programme p).state = .starved
  source  : (s.body.lane p).source = some src
  port    : src.port = q
  line    : (s.body.programme p).line = some line
  active  : (s.body.programme p).active = some st
  alone   : ∀ o : Fin 16, o ≠ p → takesFrom s.body o q = false

/-- The blocks as the sync leaves them before the frame is delivered. -/
def Body.synced (b : Body) (q : Fin 8) : Body := b.setPort q (b.port q).edged

section
variable {elapsed : Nat} {src : Source} {line : Line} {st : Settings} (slots : Vector Sample 8)
  (h : FrameArrives s q p src line st)
include h

/-- Write side, counts and lane after the event are those after the frame is handed over, where the programme is found in the
state it had then. -/
theorem FrameArrives.handed :
    ∃ t, exec (.portFrameEdge q elapsed slots) s = .next t ∧ Keeps s t ∧
      ∀ e, handOver p ((slots.toList.drop src.slot.val).take (channelsOf st.layout)) (s.body.synced q) = e →
        (t.body.lane p).writeSide = (e.lane p).writeSide ∧ (t.body.programme p).stateless = (e.programme p).stateless ∧
        t.body.banks = e.banks ∧
        ((t.body.programme p).state = (e.programme p).state → (t.body.lane p).SeenAs (e.lane p)) := by
  obtain ⟨t, c, ht, hbec, work⟩ := portFrameEdge_one (elapsed := elapsed) slots h.clock h.sync h.bits h.carries h.source
    h.port h.active h.alone
  refine ⟨t, ht, hbec.1, ?_⟩
  rintro e rfl
  exact ⟨(hbec.lane_writeSide p).trans (work.lane p), (hbec.stateless p).trans (work.record p),
    hbec.banks.trans work.banks, fun hs => .of_seen ((hbec.seen p).trans
      (seen_of_seat (work.seat_of_state ((hbec.programme_state p).symm.trans hs))))⟩

end

end Sys2Proof.Machine
end

section
/-! O17: PORT_FRAME_EDGE. -/

namespace Sys2Proof.Machine

/-- The tracker after an edge, by the presence and state it had (R38 to R43). -/
theorem edged_tracker_lost {x : Port} (h : x.presence ≠ .synced) : x.edged.tracker = x.tracker.presenceReturns := if_neg h

theorem edged_tracker_synced {x : Port} (h : x.presence = .synced) : x.edged.tracker = x.tracker := if_pos h

section
variable {m l : Lane} {x : List Sample}

/-- The channel runs of the lane, and how many of them this frame brings to 3 (R65). -/
theorem overloads_counted (h8 : l.overloadRun.length = 8) :
    overloadEvents l.overloadRun x =
      ((List.range 8).filter fun i => l.overloadRun.getD i 0 < 3 ∧ overloadAt l.overloadRun x i = 3).length := by
  rw [overloadEvents_eq, h8]

theorem bne_zero_eq (n : Nat) : (n != 0) = decide (n ≠ 0) := by
  rw [Bool.eq_iff_iff, bne_iff_ne, decide_eq_true_iff]

/-- Nothing of the reader but its place is seen to change where no overrun comes (R64, R81). -/
theorem written_reader (h : m.SeenAs (l.written x)) :
    m.readSeq = l.readSeq ∧ m.marks = l.marks ∧ m.tail = l.tail ∧ m.ratio = l.ratio ∧ m.acc = l.acc ∧ m.fadeIn = l.fadeIn :=
  ⟨h.readSeq, h.marks, h.tail, h.ratio, h.acc, h.fadeIn⟩

/-- The lane after an overrun (R77, R81, R99). -/
theorem overrun_reader {dest : Count} {r : RatioRecord} {loaded : SpliceMark → Nat} {gone : List SpliceMark}
    (h : m.SeenAs ((l.written x).overrunTo dest r loaded)) (hgone : l.passed dest = gone) :
    m.readSeq = dest ∧ m.change = l.change ∧ m.marks = l.marks.drop gone.length ∧
      (l.tail = none → m.fadeIn = l.fadeIn ∧ ∃ start : Count, m.tail =
        some { readSeq := l.readSeq, acc := l.acc, q := r.q, remaining := 64
               stop := l.marks.head?.map SpliceMark.seq, historyStart := start }) ∧
      (l.tail ≠ none → m.tail = l.tail ∧ m.fadeIn = if gone = [] then l.fadeIn else 64) ∧
      (gone = [] → m.ratio = l.ratio ∧ m.acc = l.acc) ∧
      ∀ k : SpliceMark, gone.getLast? = some k →
        m.ratio = some { port := k.port, q := loaded k } ∧ m.acc = loaded k / 2 ∧ m.historyStart = k.seq := by
  have passed : (l.written x).passed dest = gone := hgone
  obtain ⟨m1, m2, m3, -, -⟩ := overrunTo_moved (l := l.written x) (d := dest) (r := r) (f := loaded)
  rw [passed] at m2
  refine ⟨h.readSeq.trans m1, h.change.trans m3, h.marks.trans m2, fun ht => ?_, fun ht => ?_, fun hg => ?_, fun k hk => ?_⟩
  · obtain ⟨n1, n2⟩ := overrunTo_leaves_tail (l := l.written x) (d := dest) (r := r) (f := loaded) ht
    exact ⟨h.fadeIn.trans n1, _, h.tail.trans n2⟩
  · obtain ⟨n1, n2⟩ := overrunTo_keeps_tail (l := l.written x) (d := dest) (r := r) (f := loaded) ht
    rw [passed] at n2
    exact ⟨h.tail.trans n1, h.fadeIn.trans n2⟩
  · obtain ⟨n1, n2⟩ := overrunTo_unmarked (r := r) (f := loaded) (passed.trans hg)
    exact ⟨h.ratio.trans n1, h.acc.trans n2⟩
  · obtain ⟨n1, n2, n3⟩ := overrunTo_marked (r := r) (f := loaded) ((congrArg List.getLast? passed).trans hk)
    exact ⟨h.ratio.trans n1, h.acc.trans n2, h.historyStart.trans n3⟩

end

/-- Settles O17: the tracker by the lemmas on `frameEdge` and `closeWindow`, the frame by those on `handOver`, the lane by those
on a frame written. -/
theorem portFrameEdge : Obligations.PortFrameEdge := by
  refine ⟨?_, ?_, ?_⟩
  · intro s q elapsed slots x u tick nominal after hc hs hb
    have edge : ∀ v, x.edged.tracker.frameEdge nominal tick = v → after v := by
      rintro v rfl
      exact portFrameEdge_port slots hc hs hb
    refine ⟨fun hp hu => edge _ ?_, fun hp hu => edge _ ?_, fun hp hu => edge _ ?_, fun hp hu =>
      ⟨fun h0 => edge _ ?_, fun h0 hn => edge _ ?_, fun last hlast hn => ?_⟩⟩
    · rw [edged_tracker_lost hp, presenceReturns_absent hu]
    · rw [edged_tracker_lost hp, presenceReturns_known hu]
    · rw [edged_tracker_synced hp, frameEdge_idle hu]
    · rw [edged_tracker_synced hp, frameEdge_first hu h0]
    · rw [edged_tracker_synced hp, frameEdge_counts hu h0 hn]
    · intro kept d outOfRange jumps stamped
      have closes : x.edged.tracker.frameEdge nominal tick =
          ({ u with stamps := kept, frameCount := 0 } : Tracker).closeWindow nominal d := by
        rw [edged_tracker_synced hp, frameEdge_closes hu hlast hn]
        rfl
      refine ⟨fun hr hj => ⟨fun h9 => edge _ ?_, fun oldest h9 ho => edge _ ?_⟩, fun hr hj => edge _ ?_,
        fun hj hrun held hh => edge _ ?_, fun hj hrun => edge _ ?_⟩
      · exact closes.trans (closeWindow_good hr hj h9)
      · exact closes.trans (closeWindow_locks hr hj h9 ho List.getLast?_concat)
      · exact closes.trans (closeWindow_range hr hj)
      · exact closes.trans (closeWindow_jump hj hrun hh)
      · exact closes.trans (closeWindow_third hj hrun)
  · intro s q elapsed slots p src line st hc hs hb hst hsrc hq hl ha ho samples k
    obtain ⟨t, ht, keeps, handed⟩ := FrameArrives.handed (elapsed := elapsed) slots ⟨hc, hs, hb, hst, hsrc, hq, hl, ha, ho⟩
    obtain ⟨side, record, banks, -⟩ := handed _ rfl
    obtain ⟨slips, drops, -⟩ := counts_of_stateless record
    have writeSeq : (t.body.lane p).writeSeq = _ := congrArg (fun y => y.2.1) side
    have holding : (t.body.lane p).holding = _ := congrArg (fun y => y.2.2) side
    have bank : t.body.bank line.bank = _ := congrArg (fun v : Vector Bank 4 => v[line.bank]) banks
    refine ⟨t, ht, keeps, fun h => ?_, fun h => ?_⟩
    · obtain ⟨h1, h2, h3⟩ := handOver_writes (b := s.body.synced q) (x := samples) hl h
      exact ⟨writeSeq.trans h1, holding.trans h2, (congrArg Bank.queue bank).trans h3⟩
    · obtain ⟨h1, h2, h3, h4, h5, h6⟩ := handOver_holds (b := s.body.synced q) (x := samples) hl h
      exact ⟨writeSeq.trans h1, holding.trans h2, (congrArg Bank.queue bank).trans h3, (congrArg Bank.waiting bank).trans h4,
        drops.trans h5, slips.trans h6⟩
  · intro s q elapsed slots p src line st hc hs hb hst hsrc hq hl ha ho hplace h8 l r samples run next events most written
      beyond
    obtain ⟨t, ht, -, handed⟩ := FrameArrives.handed (elapsed := elapsed) slots ⟨hc, hs, hb, hst, hsrc, hq, hl, ha, ho⟩
    obtain ⟨-, record, -, lane⟩ := handed _ (handOver_enters (b := s.body.synced q) (x := samples) hl hplace)
    obtain ⟨slips, -, overloads⟩ := counts_of_stateless record
    obtain ⟨w1, w2, w3, w4, w5⟩ := frameWritten_watch (b := s.body.synced q) (x := samples) hl hst
    have counted : overloadEvents l.overloadRun samples = events := overloads_counted h8
    refine ⟨t, ht, ?_⟩
    intro m slipped state
    have seen := lane (state.trans w5.symm)
    refine ⟨seen.writeSeq.trans w1, fun i hi => ?_, overloads.trans (w4.trans ?_), seen.overloadSeen.trans (w3.trans ?_),
      fun hr => ?_, fun hr hbe => ?_, fun n x hr hbe hsp hratio hg hfwd => ?_⟩
    · rw [seen.overloadRun, w2]
      exact overloadRuns_getElem? _ _ (h8.symm ▸ hi)
    · rw [← counted]
      rfl
    · rw [← counted, ← bne_zero_eq]
      rfl
    · obtain ⟨k1, rr, k2⟩ := frameWritten_held (b := s.body.synced q) (x := samples) hl hst hr
      rw [k2] at seen
      exact ⟨fun hmax => ⟨(slips.trans k1).trans (min_eq_right hmax).symm, seen.slipSeen.trans (Bool.or_false _).symm,
        seen.stickySlip.trans (Bool.or_false _).symm⟩, seen.marks, fun hbe => seen.readSeq.trans (if_pos hbe),
        fun hbe => seen.readSeq.trans (if_neg hbe)⟩
    · obtain ⟨k1, k2⟩ := frameWritten_running (b := s.body.synced q) (x := samples) hl hr hbe
      have seen : m.SeenAs (l.written samples) := seen.trans (.of_seen (seen_of_seat k2))
      exact ⟨fun hmax => ⟨(slips.trans k1).trans (min_eq_right hmax).symm, seen.slipSeen.trans (Bool.or_false _).symm,
        seen.stickySlip.trans (Bool.or_false _).symm⟩, written_reader seen⟩
    · intro dest gone
      obtain ⟨k1, k2⟩ := frameWritten_overrun (b := s.body.synced q) (x := samples) hl hr hbe hsp hratio hg
      have seen : m.SeenAs ((l.written samples).overrunTo dest x (markQ (s.body.synced q))) :=
        seen.trans (.of_seen (seen_of_seat k2))
      obtain ⟨-, -, -, m4, m5⟩ := overrunTo_moved (l := l.written samples) (d := dest) (r := x)
        (f := markQ (s.body.synced q))
      obtain ⟨n1, n2, n3, n4, n5, n6, n7⟩ := overrun_reader seen (show l.passed dest = gone from if_pos hfwd)
      refine ⟨⟨slips.trans k1, (seen.slipSeen.trans m4).trans (Bool.or_true _).symm,
        (seen.stickySlip.trans m5).trans (Bool.or_true _).symm⟩, n1, n2, n3, n4, n5, n6, fun k hk => ?_⟩
      have loaded := n7 k hk
      rw [show markQ (s.body.synced q) k = _ from markQ_edged s.body q k] at loaded
      exact loaded

end Sys2Proof.Machine
end

section
/-! What every step keeps holds at reset (O56), and every command completes where the granted accesses lie in their banks
(O55). -/

namespace Sys2Proof.Machine

variable {s : State}

/-- No contact closes where no entry drives one. -/
theorem contactCloses_unmasked {entries : List Entry} (h : ∀ e ∈ entries, e.contactMask = 0) (k : Fin 8) (m : ContactMode) :
    contactCloses entries k m = false := by
  cases m with
  | steady => exact List.any_eq_false.2 fun e he => by simp [h e he]
  | unacked => exact List.any_eq_false.2 fun e he => by simp [h e he]

theorem contactsRight_reset : contactsRight State.reset.body := by
  intro k
  have unmasked : ∀ e ∈ State.reset.body.entries.toList, e.contactMask = 0 := by
    intro e he
    obtain ⟨i, hi, rfl⟩ := Vector.mem_iff_getElem.1 (Vector.mem_toList_iff.1 he)
    rw [show State.reset.body.entries[i] = {} from reset_entry ⟨i, hi⟩]
  rw [contactCloses_unmasked unmasked, show State.reset.body.contacts[k] = {} from reset_contact k]

/-- An empty histogram agrees with its admitted count. -/
theorem Meter.countsAgree_empty : ({} : Meter).countsAgree = true := by
  have sum : (List.replicate 750 0).sum = 0 := List.sum_replicate_nat.trans (Nat.mul_zero _)
  simp only [Meter.countsAgree, List.length_replicate, sum, List.all_nil, beq_self_eq_true, Nat.zero_le, decide_true,
    Bool.and_self]

theorem nothingWaits_reset : State.reset.nothingWaits := by
  refine ⟨.inl rfl, rfl, rfl, fun e he => ?_, fun p => ?_, rfl, fun p => ?_, fun p => ?_, rfl, rfl, rfl⟩
  · rw [reset_entry] at he
    cases he
  · rw [reset_programme]
  · rw [reset_lane]
  · rw [reset_meter]

/-- Settles O56: every block of the reset machine is its record's initial value. -/
theorem resetHoldsInvariants : Obligations.ResetHoldsInvariants := by
  unfold Obligations.ResetHoldsInvariants
  obtain ⟨atReset, inBanks, -⟩ := accessesInBanksKept
  refine ⟨(sound_iff _).2 ⟨by decide, by decide, by decide⟩, fun _ => nothingWaits_reset, contactsRight_reset, fun p => ?_,
    inBanks _ atReset⟩
  rw [reset_meter]
  exact Meter.countsAgree_empty

/-- Every command but the completions of accesses answers a next state on every state; these do where the access granted on
their bank lies in it. -/
theorem exec_completes (hs : ∀ k a, (s.body.bank k).access = some a → a.inBank = true) (i : Instr) :
    ∃ t, exec i s = .next t := by
  cases i
  case drainComplete k =>
    cases ha : (s.body.bank k).access with
    | none => exact ⟨s, by simp only [exec, execDrainComplete, ha]⟩
    | some a =>
      cases a with
      | drain p w x live => exact ⟨_, exec_drainComplete ha ((inBank_iff _ _).1 (hs k _ ha))⟩
      | read p q w n live => exact ⟨s, by simp only [exec, execDrainComplete, ha]⟩
      | fill p w live => exact ⟨s, by simp only [exec, execDrainComplete, ha]⟩
  case readComplete k damage =>
    cases ha : (s.body.bank k).access with
    | none => exact ⟨s, by simp only [exec, execReadComplete, ha]⟩
    | some a =>
      cases a with
      | drain p w x live => exact ⟨s, by simp only [exec, execReadComplete, ha]⟩
      | read p q w n live => exact ⟨_, exec_readComplete ha ((inBank_iff _ _).1 (hs k _ ha)) damage⟩
      | fill p w live => exact ⟨s, by simp only [exec, execReadComplete, ha]⟩
  case zeroFillAccessComplete k =>
    cases ha : (s.body.bank k).access with
    | none => exact ⟨s, by simp only [exec, execZeroFillAccessComplete, ha]⟩
    | some a =>
      cases a with
      | drain p w x live => exact ⟨s, by simp only [exec, execZeroFillAccessComplete, ha]⟩
      | read p q w n live => exact ⟨s, by simp only [exec, execZeroFillAccessComplete, ha]⟩
      | fill p w live => exact ⟨_, exec_zeroFillAccessComplete ha ((inBank_iff _ _).1 (hs k _ ha))⟩
  all_goals exact ⟨_, rfl⟩

/-- Settles O55: the command at the front of the queue completes, and an empty queue idles. -/
theorem everyStepCompletes : Obligations.EveryStepCompletes := by
  unfold Obligations.EveryStepCompletes Completes
  intro s hs
  have inBanks := (accessesInBanks_iff s).1 hs
  unfold step
  cases hp : s.pending with
  | nil => exact ⟨s, rfl⟩
  | cons i rest => exact exec_completes (s := { s with pending := rest }) inBanks i

end Sys2Proof.Machine
end

section
/-! The sample word (O21). -/

namespace Sys2Proof.Machine

/-- A fold of exclusive ors tells whether the number of ones is odd. -/
theorem foldl_bne_eq (f : Nat → Bool) (l : List Nat) (a : Bool) :
    l.foldl (fun acc i => acc != f i) a = (a != decide ((l.filter f).length % 2 = 1)) := by
  induction l generalizing a with
  | nil => simp
  | cons i l ih =>
    rw [List.foldl_cons, ih]
    cases hf : f i with
    | false => simp [hf]
    | true =>
      rcases Nat.mod_two_eq_zero_or_one (l.filter f).length with h | h <;> simp [hf, h, Nat.add_mod]

/-- Even parity: the parity bit and the ones it covers make an even number. -/
theorem parity_even_iff (v : BitVec 12) (x : Bool) :
    x = oddOnes v ↔ (((List.range 12).filter fun i => v.getLsbD i).length + x.toNat) % 2 = 0 := by
  unfold oddOnes
  rw [foldl_bne_eq (fun i => v.getLsbD i)]
  generalize ((List.range 12).filter fun i => v.getLsbD i).length = n
  cases x with
  | false => simp
  | true => simp; omega

/-- The ones among twelve bits of a word, counted in the word or in those twelve bits. -/
theorem filter_ones_extract {w : Nat} (x : BitVec w) (n : Nat) :
    ((List.range 12).filter fun i => (x.extractLsb' n 12).getLsbD i) = (List.range 12).filter fun i => x.getLsbD (n + i) := by
  refine List.filter_congr fun i hi => ?_
  simp [List.mem_range.1 hi]

theorem getLsbD_sampleWord (x : Sample) (i : Nat) :
    (sampleWord x).getLsbD i =
      if i < 6 then (32#6).getLsbD i
      else if i < 7 then oddOnes (x.extractLsb' 0 12)
      else if i < 8 then oddOnes (x.extractLsb' 12 12)
      else x.getLsbD (i - 8) := by
  unfold sampleWord
  simp only [BitVec.getLsbD_append, BitVec.getLsbD_ofBool]
  by_cases h6 : i < 6
  · simp [h6]
  · by_cases h7 : i < 7
    · obtain rfl : i = 6 := by omega
      simp
    · by_cases h8 : i < 8
      · obtain rfl : i = 7 := by omega
        simp
      · simp [h6, h7, h8, show ¬ i - 6 < 1 by omega, show ¬ i - 6 - 1 < 1 by omega, show i - 6 - 1 - 1 = i - 8 by omega]

theorem wordSample_sampleWord (x : Sample) : wordSample (sampleWord x) = x := by
  refine BitVec.eq_of_getLsbD_eq fun i hi => ?_
  unfold wordSample
  rw [BitVec.getLsbD_extractLsb', getLsbD_sampleWord, if_neg (by omega), if_neg (by omega), if_neg (by omega)]
  simp [hi]

theorem extract_marks_sampleWord (x : Sample) : (sampleWord x).extractLsb' 0 6 = 0x20#6 := by
  refine BitVec.eq_of_getLsbD_eq fun i hi => ?_
  rw [BitVec.getLsbD_extractLsb', getLsbD_sampleWord]
  simp [hi]

/-- The check of R57, as a conjunction. -/
theorem wordPasses_iff (w : Word) :
    wordPasses w = true ↔ w.getLsbD 7 = oddOnes ((wordSample w).extractLsb' 12 12) ∧
      w.getLsbD 6 = oddOnes ((wordSample w).extractLsb' 0 12) ∧ w.getLsbD 5 = true := by
  unfold wordPasses
  simp [and_assoc]

theorem wordPasses_sampleWord (x : Sample) : wordPasses (sampleWord x) = true := by
  rw [wordPasses_iff, wordSample_sampleWord, getLsbD_sampleWord, getLsbD_sampleWord, getLsbD_sampleWord]
  exact ⟨rfl, rfl, rfl⟩

/-- The sample's bits stand in the word from bit 8. -/
theorem getLsbD_wordSample (w : Word) {i : Nat} (h : i < 24) : (wordSample w).getLsbD i = w.getLsbD (8 + i) := by
  unfold wordSample
  rw [BitVec.getLsbD_extractLsb', decide_eq_true h, Bool.true_and]

/-- Settles O21: bit by bit, with a parity bit set exactly where the ones it covers are odd in number. -/
theorem sampleWordLayout : Obligations.SampleWordLayout := by
  unfold Obligations.SampleWordLayout
  refine ⟨fun x => ?_, fun w => ?_, by decide⟩
  · intro ones
    have even (n : Nat) (b : Bool) (h : b = oddOnes (x.extractLsb' n 12)) : (ones n + b.toNat) % 2 = 0 := by
      have := (parity_even_iff _ _).1 h
      rwa [filter_ones_extract] at this
    refine ⟨wordSample_sampleWord x, even 12 _ ?_, even 0 _ ?_, extract_marks_sampleWord x, wordPasses_sampleWord x,
      wordSample_sampleWord x⟩
    · rw [getLsbD_sampleWord]; rfl
    · rw [getLsbD_sampleWord]; rfl
  · intro ones
    have even (n : Nat) (hn : n + 12 ≤ 24) (b : Bool) :
        b = oddOnes ((wordSample w).extractLsb' n 12) ↔ (ones n + b.toNat) % 2 = 0 := by
      rw [parity_even_iff, filter_ones_extract]
      have : ((List.range 12).filter fun i => (wordSample w).getLsbD (n + i)) =
          (List.range 12).filter fun i => w.getLsbD (8 + n + i) := by
        refine List.filter_congr fun i hi => ?_
        rw [getLsbD_wordSample w (by have := List.mem_range.1 hi; omega), Nat.add_assoc]
      rw [this]
    rw [wordPasses_iff, even 12 (by decide), even 0 (by decide)]

end Sys2Proof.Machine
end

section
/-! The completion of a read (O20). -/

namespace Sys2Proof.Machine

variable {b : Body} {p : Fin 16} {l : Lane} {q : Count} {f : HeldFrame}

/-- With no bits gone wrong, the words are those written. -/
theorem damaged_nil (ws : List Word) : damaged ws [] = ws := by cases ws <;> rfl

/-! ### What stands in a window -/

theorem held_append (h : l.held f.seq = none) : ({ l with window := l.window ++ [f] } : Lane).held f.seq = some f := by
  unfold Lane.held at h ⊢
  rw [List.find?_append, h, Option.none_or]
  exact List.find?_cons_of_pos (decide_eq_true rfl)

/-- The pruning of a window leaves every frame it wants. -/
theorem held_prune (h : ∃ x ∈ l.wanted, x.1 = q) : l.prune.held q = l.held q := by
  obtain ⟨x, hx, rfl⟩ := h
  unfold Lane.held Lane.prune
  rw [List.find?_filter]
  congr 1
  funext g
  by_cases hg : g.seq = x.1
  · have : (l.wanted.any fun w => w.1 = g.seq) = true := List.any_eq_true.2 ⟨x, hx, by simp [hg]⟩
    simp [this]
  · simp [hg]

theorem held_of_prefix {m : Lane} (hw : l.window <+: m.window) (h : l.held q = some f) : m.held q = some f := by
  obtain ⟨fs, hfs⟩ := hw
  unfold Lane.held at h ⊢
  rw [← hfs, List.find?_append, h, Option.some_or]

theorem grantBank_window (k : Fin 4) (b : Body) (o : Fin 16) : ((grantBank k b).lane o).window = (b.lane o).window :=
  (congrArg Lane.window (grantBank_lane k b o) :)

/-- Reads opened add frames at the end of the window. -/
theorem openReads_window (p o : Fin 16) (n : Nat) (b : Body) :
    (b.lane o).window <+: ((openReads p n b).lane o).window := by
  induction n generalizing b with
  | zero => exact List.prefix_refl _
  | succ n ih =>
    have onLane (f : Lane → Lane) (hf : (b.lane p).window <+: (f (b.lane p)).window) :
        (b.lane o).window <+: ((b.onLane p f).lane o).window := by
      rw [Body.onLane_eq, Body.lane_setLane]
      split
      · rename_i e
        exact e ▸ hf
      · exact List.prefix_refl _
    unfold openReads
    simp only
    split
    · split
      · exact (onLane _ (List.prefix_append _ _)).trans (ih _)
      · rw [grantBank_window]
        exact onLane _ (List.prefix_refl _)
    · exact List.prefix_refl _

/-- The pumping of reads leaves every frame in the window that it wants. -/
theorem pumpReads_held (hw : ∃ x ∈ (b.lane p).wanted, x.1 = q) (h : (b.lane p).held q = some f) :
    ((pumpReads p b).lane p).held q = some f := by
  have pruned : ((b.onLane p Lane.prune).lane p).held q = some f := by
    rw [Body.onLane_eq, Body.lane_setLane_same, held_prune hw, h]
  unfold pumpReads
  simp only
  split
  · exact held_of_prefix (openReads_window p p 10 _) pruned
  · exact pruned

theorem grantBank_held (k : Fin 4) (b : Body) (o : Fin 16) (q : Count) :
    ((grantBank k b).lane o).held q = (b.lane o).held q := by
  unfold Lane.held
  rw [grantBank_window]

/-! ### A live read -/

theorem memoryErrors_lane (p : Fin 16) (n : Nat) (b : Body) (o : Fin 16) : (memoryErrors p n b).lane o = b.lane o := by
  unfold memoryErrors
  split <;> rfl

/-- Memory errors counted (R57, R58). -/
theorem memoryErrors_programme (p : Fin 16) (n : Nat) (b : Body) :
    (memoryErrors p n b).programme p = { b.programme p with
      memoryErrors := if n = 0 then (b.programme p).memoryErrors else min 65535 ((b.programme p).memoryErrors + n)
      memorySeen := (b.programme p).memorySeen || n != 0 } := by
  unfold memoryErrors
  by_cases hn : n = 0
  · subst hn
    simp
  · rw [if_neg hn, Body.onProgramme_eq, Body.programme_setProgramme_same, if_neg hn, bne_iff_ne.2 hn, Bool.or_true]
    rfl

section
variable {k : Fin 4} {ws : List Word}

/-- A frame that comes back to a window that wants it stands in it (R56, R57). -/
theorem returnFrame_held (hw : ∃ x ∈ (b.lane p).wanted, x.1 = q) (h : (b.lane p).held q = none) :
    ((returnFrame p q ws b).lane p).held q =
      some { seq := q, samples := checkedSamples ws, muted := failingWords ws != 0 } := by
  unfold returnFrame
  simp only
  refine pumpReads_held ?_ ?_
  · rw [Body.onLane_eq, Body.lane_setLane_same, memoryErrors_lane]
    exact hw
  · rw [Body.onLane_eq, Body.lane_setLane_same, memoryErrors_lane]
    simp only [h, Option.isNone_none, if_true]
    exact held_append (l := { b.lane p with readRequest := none })
      (f := { seq := q, samples := checkedSamples ws, muted := failingWords ws != 0 }) h

theorem returnFrame_programme : (returnFrame p q ws b).programme p = (memoryErrors p (failingWords ws) b).programme p := by
  unfold returnFrame
  exact aside_programme (pumpReads_aside p _) p

/-- The frame and the memory errors of a live read. -/
theorem readDone_live (hw : ∃ x ∈ (b.lane p).wanted, x.1 = q) (h : (b.lane p).held q = none) :
    ((readDone k p q true ws b).lane p).held q =
        some { seq := q, samples := checkedSamples ws, muted := failingWords ws != 0 } ∧
      (readDone k p q true ws b).programme p = { b.programme p with
        memoryErrors := if failingWords ws = 0 then (b.programme p).memoryErrors
          else min 65535 ((b.programme p).memoryErrors + failingWords ws)
        memorySeen := (b.programme p).memorySeen || failingWords ws != 0 } := by
  unfold readDone
  rw [grantBank_held, grantBank_programme]
  exact ⟨returnFrame_held hw h, returnFrame_programme.trans (memoryErrors_programme ..)⟩

/-- A read whose owner has gone changes nothing but banks and open requests (R58). -/
theorem readDone_dead :
    readDone k p q false ws b =
        { b with banks := (readDone k p q false ws b).banks, lanes := (readDone k p q false ws b).lanes } ∧
      ∀ o, ((readDone k p q false ws b).lane o).window = (b.lane o).window := by
  unfold readDone
  refine ⟨grantBank_only k (b.onBank k fun x => { x with access := none }), fun o => ?_⟩
  exact grantBank_window k (b.onBank k fun x => { x with access := none }) o

end

/-- Settles O20: a live read by what comes back to the window, a dead one by the grant that follows it. -/
theorem readComplete : Obligations.ReadComplete := by
  unfold Obligations.ReadComplete
  intro s k p seq word c hin words failing
  have event {live : Bool} (ha : (s.body.bank k).access = some (.read p seq word c live)) :
      exec (.readComplete k []) s = bodyEvent (readDone k p seq live words) s := by
    rw [exec_readComplete ha hin, damaged_nil, if_pos rfl]
  refine ⟨fun ha _ hheld hwanted => ?_, fun ha => ?_⟩
  · obtain ⟨t, ht, hb⟩ := bodyEvent_becomes (readDone k p seq true words) s
    obtain ⟨frame, record⟩ := readDone_live (k := k) (ws := words) hwanted hheld
    have held : (t.body.lane p).held seq = ((readDone k p seq true words s.body).lane p).held seq :=
      (congrArg (fun l : Lane => l.held seq) (hb.lane p) :)
    have counted := hb.programme p
    rw [record] at counted
    exact ⟨t, (event ha).trans ht, hb.1, held.trans frame, (congrArg Programme.memoryErrors counted :),
      (congrArg Programme.memorySeen counted :), hb.fixedParts (readDone_fixed ..) (readDone_sets ..)⟩
  · obtain ⟨t, ht, hb⟩ := bodyEvent_becomes (readDone k p seq false words) s
    obtain ⟨only, window⟩ := readDone_dead (b := s.body) (k := k) (p := p) (q := seq) (ws := words)
    exact ⟨t, (event ha).trans ht, hb.onStore only, fun o =>
      (congrArg Lane.window (hb.lane o) :).trans (window o)⟩

end Sys2Proof.Machine
end

section
/-! What a house sample of one lane leaves of the others: the first layer under O12. -/

namespace Sys2Proof.Machine

variable {b c : Body} {p q o : Fin 16}

/-- A lane with the mark taken from its open read request that a grant puts there. -/
def Lane.ungranted (l : Lane) : Lane := { l with readRequest := l.readRequest.map fun r => { r with granted := false } }

/-- A lane known but for that mark, as a lane with some request. -/
theorem Lane.of_ungranted {l m : Lane} (h : m.ungranted = l.ungranted) :
    ∃ rr, m = { l with readRequest := rr } ∧ (l.readRequest = none → rr = none) := by
  refine ⟨m.readRequest, (congrArg (fun k : Lane => { k with readRequest := m.readRequest }) h :), fun hl => ?_⟩
  have := congrArg Lane.readRequest h
  simpa [Lane.ungranted, hl] using this

/-- A grant puts that mark alone. -/
theorem grantBank_ungranted (k : Fin 4) (b : Body) (o : Fin 16) :
    ((grantBank k b).lane o).ungranted = (b.lane o).ungranted := by
  have read (p : Fin 16) : ((grantRead b k p).lane o).ungranted = (b.lane o).ungranted := by
    unfold grantRead
    split
    · rename_i r line hr _
      simp only [Body.onLane_eq, Body.onBank_eq, Body.lane_setBank]
      rw [Body.lane_setLane]
      split
      · rename_i e
        subst e
        simp [Lane.ungranted, hr]
      · rfl
    · rfl
  unfold grantBank
  simp only
  split
  · rfl
  · split
    · rfl
    · split
      · exact read _
      · split <;> rfl

/-- Work of the lane `q`: every other lane stands but for the mark of a grant, and so do the output map and the frame now
sent. -/
structure LaneAlone (q : Fin 16) (b c : Body) : Prop where
  lane : ∀ o, o ≠ q → (c.lane o).ungranted = (b.lane o).ungranted
  map : c.outputMap = b.outputMap
  sending : c.sending = b.sending

namespace LaneAlone

theorem refl (q : Fin 16) (b : Body) : LaneAlone q b b := ⟨fun _ _ => rfl, rfl, rfl⟩

theorem trans {d : Body} (h : LaneAlone q b c) (h' : LaneAlone q c d) : LaneAlone q b d :=
  ⟨fun o ho => (h'.lane o ho).trans (h.lane o ho), h'.map.trans h.map, h'.sending.trans h.sending⟩

/-- Work that leaves the lanes, the output map and the frame now sent. -/
theorem of_lanes (h : c.lanes = b.lanes) (hm : c.outputMap = b.outputMap) (hs : c.sending = b.sending) : LaneAlone q b c :=
  ⟨fun o _ => by simp only [Body.lane, h], hm, hs⟩

theorem of_aside (ha : c.aside = b.aside) (hl : ∀ o, o ≠ q → (c.lane o).ungranted = (b.lane o).ungranted) :
    LaneAlone q b c := ⟨hl, (congrArg Body.outputMap ha :), (congrArg Body.sending ha :)⟩

theorem onLane (q : Fin 16) (f : Lane → Lane) : LaneAlone q b (b.onLane q f) :=
  ⟨fun o ho => by rw [Body.onLane_eq, Body.lane_setLane, if_neg ho.symm], rfl, rfl⟩

theorem onProgramme (f : Programme → Programme) : LaneAlone q b (b.onProgramme o f) := .of_lanes rfl rfl rfl

theorem grantBank (k : Fin 4) (b : Body) : LaneAlone q b (grantBank k b) :=
  .of_aside (grantBank_aside k b) fun o _ => grantBank_ungranted k b o

theorem openReads (q : Fin 16) (n : Nat) (b : Body) : LaneAlone q b (openReads q n b) := by
  induction n generalizing b with
  | zero => exact .refl q b
  | succ n ih =>
    unfold Machine.openReads
    simp only
    split
    · split
      · exact (onLane q _).trans (ih _)
      · exact (onLane q _).trans (.grantBank _ _)
    · exact .refl q b

theorem pumpReads (q : Fin 16) (b : Body) : LaneAlone q b (pumpReads q b) := by
  unfold Machine.pumpReads
  simp only
  split
  · exact (onLane q _).trans (.openReads q 10 _)
  · exact onLane q _

theorem refreshSetpoint (q : Fin 16) (b : Body) : LaneAlone q b (refreshSetpoint q b) := by
  obtain ⟨n, f, e⟩ := refreshSetpoint_onLane q b
  exact e ▸ onLane q _

theorem completeTag (t : Byte) (x : OpOutcome) (l : List Field) (b : Body) : LaneAlone q b (completeTag t x l b) :=
  .of_lanes rfl rfl rfl

theorem endChange (q : Fin 16) (x : OpOutcome) (b : Body) : LaneAlone q b (endChange q x b) := by
  unfold Machine.endChange
  split
  · exact .refl q b
  · simp only
    split
    · exact (onLane q _).trans (completeTag _ _ _ _)
    · exact (onLane q _).trans (onLane q _)
    · exact onLane q _

theorem settleTail (q : Fin 16) (b : Body) : LaneAlone q b (settleTail q b) := by
  unfold Machine.settleTail Machine.endTail
  split
  · refine (onLane q fun l => { l with tail := none }).trans ?_
    simp only
    split
    · split
      · split
        · exact onLane q _
        · exact endChange q _ _
      · exact .refl q _
    · exact .refl q _
  · exact .refl q b

theorem reachMark (q : Fin 16) (m : SpliceMark) (b : Body) : LaneAlone q b (reachMark q m b) :=
  (onLane q _).trans (.refreshSetpoint q _)

theorem stepLoop (q : Fin 16) (n : Nat) (b : Body) : LaneAlone q b (stepLoop q n b).1 := by
  induction n generalizing b with
  | zero => exact .refl q b
  | succ n ih =>
    unfold Machine.stepLoop
    simp only
    split
    · exact .refl q b
    · split
      · exact .refl q b
      · split
        · exact .refl q b
        · split
          · split
            · exact (onLane q _).trans ((reachMark q _ _).trans (ih _))
            · exact (onLane q _).trans (ih _)
          · exact (onLane q _).trans (ih _)

theorem stepReader (q : Fin 16) (b : Body) : LaneAlone q b (stepReader q b).1 := (onLane q _).trans (.stepLoop q _ _)

theorem closeRead (q : Fin 16) (b : Body) : LaneAlone q b (closeRead q b) :=
  .of_aside (closeRead_aside q b) fun o ho => by rw [closeRead_lane, if_neg ho.symm]

theorem countSlip (q : Fin 16) (b : Body) : LaneAlone q b (countSlip q b) := by
  unfold Machine.countSlip markSlip
  exact (onProgramme _).trans (onLane q _)

theorem leaveRunning (q : Fin 16) (b : Body) : LaneAlone q b (leaveRunning q b) := .of_lanes rfl rfl rfl

theorem underrun (q : Fin 16) (b : Body) : LaneAlone q b (underrun q b) :=
  (closeRead q b).trans ((countSlip q _).trans ((onLane q _).trans ((endChange q _ _).trans ((leaveRunning q _).trans
    ((onProgramme _).trans ((onProgramme _).trans (refreshSetpoint q _)))))))

theorem enterRunning (q : Fin 16) (b : Body) : LaneAlone q b (enterRunning q b) := by
  unfold Machine.enterRunning
  split
  · exact .refl q b
  · exact (onLane q _).trans ((onProgramme _).trans ((onProgramme _).trans ((refreshSetpoint q _).trans (pumpReads q _))))

theorem silentLane (q : Fin 16) (b : Body) : LaneAlone q b (silentLane q b) := onLane q _

theorem memoryErrors (q : Fin 16) (n : Nat) (b : Body) : LaneAlone q b (memoryErrors q n b) := by
  unfold Machine.memoryErrors
  split
  · exact .refl q b
  · exact onProgramme _

theorem runLane (q : Fin 16) (b : Body) : LaneAlone q b (runLane q b) := by
  have stepped := stepReader q b
  unfold Machine.runLane
  split
  · rename_i d e
    rw [e] at stepped
    exact stepped.trans ((underrun q d).trans (silentLane q _))
  · rename_i d e
    rw [e] at stepped
    exact stepped.trans ((onLane q _).trans ((pumpReads q _).trans ((onLane q fun _ => _).trans (memoryErrors q _ _))))

theorem sampleLane (q : Fin 16) (b : Body) : LaneAlone q b (sampleLane q b) := by
  unfold Machine.sampleLane
  refine (settleTail q b).trans ?_
  simp only
  split
  · exact runLane q _
  · split
    · exact (enterRunning q _).trans (runLane q _)
    · exact silentLane q _
  · exact silentLane q _

theorem sampleMeter (q : Fin 16) (b : Body) : LaneAlone q b (sampleMeter q b) := by
  unfold Machine.sampleMeter
  split
  · exact .refl q b
  · exact .of_lanes rfl rfl rfl

theorem sampleGain (q : Fin 16) (b : Body) : LaneAlone q b (sampleGain q b) := by
  unfold Machine.sampleGain
  simp only
  split <;> exact .of_lanes rfl rfl rfl

theorem sampleTurn (q : Fin 16) (b : Body) : LaneAlone q b (sampleTurn q b) :=
  (sampleLane q b).trans ((sampleMeter q _).trans (sampleGain q _))

end LaneAlone

/-! ### One programme's turn in the house sample -/

theorem sampleTurn_fixed (q : Fin 16) (b : Body) : (sampleTurn q b).fixed = b.fixed := by simp [sampleTurn]
theorem sampleTurn_sets (q : Fin 16) (b : Body) : (sampleTurn q b).sets = b.sets := by simp [sampleTurn]

/-- What the turns of other programmes leave of a programme: its record, gain stage, meter and lane, and what no turn
changes. -/
structure OthersTurns (p : Fin 16) (b c : Body) : Prop where
  programme : c.programme p = b.programme p
  gain : c.gain p = b.gain p
  meter : c.meter p = b.meter p
  lane : (c.lane p).ungranted = (b.lane p).ungranted
  map : c.outputMap = b.outputMap
  sending : c.sending = b.sending
  fixed : c.fixed = b.fixed
  sets : c.sets = b.sets

namespace OthersTurns

theorem refl (p : Fin 16) (b : Body) : OthersTurns p b b := ⟨rfl, rfl, rfl, rfl, rfl, rfl, rfl, rfl⟩

theorem trans {d : Body} (h : OthersTurns p b c) (h' : OthersTurns p c d) : OthersTurns p b d :=
  ⟨h'.programme.trans h.programme, h'.gain.trans h.gain, h'.meter.trans h.meter, h'.lane.trans h.lane, h'.map.trans h.map,
    h'.sending.trans h.sending, h'.fixed.trans h.fixed, h'.sets.trans h.sets⟩

theorem sampleTurn (h : q ≠ p) (b : Body) : OthersTurns p b (sampleTurn q b) := by
  obtain ⟨h1, h2, h3⟩ := sampleTurn_other h.symm b
  obtain ⟨h4, h5, h6⟩ := LaneAlone.sampleTurn q b
  exact ⟨h1, h2, h3, h4 p h.symm, h5, h6, sampleTurn_fixed q b, sampleTurn_sets q b⟩

/-- The house sample as one programme sees it: the turns before its own, its own, and those after it. -/
theorem around (p : Fin 16) (b : Body) :
    ∃ c, OthersTurns p b c ∧ OthersTurns p (Machine.sampleTurn p c) (b.eachProgramme Machine.sampleTurn) :=
  eachProgramme_turn p Machine.sampleTurn (OthersTurns p) (refl p) (fun _ _ _ h h' => h.trans h')
    (fun _ hq b => sampleTurn hq b) b

end OthersTurns

end Sys2Proof.Machine
end

section
/-! The stepper of a lane without marks, or at its oldest mark (R66, R80, R98): the second layer under O12. -/

namespace Sys2Proof.Machine

variable {b c : Body} {p q o : Fin 16} {l : Lane}

theorem setLane_setLane (b : Body) (p : Fin 16) (x y : Lane) : (b.setLane p x).setLane p y = b.setLane p y := by
  simp [Body.setLane]

theorem setLane_lane (b : Body) (p : Fin 16) : b.setLane p (b.lane p) = b := by
  simp [Body.setLane, Body.lane]

/-! ### Frames consumed -/

/-- A lane that has consumed `n` frames, each for one Q of the accumulator (R66). -/
def Lane.consumed (l : Lane) (n q : Nat) : Lane := { l with acc := l.acc - n * q, readSeq := l.readSeq + cnt n }

theorem cnt_add (n k : Nat) : cnt n + cnt k = cnt (n + k) := (BitVec.ofNat_add n k).symm

theorem consumed_zero (l : Lane) (q : Nat) : l.consumed 0 q = l := by
  unfold Lane.consumed
  rw [Nat.zero_mul, Nat.sub_zero, show cnt 0 = 0#32 from rfl, BitVec.add_zero]

theorem consumed_one (l : Lane) (q : Nat) : { l with acc := l.acc - q, readSeq := l.readSeq + 1 } = l.consumed 1 q := by
  unfold Lane.consumed
  rw [Nat.one_mul]
  rfl

theorem consumed_consumed (l : Lane) (n k q : Nat) : (l.consumed n q).consumed k q = l.consumed (n + k) q := by
  simp only [Lane.consumed, BitVec.add_assoc, cnt_add, Nat.sub_sub, Nat.add_mul]

theorem consumed_occupancy {n : Nat} (h : n ≤ l.occupancy) (q : Nat) : (l.consumed n q).occupancy = l.occupancy - n := by
  have lt : l.occupancy < 2 ^ 32 := (l.writeSeq - l.readSeq).isLt
  have place : (l.consumed n q).occupancy = (l.writeSeq - l.readSeq - cnt n).toNat := by
    unfold Lane.occupancy Lane.consumed
    rw [BitVec.sub_sub]
  have small : (cnt n).toNat = n := Nat.mod_eq_of_lt (Nat.lt_of_le_of_lt h lt)
  rw [place, BitVec.toNat_sub_of_le (by rw [BitVec.le_def, small]; exact h), small]
  rfl

/-! ### The loop of the stepper -/

section
variable {x : RatioRecord} (hx : (b.lane p).ratio = some x)
include hx

theorem stepLoop_ends (n : Nat) (ha : (b.lane p).acc < x.q) : stepLoop p (n + 1) b = (b, false) := by
  simp only [stepLoop, hx, ha, if_true]

theorem stepLoop_dry (n : Nat) (ha : x.q ≤ (b.lane p).acc) (ho : (b.lane p).occupancy < 5) :
    stepLoop p (n + 1) b = (b, true) := by
  simp only [stepLoop, hx, Nat.not_lt.2 ha, ho, if_true, if_false]

theorem stepLoop_consumes (n : Nat) (ha : x.q ≤ (b.lane p).acc) (ho : 5 ≤ (b.lane p).occupancy)
    (hm : (b.lane p).marks = []) :
    stepLoop p (n + 1) b = stepLoop p n (b.setLane p ((b.lane p).consumed 1 x.q)) := by
  rw [stepLoop]
  simp only [hx, hm, Nat.not_lt.2 ha, Nat.not_lt.2 ho, if_false]
  rw [← consumed_one]
  rfl

theorem stepLoop_reaches (n : Nat) (ha : x.q ≤ (b.lane p).acc) (ho : 5 ≤ (b.lane p).occupancy) {k : SpliceMark}
    {rest : List SpliceMark} (hm : (b.lane p).marks = k :: rest) (hk : k.seq = (b.lane p).readSeq + 1) :
    stepLoop p (n + 1) b = stepLoop p n (reachMark p k (b.setLane p ((b.lane p).consumed 1 x.q))) := by
  rw [stepLoop]
  simp only [hx, hm, hk, Nat.not_lt.2 ha, Nat.not_lt.2 ho, if_false, if_true]
  rw [← consumed_one]
  rfl

omit hx in
/-- With an accumulator of `k + 1` times Q, one frame consumed leaves `k` times Q. -/
theorem consumed_quotient (hq : 0 < x.q) {k : Nat} (hk : (b.lane p).acc / x.q = k + 1) :
    x.q ≤ (b.lane p).acc ∧ ((b.lane p).consumed 1 x.q).acc / x.q = k := by
  have ha : x.q ≤ (b.lane p).acc := (Nat.one_le_div_iff hq).1 (by omega)
  have once : (b.lane p).acc / x.q = ((b.lane p).acc - x.q) / x.q + 1 := Nat.div_eq_sub_div hq ha
  rw [show ((b.lane p).consumed 1 x.q).acc = (b.lane p).acc - 1 * x.q from rfl, Nat.one_mul]
  exact ⟨ha, by omega⟩

/-- Without marks, and with what it takes in the line, the loop consumes a frame for each Q in the accumulator. -/
theorem stepLoop_full (hq : 0 < x.q) (hm : (b.lane p).marks = []) {k n : Nat} (hk : (b.lane p).acc / x.q = k)
    (hn : k < n) (ho : k = 0 ∨ k + 4 ≤ (b.lane p).occupancy) :
    stepLoop p n b = (b.setLane p ((b.lane p).consumed k x.q), false) := by
  obtain ⟨n, rfl⟩ : ∃ m, n = m + 1 := ⟨n - 1, by omega⟩
  induction k generalizing b n with
  | zero =>
    have ha : (b.lane p).acc < x.q := (Nat.div_eq_zero_iff_lt hq).1 hk
    rw [stepLoop_ends hx n ha, consumed_zero, setLane_lane]
  | succ k ih =>
    obtain ⟨ha, hk'⟩ := consumed_quotient hq hk
    have occupancy := consumed_occupancy (l := b.lane p) (n := 1) (by omega) x.q
    have rest := ih (b := b.setLane p ((b.lane p).consumed 1 x.q))
    rw [Body.lane_setLane_same, occupancy] at rest
    obtain ⟨n, rfl⟩ : ∃ m, n = m + 1 := ⟨n - 1, by omega⟩
    rw [stepLoop_consumes hx _ ha (by omega) hm, rest hx hm hk' (by omega) n (by omega), setLane_setLane,
      consumed_consumed, Nat.add_comm 1]

/-- Without marks, and with too little in the line, the loop consumes down to an occupancy of 4 and tells of an underrun
(R80; log 38). -/
theorem stepLoop_short (hq : 0 < x.q) (hm : (b.lane p).marks = []) {k n : Nat} (hk : (b.lane p).acc / x.q = k + 1)
    (hn : k + 1 < n) (ho : (b.lane p).occupancy < k + 1 + 4) :
    stepLoop p n b = (b.setLane p ((b.lane p).consumed ((b.lane p).occupancy - 4) x.q), true) := by
  induction k generalizing b n with
  | zero =>
    obtain ⟨n, rfl⟩ : ∃ m, n = m + 1 := ⟨n - 1, by omega⟩
    rw [stepLoop_dry hx n (consumed_quotient hq hk).1 (by omega), show (b.lane p).occupancy - 4 = 0 by omega, consumed_zero,
      setLane_lane]
  | succ k ih =>
    obtain ⟨n, rfl⟩ : ∃ m, n = m + 1 := ⟨n - 1, by omega⟩
    obtain ⟨ha, hk'⟩ := consumed_quotient hq hk
    by_cases h5 : (b.lane p).occupancy < 5
    · rw [stepLoop_dry hx n ha h5, show (b.lane p).occupancy - 4 = 0 by omega, consumed_zero, setLane_lane]
    · have occupancy := consumed_occupancy (l := b.lane p) (n := 1) (by omega) x.q
      have rest := ih (b := b.setLane p ((b.lane p).consumed 1 x.q))
      rw [Body.lane_setLane_same, occupancy] at rest
      rw [stepLoop_consumes hx n ha (by omega) hm, rest hx hm hk' (by omega) (by omega), setLane_setLane,
        consumed_consumed, show 1 + ((b.lane p).occupancy - 1 - 4) = (b.lane p).occupancy - 4 by omega]

end

/-! ### The reader's steps -/

/-- A lane with the increment of this house sample added to the accumulator (R66, R72; log 43). -/
def Lane.incremented (l : Lane) : Lane := { l.stepped with acc := l.acc + l.stepIncrement }

theorem stepReader_eq (p : Fin 16) (b : Body) :
    stepReader p b = stepLoop p ((((b.lane p).ratio.map fun r => ((b.lane p).acc + (b.lane p).stepIncrement) / r.q).getD 0) + 1)
      (b.setLane p (b.lane p).incremented) := by
  unfold stepReader
  simp only [Body.onLane_eq, Body.lane_setLane_same]
  rfl

section
variable {x : RatioRecord} (hx : (b.lane p).ratio = some x) (hq : 0 < x.q)
include hx hq

/-- The stepper consumes a frame for each Q in the accumulator (R66). -/
theorem stepReader_full (hm : (b.lane p).marks = [])
    (ho : ((b.lane p).acc + (b.lane p).stepIncrement) / x.q = 0 ∨
      ((b.lane p).acc + (b.lane p).stepIncrement) / x.q + 4 ≤ (b.lane p).occupancy) :
    stepReader p b = (b.setLane p ((b.lane p).incremented.consumed
      (((b.lane p).acc + (b.lane p).stepIncrement) / x.q) x.q), false) := by
  have loop := stepLoop_full (b := b.setLane p (b.lane p).incremented) (p := p) (x := x)
  simp only [Body.lane_setLane_same, setLane_setLane] at loop
  rw [stepReader_eq, hx]
  exact loop hx hq hm rfl (Nat.lt_succ_self _) ho

/-- Where that takes the occupancy below 4, it stops there: an underrun (R80; log 38). -/
theorem stepReader_short (hm : (b.lane p).marks = []) (h0 : ((b.lane p).acc + (b.lane p).stepIncrement) / x.q ≠ 0)
    (ho : (b.lane p).occupancy < ((b.lane p).acc + (b.lane p).stepIncrement) / x.q + 4) :
    stepReader p b = (b.setLane p ((b.lane p).incremented.consumed ((b.lane p).occupancy - 4) x.q), true) := by
  have loop := stepLoop_short (b := b.setLane p (b.lane p).incremented) (p := p) (x := x)
  simp only [Body.lane_setLane_same, setLane_setLane] at loop
  obtain ⟨k, hk⟩ := Nat.exists_eq_succ_of_ne_zero h0
  rw [hk] at ho
  rw [stepReader_eq, hx, Option.map_some, Option.getD_some, hk]
  exact loop hx hq hm hk (Nat.lt_succ_self _) ho

/-- Where the next frame is that of the oldest mark, the stepper takes the mark and stops (R98). -/
theorem stepReader_marked {k : SpliceMark} {rest : List SpliceMark} (hm : (b.lane p).marks = k :: rest)
    (hk : k.seq = (b.lane p).readSeq + 1) (h1 : 1 ≤ ((b.lane p).acc + (b.lane p).stepIncrement) / x.q)
    (ho : 5 ≤ (b.lane p).occupancy) (hqk : 0 < markQ b k) :
    ∃ n f, stepReader p b = (b.setLane p { ((b.lane p).incremented.consumed 1 x.q).takeMark k (markQ b k) with
      marks := rest, fadeIn := 64, setpoint := n, delayLimited := f }, false) := by
  let d := b.setLane p (b.lane p).incremented
  have own : d.lane p = (b.lane p).incremented := Body.lane_setLane_same ..
  let e := d.setLane p ((d.lane p).consumed 1 x.q)
  obtain ⟨n, f, reached⟩ := refreshSetpoint_onLane p
    (e.onLane p fun l => { l.takeMark k (markQ e k) with marks := l.marks.tail, fadeIn := 64 })
  have mark : reachMark p k e = b.setLane p { ((b.lane p).incremented.consumed 1 x.q).takeMark k (markQ b k) with
      marks := rest, fadeIn := 64, setpoint := n, delayLimited := f } := by
    unfold reachMark
    rw [reached]
    simp only [e, d, Body.onLane_eq, Body.lane_setLane_same, setLane_setLane]
    rw [show ((b.lane p).incremented.consumed 1 x.q).marks = k :: rest from hm]
    rfl
  have acc : x.q ≤ (d.lane p).acc := by
    rw [own]
    exact (Nat.one_le_div_iff hq).1 h1
  refine ⟨n, f, ?_⟩
  obtain ⟨m, hn⟩ : ∃ m, ((b.lane p).acc + (b.lane p).stepIncrement) / x.q = m + 1 := ⟨_, (Nat.sub_add_cancel h1).symm⟩
  rw [stepReader_eq, hx, Option.map_some, Option.getD_some, hn]
  rw [stepLoop_reaches (b := d) (k := k) (rest := rest) (by rw [own]; exact hx) (m + 1) acc (by rw [own]; exact ho)
    (by rw [own]; exact hm) (by rw [own]; exact hk), mark]
  refine stepLoop_ends (x := { port := k.port, q := markQ b k }) (by rw [Body.lane_setLane_same]; rfl) m ?_
  rw [Body.lane_setLane_same]
  exact Nat.div_lt_self hqk (by decide)

end

end Sys2Proof.Machine
end

section
/-! The output of a lane that runs without a fade tail (R67 to R69): the third layer under O12. -/

namespace Sys2Proof.Machine

variable {l : Lane} {x : RatioRecord}

/-! ### Frames as the window gives them -/

/-- The sample that channel `i` of a frame sounds with: zero before the history start, and where it is not held (R58, R67). -/
def Lane.heard (l : Lane) (seq : Count) (i : Nat) : Int :=
  if seqBefore seq l.historyStart then 0 else ((l.held seq).map fun f => (f.samples.getD i 0).toInt).getD 0

/-- A frame of the history that is not held (R58). -/
def Lane.lacks (l : Lane) (seq : Count) : Bool := !seqBefore seq l.historyStart && (l.held seq).isNone

/-- The places of the four frames round the reader (R68). -/
def Lane.round (l : Lane) : List Count := [l.readSeq - 1, l.readSeq, l.readSeq + 1, l.readSeq + 2]

theorem frame_heard (l : Lane) (seq : Count) (i : Nat) :
    ((l.frame l.historyStart none seq).samples.getD i 0).toInt = l.heard seq i := by
  simp only [Lane.frame, Lane.heard, Option.any_none, Bool.false_eq_true, if_false]
  split
  · simp
  · cases l.held seq <;> simp

theorem frame_late (l : Lane) (seq : Count) : (l.frame l.historyStart none seq).late = l.lacks seq := by
  simp only [Lane.frame, Lane.lacks, Option.any_none, Bool.false_eq_true, if_false]
  split
  · rename_i h
    simp [h]
  · rename_i h
    cases l.held seq <;> simp [h]

/-- A frame mars the output where it belongs to the history and came back muted, or not at all. -/
theorem frame_mars (l : Lane) (seq : Count) :
    ((l.frame l.historyStart none seq).muted || (l.frame l.historyStart none seq).late) = true ↔
      seqBefore seq l.historyStart = false ∧ (l.held seq).all HeldFrame.muted = true := by
  simp only [Lane.frame, Option.any_none, Bool.false_eq_true, if_false]
  split
  · rename_i h
    simp [h]
  · rename_i h
    cases l.held seq <;> simp [h]

/-- The four places round a reader are four. -/
theorem round_nodup (l : Lane) : l.round.Nodup := by
  unfold Lane.round
  generalize l.readSeq = r
  simp only [List.nodup_cons, List.mem_cons, List.not_mem_nil, or_false, not_or, not_false_eq_true, List.nodup_nil, and_true]
  refine ⟨⟨?_, ?_, ?_⟩, ⟨?_, ?_⟩, ?_⟩ <;> bv_omega

theorem eraseDups_of_nodup {α : Type} [BEq α] [LawfulBEq α] {as : List α} (h : as.Nodup) : as.eraseDups = as := by
  induction as with
  | nil => rfl
  | cons a as ih =>
    obtain ⟨ha, has⟩ := List.nodup_cons.1 h
    have kept : (as.filter fun b => !b == a) = as := List.filter_eq_self.2 fun b hb => by
      have : b ≠ a := fun e => ha (e ▸ hb)
      simpa using this
    rw [List.eraseDups_cons, kept, ih has]

/-! ### Rounding -/

theorem roundAway_mul (a : Int) (d : Nat) {k : Nat} (hk : 0 < k) : roundAway (a * k) (d * k) = roundAway a d := by
  have sign : a * (k : Int) < 0 ↔ a < 0 := by
    constructor
    · intro h
      by_contra h'
      exact absurd h (not_lt.2 (Int.mul_nonneg (not_lt.1 h') (Int.natCast_nonneg k)))
    · exact fun h => Int.mul_neg_of_neg_of_pos h (by exact_mod_cast hk)
  have whole : (2 * (a * (k : Int)).natAbs + d * k) / (2 * (d * k)) = (2 * a.natAbs + d) / (2 * d) := by
    rw [Int.natAbs_mul, Int.natAbs_natCast, ← Nat.mul_assoc, ← Nat.mul_assoc, ← Nat.add_mul, Nat.mul_div_mul_right _ _ hk]
  unfold roundAway
  simp only [sign, whole]

theorem roundAway_zero (d : Nat) (hd : 0 < d) : roundAway 0 d = 0 := by
  have none : (2 * (0 : Int).natAbs + d) / (2 * d) = 0 := Nat.div_eq_of_lt (by simp; omega)
  unfold roundAway
  simp only [none, lt_irrefl, if_false]
  rfl

/-! ### The output frame -/

section
variable (ht : l.tail = none)
include ht

/-- The lane goes on with its fade-in. -/
theorem produce_lane (c : Nat) : (l.produce c).2.2 = { l with fadeIn := l.fadeIn - 1 } := by
  simp [Lane.produce, ht]

/-- At the start of a fade-in the output is zero, and disturbed (R69). -/
theorem produce_faded (c : Nat) (hf : l.fadeIn = 64) :
    (l.produce c).1 = { samples := List.replicate c 0, disturbed := true, outside := false } := by
  have none (v w : Int) : toSample (clampInt (-fullScale) fullScale (roundAway (v * ((0 : Nat) : Int) + 0 * w) (2 ^ 67))) = 0 := by
    rw [Int.zero_mul, Int.natCast_zero, Int.mul_zero, Int.add_zero, roundAway_zero _ (by decide)]
    decide
  simp only [Lane.produce, ht, hf, Option.filter_none, Option.map_none, Option.getD_none, Nat.sub_self, Nat.zero_mul,
    interpolateChannel, none]
  simp

section
variable (hm : l.marks = [])
include hm

/-- Without marks, the cubic sum of the four frames under the fade-in, rounded and limited (R68, R69). -/
theorem produce_samples (hx : l.ratio = some x) (c : Nat) :
    (l.produce c).1.samples = (List.range c).map fun i => toSample (clampInt (-8388607) 8388607 (roundAway
      (((-fractionOf l.acc x.q * 2 ^ 32 + 2 * fractionOf l.acc x.q ^ 2 * 2 ^ 16 - fractionOf l.acc x.q ^ 3) *
          l.heard (l.readSeq - 1) i +
        (2 ^ 49 - 5 * fractionOf l.acc x.q ^ 2 * 2 ^ 16 + 3 * fractionOf l.acc x.q ^ 3) * l.heard l.readSeq i +
        (fractionOf l.acc x.q * 2 ^ 32 + 4 * fractionOf l.acc x.q ^ 2 * 2 ^ 16 - 3 * fractionOf l.acc x.q ^ 3) *
          l.heard (l.readSeq + 1) i +
        (-fractionOf l.acc x.q ^ 2 * 2 ^ 16 + fractionOf l.acc x.q ^ 3) * l.heard (l.readSeq + 2) i) *
        ((64 - l.fadeIn : Nat) : Int)) (2 ^ 55))) := by
  have scale (v : Int) (w : Int) :
      roundAway (v * (((64 - l.fadeIn) * 64 * (64 - 0) : Nat) : Int) + 0 * w) (2 ^ 67) =
        roundAway (v * ((64 - l.fadeIn : Nat) : Int)) (2 ^ 55) := by
    rw [← roundAway_mul (v * ((64 - l.fadeIn : Nat) : Int)) (2 ^ 55) (k := 4096) (by decide), Int.zero_mul, Int.add_zero,
      Nat.mul_assoc, Int.natCast_mul, Int.mul_assoc]
    norm_num
  simp only [Lane.produce, ht, hm, hx, Option.filter_none, Option.map_none, Option.map_some, Option.getD_none,
    Option.getD_some, List.head?_nil, dipFactor]
  refine List.map_congr_left fun i _ => ?_
  congr 2
  refine (scale _ _).trans ?_
  simp only [Lane.fourFrames, List.map_cons, List.map_nil, interpolateChannel, interpolate, cubicWeights, frame_heard]

/-- The frames late at this house sample, each once. -/
theorem produce_late (c : Nat) : (l.produce c).2.1 = l.round.filter l.lacks := by
  have late : ∀ r : List Count, ((r.map fun s => (s, l.frame l.historyStart none s)).filter fun f => f.2.late).map Prod.fst =
      r.filter l.lacks := fun r => by
    rw [List.filter_map, List.map_map]
    simp only [Function.comp_def, frame_late, List.map_id']
  have all : (l.produce c).2.1 = (l.round.filter l.lacks).eraseDups := by
    simp only [Lane.produce, ht, hm, Option.filter_none, Option.map_none, Option.getD_none, List.append_nil, List.head?_nil]
    exact congrArg List.eraseDups (late _)
  rw [all, eraseDups_of_nodup (round_nodup l |>.filter _)]

/-- The output is disturbed in a fade-in, and by a frame that mars it (R69). -/
theorem produce_disturbed (c : Nat) : (l.produce c).1.disturbed = true ↔ l.fadeIn ≠ 0 ∨
    ∃ seq ∈ l.round, seqBefore seq l.historyStart = false ∧ (l.held seq).all HeldFrame.muted = true := by
  have any : (l.fourFrames l.readSeq l.historyStart none).any (fun f => f.2.muted || f.2.late) = true ↔
      ∃ seq ∈ l.round, seqBefore seq l.historyStart = false ∧ (l.held seq).all HeldFrame.muted = true := by
    unfold Lane.fourFrames
    simp only [List.any_map, List.any_eq_true, Function.comp_apply, frame_mars]
    rfl
  simp only [Lane.produce, ht, hm, Option.filter_none, Option.map_none, Option.getD_none, List.append_nil, List.head?_nil,
    dipFactor, Bool.or_eq_true, decide_eq_true_eq, Option.isSome_none, any]
  simp

end

end

end Sys2Proof.Machine
end

section
/-! A house sample of one lane: the underrun, the entry to RUNNING, and the output of the lane that runs (R69, R73, R80): the
fourth layer under O12. -/

namespace Sys2Proof.Machine

variable {b c d : Body} {p : Fin 16} {l : Lane} {x : RatioRecord}

/-! ### What the stepper leaves -/

theorem stepLoop_aside (p : Fin 16) (n : Nat) (b : Body) : (stepLoop p n b).1.aside = b.aside := by
  induction n generalizing b with
  | zero => rfl
  | succ n ih =>
    unfold stepLoop
    simp only
    split
    · rfl
    · split
      · rfl
      · split
        · rfl
        · split
          · split
            · exact (ih _).trans (reachMark_aside _ _ _)
            · exact ih _
          · exact ih _

theorem stepReader_aside (p : Fin 16) (b : Body) : (stepReader p b).1.aside = b.aside := stepLoop_aside p _ _

theorem channels_of_programme (h : c.programme p = b.programme p) : channels c p = channels b p := by
  unfold channels
  rw [h]

theorem lane_of_unread {l m : Lane} (h : m.unread = l.unread) :
    m = { l with window := m.window, readRequest := m.readRequest } :=
  (congrArg (fun k : Lane => { k with window := m.window, readRequest := m.readRequest }) h :)

/-! ### An underrun (R20, R80) -/

theorem endChange_lane (p : Fin 16) (x : OpOutcome) (b : Body) :
    ∃ ov sc, (endChange p x b).lane p = { b.lane p with change := none, overrideFast := ov, sceneDelayOwed := sc } := by
  unfold endChange
  split
  · rename_i h
    refine ⟨(b.lane p).overrideFast, (b.lane p).sceneDelayOwed, ?_⟩
    generalize b.lane p = l at h
    cases l
    cases h
    rfl
  · simp only
    split
    · exact ⟨_, _, by rw [completeTag_lane, Body.onLane_eq, Body.lane_setLane_same]⟩
    · exact ⟨_, _, by simp only [Body.onLane_eq, Body.lane_setLane_same]; rfl⟩
    · exact ⟨_, _, by rw [Body.onLane_eq, Body.lane_setLane_same]⟩

/-- A lane that an underrun stops, before its change ends (R79, R80). -/
def Lane.halted (l : Lane) : Lane :=
  { l with readRequest := none, slipSeen := true, stickySlip := true, tail := none, fadeIn := 0, marks := []
           overloadRun := List.replicate 8 0, target := (l.change.map DelayChange.target).getD l.target }

/-- The part of an underrun before the change ends: the open read closed, the slip counted, the lane halted. -/
def haltReader (p : Fin 16) (b : Body) : Body :=
  (countSlip p (closeRead p b)).onLane p fun l =>
    { l with tail := none, fadeIn := 0, marks := [], overloadRun := List.replicate 8 0
             target := match l.change with
               | some c => c.target
               | none => l.target }

/-- The state an underrun leads to, and the cause it reports (R20, R80). -/
def underrunState (b : Body) (p : Fin 16) : ProgState × StateCause :=
  if sourceLocked b p then (.priming, .underrun) else (.starved, .starved)

theorem underrun_eq (p : Fin 16) (b : Body) :
    underrun p b =
      (let e := leaveRunning p (endChange p .success (haltReader p b))
       refreshSetpoint p (oweState p (underrunState e p).2 (e.onProgramme p fun r => { r with state := (underrunState e p).1 }))) :=
  rfl

theorem haltReader_lane (p : Fin 16) (b : Body) : (haltReader p b).lane p = (b.lane p).halted := by
  unfold haltReader countSlip markSlip Lane.halted
  simp only [Body.onLane_eq, Body.onProgramme_eq, Body.lane_setLane_same, Body.lane_setProgramme, closeRead_lane, if_true]
  cases (b.lane p).change <;> rfl

theorem haltReader_aside (p : Fin 16) (b : Body) :
    (haltReader p b).aside = (b.onProgramme p fun r => { r with slips := bump r.slips }).aside := by
  have closed := closeRead_aside p b
  have record := closeRead_programme p p b
  unfold haltReader countSlip markSlip
  rw [onLane_aside, onLane_aside, Body.onProgramme_eq, Body.onProgramme_eq, record, eq_of_aside closed]
  rfl

/-- The blocks of an underrun before its programme takes the new state. -/
theorem halted_aside (p : Fin 16) (b : Body) :
    (endChange p .success (haltReader p b)).aside = (b.onProgramme p fun r => { r with slips := bump r.slips }).aside :=
  (endChange_aside ..).trans (haltReader_aside p b)

theorem sourceLocked_congr (h : (c.lane p).source = (b.lane p).source) (hp : c.ports = b.ports) :
    sourceLocked c p = sourceLocked b p := by
  unfold sourceLocked isLocked Body.port
  rw [h, hp]

/-- Whether the source is LOCKED is as it was before the underrun. -/
theorem underrunState_halted (p : Fin 16) (b : Body) :
    underrunState (leaveRunning p (endChange p .success (haltReader p b))) p = underrunState b p := by
  have locked : sourceLocked (leaveRunning p (endChange p .success (haltReader p b))) p = sourceLocked b p := by
    have ports : (endChange p .success (haltReader p b)).ports = b.ports := (congrArg Body.ports (halted_aside p b) :)
    obtain ⟨ov, sc, e⟩ := endChange_lane p .success (haltReader p b)
    generalize endChange p .success (haltReader p b) = d at ports e
    have source : (d.lane p).source = (b.lane p).source := by rw [e, haltReader_lane]; rfl
    exact sourceLocked_congr source ports
  unfold underrunState
  rw [locked]

/-- The lane after an underrun (R79, R80). -/
theorem underrun_lane (p : Fin 16) (b : Body) :
    ∃ sp dl ov sc, (underrun p b).lane p = { (b.lane p).halted with
      change := none, setpoint := sp, delayLimited := dl, overrideFast := ov, sceneDelayOwed := sc } := by
  obtain ⟨ov, sc, ended⟩ := endChange_lane p .success (haltReader p b)
  rw [underrun_eq]
  simp only
  generalize he : leaveRunning p (endChange p .success (haltReader p b)) = e
  have lane : e.lane p = { (b.lane p).halted with change := none, overrideFast := ov, sceneDelayOwed := sc } := by
    rw [← he, leaveRunning_lane, ended, haltReader_lane]
  obtain ⟨sp, dl, refreshed⟩ := refreshSetpoint_onLane p
    (oweState p (underrunState e p).2 (e.onProgramme p fun r => { r with state := (underrunState e p).1 }))
  refine ⟨sp, dl, ov, sc, ?_⟩
  rw [refreshed, Body.onLane_eq, Body.lane_setLane_same, oweState, Body.onProgramme_eq, Body.lane_setProgramme,
    Body.onProgramme_eq, Body.lane_setProgramme, lane]

theorem underrun_programme (p : Fin 16) (b : Body) :
    (underrun p b).programme p = { b.programme p with
      slips := bump (b.programme p).slips, state := (underrunState b p).1, stateOwed := some (underrunState b p).2 } := by
  have record : (leaveRunning p (endChange p .success (haltReader p b))).programme p =
      { b.programme p with slips := bump (b.programme p).slips } :=
    (aside_programme (halted_aside p b) p).trans (by rw [Body.onProgramme_eq, Body.programme_setProgramme_same])
  rw [underrun_eq]
  simp only
  rw [aside_programme (refreshSetpoint_aside ..), underrunState_halted, oweState, Body.onProgramme_eq,
    Body.programme_setProgramme_same, Body.onProgramme_eq, Body.programme_setProgramme_same, record]

/-- Gain stage and meter after an underrun (R105, R124, R129; log 44). -/
theorem underrun_gain_meter (p : Fin 16) (b : Body) :
    (underrun p b).gain p = (b.gain p).leaveRunning b.timing.sampleCounter ∧
      (underrun p b).meter p = (b.meter p).disturbClosed b.timing.sampleCounter := by
  have halted := halted_aside p b
  have gain : (endChange p .success (haltReader p b)).gain p = b.gain p := beyond_gain (beyond_of_aside halted) p
  have meter : (endChange p .success (haltReader p b)).meter p = b.meter p := beyond_meter (beyond_of_aside halted) p
  have timing : (endChange p .success (haltReader p b)).timing = b.timing := (congrArg Body.timing halted :)
  rw [underrun_eq]
  simp only
  rw [beyond_gain (refreshSetpoint_beyond ..), beyond_meter (refreshSetpoint_beyond ..), oweState, Body.onProgramme_eq,
    Body.gain_setProgramme, Body.meter_setProgramme, Body.onProgramme_eq, Body.gain_setProgramme, Body.meter_setProgramme]
  unfold leaveRunning
  constructor
  · rw [Body.onMeter_eq, Body.gain_setMeter, Body.onGain_eq, Body.gain_setGain_same, gain, timing]
  · rw [Body.onMeter_eq, Body.meter_setMeter_same, Body.onGain_eq, Body.meter_setGain, meter, timing]

/-! ### Entry to RUNNING (R19, R73) -/

/-- A lane that enters RUNNING with the tracker's Q and its setpoint of frames behind the writer (R73). -/
def Lane.entered (l : Lane) (port : Fin 8) (q n : Nat) : Lane :=
  { l with readSeq := l.writeSeq - cnt n, ratio := some { port := port, q := q }, acc := q / 2, increment := 524288
           outgoing := none, fadeIn := 64 }

theorem primed_iff : primed b p = true ↔
    (∃ src : Source, (b.lane p).source = some src ∧ (b.port src.port).tracker.state = .locked) ∧
      ∃ n, (b.lane p).setpoint = some n ∧ n ≤ (b.lane p).occupancy := by
  unfold primed sourceLocked isLocked
  rw [Bool.and_eq_true, Option.any_eq_true, Option.any_eq_true]
  simp only [beq_iff_eq, decide_eq_true_eq]

/-- The record of a programme that enters RUNNING (R19, R141). -/
theorem enterRunning_programme {src : Source} (hs : (b.lane p).source = some src) :
    (enterRunning p b).programme p = { b.programme p with
      state := .running, runningMark := true, ownMarks := (b.programme p).ownMarks.map fun x => (x.1, true)
      stateOwed := some .primed } := by
  unfold enterRunning
  rw [hs]
  simp only
  rw [aside_programme (pumpReads_aside ..), aside_programme (refreshSetpoint_aside ..), oweState, Body.onProgramme_eq,
    Body.programme_setProgramme_same, Body.onProgramme_eq, Body.programme_setProgramme_same]
  rfl

/-- The reader stands its setpoint of frames behind the writer, whether it was moved or stood there (R73). -/
theorem entry_place {n : Nat} (h : n ≤ l.occupancy) :
    (if n < l.occupancy then l.writeSeq - cnt n else l.readSeq) = l.writeSeq - cnt n := by
  split
  · rfl
  · obtain rfl : n = l.occupancy := by omega
    unfold Lane.occupancy cnt
    rw [BitVec.ofNat_toNat, BitVec.setWidth_eq, sub_sub_cancel]

theorem enterRunning_lane {src : Source} {q n : Nat} (hs : (b.lane p).source = some src)
    (hq : (b.port src.port).tracker.q = some q) (hn : (b.lane p).setpoint = some n) (ho : n ≤ (b.lane p).occupancy) :
    ∃ w rr sp dl, (enterRunning p b).lane p = { (b.lane p).entered src.port q n with
      window := w, readRequest := rr, setpoint := sp, delayLimited := dl } := by
  unfold enterRunning
  rw [hs]
  simp only [hq, Option.getD_some]
  generalize he : oweState p .primed _ = e
  have lane : e.lane p = { (b.lane p).entered src.port q n with window := [] } := by
    rw [← he, oweState, Body.onProgramme_eq, Body.lane_setProgramme, Body.onProgramme_eq, Body.lane_setProgramme,
      Body.onLane_eq, Body.lane_setLane_same]
    unfold Lane.entered
    congr 1
    rw [hn]
    exact entry_place ho
  obtain ⟨sp, dl, refreshed⟩ := refreshSetpoint_onLane p e
  rw [refreshed]
  have settled : (e.onLane p fun l => { l with setpoint := sp, delayLimited := dl }).lane p =
      { (b.lane p).entered src.port q n with window := [], setpoint := sp, delayLimited := dl } := by
    rw [Body.onLane_eq, Body.lane_setLane_same, lane]
  exact ⟨_, _, sp, dl, lane_of_unread ((pumpReads_lane p p _).trans (congrArg Lane.unread settled))⟩

end Sys2Proof.Machine
end

section
/-! The lane's turn in a house sample, by the state it finds (R66, R69, R73, R80): the fifth layer under O12. -/

namespace Sys2Proof.Machine

variable {b d : Body} {p : Fin 16} {x : RatioRecord}

/-- The output of a lane outside RUNNING (R69). -/
def silence (c : Nat) : LaneOutput := { samples := List.replicate c 0, disturbed := false, outside := true }

theorem silentLane_lane (p : Fin 16) (b : Body) :
    (silentLane p b).lane p = { b.lane p with output := silence (channels b p) } := by
  unfold silentLane
  rw [Body.onLane_eq, Body.lane_setLane_same]
  rfl

/-- The zeros of a lane leave programme, gain stage and meter. -/
theorem silentLane_aside (p : Fin 16) (b : Body) : (silentLane p b).aside = b.aside := rfl

theorem channels_of_sets (h : d.sets = b.sets) (p : Fin 16) : channels d p = channels b p := by
  unfold channels
  rw [(sets_programme h p).1]

theorem settleTail_aside (p : Fin 16) (b : Body) : (settleTail p b).aside = b.aside := by
  unfold settleTail
  split
  · exact endTail_aside p b
  · rfl

/-! ### A lane that runs -/

theorem runLane_of_dry (h : stepReader p b = (d, true)) : runLane p b = silentLane p (underrun p d) := by
  unfold runLane
  rw [h]

theorem stepped_aside {dry : Bool} (h : stepReader p b = (d, dry)) : d.aside = b.aside := by
  have aside := stepReader_aside p b
  rwa [h] at aside

/-- The blocks of a lane whose reader has stepped, its reads pumped. -/
def readied (p : Fin 16) (d : Body) : Body := pumpReads p (d.onLane p Lane.stepTail)

theorem readied_aside (p : Fin 16) (d : Body) : (readied p d).aside = d.aside := pumpReads_aside ..

theorem runLane_of_stepped (h : stepReader p b = (d, false)) :
    runLane p b =
      (let e := readied p d
       let out := (e.lane p).produce (channels e p)
       memoryErrors p (out.2.1.length * channels e p) (e.setLane p { out.2.2 with output := out.1 })) := by
  unfold runLane
  rw [h]
  rfl

theorem runLane_stepped_lane (h : stepReader p b = (d, false)) :
    (runLane p b).lane p =
      { (((readied p d).lane p).produce (channels b p)).2.2 with
        output := (((readied p d).lane p).produce (channels b p)).1 } := by
  have same : channels (readied p d) p = channels b p :=
    channels_of_programme (aside_programme ((readied_aside p d).trans (stepped_aside h)) p)
  rw [runLane_of_stepped h]
  simp only
  rw [memoryErrors_lane, Body.lane_setLane_same, same]

theorem runLane_stepped_programme (h : stepReader p b = (d, false)) :
    (runLane p b).programme p =
      (memoryErrors p ((((readied p d).lane p).produce (channels b p)).2.1.length * channels b p) b).programme p := by
  have aside : (readied p d).aside = b.aside := (readied_aside p d).trans (stepped_aside h)
  have same : channels (readied p d) p = channels b p := channels_of_programme (aside_programme aside p)
  rw [runLane_of_stepped h]
  simp only
  rw [same, memoryErrors_programme, memoryErrors_programme, Body.programme_setLane, aside_programme aside]

/-- A lane without a tail, its reads pumped. -/
theorem readied_lane (ht : (d.lane p).tail = none) :
    ∃ w rr, (readied p d).lane p = { d.lane p with window := w, readRequest := rr } := by
  have still : (d.lane p).stepTail = d.lane p := by
    unfold Lane.stepTail
    rw [ht]
  unfold readied
  rw [Body.onLane_eq, still, setLane_lane]
  exact ⟨_, _, lane_of_unread (pumpReads_lane p p d)⟩

/-- A lane in RUNNING without a tail, once its reader has stepped (R69). -/
theorem runLane_sounds (h : stepReader p b = (d, false)) (ht : (d.lane p).tail = none) :
    ∃ w rr, let l : Lane := { d.lane p with window := w, readRequest := rr }
      (runLane p b).lane p = { l with fadeIn := l.fadeIn - 1, output := (l.produce (channels b p)).1 } ∧
      (runLane p b).programme p = (memoryErrors p ((l.produce (channels b p)).2.1.length * channels b p) b).programme p := by
  obtain ⟨w, rr, lane⟩ := readied_lane ht
  refine ⟨w, rr, ?_⟩
  intro l
  have tail : l.tail = none := ht
  have own := runLane_stepped_lane h
  have record := runLane_stepped_programme h
  rw [lane] at own record
  rw [show (runLane p b).lane p = _ from own, produce_lane tail]
  exact ⟨rfl, record⟩

/-! ### What the turn leads to -/

/-- The gain stage and meter of a programme as they were. -/
def Monitored (p : Fin 16) (b d : Body) : Prop := d.gain p = b.gain p ∧ d.meter p = b.meter p

/-- The gain stage and meter of a programme that has left RUNNING by an underrun (R105, R124, R129). -/
def TakenBack (p : Fin 16) (b d : Body) : Prop :=
  d.gain p = (b.gain p).leaveRunning b.timing.sampleCounter ∧ d.meter p = (b.meter p).disturbClosed b.timing.sampleCounter

/-- Still RUNNING, with an output made there. -/
structure Sounds (p : Fin 16) (b d : Body) : Prop where
  state : (d.programme p).state = .running
  output : ((d.lane p).output).outside = false
  monitored : Monitored p b d

/-- Outside RUNNING, with the zeros of R69. -/
structure Silent (p : Fin 16) (b d : Body) : Prop where
  state : (d.programme p).state ≠ .running
  output : (d.lane p).output = silence (channels b p)

section
variable {e : Body} (hb : d.beyond = b.beyond)
include hb

theorem Monitored.after (h : Monitored p d e) : Monitored p b e :=
  ⟨h.1.trans (beyond_gain hb p), h.2.trans (beyond_meter hb p)⟩

theorem TakenBack.after (h : TakenBack p d e) : TakenBack p b e := by
  have timing : d.timing = b.timing := (congrArg Body.timing hb :)
  obtain ⟨gain, meter⟩ := h
  rw [beyond_gain hb, timing] at gain
  rw [beyond_meter hb, timing] at meter
  exact ⟨gain, meter⟩

theorem Sounds.after (h : Sounds p d e) : Sounds p b e := ⟨h.state, h.output, h.monitored.after hb⟩

end

theorem Silent.after {e : Body} (hs : d.sets = b.sets) (h : Silent p d e) : Silent p b e :=
  ⟨h.state, h.output.trans (congrArg silence (channels_of_sets hs p))⟩

theorem silentLane_outcome (hs : (b.programme p).state ≠ .running) :
    Silent p b (silentLane p b) ∧ Monitored p b (silentLane p b) :=
  ⟨⟨hs, congrArg Lane.output (silentLane_lane p b)⟩, rfl, rfl⟩

theorem runLane_outcome (hs : (b.programme p).state = .running) :
    Sounds p b (runLane p b) ∨ (Silent p b (runLane p b) ∧ TakenBack p b (runLane p b)) := by
  obtain ⟨⟨d, dry⟩, h⟩ : ∃ r, stepReader p b = r := ⟨_, rfl⟩
  have aside := stepped_aside h
  cases dry with
  | false =>
    have state : ((runLane p b).programme p).state = .running := by
      rw [runLane_stepped_programme h, memoryErrors_programme]
      exact hs
    refine .inl ⟨state, ?_, ?_⟩
    · rw [runLane_stepped_lane h]
      rfl
    · exact (LaneSampled.runLane p b).own state
  | true =>
    have channels : channels (underrun p d) p = channels b p := by
      rw [channels_of_sets (underrun_sets p d), channels_of_programme (aside_programme aside p)]
    have silenced := silentLane_aside p (underrun p d)
    have state := underrun_state p d
    obtain ⟨gain, meter⟩ := underrun_gain_meter p d
    rw [← beyond_gain (beyond_of_aside silenced)] at gain
    rw [← beyond_meter (beyond_of_aside silenced)] at meter
    rw [← aside_programme silenced] at state
    have output := congrArg Lane.output (silentLane_lane p (underrun p d))
    rw [channels] at output
    rw [runLane_of_dry h]
    exact .inr ⟨⟨state, output⟩, TakenBack.after (beyond_of_aside aside) ⟨gain, meter⟩⟩

section
variable (ht : (b.lane p).tail = none)
include ht

theorem settleTail_none : settleTail p b = b := settleTail_going (by rw [ht]; rfl)

theorem sampleLane_running (hs : (b.programme p).state = .running) : sampleLane p b = runLane p b := by
  unfold sampleLane
  simp only [settleTail_none ht, hs]

theorem sampleLane_enters (hs : (b.programme p).state = .priming) (h : primed b p = true) :
    sampleLane p b = runLane p (enterRunning p b) := by
  unfold sampleLane
  simp only [settleTail_none ht, hs, h, if_true]

theorem sampleLane_waits (hs : (b.programme p).state = .priming) (h : primed b p = false) :
    sampleLane p b = silentLane p b := by
  unfold sampleLane
  simp only [settleTail_none ht, hs, h, Bool.false_eq_true, if_false]

end

/-- What a house sample makes of a lane and of its programme's gain stage and meter: it runs; it was outside RUNNING and
stays there; or it ran, or came to run, and an underrun ended that. -/
theorem sampleLane_outcome (p : Fin 16) (b : Body) :
    Sounds p b (sampleLane p b) ∨
      (Silent p b (sampleLane p b) ∧ (b.programme p).state ≠ .running ∧ Monitored p b (sampleLane p b)) ∨
      (Silent p b (sampleLane p b) ∧ ((b.programme p).state = .running ∨ (b.programme p).state = .priming) ∧
        TakenBack p b (sampleLane p b)) := by
  have aside := settleTail_aside p b
  have beyond := beyond_of_aside aside
  have sets := settleTail_sets p b
  have state : ((settleTail p b).programme p).state = (b.programme p).state := by rw [aside_programme aside]
  unfold sampleLane
  simp only
  generalize settleTail p b = d at beyond sets state
  rw [← state]
  have runs (e : Body) (hb : e.beyond = b.beyond) (hs : e.sets = b.sets) (hr : (e.programme p).state = .running) :
      Sounds p b (runLane p e) ∨ (Silent p b (runLane p e) ∧ TakenBack p b (runLane p e)) :=
    (runLane_outcome hr).imp (Sounds.after hb) fun ⟨h1, h2⟩ => ⟨h1.after hs, h2.after hb⟩
  have quiet (h : (d.programme p).state ≠ .running) : Silent p b (silentLane p d) ∧ Monitored p b (silentLane p d) := by
    obtain ⟨h1, h2⟩ := silentLane_outcome h
    exact ⟨h1.after sets, h2.after beyond⟩
  split
  · rename_i h
    exact (runs d beyond sets h).imp id fun ⟨h1, h2⟩ => .inr ⟨h1, .inl h, h2⟩
  · rename_i h
    have out : (d.programme p).state ≠ .running := by rw [h]; decide
    split
    · rename_i hp
      obtain ⟨⟨src, hsrc, -⟩, -⟩ := primed_iff.1 hp
      have entered : ((enterRunning p d).programme p).state = .running := by rw [enterRunning_programme hsrc]
      exact (runs _ ((Beside.enterRunning p d).beyond.trans beyond) ((enterRunning_sets p d).trans sets) entered).imp id
        fun ⟨h1, h2⟩ => .inr ⟨h1, .inr h, h2⟩
    · obtain ⟨h1, h2⟩ := quiet out
      exact .inr (.inl ⟨h1, out, h2⟩)
  · rename_i h _
    obtain ⟨h1, h2⟩ := quiet h
    exact .inr (.inl ⟨h1, h, h2⟩)

end Sys2Proof.Machine
end

section
/-! Meter and gain stage in a house sample (R105, R124, R126, R131): the sixth layer under O12. -/

namespace Sys2Proof.Machine

variable {b : Body} {p : Fin 16} {st : Settings} {x y z : GainStage} {now : Count}

/-! ### The gain stage -/

/-- Gain, ramp and rider stand as in `y` one house sample on (R126). -/
def GainStage.StandsAs (z y : GainStage) : Prop :=
  z.applied = y.advance.applied ∧ z.ramp = y.advance.ramp ∧ z.g = y.g ∧ z.rider = y.rider ∧ z.desired = y.desired

theorem advance_limiter (x : GainStage) : x.advance.gr = x.gr ∧ x.advance.activations = x.activations := by
  unfold GainStage.advance
  split
  · exact ⟨rfl, rfl⟩
  · split <;> exact ⟨rfl, rfl⟩

/-- A gain stage one house sample on, with the output of its programme (R124). -/
def GainStage.sampled (x : GainStage) (now : Count) (st : Settings) (running : Bool) (samples : List Sample) : GainStage :=
  if running then (x.advanced now).limit st samples else { x.advanced now with output := samples.map fun _ => 0 }

theorem sampled_stands (x : GainStage) (now : Count) (st : Settings) (running : Bool) (samples : List Sample) :
    (x.sampled now st running samples).StandsAs x := by
  obtain ⟨g, rider, desired, -⟩ := advance_beside x
  cases running <;> exact ⟨rfl, rfl, g, rider, desired⟩

/-- The limiter's part of it touches nothing of that. -/
theorem StandsAs.unreduced {n : Nat} (h : z.StandsAs { y with gr := n }) : z.StandsAs y := by
  obtain ⟨applied, ramp, g, rider, desired⟩ := h
  obtain ⟨sameApplied, sameRamp⟩ := advance_congr (x := y) (y := { y with gr := n }) rfl rfl
  exact ⟨applied.trans sameApplied, ramp.trans sameRamp, g, rider, desired⟩

/-- In RUNNING the limiter settles the reduction for the frame, and counts where it comes in (R131). -/
theorem sampled_limits (x : GainStage) (now : Count) (st : Settings) (samples : List Sample) :
    let z := x.sampled now st true samples
    let settled := settleReduction (peakOf samples) z.applied (ceilingValue st.ceiling) st.limiterRelease x.gr
    z.gr = settled ∧
      z.activations = (if x.gr = 0 ∧ settled ≠ 0 then min 65535 (x.activations + 1) else x.activations) ∧
      z.output = samples.map (scaleSample z.applied z.gr) := by
  obtain ⟨gr, activations⟩ := advance_limiter x
  intro z settled
  have reduced : z.gr = settled :=
    congrArg (settleReduction (peakOf samples) z.applied (ceilingValue st.ceiling) st.limiterRelease) gr
  have counted : z.activations =
      if x.advance.gr = 0 ∧ z.gr ≠ 0 then bump x.advance.activations else x.advance.activations := rfl
  rw [gr, activations, reduced] at counted
  exact ⟨reduced, counted, rfl⟩

/-- Outside RUNNING it carries zeros (R124). -/
theorem sampled_silent (x : GainStage) (now : Count) (st : Settings) (samples : List Sample) :
    (x.sampled now st false samples).gr = x.gr ∧
      (x.sampled now st false samples).output = samples.map fun _ => 0 := ⟨(advance_limiter x).1, rfl⟩

theorem takeBack_all (h : x.judged.all (fun j => decide (j.sample ≠ now)) = true) : x.takeBack now = x := by
  rw [Option.all_eq_true] at h
  exact takeBack_away fun j hj => of_decide_eq_true (h j hj)

theorem disturbClosed_all {m : Meter} (h : m.closed.all (fun x => decide (x.sample ≠ now)) = true) :
    m.disturbClosed now = m := by
  rw [Option.all_eq_true] at h
  refine disturbClosed_away fun e => ?_
  obtain ⟨x, hx, hs⟩ := Option.map_eq_some_iff.1 e
  exact of_decide_eq_true (h x hx) hs

/-! ### The turn, block by block -/

theorem sampleMeter_own (ha : (b.programme p).active = some st) :
    (sampleMeter p b).meter p = (b.meter p).take st.layout (b.lane p).output := by
  unfold sampleMeter
  rw [ha]
  simp only [Body.onMeter_eq, Body.meter_setMeter_same]

theorem sampleMeter_vacant (ha : (b.programme p).active = none) : sampleMeter p b = b := by
  unfold sampleMeter
  rw [ha]

theorem sampleMeter_lanes (p : Fin 16) (b : Body) : (sampleMeter p b).lanes = b.lanes := by
  unfold sampleMeter
  split <;> rfl

theorem sampleGain_lanes (p : Fin 16) (b : Body) : (sampleGain p b).lanes = b.lanes := by
  unfold sampleGain
  simp only
  split <;> rfl

theorem sampleGain_own (ha : (b.programme p).active = some st) :
    (sampleGain p b).gain p =
      (b.gain p).sampled b.timing.sampleCounter st ((b.programme p).state == .running) (b.lane p).output.samples := by
  unfold sampleGain GainStage.sampled
  simp only [ha, Body.onGain_eq, Body.gain_setGain_same, beq_iff_eq]
  rfl

/-- Lane and programme record after the turn are those the lane's work leaves. -/
theorem sampleTurn_lane (p o : Fin 16) (b : Body) : (sampleTurn p b).lane o = (sampleLane p b).lane o :=
  congrArg (fun v : Vector Lane 16 => v[o]) ((sampleGain_lanes p _).trans (sampleMeter_lanes p _))

theorem sampleTurn_programme (p o : Fin 16) (b : Body) : (sampleTurn p b).programme o = (sampleLane p b).programme o :=
  congrArg (fun v : Vector Programme 16 => v[o]) ((sampleGain_parts p _).1.trans (sampleMeter_parts p _).1)

theorem sampleTurn_meter_vacant (ha : (b.programme p).active = none) :
    (sampleTurn p b).meter p = (sampleLane p b).meter p := by
  have active : ((sampleLane p b).programme p).active = none := (sets_programme (sampleLane_sets p b) p).1.trans ha
  refine (congrArg (fun v : Vector Meter 16 => v[p]) (sampleGain_parts p _).2.1 :).trans ?_
  rw [sampleMeter_vacant active]
  rfl

section
variable (ha : (b.programme p).active = some st)
include ha

theorem sampleTurn_meter :
    (sampleTurn p b).meter p = ((sampleLane p b).meter p).take st.layout ((sampleLane p b).lane p).output := by
  have active : ((sampleLane p b).programme p).active = some st := (sets_programme (sampleLane_sets p b) p).1.trans ha
  exact (congrArg (fun v : Vector Meter 16 => v[p]) (sampleGain_parts p _).2.1 :).trans (sampleMeter_own active)

theorem sampleTurn_gain :
    (sampleTurn p b).gain p = ((sampleLane p b).gain p).sampled b.timing.sampleCounter st
      (((sampleLane p b).programme p).state == .running) ((sampleLane p b).lane p).output.samples := by
  have programmes := (sampleMeter_parts p (sampleLane p b)).1
  have record : (sampleMeter p (sampleLane p b)).programme p = (sampleLane p b).programme p :=
    congrArg (fun v : Vector Programme 16 => v[p]) programmes
  have gain : (sampleMeter p (sampleLane p b)).gain p = (sampleLane p b).gain p :=
    congrArg (fun v : Vector GainStage 16 => v[p]) (sampleMeter_parts p (sampleLane p b)).2.1
  have lane : (sampleMeter p (sampleLane p b)).lane p = (sampleLane p b).lane p :=
    congrArg (fun v : Vector Lane 16 => v[p]) (sampleMeter_lanes p _)
  have timing : (sampleMeter p (sampleLane p b)).timing = b.timing :=
    fixed_timing ((sampleMeter_fixed ..).trans (sampleLane_fixed ..))
  have active : ((sampleLane p b).programme p).active = some st := (sets_programme (sampleLane_sets p b) p).1.trans ha
  have own := sampleGain_own (b := sampleMeter p (sampleLane p b)) (record ▸ active)
  rw [record, gain, lane, timing] at own
  exact own

end

/-! ### What the statement says of one programme -/

/-- A meter but for the report it owes. -/
def Meter.unowed (m : Meter) : Meter := { m with sceneResetOwed := none }

/-- The lane, the meter and the gain stage of a programme after its turn, `b` before it and `f` after (R69, R105, R124, R126,
R129, R131; log 44). -/
structure TurnTaken (p : Fin 16) (b f : Body) : Prop where
  silent : (f.programme p).state ≠ .running → (f.lane p).output = silence (channels b p)
  sounds : (f.programme p).state = .running → (f.lane p).output.outside = false
  vacant : (b.programme p).active = none → (b.programme p).state ≠ .running → (b.programme p).state ≠ .priming →
    (f.meter p).unowed = (b.meter p).unowed
  meter : ∀ st, (b.programme p).active = some st →
    let takes (y : Meter) : Prop := (f.meter p).unowed = (y.take st.layout (f.lane p).output).unowed
    ((f.programme p).state = .running → takes (b.meter p)) ∧
    ((b.programme p).state ≠ .running → (b.programme p).state ≠ .priming → takes (b.meter p)) ∧
    ((b.programme p).state = .running → (f.programme p).state ≠ .running →
      takes ((b.meter p).disturbClosed b.timing.sampleCounter)) ∧
    ((b.meter p).closed.all (fun c => decide (c.sample ≠ b.timing.sampleCounter)) = true → takes (b.meter p))
  gain : ∀ st, (b.programme p).active = some st →
    let x := b.gain p
    let z := f.gain p
    let samples := (f.lane p).output.samples
    let settled := settleReduction (peakOf samples) z.applied (ceilingValue st.ceiling) st.limiterRelease x.gr
    ((f.programme p).state = .running → z.StandsAs x ∧ z.gr = settled ∧
      z.activations = if x.gr = 0 ∧ settled ≠ 0 then min 65535 (x.activations + 1) else x.activations) ∧
    ((b.programme p).state ≠ .running → (b.programme p).state ≠ .priming → z.StandsAs x) ∧
    ((b.programme p).state = .running → (f.programme p).state ≠ .running →
      z.StandsAs (x.takeBack b.timing.sampleCounter) ∧ z.gr = 0) ∧
    (x.judged.all (fun j => decide (j.sample ≠ b.timing.sampleCounter)) = true → z.StandsAs x)
  scaled : ∀ st, (b.programme p).active = some st →
    let z := f.gain p
    let samples := (f.lane p).output.samples
    z.output = if (f.programme p).state = .running then samples.map (scaleSample z.applied z.gr) else samples.map fun _ => 0

section
variable {e f : Body} (hm : ∀ st, (b.programme p).active = some st →
    (f.meter p).unowed = ((e.meter p).take st.layout (f.lane p).output).unowed)
  (hg : ∀ st, (b.programme p).active = some st → f.gain p = (e.gain p).sampled b.timing.sampleCounter st
    ((f.programme p).state == .running) (f.lane p).output.samples)
  (hv : (b.programme p).active = none → (f.meter p).unowed = (e.meter p).unowed)
include hm hg hv

theorem TurnTaken.of_sounds (hs : (f.programme p).state = .running) (ho : (f.lane p).output.outside = false)
    (h : Monitored p b e) : TurnTaken p b f := by
  obtain ⟨gain, meter⟩ := h
  rw [gain, beq_iff_eq.2 hs] at hg
  rw [meter] at hm hv
  refine ⟨fun h => absurd hs h, fun _ => ho, fun hn _ _ => hv hn, fun st ha => ?_, fun st ha => ?_,
    fun st ha => ?_⟩
  · exact ⟨fun _ => hm st ha, fun _ _ => hm st ha, fun _ h => absurd hs h, fun _ => hm st ha⟩
  · intro x z samples settled
    have own : z = x.sampled b.timing.sampleCounter st true samples := hg st ha
    have stands : z.StandsAs x := own ▸ sampled_stands x _ st true samples
    obtain ⟨gr, activations, -⟩ := sampled_limits x b.timing.sampleCounter st samples
    rw [← own] at gr activations
    exact ⟨fun _ => ⟨stands, gr, activations⟩, fun _ _ => stands, fun _ h => absurd hs h, fun _ => stands⟩
  · intro z samples
    obtain ⟨-, -, output⟩ := sampled_limits (b.gain p) b.timing.sampleCounter st samples
    rw [← hg st ha] at output
    exact output.trans (if_pos hs).symm

theorem TurnTaken.of_silent (hs : (f.programme p).state ≠ .running) (ho : (f.lane p).output = silence (channels b p))
    (hb : (b.programme p).state ≠ .running) (h : Monitored p b e) : TurnTaken p b f := by
  obtain ⟨gain, meter⟩ := h
  rw [gain, beq_eq_false_iff_ne.2 hs] at hg
  rw [meter] at hm hv
  refine ⟨fun _ => ho, fun h => absurd h hs, fun hn _ _ => hv hn, fun st ha => ?_, fun st ha => ?_,
    fun st ha => ?_⟩
  · exact ⟨fun _ => hm st ha, fun _ _ => hm st ha, fun h => absurd h hb, fun _ => hm st ha⟩
  · intro x z samples settled
    have own : z = x.sampled b.timing.sampleCounter st false samples := hg st ha
    have stands : z.StandsAs x := own ▸ sampled_stands x _ st false samples
    exact ⟨fun h => absurd h hs, fun _ _ => stands, fun h => absurd h hb, fun _ => stands⟩
  · intro z samples
    have output := (sampled_silent (b.gain p) b.timing.sampleCounter st samples).2
    rw [← hg st ha] at output
    exact output.trans (if_neg hs).symm

omit hv in
theorem TurnTaken.of_underrun (hs : (f.programme p).state ≠ .running) (ho : (f.lane p).output = silence (channels b p))
    (hb : (b.programme p).state = .running ∨ (b.programme p).state = .priming) (h : TakenBack p b e) : TurnTaken p b f := by
  obtain ⟨gain, meter⟩ := h
  rw [gain, beq_eq_false_iff_ne.2 hs] at hg
  rw [meter] at hm
  have came (h1 : (b.programme p).state ≠ .running) (h2 : (b.programme p).state ≠ .priming) : False := hb.elim h1 h2
  refine ⟨fun _ => ho, fun h => absurd h hs, fun _ h1 h2 => (came h1 h2).elim, fun st ha => ?_, fun st ha => ?_,
    fun st ha => ?_⟩
  · refine ⟨fun h => absurd h hs, fun h1 h2 => (came h1 h2).elim, fun _ _ => hm st ha, fun h => ?_⟩
    have away := hm st ha
    rwa [disturbClosed_all h] at away
  · intro x z samples settled
    have own : z = (x.leaveRunning b.timing.sampleCounter).sampled b.timing.sampleCounter st false samples := hg st ha
    have stands : z.StandsAs (x.takeBack b.timing.sampleCounter) :=
      StandsAs.unreduced (own ▸ sampled_stands (x.leaveRunning b.timing.sampleCounter) _ st false samples)
    obtain ⟨gr, -⟩ := sampled_silent (x.leaveRunning b.timing.sampleCounter) b.timing.sampleCounter st samples
    rw [← own] at gr
    refine ⟨fun h => absurd h hs, fun h1 h2 => (came h1 h2).elim, fun _ _ => ⟨stands, gr⟩, fun h => ?_⟩
    rwa [takeBack_all h] at stands
  · intro z samples
    have output := (sampled_silent ((b.gain p).leaveRunning b.timing.sampleCounter) b.timing.sampleCounter st samples).2
    rw [← hg st ha] at output
    exact output.trans (if_neg hs).symm

end

/-- A turn is taken whatever becomes of the lane. -/
theorem sampleTurn_taken (p : Fin 16) (b : Body) : TurnTaken p b (sampleTurn p b) := by
  have outcome := sampleLane_outcome p b
  have lane := sampleTurn_lane p p b
  have record := sampleTurn_programme p p b
  have meter (st) (ha : (b.programme p).active = some st) := congrArg Meter.unowed (sampleTurn_meter ha)
  have vacant (hn : (b.programme p).active = none) := congrArg Meter.unowed (sampleTurn_meter_vacant hn)
  have gain (st) (ha : (b.programme p).active = some st) := sampleTurn_gain ha
  simp only [← lane, ← record] at meter gain
  rcases outcome with ⟨state, output, same⟩ | ⟨⟨state, output⟩, out, same⟩ | ⟨⟨state, output⟩, came, taken⟩
  all_goals rw [← record] at state; rw [← lane] at output
  · exact .of_sounds meter gain vacant state output same
  · exact .of_silent meter gain vacant state output out same
  · exact .of_underrun meter gain state output came taken

/-- The same of blocks that agree in what it reads. -/
theorem TurnTaken.congr {c f g : Body} (h : TurnTaken p c f) (hp : c.programme p = b.programme p) (hg : c.gain p = b.gain p)
    (hm : c.meter p = b.meter p) (hn : c.timing.sampleCounter = b.timing.sampleCounter)
    (state : (g.programme p).state = (f.programme p).state) (output : (g.lane p).output = (f.lane p).output)
    (gain : g.gain p = f.gain p) (meter : (g.meter p).unowed = (f.meter p).unowed) : TurnTaken p b g := by
  obtain ⟨h1, h2, h3, h4, h5, h6⟩ := h
  rw [channels_of_programme hp] at h1
  simp only [hp, hg, hm, hn] at h3 h4 h5 h6
  constructor
  · rw [state, output]
    exact h1
  · rw [state, output]
    exact h2
  · rw [meter]
    exact h3
  · simp only [state, output, meter]
    exact h4
  · simp only [state, output, gain]
    exact h5
  · simp only [state, output, gain]
    exact h6

end Sys2Proof.Machine
end

section
/-! The event HOUSE_SAMPLE as one programme sees it, and its first part: the seventh layer under O12. -/

namespace Sys2Proof.Machine

variable {s t : State} {b c : Body} {p : Fin 16}

/-- The blocks with the house sample owed counted as taken. -/
def Body.sampleCounted (b : Body) : Body := b.onTiming fun t => { t with samplesOwed := t.samplesOwed - 1 }

theorem sampleCounted_lane (b : Body) (p : Fin 16) : b.sampleCounted.lane p = b.lane p := rfl

theorem takeSample_eq (b : Body) : takeSample b = assemble (b.sampleCounted.eachProgramme sampleTurn) := rfl

theorem eachProgramme_sending (b : Body) : (b.eachProgramme sampleTurn).sending = b.sending :=
  List.foldlRecOn (motive := fun c : Body => c.sending = b.sending) programmeIds _ rfl fun c hc q _ =>
    (LaneAlone.sampleTurn q c).sending.trans hc

theorem assemble_outputMap (b : Body) : (assemble b).outputMap = b.outputMap := rfl
theorem assemble_sending (b : Body) : (assemble b).sending = b.sending := rfl
theorem assemble_lane (b : Body) (p : Fin 16) : (assemble b).lane p = b.lane p := rfl

theorem takeSample_outputMap (b : Body) : (takeSample b).outputMap = b.outputMap := by
  rw [takeSample_eq, assemble_outputMap,
    eachProgramme_outputMap _ sampleTurn fun q c => (LaneAlone.sampleTurn q c).map]
  rfl

theorem takeSample_sending (b : Body) : (takeSample b).sending = b.sending := by
  rw [takeSample_eq, assemble_sending, eachProgramme_sending]
  rfl

theorem takeSample_sets (b : Body) : (takeSample b).sets = b.sets := (samplePipeline_sets b.sampleCounted).trans rfl

theorem takeSample_fixed (b : Body) : (takeSample b).fixed = b.sampleCounted.fixed := samplePipeline_fixed b.sampleCounted

/-- Of what a house sample may not touch, the timing alone changes, in the count owed. -/
theorem takeSample_parts (b : Body) :
    (takeSample b).ports = b.ports ∧ (takeSample b).contacts = b.contacts ∧ (takeSample b).scenes = b.scenes ∧
      (takeSample b).entries = b.entries := by
  have fixed := takeSample_fixed b
  have ports : b.sampleCounted.ports = b.ports := rfl
  have contacts : b.sampleCounted.contacts = b.contacts := rfl
  have scenes : b.sampleCounted.scenes = b.scenes := rfl
  have entries : b.sampleCounted.entries = b.entries := rfl
  exact ⟨(fixed_ports fixed).trans ports, (fixed_contacts fixed).trans contacts, (fixed_scenes fixed).trans scenes,
    (fixed_entries fixed).trans entries⟩

/-- An event of the blocks, with the STATE reports that its function leaves owed. -/
theorem bodyEvent_stateDue (f : Body → Body) (s : State) :
    ∃ t, bodyEvent f s = .next t ∧ Becomes s (f s.body) t ∧
      ∀ p x, ((f s.body).programme p).stateOwed = some x → StateDue p x t := by
  obtain ⟨t, ht, hb⟩ := bodyEvent_becomes f s
  cases ht
  exact ⟨_, rfl, hb, fun p x hx => placeReports_stateDue (.inl hx)⟩

/-- A state the event leads to: the blocks have taken the house sample, and the STATE reports it raises are due. -/
structure HouseSampled (s t : State) : Prop where
  becomes : Becomes s (takeSample s.body) t
  due : ∀ p x, ((takeSample s.body).programme p).stateOwed = some x → StateDue p x t

theorem houseSample_event (h : s.body.timing.samplesOwed ≠ 0) : ∃ t, exec .houseSample s = .next t ∧ HouseSampled s t := by
  obtain ⟨t, ht, becomes, due⟩ := bodyEvent_stateDue houseSampleWork s
  rw [houseSampleWork_owed h] at becomes due
  exact ⟨t, ht, becomes, due⟩

/-- A lane known but for the report it owes and the mark of a grant. -/
theorem Lane.of_shown {l g m : Lane} (hg : g.ungranted = l.ungranted)
    (hm : { m with sceneDelayOwed := none } = { g with sceneDelayOwed := none }) :
    ∃ rr sc, m = { l with readRequest := rr, sceneDelayOwed := sc } ∧ (l.readRequest = none → rr = none) := by
  obtain ⟨rr, rfl, closed⟩ := Lane.of_ungranted hg
  exact ⟨rr, m.sceneDelayOwed, (congrArg (fun k : Lane => { k with sceneDelayOwed := m.sceneDelayOwed }) hm :), closed⟩

/-- The event as the programme `p` sees it: `c` are the blocks before its turn, in which its own stand as they did but for the
grant of its open read; after its turn they stand but for that, and for the reports owed. -/
structure HouseTurn (s t : State) (p : Fin 16) (c : Body) : Prop where
  programme : c.programme p = s.body.programme p
  gain : c.gain p = s.body.gain p
  meter : c.meter p = s.body.meter p
  lane : ∃ rr, c.lane p = { s.body.lane p with readRequest := rr }
  counter : c.timing.sampleCounter = s.body.timing.sampleCounter
  ports : c.ports = s.body.ports
  programmeAfter : { t.body.programme p with stateOwed := none } = { (sampleTurn p c).programme p with stateOwed := none }
  gainAfter : t.body.gain p = (sampleTurn p c).gain p
  meterAfter : { t.body.meter p with sceneResetOwed := none } = { (sampleTurn p c).meter p with sceneResetOwed := none }
  laneAfter : ∃ rr sc, t.body.lane p = { (sampleTurn p c).lane p with readRequest := rr, sceneDelayOwed := sc } ∧
    (((sampleTurn p c).lane p).readRequest = none → rr = none)
  due : ∀ x, ((sampleTurn p c).programme p).stateOwed = some x → StateDue p x t

theorem HouseSampled.turn (h : HouseSampled s t) (p : Fin 16) : ∃ c, HouseTurn s t p c := by
  obtain ⟨hb, due⟩ := h
  rw [takeSample_eq] at hb due
  obtain ⟨c, before, after⟩ := OthersTurns.around p s.body.sampleCounted
  have beforeLane := before.lane
  rw [sampleCounted_lane] at beforeLane
  have lane := hb.lane p
  have meter := hb.meter p
  have programme := hb.programme p
  have gain := hb.gain p
  have due := due p
  generalize s.body.sampleCounted.eachProgramme sampleTurn = g at lane meter programme gain due after
  obtain ⟨record, stage, loudness⟩ := assemble_parts (p := p) g
  have place := assemble_lane g p
  obtain ⟨rr, counted, -⟩ := Lane.of_ungranted beforeLane
  rw [record, after.programme] at programme due
  rw [place] at lane
  rw [stage, after.gain] at gain
  rw [loudness, after.meter] at meter
  have counter : c.timing.sampleCounter = s.body.sampleCounted.timing.sampleCounter :=
    congrArg Timing.sampleCounter (fixed_timing before.fixed)
  have ports : c.ports = s.body.sampleCounted.ports := fixed_ports before.fixed
  exact ⟨c, before.programme, before.gain, before.meter, ⟨rr, counted⟩, counter, ports, programme, gain, meter,
    Lane.of_shown after.lane lane, due⟩

end Sys2Proof.Machine
end

section
/-! What HOUSE_SAMPLE makes of every programme, and the frame of a port: the first and third parts of O12. -/

namespace Sys2Proof.Machine

variable {s t : State} {b c : Body} {p : Fin 16}

theorem HouseTurn.state (h : HouseTurn s t p c) : (t.body.programme p).state = ((sampleTurn p c).programme p).state :=
  (congrArg Programme.state h.programmeAfter :)

theorem HouseTurn.output (h : HouseTurn s t p c) : (t.body.lane p).output = ((sampleTurn p c).lane p).output := by
  obtain ⟨rr, sc, e, -⟩ := h.laneAfter
  rw [e]

/-- Each programme has taken its turn. -/
theorem HouseSampled.taken (h : HouseSampled s t) (p : Fin 16) : TurnTaken p s.body t.body := by
  obtain ⟨c, turn⟩ := h.turn p
  exact (sampleTurn_taken p c).congr turn.programme turn.gain turn.meter turn.counter turn.state turn.output turn.gainAfter
    turn.meterAfter

theorem slotOutput_congr (hs : ∀ p, (c.programme p).state = (b.programme p).state) (hg : ∀ p, c.gain p = b.gain p)
    (n : Option (Fin 16 × Nat)) : slotOutput c n = slotOutput b n := by
  unfold slotOutput
  split
  · rfl
  · rw [hs, hg]

/-- The frame formed, slot by slot (R133). -/
theorem HouseSampled.formed (h : HouseSampled s t) {n : Nat} (hn : n < s.body.outputMap.length) :
    t.body.formed[n]? = some (slotOutput t.body (s.body.outputMap.getD n none)) := by
  have slots : slotOutput t.body = slotOutput (takeSample s.body) :=
    funext (slotOutput_congr h.becomes.programme_state h.becomes.gain)
  have map := takeSample_outputMap s.body
  have formed : (takeSample s.body).formed = (takeSample s.body).outputMap.map (slotOutput (takeSample s.body)) := by
    rw [takeSample_eq]
    generalize s.body.sampleCounted.eachProgramme sampleTurn = g
    exact congrArg (List.map · g.outputMap) (funext fun n => (slotOutput_congr (fun _ => rfl) (fun _ => rfl) n).symm)
  rw [h.becomes.formed, formed, map, slots, List.getElem?_map, List.getElem?_eq_getElem hn, Option.map_some,
    List.getD_eq_getElem _ _ hn]

/-- What HOUSE_SAMPLE leaves of everything but lanes, meters, gain stages and the frame formed. -/
theorem HouseSampled.beside (h : HouseSampled s t) :
    t.body.timing = { s.body.timing with samplesOwed := s.body.timing.samplesOwed - 1 } ∧
      t.body.ports = s.body.ports ∧ t.body.contacts = s.body.contacts ∧ t.body.scenes = s.body.scenes ∧
      t.body.sets = s.body.sets ∧ t.body.outputMap = s.body.outputMap ∧ t.body.sending = s.body.sending ∧
      ∀ e : Fin 154, { t.body.entry e with reportOwed := false } = { s.body.entry e with reportOwed := false } := by
  have hb := h.becomes
  obtain ⟨ports, contacts, scenes, entries⟩ := takeSample_parts s.body
  refine ⟨hb.timing.trans (takeSample_timing _), hb.ports.trans ports, hb.contacts.trans contacts, hb.scenes.trans scenes,
    hb.sets.trans (takeSample_sets _), hb.outputMap.trans (takeSample_outputMap _),
    hb.sending.trans (takeSample_sending _), fun e => ?_⟩
  have entry : (takeSample s.body).entry e = s.body.entry e := congrArg (fun v : Vector Entry 154 => v[e]) entries
  rw [hb.entry e, entry]

/-! ### The frame of a port (R134) -/

theorem slotBits_length (x : Sample) : (slotBits x).length = 32 := by simp [slotBits]

/-- The bits of a slot: the sample, most significant bit first, and eight zeros. -/
theorem slotBits_getElem? (x : Sample) {j : Nat} (h : j < 32) :
    (slotBits x)[j]? = some (decide (j < 24) && x.getLsbD (23 - j)) := by
  unfold slotBits
  by_cases h24 : j < 24
  · rw [List.getElem?_append_left (by simpa using h24)]
    simp [h24]
  · rw [List.getElem?_append_right (by simpa using h24), List.getElem?_replicate, List.length_map, List.length_range,
      if_pos (by omega), decide_eq_false h24, Bool.false_and]

theorem flatMap_slotBits_length (xs : List Sample) : (xs.flatMap slotBits).length = 32 * xs.length := by
  induction xs with
  | nil => rfl
  | cons x xs ih =>
    rw [List.flatMap_cons, List.length_append, slotBits_length, ih, List.length_cons]
    omega

/-- Slot after slot, 32 bits each. -/
theorem flatMap_slotBits_getElem? (xs : List Sample) {i : Nat} (h : i < 32 * xs.length) :
    (xs.flatMap slotBits)[i]? = some (decide (i % 32 < 24) && (xs.getD (i / 32) 0).getLsbD (23 - i % 32)) := by
  induction xs generalizing i with
  | nil => simp at h
  | cons x xs ih =>
    rw [List.flatMap_cons]
    by_cases hi : i < 32
    · rw [List.getElem?_append_left (by rw [slotBits_length]; exact hi), slotBits_getElem? x hi, Nat.mod_eq_of_lt hi,
        Nat.div_eq_of_lt hi, List.getD_cons_zero]
    · rw [List.length_cons] at h
      obtain ⟨j, rfl⟩ : ∃ j, i = j + 32 := ⟨i - 32, by omega⟩
      rw [List.getElem?_append_right (by rw [slotBits_length]; omega), slotBits_length, Nat.add_sub_cancel,
        ih (by omega), Nat.add_mod_right, Nat.add_div_right _ (by decide), List.getD_cons_succ]

/-- The data line of an output port: 256 bit clocks, eight slots. -/
theorem portFrame_spec (b : Body) (q : Fin 8) (h : b.sending.length = 64) :
    (portFrame b q).length = 256 ∧ ∀ i : Nat, i < 256 → (portFrame b q)[i]? =
      some (decide (i % 32 < 24) && (b.sending.getD (8 * q.val + i / 32) 0).getLsbD (23 - i % 32)) := by
  have slots : ((b.sending.drop (8 * q.val)).take 8).length = 8 := by
    rw [List.length_take, List.length_drop, h]
    omega
  unfold portFrame
  refine ⟨by rw [flatMap_slotBits_length, slots], fun i hi => ?_⟩
  rw [flatMap_slotBits_getElem? _ (by rw [slots]; exact hi), List.getD_eq_getElem?_getD, List.getElem?_take_of_lt (by omega),
    List.getElem?_drop, ← List.getD_eq_getElem?_getD]

theorem frameSync_iff (i : Nat) : frameSync i = true ↔ i = 0 := beq_iff_eq

end Sys2Proof.Machine
end

section
/-! The lane of one programme after HOUSE_SAMPLE, by how its reader stepped: the last layer under O12. -/

namespace Sys2Proof.Machine

variable {s t : State} {b c d : Body} {p : Fin 16} {l : Lane} {x : RatioRecord} {rr : Option ReadRequest}

/-! ### The lanes that come of it -/

/-- A lane that has stepped `n` frames and sounded, with the window `w` to sound from (R66, R69). -/
def Lane.steppedBy (l : Lane) (n q : Nat) (w : List HeldFrame) : Lane := { l.incremented.consumed n q with window := w }

/-- The lane once its output is made: the fade-in one on. -/
def Lane.sounded (l : Lane) (c : Nat) : Lane := { l with fadeIn := l.fadeIn - 1, output := (l.produce c).1 }

/-- What an accumulator is left with. -/
theorem sub_div_mul (a q : Nat) : a - a / q * q = a % q := by
  have := Nat.div_add_mod' a q
  omega

/-- A lane in RUNNING whose reader has stepped to `k`, without a tail. -/
theorem runLane_steps {k : Lane} (h : stepReader p b = (b.setLane p k, false)) (ht : k.tail = none) :
    ∃ w rr, (runLane p b).lane p = { ({ k with window := w } : Lane).sounded (channels b p) with readRequest := rr } ∧
      (runLane p b).programme p =
        (memoryErrors p ((({ k with window := w } : Lane).produce (channels b p)).2.1.length * channels b p) b).programme p := by
  have sounds := runLane_sounds h
  rw [Body.lane_setLane_same] at sounds
  obtain ⟨w, rr, lane, record⟩ := sounds ht
  exact ⟨w, rr, lane, record⟩

/-- A lane in RUNNING without marks or tail, with enough in the line, whatever it holds in its window (R66, R69). -/
theorem runLane_full {w : List HeldFrame} {n : Nat} (hl : b.lane p = { l with window := w, readRequest := rr })
    (ht : l.tail = none) (hx : l.ratio = some x) (hq : 0 < x.q) (hm : l.marks = [])
    (hn : (l.acc + l.stepIncrement) / x.q = n) (ho : n = 0 ∨ n + 4 ≤ l.occupancy) :
    ∃ w rr, (runLane p b).lane p = { (l.steppedBy n x.q w).sounded (channels b p) with readRequest := rr } ∧
      (runLane p b).programme p =
        (memoryErrors p (((l.steppedBy n x.q w).produce (channels b p)).2.1.length * channels b p) b).programme p := by
  have stepped := stepReader_full (b := b) (p := p) (x := x)
  rw [hl] at stepped
  have stepped := stepped hx hq hm
  rw [show ({ l with window := w, readRequest := rr } : Lane).acc +
    ({ l with window := w, readRequest := rr } : Lane).stepIncrement = l.acc + l.stepIncrement from rfl, hn] at stepped
  obtain ⟨w', rr', lane, record⟩ := runLane_steps (stepped ho) ht
  exact ⟨w', rr', lane, record⟩

/-- Whether an underrun is reported as such, or as a lost source, does not turn on where the reader stands. -/
theorem underrunState_setLane {k : Lane} (h : k.source = (b.lane p).source) :
    underrunState (b.setLane p k) p = underrunState b p := by
  have locked : sourceLocked (b.setLane p k) p = sourceLocked b p :=
    sourceLocked_congr ((congrArg Lane.source (Body.lane_setLane_same b p k)).trans h) rfl
  unfold underrunState
  rw [locked]

theorem entered_occupancy {port : Fin 8} {q n : Nat} (h : n ≤ l.occupancy) : (l.entered port q n).occupancy = n := by
  have lt : l.occupancy < 2 ^ 32 := (l.writeSeq - l.readSeq).isLt
  show (l.writeSeq - (l.writeSeq - cnt n)).toNat = n
  rw [sub_sub_cancel]
  exact Nat.mod_eq_of_lt (Nat.lt_of_le_of_lt h lt)

/-! ### The lane's turn -/

section
variable (hl : b.lane p = { l with readRequest := rr }) (ht : l.tail = none)
include hl ht

section
variable (hs : (b.programme p).state = .running) (hx : l.ratio = some x) (hq : 0 < x.q)
include hs hx hq

/-- RUNNING, without marks, and with enough in the line. -/
theorem sampleLane_full {n : Nat} (hn : (l.acc + l.stepIncrement) / x.q = n) (hm : l.marks = [])
    (ho : n = 0 ∨ n + 4 ≤ l.occupancy) :
    ∃ w rr, (sampleLane p b).lane p = { (l.steppedBy n x.q w).sounded (channels b p) with readRequest := rr } ∧
      (sampleLane p b).programme p =
        (memoryErrors p (((l.steppedBy n x.q w).produce (channels b p)).2.1.length * channels b p) b).programme p := by
  rw [sampleLane_running (by rw [hl]; exact ht) hs]
  exact runLane_full (w := l.window) hl ht hx hq hm hn ho

/-- RUNNING, with the next frame that of the oldest mark. -/
theorem sampleLane_marked {k : SpliceMark} {rest : List SpliceMark} (hm : l.marks = k :: rest) (hk : k.seq = l.readSeq + 1)
    (h1 : 1 ≤ (l.acc + l.stepIncrement) / x.q) (ho : 5 ≤ l.occupancy) (hqk : 0 < markQ b k) :
    ∃ w rr n f, (sampleLane p b).lane p =
        { ({ (l.steppedBy 1 x.q w).takeMark k (markQ b k) with
            marks := rest, fadeIn := 64, setpoint := n, delayLimited := f } : Lane).sounded (channels b p) with
          readRequest := rr } ∧
      ∃ n, (sampleLane p b).programme p = (memoryErrors p n b).programme p := by
  have stepped := stepReader_marked (b := b) (p := p) (x := x) (k := k) (rest := rest)
  rw [hl] at stepped
  obtain ⟨n, f, stepped⟩ := stepped hx hq hm hk h1 ho hqk
  obtain ⟨w, rr', lane, record⟩ := runLane_steps stepped ht
  rw [sampleLane_running (by rw [hl]; exact ht) hs]
  exact ⟨w, rr', n, f, lane, _, record⟩

/-- RUNNING, without marks, and with too little in the line: an underrun. -/
theorem sampleLane_short (hm : l.marks = []) (h0 : (l.acc + l.stepIncrement) / x.q ≠ 0)
    (ho : l.occupancy < (l.acc + l.stepIncrement) / x.q + 4) :
    (∃ sp dl ov sc, (sampleLane p b).lane p = { (l.incremented.consumed (l.occupancy - 4) x.q).halted with
        change := none, setpoint := sp, delayLimited := dl, overrideFast := ov, sceneDelayOwed := sc
        output := silence (channels b p) }) ∧
      (sampleLane p b).programme p = { b.programme p with
        slips := bump (b.programme p).slips, state := (underrunState b p).1, stateOwed := some (underrunState b p).2 } := by
  have stepped := stepReader_short (b := b) (p := p) (x := x)
  rw [hl] at stepped
  have stepped := stepped hx hq hm h0 ho
  have state : underrunState (b.setLane p (({ l with readRequest := rr } : Lane).incremented.consumed
      (({ l with readRequest := rr } : Lane).occupancy - 4) x.q)) p = underrunState b p :=
    underrunState_setLane (congrArg Lane.source hl).symm
  rw [sampleLane_running (by rw [hl]; exact ht) hs, runLane_of_dry stepped]
  generalize hd : b.setLane p _ = d at state
  have lane : d.lane p = ({ l with readRequest := rr } : Lane).incremented.consumed
      (({ l with readRequest := rr } : Lane).occupancy - 4) x.q := by rw [← hd, Body.lane_setLane_same]
  have record : d.programme p = b.programme p := by rw [← hd]; rfl
  have channels : channels (underrun p d) p = channels b p := by
    rw [channels_of_sets (underrun_sets p d), channels_of_programme record]
  obtain ⟨sp, dl, ov, sc, after⟩ := underrun_lane p d
  rw [lane] at after
  constructor
  · rw [silentLane_lane, channels, after]
    exact ⟨sp, dl, ov, sc, rfl⟩
  · rw [aside_programme (silentLane_aside p (underrun p d)), underrun_programme, state, record]

end

section
variable (hs : (b.programme p).state = .priming)
include hs

/-- PRIMING, LOCKED and filled to the setpoint: it enters RUNNING and is stepped (R73). -/
theorem sampleLane_entered {src : Source} {q n k : Nat} (hsrc : l.source = some src)
    (hlock : (b.port src.port).tracker.state = .locked) (htq : (b.port src.port).tracker.q = some q) (hq : 0 < q)
    (hsp : l.setpoint = some n) (hn : n ≤ l.occupancy) (hm : l.marks = [])
    (hk : (q / 2 + 524288) / q = k) (ho : k = 0 ∨ k + 4 ≤ n) :
    ∃ w rr sp dl c, (sampleLane p b).lane p =
        { (({ l.entered src.port q n with setpoint := sp, delayLimited := dl } : Lane).steppedBy k q w).sounded c with readRequest := rr } ∧
      ∃ n, (sampleLane p b).programme p = { (memoryErrors p n b).programme p with
        state := .running, runningMark := true, ownMarks := (b.programme p).ownMarks.map fun x => (x.1, true)
        stateOwed := some .primed } := by
  have primed : primed b p = true := primed_iff.2 (by rw [hl]; exact ⟨⟨src, hsrc, hlock⟩, n, hsp, hn⟩)
  have entered := enterRunning_lane (b := b) (p := p) (src := src) (q := q) (n := n)
  have record := enterRunning_programme (b := b) (p := p) (src := src)
  rw [hl] at entered record
  obtain ⟨w, rr1, sp, dl, entered⟩ := entered hsrc htq hsp hn
  have record := record hsrc
  rw [sampleLane_enters (by rw [hl]; exact ht) hs primed]
  generalize enterRunning p b = e at entered record
  have occupancy := entered_occupancy (l := l) (port := src.port) (q := q) hn
  obtain ⟨w', rr', lane, after⟩ := runLane_full (l := { l.entered src.port q n with setpoint := sp, delayLimited := dl })
    (x := { port := src.port, q := q }) entered ht rfl hq hm hk (ho.imp_right fun h => h.trans (Nat.le_of_eq occupancy.symm))
  obtain ⟨i, after⟩ : ∃ i, (runLane p e).programme p = (memoryErrors p i e).programme p := ⟨_, after⟩
  exact ⟨w', rr', sp, dl, channels e p, lane, i, by
    rw [after, memoryErrors_programme, memoryErrors_programme, record]⟩

/-- PRIMING otherwise: it stays (R73). -/
theorem sampleLane_stays (h : (∀ src : Source, l.source = some src → (b.port src.port).tracker.state ≠ .locked) ∨
      l.setpoint = none ∨ ∃ n, l.setpoint = some n ∧ l.occupancy < n) :
    (sampleLane p b).lane p = { l with readRequest := rr, output := silence (channels b p) } ∧
      (sampleLane p b).programme p = b.programme p := by
  have waits : primed b p = false := by
    rw [Bool.eq_false_iff]
    intro hp
    obtain ⟨⟨src, hsrc, hlock⟩, n, hn, ho⟩ := primed_iff.1 hp
    rw [hl] at hsrc hn ho
    rcases h with h | h | ⟨k, hk, hlt⟩
    · exact h src hsrc hlock
    · cases hn.symm.trans h
    · cases hk.symm.trans hn
      exact absurd hlt (Nat.not_lt.2 ho)
  rw [sampleLane_waits (by rw [hl]; exact ht) hs waits, silentLane_lane, aside_programme (silentLane_aside p b), hl]
  exact ⟨rfl, rfl⟩

end

end

end Sys2Proof.Machine
end

section
/-! O12: HOUSE_SAMPLE. -/

namespace Sys2Proof.Machine

variable {s t : State} {b c : Body} {p : Fin 16} {l : Lane} {x : RatioRecord} {rr : Option ReadRequest} {sc : Option DelayReport}
  {st : Settings}

/-! ### Reading the state from the lane's turn -/

/-- The lane found after the event, from the one its turn left. -/
theorem HouseTurn.lane_found (h : HouseTurn s t p c) {k : Lane} (e : (sampleLane p c).lane p = k) :
    ∃ rr sc, t.body.lane p = { k with readRequest := rr, sceneDelayOwed := sc } ∧ (k.readRequest = none → rr = none) := by
  have after := h.laneAfter
  rw [sampleTurn_lane, e] at after
  exact after

/-- The record found after the event but for the report it owes, which is due. -/
theorem HouseTurn.record_found (h : HouseTurn s t p c) {r : Programme} (e : (sampleLane p c).programme p = r) :
    { t.body.programme p with stateOwed := none } = { r with stateOwed := none } ∧
      ∀ y, r.stateOwed = some y → StateDue p y t := by
  have after := h.programmeAfter
  have due := h.due
  rw [sampleTurn_programme, e] at after due
  exact ⟨after, due⟩

theorem HouseTurn.channels (h : HouseTurn s t p c) (ha : (s.body.programme p).active = some st) :
    channels c p = channelsOf st.layout := channels_eq (h.programme ▸ ha)

theorem HouseTurn.port (h : HouseTurn s t p c) (q : Fin 8) : c.port q = s.body.port q := by
  simp only [Body.port, h.ports]

theorem channelsOf_pos (y : Layout) : 0 < channelsOf y := by cases y <;> decide

/-- Memory errors come with each late frame, one for each channel (R58). -/
theorem memoryErrors_frames (p : Fin 16) (k : Nat) (y : Layout) (b : Body) :
    (memoryErrors p (k * channelsOf y) b).programme p = { b.programme p with
      memoryErrors := if k = 0 then (b.programme p).memoryErrors
        else min 65535 ((b.programme p).memoryErrors + k * channelsOf y)
      memorySeen := (b.programme p).memorySeen || k != 0 } := by
  have none : k * channelsOf y = 0 ↔ k = 0 := by
    rw [Nat.mul_eq_zero, or_iff_left (Nat.ne_of_gt (channelsOf_pos y))]
  have some : (k * channelsOf y != 0) = (k != 0) := by
    rw [Bool.eq_iff_iff, bne_iff_ne, bne_iff_ne, Ne, Ne, none]
  rw [memoryErrors_programme, some]
  simp only [none]

/-- Of the record, memory errors leave what is not their count. -/
theorem memoryErrors_beside (p : Fin 16) (n : Nat) (b : Body) :
    ((memoryErrors p n b).programme p).state = (b.programme p).state ∧
      ((memoryErrors p n b).programme p).slips = (b.programme p).slips := by
  rw [memoryErrors_programme]
  exact ⟨rfl, rfl⟩

theorem sourceLocked_iff :
    sourceLocked b p = true ↔ ∃ src : Source, (b.lane p).source = some src ∧ (b.port src.port).tracker.state = .locked := by
  unfold sourceLocked isLocked
  rw [Option.any_eq_true]
  simp only [beq_iff_eq]

theorem underrunState_locked (h : sourceLocked b p = true) : underrunState b p = (.priming, .underrun) := if_pos h

theorem underrunState_unlocked (h : ¬ sourceLocked b p = true) : underrunState b p = (.starved, .starved) := if_neg h

theorem underrunState_stopped (b : Body) (p : Fin 16) : (underrunState b p).1 ≠ .running := by
  unfold underrunState
  split <;> decide

/-! ### The lane that sounds -/

/-- At the start of its fade-in a lane sounds zeros, marked disturbed. -/
theorem sounded_faded {k : Lane} (ht : k.tail = none) (hf : k.fadeIn = 64) (n : Nat) :
    (k.sounded n).output = { samples := List.replicate n 0, disturbed := true, outside := false } ∧
      (k.sounded n).fadeIn = 63 := by
  refine ⟨produce_faded ht n hf, ?_⟩
  show k.fadeIn - 1 = 63
  rw [hf]

/-- What the steps of its reader and the sounding of a lane leave: writer and history start. -/
theorem steppedBy_beside (l : Lane) (n q i : Nat) (w : List HeldFrame) :
    (l.steppedBy n q w).fadeIn = l.fadeIn ∧ (l.steppedBy n q w).tail = l.tail ∧
      ((l.steppedBy n q w).sounded i).writeSeq = l.writeSeq ∧ ((l.steppedBy n q w).sounded i).historyStart = l.historyStart :=
  ⟨rfl, rfl, rfl, rfl⟩

/-- A lane that enters RUNNING sounds the first frame of its fade-in, its writer and history start where they were. -/
theorem entered_sounded (port : Fin 8) (q n k i : Nat) (sp : Option Nat) (dl : Bool) (w : List HeldFrame) (ht : l.tail = none) :
    let m := (({ l.entered port q n with setpoint := sp, delayLimited := dl } : Lane).steppedBy k q w).sounded i
    m.output = { samples := List.replicate i 0, disturbed := true, outside := false } ∧ m.fadeIn = 63 ∧
      m.writeSeq = l.writeSeq ∧ m.historyStart = l.historyStart := by
  obtain ⟨fade, tail, writer, start⟩ :=
    steppedBy_beside { l.entered port q n with setpoint := sp, delayLimited := dl } k q i w
  obtain ⟨output, fadeIn⟩ := sounded_faded (tail.trans ht) (fade.trans rfl) i
  exact ⟨output, fadeIn, writer, start⟩

/-! ### How the lane's reader stepped, as the event shows it -/

section
variable (turn : HouseTurn s t p c) (hl : c.lane p = { l with readRequest := rr }) (ht : l.tail = none)
  (ha : (s.body.programme p).active = some st)
include turn hl ht ha

section
variable (hs : (s.body.programme p).state = .running) (hx : l.ratio = some x) (hq : 0 < x.q)
include hs hx hq

/-- RUNNING without marks: the lane steps and sounds; each frame it lacks is a memory error in every channel. -/
theorem HouseTurn.steps {n : Nat} (hn : (l.acc + l.stepIncrement) / x.q = n) (hm : l.marks = [])
    (ho : n = 0 ∨ n + 4 ≤ l.occupancy) :
    ∃ w rr sc, let k := l.steppedBy n x.q w
      t.body.lane p = { k.sounded (channelsOf st.layout) with readRequest := rr, sceneDelayOwed := sc } ∧
      { t.body.programme p with stateOwed := none } = { s.body.programme p with
        stateOwed := none
        memoryErrors := if (k.round.filter k.lacks).length = 0 then (s.body.programme p).memoryErrors
          else min 65535 ((s.body.programme p).memoryErrors + (k.round.filter k.lacks).length * channelsOf st.layout)
        memorySeen := (s.body.programme p).memorySeen || (k.round.filter k.lacks).length != 0 } := by
  obtain ⟨w, rr', lane, record⟩ := sampleLane_full hl ht (turn.programme ▸ hs) hx hq hn hm ho
  have late := produce_late (l := l.steppedBy n x.q w) ht hm (channelsOf st.layout)
  rw [turn.channels ha, late, memoryErrors_frames, turn.programme] at record
  rw [turn.channels ha] at lane
  obtain ⟨rr2, sc, found, -⟩ := turn.lane_found lane
  exact ⟨w, rr2, sc, found, (turn.record_found record).1⟩

/-- RUNNING with the next frame that of the oldest mark: the mark is taken, and the fade-in starts (R98). -/
theorem HouseTurn.takes_mark {k : SpliceMark} {rest : List SpliceMark} (hm : l.marks = k :: rest)
    (hk : k.seq = l.readSeq + 1) (h1 : 1 ≤ (l.acc + l.stepIncrement) / x.q) (ho : 5 ≤ l.occupancy)
    (hqk : 0 < markQ s.body k) :
    (∃ w rr n f sc, t.body.lane p = { ({ (l.steppedBy 1 x.q w).takeMark k (markQ s.body k) with
        marks := rest, fadeIn := 64, setpoint := n, delayLimited := f } : Lane).sounded (channelsOf st.layout) with
        readRequest := rr, sceneDelayOwed := sc }) ∧
      (t.body.programme p).state = .running ∧ (t.body.programme p).slips = (s.body.programme p).slips := by
  have loaded := markQ_of_ports turn.ports k
  obtain ⟨w, rr', n, f, lane, i, record⟩ :=
    sampleLane_marked hl ht (turn.programme ▸ hs) hx hq hm hk h1 ho (loaded ▸ hqk)
  obtain ⟨state, slips⟩ := memoryErrors_beside p i c
  rw [loaded, turn.channels ha] at lane
  obtain ⟨rr2, sc, found, -⟩ := turn.lane_found lane
  obtain ⟨after, -⟩ := turn.record_found record
  rw [turn.programme] at state slips
  exact ⟨⟨w, rr2, n, f, sc, found⟩, (congrArg Programme.state after :).trans (state.trans hs),
    (congrArg Programme.slips after :).trans slips⟩

/-- RUNNING without marks and with too little in the line: an underrun (R80). -/
theorem HouseTurn.runs_dry (hm : l.marks = []) (h0 : (l.acc + l.stepIncrement) / x.q ≠ 0)
    (ho : l.occupancy < (l.acc + l.stepIncrement) / x.q + 4) :
    (∃ sp dl ov sc, t.body.lane p = { (l.incremented.consumed (l.occupancy - 4) x.q).halted with
        change := none, setpoint := sp, delayLimited := dl, overrideFast := ov, sceneDelayOwed := sc
        output := silence (channelsOf st.layout) }) ∧
      (t.body.programme p).state = (underrunState c p).1 ∧ StateDue p (underrunState c p).2 t ∧
      (t.body.programme p).slips = min 65535 ((s.body.programme p).slips + 1) := by
  obtain ⟨⟨sp, dl, ov, sc, lane⟩, record⟩ := sampleLane_short hl ht (turn.programme ▸ hs) hx hq hm h0 ho
  rw [turn.channels ha] at lane
  obtain ⟨rr2, sc', found, closed⟩ := turn.lane_found lane
  obtain rfl := closed rfl
  obtain ⟨after, due⟩ := turn.record_found record
  rw [turn.programme] at after
  exact ⟨⟨sp, dl, ov, sc', found⟩, (congrArg Programme.state after :), due _ rfl, (congrArg Programme.slips after :)⟩

end

section
variable (hs : (s.body.programme p).state = .priming)
include hs

omit ha in
/-- PRIMING, LOCKED and filled to the setpoint: it enters RUNNING and is stepped (R73). -/
theorem HouseTurn.enters {src : Source} {q n k : Nat} (hsrc : l.source = some src)
    (hlock : (s.body.port src.port).tracker.state = .locked) (htq : (s.body.port src.port).tracker.q = some q) (hq : 0 < q)
    (hsp : l.setpoint = some n) (hn : n ≤ l.occupancy) (hm : l.marks = [])
    (hk : (q / 2 + 524288) / q = k) (ho : k = 0 ∨ k + 4 ≤ n) :
    (∃ w rr sp dl i sc, t.body.lane p =
        { (({ l.entered src.port q n with setpoint := sp, delayLimited := dl } : Lane).steppedBy k q w).sounded i with readRequest := rr, sceneDelayOwed := sc }) ∧
      (t.body.programme p).state = .running ∧ (t.body.programme p).runningMark = true ∧ StateDue p .primed t ∧
      (t.body.programme p).slips = (s.body.programme p).slips := by
  rw [← turn.port] at hlock htq
  obtain ⟨w, rr', sp, dl, i, lane, j, record⟩ :=
    sampleLane_entered hl ht (turn.programme ▸ hs) hsrc hlock htq hq hsp hn hm hk ho
  obtain ⟨-, slips⟩ := memoryErrors_beside p j c
  obtain ⟨rr2, sc, found, -⟩ := turn.lane_found lane
  obtain ⟨after, due⟩ := turn.record_found record
  rw [turn.programme] at slips
  exact ⟨⟨w, rr2, sp, dl, i, sc, found⟩, (congrArg Programme.state after :), (congrArg Programme.runningMark after :),
    due _ rfl, (congrArg Programme.slips after :).trans slips⟩

omit ha in
/-- PRIMING otherwise: it stays (R73). -/
theorem HouseTurn.stays
    (h : (∀ src : Source, l.source = some src → (s.body.port src.port).tracker.state ≠ .locked) ∨
      l.setpoint = none ∨ ∃ n, l.setpoint = some n ∧ l.occupancy < n) :
    (t.body.programme p).state = .priming ∧ (t.body.lane p).readSeq = l.readSeq ∧ (t.body.lane p).output.outside = true := by
  simp only [← turn.port] at h
  obtain ⟨lane, record⟩ := sampleLane_stays hl ht (turn.programme ▸ hs) h
  obtain ⟨rr2, sc, found, -⟩ := turn.lane_found lane
  obtain ⟨after, -⟩ := turn.record_found (record.trans turn.programme)
  rw [found]
  exact ⟨(congrArg Programme.state after :).trans hs, rfl, rfl⟩

end

end

/-- Settles O12: what every programme and slot shows, by each programme's turn; the lane without a tail, by how its reader
stepped; the frame of a port, slot by slot. -/
theorem houseSample : Obligations.HouseSample := by
  unfold Obligations.HouseSample
  refine ⟨fun s ho => ?_, ?_, fun b q h => ?_⟩
  · obtain ⟨t, ht, h⟩ := houseSample_event ho
    obtain ⟨timing, ports, contacts, scenes, sets, map, sending, entries⟩ := h.beside
    refine ⟨t, ht, h.becomes.1, timing, ports, contacts, scenes, sets, map, sending, entries, fun p => ?_, fun n hn => ?_⟩
    · obtain ⟨silent, sounds, vacant, meter, gain, scaled⟩ := h.taken p
      have active := (sets_programme sets p).1
      rw [← channels_of_sets sets p] at silent
      rw [← active] at vacant
      simp only [← active] at meter gain scaled
      exact ⟨silent, sounds, vacant, fun st ha => ⟨meter st ha, gain st ha, scaled st ha⟩⟩
    · exact h.formed hn
  · intro s p st l r c ho ha ht
    obtain ⟨t, hexec, h⟩ := houseSample_event ho
    obtain ⟨b, turn⟩ := h.turn p
    have own : s.body.lane p = l := rfl
    clear_value l
    obtain ⟨rr, hl⟩ := turn.lane
    rw [own] at hl
    refine ⟨fun x hs hx hq => ?_, fun hs => ⟨?_, ?_⟩⟩
    · intro acc n
      refine ⟨fun hm hn => ⟨t, hexec, ?_⟩, ?_, fun hm h0 hlt => ⟨t, hexec, ?_⟩⟩
      · obtain ⟨w, rr', sc, found, record⟩ := turn.steps hl ht ha hs hx hq rfl hm hn
        have samples := produce_samples (l := l.steppedBy n x.q w) ht hm hx c
        have disturbed := produce_disturbed (l := l.steppedBy n x.q w) ht hm c
        rw [found]
        exact ⟨(congrArg Programme.state record :).trans hs, rfl, sub_div_mul acc x.q, hx, rfl, rfl, rfl, hm, ht, rfl,
          (congrArg Programme.slips record :), samples, disturbed, (congrArg Programme.memoryErrors record :),
          (congrArg Programme.memorySeen record :)⟩
      · intro k rest q hm hk h1 h5 hqk
        refine ⟨t, hexec, ?_⟩
        have loaded : markQ s.body k = q := markQ_eq s.body k
        obtain ⟨⟨w, rr', i, f, sc, found⟩, state, slips⟩ := turn.takes_mark hl ht ha hs hx hq hm hk h1 h5 (loaded ▸ hqk)
        rw [loaded] at found
        obtain ⟨output, fade⟩ := sounded_faded (k := { (l.steppedBy 1 x.q w).takeMark k q with
          marks := rest, fadeIn := 64, setpoint := i, delayLimited := f }) ht rfl c
        rw [found]
        exact ⟨state, hk.symm, rfl, rfl, rfl, rfl, fade, rfl, congrArg LaneOutput.samples output,
          congrArg LaneOutput.disturbed output, slips⟩
      · obtain ⟨⟨sp, dl, ov, sc, found⟩, state, due, slips⟩ := turn.runs_dry hl ht ha hs hx hq hm h0 hlt
        have locked : sourceLocked b p = true ↔
            ∃ src : Source, l.source = some src ∧ (s.body.port src.port).tracker.state = .locked := by
          simp only [sourceLocked_iff, hl, turn.port]
        have primes := fun hlock => underrunState_locked (locked.2 hlock)
        have starves := fun hlock => underrunState_unlocked (mt locked.1 hlock)
        have stopped : (t.body.programme p).state ≠ .running := state.trans_ne (underrunState_stopped b p)
        obtain ⟨-, -, leaves, -⟩ := (h.taken p).gain st ha
        obtain ⟨-, reduction⟩ := leaves hs stopped
        rw [found]
        exact ⟨fun hlock => by rw [primes hlock] at state due; exact ⟨state, due⟩,
          fun hlock => by rw [starves hlock] at state due; exact ⟨state, due⟩, rfl, rfl, rfl, rfl, slips, rfl, rfl, rfl, rfl,
          rfl, rfl, rfl, rfl, rfl, reduction⟩
    · intro src q n hsrc hlock htq hq hsp hn hm k ho
      have hk : (q / 2 + 524288) / q = k := rfl
      clear_value k
      obtain ⟨⟨w, rr', sp, dl, i, sc, found⟩, state, mark, due, slips⟩ := turn.enters hl ht hs hsrc hlock htq hq hsp hn hm hk
        ho
      obtain ⟨output, fade, writer, start⟩ := entered_sounded src.port q n k i sp dl w ht
      refine ⟨t, hexec, ?_⟩
      rw [found]
      exact ⟨state, mark, due, rfl, rfl, rfl, hk ▸ sub_div_mul (q / 2 + 524288) q, fade, writer, start, rfl,
        congrArg LaneOutput.disturbed output, slips⟩
    · exact fun hw => ⟨t, hexec, turn.stays hl ht hs hw⟩
  · obtain ⟨length, bits⟩ := portFrame_spec b q h
    exact ⟨length, bits, frameSync_iff⟩

end Sys2Proof.Machine
end

section
/-! O10: CUT_MADE. Where a cut moves the reader, and what it leaves of the lane (R76 to R78). -/

namespace Sys2Proof.Machine

variable {s t : State} {b : Body} {p : Fin 16} {c : DelayChange} {r : RatioRecord} {line : Line} {d : Boundary} {l k : Lane}

/-! ### The lane aimed at the change's target -/

/-- A lane aimed at a delay, with the setpoint that follows (R71). -/
def Lane.aimedAt (l : Lane) (target : Nat) (sp : Nat × Bool) : Lane :=
  { l with target := target, setpoint := some sp.1, delayLimited := sp.2 }

/-- The setpoint of a RUNNING lane follows its ratio record (R71). -/
theorem refreshSetpoint_running (hs : (b.programme p).state = .running) (hl : (b.programme p).line = some line)
    (hr : (b.lane p).ratio = some r) :
    refreshSetpoint p b =
      b.setLane p ((b.lane p).aimedAt (b.lane p).target (setpointFor (b.lane p).target r.q line)) := by
  unfold refreshSetpoint setpointQ
  rw [hs, hl, hr]
  rfl

/-! ### The reader moved -/

/-- Without marks the reader moves and nothing else of the lane does (R99). -/
theorem moveReader_unmarked (hm : (b.lane p).marks = []) (dest : Count) :
    moveReader p dest b = b.setLane p { b.lane p with readSeq := dest, marks := [] } := by
  have none : (b.lane p).passed dest = [] := by
    unfold Lane.passed
    rw [hm]
    exact ite_self []
  unfold moveReader
  simp only [none, List.getLast?_nil, Body.onLane_eq, hm]
  rfl

/-- A lane whose reads have been pumped, known but for its window and its read request (R67). -/
theorem pumped_lane (p : Fin 16) (b : Body) (k : Lane) :
    ∃ w rr, (pumpReads p (b.setLane p k)).lane p = { k with window := w, readRequest := rr } := by
  have pumped := pumpReads_lane p p (b.setLane p k)
  rw [Body.lane_setLane_same] at pumped
  exact ⟨_, _, lane_of_unread pumped⟩

/-- The lane of a cut that moves its reader to `dest`, the old place kept in a fade tail (R76, R77, R78). -/
def Lane.cutTo (l : Lane) (c : DelayChange) (r : RatioRecord) (dest : Count) (floored : Bool) : Lane :=
  { l.withTail r with
    readSeq := dest, marks := [], change := some { c with phase := .tail, floored := floored }
    overrideFast := l.overrideFast || floored }

theorem makeTail_setLane (hr : k.ratio = some r) : makeTail p (b.setLane p k) = b.setLane p (k.withTail r) := by
  have own : (b.setLane p k).lane p = k := Body.lane_setLane_same ..
  rw [makeTail_ratio (own.symm ▸ hr), own, setLane_setLane]

theorem moveReader_setLane (hm : k.marks = []) (dest : Count) :
    moveReader p dest (b.setLane p k) = b.setLane p { k with readSeq := dest, marks := [] } := by
  have own : (b.setLane p k).lane p = k := Body.lane_setLane_same ..
  rw [moveReader_unmarked (own.symm ▸ hm), own, setLane_setLane]

section
variable {n : Nat} {sp : Nat × Bool} (hs : (b.programme p).state = .running) (hl : (b.programme p).line = some line)
  (hr : (b.lane p).ratio = some r)
include hs hl hr

theorem refreshSetpoint_aimed (hsp : setpointFor n r.q line = sp) :
    refreshSetpoint p (b.onLane p fun l => { l with target := n }) = b.setLane p ((b.lane p).aimedAt n sp) := by
  have own : (b.onLane p fun l => { l with target := n }).lane p = { b.lane p with target := n } :=
    Body.lane_setLane_same ..
  rw [refreshSetpoint_running (b := b.onLane p fun l => { l with target := n }) hs hl (by rw [own]; exact hr), own, hsp]
  exact setLane_setLane ..

/-- A cut aims the lane first. Where the reader already stands at the new place the change is complete, otherwise the reader
moves there, or to the floor (R76, R78). -/
theorem makeCut_eq (hsp : setpointFor c.target r.q line = sp) (hm : (b.lane p).marks = []) :
    makeCut p c b =
      (let l := (b.lane p).aimedAt c.target sp
       let dest := l.writeSeq - cnt sp.1
       let floored := seqBefore dest l.readSeq && seqBefore dest (cutFloor l line)
       if dest = l.readSeq then endChange p .success (b.setLane p l)
       else pumpReads p (b.setLane p (l.cutTo c r (if floored then cutFloor l line else dest) floored))) := by
  have aimed := refreshSetpoint_aimed hs hl hr hsp
  unfold makeCut
  simp only [aimed, Body.lane_setLane_same, Body.programme_setLane, hl]
  generalize hk : (b.lane p).aimedAt c.target sp = k
  have setpoint : k.setpoint = some sp.1 := by rw [← hk]; rfl
  have tailed : makeTail p (b.setLane p k) = b.setLane p (k.withTail r) :=
    makeTail_setLane (by rw [← hk]; exact hr)
  have moved (dest : Count) : moveReader p dest (b.setLane p (k.withTail r)) =
      b.setLane p { k.withTail r with readSeq := dest, marks := [] } :=
    moveReader_setLane (by rw [← hk]; exact hm) dest
  simp only [setpoint, tailed, moved, Body.onLane_eq, Body.lane_setLane_same, setLane_setLane]
  rfl

end

/-! ### The event -/

/-- A lane after an event, known but for the report it owes. -/
theorem Becomes.lane_owing (h : Becomes s b t) (e : b.lane p = k) :
    ∃ sc, t.body.lane p = { k with sceneDelayOwed := sc } :=
  ⟨(t.body.lane p).sceneDelayOwed, e ▸
    (congrArg (fun m : Lane => { m with sceneDelayOwed := (t.body.lane p).sceneDelayOwed }) (h.lane p) :)⟩

/-- CUT_MADE at an open boundary, of a change that is DUE there, with no tail active: the blocks as the cut leaves them, and the
boundary marked (R76; log 9). -/
theorem cutMade_becomes (hd : s.body.timing.boundary = some d) (hp : p ∉ d.cut) (hc : (s.body.lane p).change = some c)
    (hdue : c.phase = .due) (hb : c.boundary ≠ d.frame) (ht : (s.body.lane p).tail = none) :
    ∃ t, exec (.cutMade p) s = .next t ∧
      Becomes s (mark (fun d => { d with cut := p :: d.cut }) (makeCut p c (enterBoundary d s.body))) t := by
  have fresh : d.cut.contains p = false := by simpa using hp
  have due : ((s.body.lane p).change.any fun c => c.phase = .due && c.boundary != d.frame) = true := by
    rw [hc]
    simp [hdue, hb]
  have made : cutDue p d.frame (enterBoundary d s.body) = makeCut p c (enterBoundary d s.body) := by
    have change : ((enterBoundary d s.body).lane p).change = some c := hc
    have tail : ((enterBoundary d s.body).lane p).tail = none := ht
    unfold cutDue
    simp only [settleTail_none tail, change, hdue, hb, tail, ne_eq, not_false_eq_true, and_self, if_true]
  refine bodyEvent_result ?_
  unfold cutMadeWork cutPiece
  simp only [hd, due, fresh, ht, made, Option.all_none, Bool.not_false, Bool.and_self, if_true, Bool.false_eq_true, if_false]

/-- What a cut makes of a lane: aimed at the change's target, its reader at the new place, moved there, or moved to the floor
(R76, R77, R78). -/
structure IsCut (l : Lane) (c : DelayChange) (r : RatioRecord) (line : Line) (sp : Nat × Bool) (m : Lane) : Prop where
  target : m.target = c.target
  setpoint : m.setpoint = some sp.1
  limited : m.delayLimited = sp.2
  acc : m.acc = l.acc
  written : m.writeSeq = l.writeSeq
  stands : l.writeSeq - cnt sp.1 = l.readSeq → m.change = none ∧ m.tail = none ∧ m.readSeq = l.readSeq
  moves : l.writeSeq - cnt sp.1 ≠ l.readSeq →
    let dest := l.writeSeq - cnt sp.1
    let floored := seqBefore dest l.readSeq && seqBefore dest (cutFloor l line)
    m.readSeq = (if floored then cutFloor l line else dest) ∧
      m.tail = some { readSeq := l.readSeq, acc := l.acc, q := r.q, remaining := 64, stop := none
                      historyStart := l.historyStart } ∧
      m.change = some { c with phase := .tail, floored := floored } ∧ m.overrideFast = (l.overrideFast || floored)

/-- The lane after that event. -/
theorem cutMade_lane {f : Boundary → Boundary} {sp : Nat × Bool}
    (h : Becomes s (mark f (makeCut p c (enterBoundary d s.body))) t) (hsp : setpointFor c.target r.q line = sp)
    (hs : (s.body.programme p).state = .running) (hl : (s.body.programme p).line = some line)
    (hr : (s.body.lane p).ratio = some r) (hm : (s.body.lane p).marks = []) (ht : (s.body.lane p).tail = none) :
    IsCut (s.body.lane p) c r line sp (t.body.lane p) := by
  have cut := makeCut_eq (b := enterBoundary d s.body) (p := p) (c := c) hs hl hr hsp hm
  have own : (enterBoundary d s.body).lane p = s.body.lane p := rfl
  rw [own] at cut
  generalize s.body.lane p = l at cut hm ht
  generalize hfloored : (seqBefore (l.writeSeq - cnt sp.1) l.readSeq &&
    seqBefore (l.writeSeq - cnt sp.1) (cutFloor l line)) = floored
  by_cases there : l.writeSeq - cnt sp.1 = l.readSeq
  · obtain ⟨ov, sc, ended⟩ := endChange_lane p .success ((enterBoundary d s.body).setLane p (l.aimedAt c.target sp))
    rw [Body.lane_setLane_same] at ended
    obtain ⟨sc, found⟩ := h.lane_owing ((congrArg (Body.lane · p) (cut.trans (if_pos there)) :).trans ended)
    rw [found]
    exact ⟨rfl, rfl, rfl, rfl, rfl, fun _ => ⟨rfl, ht, rfl⟩, (absurd there ·)⟩
  · obtain ⟨w, rr, moved⟩ := pumped_lane p (enterBoundary d s.body)
      ((l.aimedAt c.target sp).cutTo c r (if floored then cutFloor l line else l.writeSeq - cnt sp.1) floored)
    rw [← hfloored] at moved
    obtain ⟨sc, found⟩ := h.lane_owing ((congrArg (Body.lane · p) (cut.trans (if_neg there)) :).trans moved)
    have tail : ((l.aimedAt c.target sp).withTail r).tail = some
        { readSeq := l.readSeq, acc := l.acc, q := r.q, remaining := 64, stop := none, historyStart := l.historyStart } := by
      unfold Lane.withTail
      rw [show (l.aimedAt c.target sp).marks = [] from hm]
      rfl
    rw [found]
    exact ⟨rfl, rfl, rfl, rfl, rfl, (absurd · there), fun _ => ⟨rfl, tail, rfl, rfl⟩⟩

/-- Settles O10: the event is the cut of the lane in the boundary's body, whose reader stands at the new place or moves. -/
theorem cutMade : Obligations.CutMade := by
  unfold Obligations.CutMade
  intro s p d c r line l sp dest floored hd hp hc hdue hb ht hm hr hl hs
  obtain ⟨t, hexec, becomes⟩ := cutMade_becomes hd hp hc hdue hb ht
  have fixed := makeCut_fixed p c (enterBoundary d s.body)
  have counter : t.body.timing.frameCounter = d.frame := by
    rw [becomes.timing, mark_timing, show (makeCut p c (enterBoundary d s.body)).timing = _ from fixed_timing fixed]
    rfl
  have sets : t.body.sets = s.body.sets := becomes.sets.trans (makeCut_sets p c (enterBoundary d s.body))
  have ports : t.body.ports = s.body.ports := becomes.ports.trans ((mark_ports ..).trans (fixed_ports fixed :))
  have contacts : t.body.contacts = s.body.contacts :=
    becomes.contacts.trans ((mark_contacts ..).trans (fixed_contacts fixed :))
  obtain ⟨target, setpoint, limited, acc, written, stands, moves⟩ := cutMade_lane (sp := sp) becomes rfl hs hl hr hm ht
  exact ⟨t, hexec, becomes.1, counter, target, setpoint, limited, acc, written, stands, moves, sets, ports, contacts⟩

end Sys2Proof.Machine
end

section
/-! The delay changes that a regulation tick ends, and the operations they tell of it (R72, R75, R77): the layer under O14. -/

namespace Sys2Proof.Machine

variable {s t : State} {b c d : Body} {p q : Fin 16}

/-! ### Operations that end with SUCCESS -/

/-- A deferred table whose operations in flight of the tags `ends` have completed with SUCCESS (R180). -/
def succeeded (ends : Byte → Bool) (l : List Deferred) : List Deferred :=
  l.map fun d => if ends d.tag && d.complete.isNone then { d with complete := some (.success, []) } else d

theorem succeeded_none (l : List Deferred) : succeeded (fun _ => false) l = l := by
  simp [succeeded]

/-- Tags ended one after another are tags ended together. -/
theorem succeeded_succeeded (f g : Byte → Bool) (l : List Deferred) :
    succeeded g (succeeded f l) = succeeded (fun t => f t || g t) l := by
  unfold succeeded
  rw [List.map_map]
  refine List.map_congr_left fun d _ => ?_
  cases hf : f d.tag <;> cases hc : d.complete <;> simp [hf, hc]

theorem succeeded_tags (f : Byte → Bool) (l : List Deferred) : (succeeded f l).map Deferred.tag = l.map Deferred.tag := by
  unfold succeeded
  rw [List.map_map]
  refine List.map_congr_left fun d _ => ?_
  simp only [Function.comp_apply]
  split <;> rfl

theorem mem_succeeded {f : Byte → Bool} {l : List Deferred} {x : Deferred} (hx : x ∈ l) (hc : x.complete = none)
    (hf : f x.tag = true) : { x with complete := some (.success, []) } ∈ succeeded f l :=
  List.mem_map.2 ⟨x, hx, if_pos (by simp [hf, hc])⟩

/-- The operations still in flight are those of other tags. -/
theorem succeeded_inFlight (f : Byte → Bool) (l : List Deferred) :
    (succeeded f l).filter (fun d => d.complete.isNone) = (l.filter fun d => !f d.tag).filter fun d => d.complete.isNone := by
  induction l with
  | nil => rfl
  | cons d l ih =>
    have head : succeeded f (d :: l) =
        (if f d.tag && d.complete.isNone then { d with complete := some (.success, []) } else d) :: succeeded f l := rfl
    rw [head, List.filter_cons, List.filter_cons, ih]
    cases f d.tag <;> cases hc : d.complete <;> simp [hc]

theorem completeTag_succeeded (tag : Byte) (b : Body) :
    (completeTag tag .success [] b).line.deferred = succeeded (fun t => t = tag) b.line.deferred := by
  refine List.map_congr_left fun d _ => ?_
  simp

/-! ### Work of one lane that may end its delay change -/

/-- The operation of a tag ended with the change that it asked for. -/
def endedWith (old new : Option DelayChange) (t : Byte) : Bool :=
  old.any (fun c => c.origin = some (.operation t)) && new.isNone

/-- The blocks without the lanes and the operations deferred. -/
def Body.unlaned (b : Body) : Body := { b with lanes := .replicate 16 {}, line := { b.line with deferred := [] } }

/-- Work of the lanes of some programmes: the others stand, and so do the blocks beside lanes and deferred table. The
operations of the changes that end, and no others, complete with SUCCESS. -/
structure ChangesEnd (ps : List (Fin 16)) (b c : Body) : Prop where
  rest : c.unlaned = b.unlaned
  lane : ∀ o, o ∉ ps → c.lane o = b.lane o
  deferred : c.line.deferred =
    succeeded (fun t => ps.any fun p => endedWith (b.lane p).change (c.lane p).change t) b.line.deferred

/-- Such work of one lane, which puts no other change in the place of the one it finds. -/
structure ChangeEnds (p : Fin 16) (b c : Body) : Prop where
  rest : c.unlaned = b.unlaned
  lane : ∀ o, o ≠ p → c.lane o = b.lane o
  origin : (c.lane p).change = none ∨
    (c.lane p).change.map DelayChange.origin = (b.lane p).change.map DelayChange.origin
  deferred : c.line.deferred = succeeded (endedWith (b.lane p).change (c.lane p).change) b.line.deferred

theorem endedWith_some (x : Option DelayChange) (y : DelayChange) : endedWith x (some y) = fun _ => false :=
  funext fun _ => Bool.and_false _

/-- Which operation ends turns on the origin of the change found. -/
theorem endedWith_congr {x y : Option DelayChange} (h : y.map DelayChange.origin = x.map DelayChange.origin)
    (z : Option DelayChange) : endedWith y z = endedWith x z := by
  have any (x : Option DelayChange) (t : Byte) : x.any (fun c => c.origin = some (.operation t)) =
      (x.map DelayChange.origin).any fun o => o = some (.operation t) := by cases x <;> rfl
  funext t
  unfold endedWith
  rw [any, any, h]

/-- A change without an operation ends none. -/
theorem endedWith_untold {x : DelayChange} (h : ∀ t, x.origin ≠ some (.operation t)) (y : Option DelayChange) :
    endedWith (some x) y = fun _ => false :=
  funext fun t => by simp [endedWith, h t]

theorem ChangeEnds.of_still (hr : c.unlaned = b.unlaned) (hl : ∀ o, o ≠ p → c.lane o = b.lane o)
    (ho : (c.lane p).change.map DelayChange.origin = (b.lane p).change.map DelayChange.origin)
    (hd : c.line.deferred = b.line.deferred) : ChangeEnds p b c := by
  refine ⟨hr, hl, .inr ho, ?_⟩
  have none : endedWith (b.lane p).change (c.lane p).change = fun _ => false := by
    rw [← endedWith_congr ho]
    cases (c.lane p).change with
    | none => rfl
    | some y => exact endedWith_some _ y
  rw [none, succeeded_none, hd]

theorem ChangeEnds.refl (p : Fin 16) (b : Body) : ChangeEnds p b b := .of_still rfl (fun _ _ => rfl) rfl rfl

/-- A lane that keeps its change, or the origin of it. -/
theorem ChangeEnds.onLane {f : Lane → Lane}
    (h : (f (b.lane p)).change.map DelayChange.origin = (b.lane p).change.map DelayChange.origin) :
    ChangeEnds p b (b.onLane p f) := by
  refine .of_still rfl (fun o ho => ?_) ?_ rfl
  · rw [Body.onLane_eq, Body.lane_setLane, if_neg ho.symm]
  · rw [Body.onLane_eq, Body.lane_setLane_same]
    exact h

theorem ChangeEnds.trans (h : ChangeEnds p b c) (h' : ChangeEnds p c d) : ChangeEnds p b d := by
  obtain ⟨rest, lane, origin, deferred⟩ := h
  obtain ⟨rest', lane', origin', deferred'⟩ := h'
  refine ⟨rest'.trans rest, fun o ho => (lane' o ho).trans (lane o ho), ?_, ?_⟩
  · rcases origin' with h | h
    · exact .inl h
    · rcases origin with h0 | h0
      · left
        rw [h0] at h
        simpa using h
      · exact .inr (h.trans h0)
  · rw [deferred', deferred, succeeded_succeeded]
    congr 1
    funext t
    rcases origin with h0 | h0
    · have none : (d.lane p).change = none := by
        rcases origin' with h | h
        · exact h
        · rw [h0] at h
          simpa using h
      rw [h0, none]
      simp [endedWith]
    · rw [endedWith_congr h0]
      cases hc : (c.lane p).change with
      | none =>
        rw [hc] at h0
        have none : (b.lane p).change = none := by simpa using h0.symm
        simp [endedWith, none]
      | some y => rw [endedWith_some, Bool.false_or]

/-- A lane's change ends with SUCCESS, and its operation is told (R74, R75). -/
theorem ChangeEnds.endChange (p : Fin 16) (b : Body) : ChangeEnds p b (endChange p .success b) := by
  cases hy : (b.lane p).change with
  | none =>
    have same : Machine.endChange p .success b = b := by
      unfold Machine.endChange
      rw [hy]
    rw [same]
    exact .refl p b
  | some y =>
    obtain ⟨ov, sc, after⟩ := endChange_lane p .success b
    have gone : ((Machine.endChange p .success b).lane p).change = none := by rw [after]
    have untold (hn : ∀ t, y.origin ≠ some (.operation t)) :
        b.line.deferred = succeeded (endedWith (some y) none) b.line.deferred := by
      rw [endedWith_untold hn, succeeded_none]
    refine ⟨?_, fun o ho => ?_, .inl gone, ?_⟩
    · unfold Machine.endChange
      simp only [hy]
      split <;> rfl
    · unfold Machine.endChange
      simp only [hy]
      split <;> simp [completeTag_lane, ho.symm]
    · rw [gone, hy]
      unfold Machine.endChange
      simp only [hy]
      split
      next tag ho =>
        have told : endedWith (some y) none = fun t => decide (t = tag) :=
          funext fun t => by simp [endedWith, ho, eq_comm]
        rw [completeTag_succeeded, told]
        rfl
      next ho => exact untold (by simp [ho])
      next ho => exact untold (by simp [ho])

theorem ChangeEnds.endTail (p : Fin 16) (b : Body) : ChangeEnds p b (endTail p b) := by
  have untailed : ChangeEnds p b (b.onLane p fun l => { l with tail := none }) := .onLane rfl
  unfold Machine.endTail
  refine untailed.trans ?_
  simp only
  generalize b.onLane p _ = e
  split
  · rename_i y hy
    split
    · split
      · exact .onLane (congrArg (Option.map DelayChange.origin) hy).symm
      · exact .endChange p e
    · exact .refl p e
  · exact .refl p e

theorem ChangeEnds.settleTail (p : Fin 16) (b : Body) : ChangeEnds p b (settleTail p b) := by
  unfold Machine.settleTail
  split
  · exact .endTail p b
  · exact .refl p b

theorem ChangeEnds.refreshSetpoint (p : Fin 16) (b : Body) : ChangeEnds p b (refreshSetpoint p b) := by
  obtain ⟨n, f, e⟩ := refreshSetpoint_onLane p b
  exact e ▸ .onLane rfl

theorem ChangeEnds.regulateLane (p : Fin 16) (b : Body) : ChangeEnds p b (regulateLane p b) := by
  unfold Machine.regulateLane
  extract_lets b1 b2 b3 l
  split
  · exact .refl p b
  · have refreshed : ChangeEnds p b b3 :=
      ((ChangeEnds.settleTail p b).trans (.onLane rfl)).trans (.refreshSetpoint p b2)
    split
    · exact refreshed
    · extract_lets e b4
      have regulated : ChangeEnds p b b4 := refreshed.trans (.onLane rfl)
      split
      · exact regulated.trans (.endChange p b4)
      · exact regulated

/-! ### The programmes in turn -/

theorem ChangesEnd.cons {ps : List (Fin 16)} (hp : p ∉ ps) (h : ChangeEnds p b c) (h' : ChangesEnd ps c d) :
    ChangesEnd (p :: ps) b d := by
  have own : d.lane p = c.lane p := h'.lane p hp
  refine ⟨h'.rest.trans h.rest, fun o ho => ?_, ?_⟩
  · obtain ⟨h1, h2⟩ := not_or.1 (List.mem_cons.not.1 ho)
    exact (h'.lane o h2).trans (h.lane o h1)
  · rw [h'.deferred, h.deferred, succeeded_succeeded]
    congr 1
    funext t
    have later : (ps.any fun q => endedWith (c.lane q).change (d.lane q).change t) =
        ps.any fun q => endedWith (b.lane q).change (d.lane q).change t := by
      refine Bool.eq_iff_iff.2 ?_
      simp only [List.any_eq_true]
      exact exists_congr fun q => and_congr_right fun hq => by rw [h.lane q fun e => hp (e ▸ hq)]
    rw [List.any_cons, own, later]

theorem ChangesEnd.foldl {f : Fin 16 → Body → Body} (hf : ∀ p b, ChangeEnds p b (f p b)) {ps : List (Fin 16)}
    (hn : ps.Nodup) (b : Body) : ChangesEnd ps b (ps.foldl (fun b p => f p b) b) := by
  induction ps generalizing b with
  | nil => exact ⟨rfl, fun _ _ => rfl, (succeeded_none _).symm⟩
  | cons p ps ih =>
    obtain ⟨hp, hps⟩ := List.nodup_cons.1 hn
    exact .cons hp (hf p b) (ih hps _)

/-- A regulation tick of every lane. -/
theorem ChangesEnd.regulated (b : Body) : ChangesEnd programmeIds b (b.eachProgramme regulateLane) :=
  .foldl .regulateLane (List.nodup_finRange 16) b

/-- The tick as one lane sees it: its turn finds it as it was, and the others leave it. -/
theorem regulated_turn (p : Fin 16) (b : Body) :
    ∃ c, c.unlaned = b.unlaned ∧ c.lane p = b.lane p ∧ (b.eachProgramme regulateLane).lane p = (regulateLane p c).lane p := by
  obtain ⟨c, ⟨rest, lane⟩, -, after⟩ := eachProgramme_turn p regulateLane
    (fun b c => c.unlaned = b.unlaned ∧ c.lane p = b.lane p) (fun _ => ⟨rfl, rfl⟩)
    (fun _ _ _ ⟨h1, h2⟩ ⟨h3, h4⟩ => ⟨h3.trans h1, h4.trans h2⟩)
    (fun q hq b => ⟨(ChangeEnds.regulateLane q b).rest, (ChangeEnds.regulateLane q b).lane p hq.symm⟩) b
  exact ⟨c, rest, lane, after⟩

/-! ### The event -/

/-- Blocks equal beside lanes and deferred table differ in these alone. -/
theorem eq_of_unlaned (h : c.unlaned = b.unlaned) :
    c = { b with lanes := c.lanes, line := { b.line with deferred := c.line.deferred } } :=
  (congrArg (fun x : Body => { x with lanes := c.lanes, line := { x.line with deferred := c.line.deferred } }) h :)

/-- An event of the blocks, with the COMPLETION reports that its function leaves owed. -/
theorem bodyEvent_completionDue (f : Body → Body) (s : State) :
    ∃ t, bodyEvent f s = .next t ∧ Becomes s (f s.body) t ∧
      (((f s.body).line.deferred.map Deferred.tag).Nodup → ∀ (d : Deferred) (o : OpOutcome) (x : List Field),
        ({ d with complete := some (o, x) } : Deferred) ∈ (f s.body).line.deferred → CompletionDue d o x t) := by
  obtain ⟨t, ht, hb⟩ := bodyEvent_becomes f s
  cases ht
  exact ⟨_, rfl, hb, fun hn d o x hd => placeReports_completionDue hn (.inl hd)⟩

/-- A state that the event leads to, of a tick that is due (R33); `c` are the blocks with the tick of every lane taken. -/
structure Ticked (s : State) (c : Body) (t : State) : Prop where
  becomes : Becomes s (c.onTiming fun x => { x with regulationDue := false }) t
  due : (c.line.deferred.map Deferred.tag).Nodup → ∀ (d : Deferred) (o : OpOutcome) (x : List Field),
    { d with complete := some (o, x) } ∈ c.line.deferred → CompletionDue d o x t
  work : ChangesEnd programmeIds s.body c
  turn : ∀ p, ∃ e, e.unlaned = s.body.unlaned ∧ e.lane p = s.body.lane p ∧ c.lane p = (regulateLane p e).lane p

theorem regulationTick_event (h : s.body.timing.regulationDue = true) :
    ∃ t, exec .regulationTick s = .next t ∧ Ticked s (s.body.eachProgramme regulateLane) t := by
  obtain ⟨t, ht, becomes, due⟩ := bodyEvent_completionDue regulationWork s
  have taken : regulationWork s.body =
      (s.body.eachProgramme regulateLane).onTiming fun x => { x with regulationDue := false } := if_pos h
  have work := ChangesEnd.regulated s.body
  have turn := fun p => regulated_turn p s.body
  refine ⟨t, ht, ?_⟩
  rw [taken] at becomes due
  generalize s.body.eachProgramme regulateLane = c at becomes due work turn
  exact ⟨becomes, due, work, turn⟩

/-- The tags of the operations whose change is over after the event. -/
def overTags (s t : State) (tag : Byte) : Bool :=
  (List.finRange 16).any fun p => endedWith (s.body.lane p).change (t.body.lane p).change tag

theorem Ticked.lane (h : Ticked s c t) (p : Fin 16) :
    { t.body.lane p with sceneDelayOwed := none } = { c.lane p with sceneDelayOwed := none } := h.becomes.lane p

/-- Of the deferred table, the operations whose change is over complete with SUCCESS. -/
theorem Ticked.deferred (h : Ticked s c t) : c.line.deferred = succeeded (overTags s t) s.body.line.deferred := by
  have change (p : Fin 16) : (t.body.lane p).change = (c.lane p).change := (congrArg Lane.change (h.lane p) :)
  have ends : overTags s t = fun tag => programmeIds.any fun p =>
      endedWith (s.body.lane p).change (c.lane p).change tag := by
    funext tag
    simp only [overTags, change, programmeIds]
  rw [ends]
  exact h.work.deferred

/-- Lanes and deferred table apart, the tick changes nothing but that it is no longer due. -/
theorem Ticked.blocks (h : Ticked s c t) :
    Becomes s { s.body with
      timing := { s.body.timing with regulationDue := false }, lanes := t.body.lanes
      line := { s.body.line with deferred := s.body.line.deferred.filter fun d => !overTags s t d.tag } } t := by
  have rest := eq_of_unlaned h.work.rest
  rw [h.deferred] at rest
  obtain ⟨keeps, quiet⟩ := h.becomes
  have lanes := congrArg Body.lanes quiet
  simp only [Body.quiet, Body.onTiming] at lanes
  refine ⟨keeps, ?_⟩
  rw [quiet, rest]
  simp only [Body.quiet, Body.onTiming, lanes, succeeded_inFlight]

theorem Ticked.completions (h : Ticked s c t) {x : Deferred} (hx : InFlight x s) (he : overTags s t x.tag = true) :
    CompletionDue x .success [] t := by
  obtain ⟨held, going, tags⟩ := hx
  have due := h.due
  rw [h.deferred, succeeded_tags] at due
  exact due tags x .success [] (mem_succeeded held going he)

end Sys2Proof.Machine
end

section
/-! O14: REGULATION_TICK. What the tick makes of a RUNNING lane (R70 to R72). -/

namespace Sys2Proof.Machine

variable {s t : State} {b c : Body} {p : Fin 16} {l m : Lane} {r : RatioRecord} {line : Line} {sp : Nat × Bool} {st : Settings}

/-! ### Limit and increment (R72) -/

/-- The limit in force: FAST where the override says so, else that of the active set. -/
theorem regulationLimit_eq (ha : (b.programme p).active = some st) :
    regulationLimit b p = if (b.lane p).overrideFast then 524 else
      match st.slewLimit with
      | .fine => 131
      | .normal => 262
      | .fast => 524 := by
  unfold regulationLimit
  rw [ha, Option.map_some]
  cases st.slewLimit <;> rfl

theorem regulationLimit_bounds (b : Body) (p : Fin 16) : 0 ≤ regulationLimit b p ∧ regulationLimit b p ≤ 524 := by
  unfold regulationLimit
  split
  · decide
  · split <;> decide

/-- No limit takes the increment below 0. -/
theorem incrementFor_eq {limit : Int} (h0 : 0 ≤ limit) (h : limit ≤ 524) (e : Int) :
    (incrementFor limit e : Int) =
      if -1 ≤ e ∧ e ≤ 1 then 524288 else 524288 + max (-limit) (min limit (16 * e)) := by
  unfold incrementFor clampInt
  split
  · rfl
  · exact Int.toNat_of_nonneg (by omega)

/-! ### The lane -/

/-- A lane whose ratio record and marks have taken the Q of their LOCKED trackers (R70, R87). -/
def Lane.retracked (l : Lane) (b : Body) : Lane :=
  { l with ratio := l.ratio.map fun r => { r with q := (lockedQ b r.port).getD r.q }
           marks := l.marks.map fun m => { m with q := (lockedQ b m.port).or m.q } }

/-- The occupancy error of a lane against a setpoint (R72). -/
def Lane.error (l : Lane) (n : Nat) : Int := (l.occupancy : Int) - n

/-- Whether the error ends a change that slews (R75, R78). -/
def Lane.arrives (l : Lane) (n : Nat) : Bool :=
  decide (-1 ≤ l.error n ∧ l.error n ≤ 1) && l.change.any fun c => c.phase = .slewing || c.phase = .remainder

theorem arrives_iff {n : Nat} : l.arrives n = true ↔ -1 ≤ l.error n ∧ l.error n ≤ 1 ∧
    l.change.any (fun c => c.phase = .slewing || c.phase = .remainder) = true := by
  rw [Lane.arrives, Bool.and_eq_true, decide_eq_true_eq, and_assoc]

/-- The lane of a tick before its change ends. -/
def Lane.ticked (l : Lane) (b : Body) (p : Fin 16) (sp : Nat × Bool) : Lane :=
  ((l.retracked b).aimedAt l.target sp).regulate b.timing.samplesOwed (incrementFor (regulationLimit b p) (l.error sp.1))

theorem regulateLane_still (h : (b.programme p).state ≠ .running) : regulateLane p b = b := if_pos h

section
variable (hs : (b.programme p).state = .running) (hr : (b.lane p).ratio = some r)
  (hl : (b.programme p).line = some line)
  (hsp : setpointFor (b.lane p).target ((lockedQ b r.port).getD r.q) line = sp)
include hs hr hl hsp

theorem refreshSetpoint_retracked :
    refreshSetpoint p (b.setLane p ((b.lane p).retracked b)) =
      b.setLane p (((b.lane p).retracked b).aimedAt (b.lane p).target sp) := by
  have own : (b.setLane p ((b.lane p).retracked b)).lane p = (b.lane p).retracked b := Body.lane_setLane_same ..
  have ratio : ((b.lane p).retracked b).ratio = some { r with q := (lockedQ b r.port).getD r.q } := by
    unfold Lane.retracked
    rw [hr]
    rfl
  rw [refreshSetpoint_running (b := b.setLane p ((b.lane p).retracked b)) hs hl (own.symm ▸ ratio), own]
  exact (setLane_setLane ..).trans (hsp ▸ rfl)

variable (hg : (b.lane p).tail.all (fun x => x.remaining ≠ 0) = true)
include hg

/-- A tick of a RUNNING lane whose tail has not ended: ratio record, setpoint and increment, and the end of the change (R72). -/
theorem regulateLane_running :
    regulateLane p b =
      (let k := b.setLane p ((b.lane p).ticked b p sp)
       if (b.lane p).arrives sp.1 = true then endChange p .success k else k) := by
  have refreshed := refreshSetpoint_retracked hs hr hl hsp
  have limit : regulationLimit (b.setLane p (((b.lane p).retracked b).aimedAt (b.lane p).target sp)) p =
      regulationLimit b p := by
    unfold regulationLimit
    rw [Body.lane_setLane_same]
    rfl
  have arrived : (b.lane p).arrives sp.1 = true ↔ _ := arrives_iff
  simp only [arrived]
  unfold regulateLane Lane.ticked
  rw [if_neg (not_not.2 hs)]
  generalize hk : ((b.lane p).retracked b).aimedAt (b.lane p).target sp = k at refreshed limit
  have setpoint : k.setpoint = some sp.1 := by rw [← hk]; rfl
  have error : (k.occupancy : Int) - sp.1 = (b.lane p).error sp.1 := by rw [← hk]; rfl
  have change : k.change = (b.lane p).change := by rw [← hk]; rfl
  unfold Lane.retracked at refreshed
  simp only [settleTail_going hg, refreshed, Body.lane_setLane_same, setpoint, error, change, limit, Body.onLane_eq,
    setLane_setLane, Body.timing_setLane]

end

/-- What a tick makes of a RUNNING lane, with the Q of its tracker, the setpoint computed from it and the limit in force
(R70, R71, R72, R75). -/
structure IsRegulated (l : Lane) (r : RatioRecord) (q : Nat) (sp : Nat × Bool) (limit : Int) (m : Lane) : Prop where
  ratio : m.ratio = some { r with q := q }
  setpoint : m.setpoint = some sp.1
  limited : m.delayLimited = sp.2
  increment : (m.increment : Int) = if -1 ≤ l.error sp.1 ∧ l.error sp.1 ≤ 1 then 524288
    else 524288 + max (-limit) (min limit (16 * l.error sp.1))
  change : m.change = if -1 ≤ l.error sp.1 ∧ l.error sp.1 ≤ 1 ∧
    l.change.any (fun c => c.phase = .slewing || c.phase = .remainder) = true then none else l.change
  place : m.readSeq = l.readSeq
  acc : m.acc = l.acc
  tail : m.tail = l.tail
  window : m.window = l.window

theorem ticked_regulated (hr : l.ratio = some r) :
    let k := l.ticked b p sp
    k.ratio = some { r with q := (lockedQ b r.port).getD r.q } ∧ k.setpoint = some sp.1 ∧ k.delayLimited = sp.2 ∧
      k.increment = incrementFor (regulationLimit b p) (l.error sp.1) ∧ k.change = l.change ∧ k.readSeq = l.readSeq ∧
      k.acc = l.acc ∧ k.tail = l.tail ∧ k.window = l.window := by
  refine ⟨?_, rfl, rfl, rfl, rfl, rfl, rfl, rfl, rfl⟩
  show l.ratio.map _ = _
  rw [hr]
  rfl

/-- The lane that the tick leaves, whether its change ends or not. -/
theorem regulateLane_regulates (hs : (b.programme p).state = .running)
    (hg : (b.lane p).tail.all (fun x => x.remaining ≠ 0) = true) (hr : (b.lane p).ratio = some r)
    (hl : (b.programme p).line = some line)
    (hsp : setpointFor (b.lane p).target ((lockedQ b r.port).getD r.q) line = sp) :
    IsRegulated (b.lane p) r ((lockedQ b r.port).getD r.q) sp (regulationLimit b p) ((regulateLane p b).lane p) := by
  obtain ⟨ratio, setpoint, limited, increment, change, place, acc, tail, window⟩ :=
    ticked_regulated (l := b.lane p) (b := b) (p := p) (sp := sp) hr
  obtain ⟨low, high⟩ := regulationLimit_bounds b p
  have stepped := incrementFor_eq low high ((b.lane p).error sp.1)
  rw [← increment] at stepped
  rw [regulateLane_running hs hr hl hsp hg]
  simp only
  split
  next h =>
    obtain ⟨ov, sc, ended⟩ := endChange_lane p .success (b.setLane p ((b.lane p).ticked b p sp))
    rw [ended, Body.lane_setLane_same]
    exact ⟨ratio, setpoint, limited, stepped, (if_pos (arrives_iff.1 h)).symm, place, acc, tail, window⟩
  next h =>
    rw [Body.lane_setLane_same]
    exact ⟨ratio, setpoint, limited, stepped, change.trans (if_neg (mt arrives_iff.2 h)).symm, place, acc, tail, window⟩

/-! ### The event -/

/-- What the tick leaves of the lane of a programme that is not RUNNING. -/
theorem Ticked.still (h : Ticked s c t) (hs : (s.body.programme p).state ≠ .running) :
    { t.body.lane p with sceneDelayOwed := none } = { s.body.lane p with sceneDelayOwed := none } := by
  obtain ⟨e, rest, found, own⟩ := h.turn p
  have programme : e.programme p = s.body.programme p := (congrArg (Body.programme · p) rest :)
  rw [regulateLane_still (programme ▸ hs), found] at own
  rw [h.lane p, own]

/-- What it makes of a RUNNING lane. -/
theorem Ticked.regulates (h : Ticked s c t) (hs : (s.body.programme p).state = .running)
    (hg : (s.body.lane p).tail.all (fun x => x.remaining ≠ 0) = true) (hr : (s.body.lane p).ratio = some r)
    (hl : (s.body.programme p).line = some line) {q : Nat} (hq : (lockedQ s.body r.port).getD r.q = q)
    (hsp : setpointFor (s.body.lane p).target q line = sp) {limit : Int} (hlimit : regulationLimit s.body p = limit) :
    IsRegulated (s.body.lane p) r q sp limit (t.body.lane p) := by
  obtain ⟨e, rest, found, own⟩ := h.turn p
  have programme : e.programme p = s.body.programme p := (congrArg (Body.programme · p) rest :)
  have locked : lockedQ e r.port = lockedQ s.body r.port := (congrArg (lockedQ · r.port) rest :)
  have bound : regulationLimit e p = regulationLimit s.body p := by
    unfold regulationLimit
    rw [found, programme]
  have regulated := regulateLane_regulates (b := e) (p := p) (r := r) (line := line) (sp := sp)
  rw [programme, found, locked, hq, bound, hlimit, ← own] at regulated
  obtain ⟨ratio, setpoint, limited, increment, change, place, acc, tail, window⟩ := regulated hs hg hr hl hsp
  obtain ⟨sc, shown⟩ := h.becomes.lane_owing rfl
  rw [shown]
  exact ⟨ratio, setpoint, limited, increment, change, place, acc, tail, window⟩

/-- Settles O14: the blocks by the changes that end in each programme's turn, the lanes by the turn itself. -/
theorem regulationTick : Obligations.RegulationTick := by
  unfold Obligations.RegulationTick
  intro s hd
  obtain ⟨t, hexec, h⟩ := regulationTick_event hd
  refine ⟨t, hexec, ⟨h.blocks, fun d => h.completions⟩, fun p => h.still, ?_⟩
  intro p r line st hs hg hr hl ha tracker q sp error limit
  have locked : (lockedQ s.body r.port).getD r.q = q := by
    unfold lockedQ isLocked
    by_cases e : tracker.state = .locked
    · simp [tracker, q, e]
    · simp [tracker, q, e]
  obtain ⟨ratio, setpoint, limited, increment, change, place, acc, tail, window⟩ :=
    h.regulates (sp := sp) (limit := limit) hs hg hr hl locked rfl (regulationLimit_eq ha)
  exact ⟨ratio, setpoint, limited, increment, change, place, acc, tail, window⟩

end Sys2Proof.Machine
end

section
/-! FADE_TAIL_END and RAMP_END: the second and the third part of O13 (R76 to R78, R126). -/

namespace Sys2Proof.Machine

variable {b : Body} {p : Fin 16} {y : DelayChange}

/-! ### The end of a delay change, but for the reports owed -/

/-- A report owed by a lane is no part of the blocks apart from what they owe. -/
theorem owed_quiet (b : Body) (p : Fin 16) (x : DelayReport) :
    (b.onLane p fun l => { l with sceneDelayOwed := some x }).quiet = b.quiet := by
  simp only [Body.onLane, Body.setLane, Body.quiet]
  rw [map_set_same]
  rfl

/-- The blocks with a lane's change ended, its origin not told. -/
def Body.changeEnded (b : Body) (p : Fin 16) : Body := b.onLane p fun l => { l with change := none, overrideFast := false }

section
variable (hy : (b.lane p).change = some y)
include hy

theorem endChange_quiet_untold (h : ∀ tag, y.origin ≠ some (.operation tag)) (x : OpOutcome) :
    (endChange p x b).quiet = (b.changeEnded p).quiet := by
  unfold endChange
  simp only [hy]
  split
  next tag ho => exact absurd ho (h tag)
  next => exact owed_quiet (b.changeEnded p) p _
  next => rfl

theorem endChange_quiet_told {tag : Byte} (h : y.origin = some (.operation tag)) (x : OpOutcome) :
    (endChange p x b).quiet =
      ((b.changeEnded p).onLine fun l => { l with deferred := l.deferred.filter fun d => d.tag ≠ tag }).quiet := by
  have told : endChange p x b = completeTag tag x [] (b.changeEnded p) := by
    unfold endChange
    simp only [hy, h]
    rfl
  have others : (fun d : Deferred => d.tag != tag) = fun d => decide (d.tag ≠ tag) := by
    funext d
    exact Bool.eq_iff_iff.2 (by simp)
  rw [told, completeTag_quiet, others]
  rfl

end

/-! ### The end of a fade tail -/

/-- The blocks with a lane's fade tail gone. -/
def Body.untailed (b : Body) (p : Fin 16) : Body := b.onLane p fun l => { l with tail := none }

theorem untailed_change (b : Body) (p : Fin 16) : ((b.untailed p).lane p).change = (b.lane p).change := by
  unfold Body.untailed
  rw [Body.onLane_eq, Body.lane_setLane_same]

theorem settleTail_ended {x : FadeTail} (ht : (b.lane p).tail = some x) (h0 : x.remaining = 0) :
    settleTail p b = endTail p b := by
  unfold settleTail
  rw [ht]
  exact if_pos (decide_eq_true h0)

theorem endTail_alone (h : (b.lane p).change = none) : endTail p b = b.untailed p := by
  have change := (untailed_change b p).trans h
  unfold endTail
  simp only
  rw [show ((b.onLane p fun l => { l with tail := none }).lane p).change = none from change]
  rfl

section
variable (hy : (b.lane p).change = some y)
include hy

/-- What the end of a tail makes of the change it finds (R76, R77, R78). -/
theorem endTail_changing : endTail p b =
    if y.phase = .tail then
      if y.floored then (b.untailed p).onLane p fun l => { l with change := some { y with phase := .remainder } }
      else endChange p .success (b.untailed p)
    else b.untailed p := by
  have change := (untailed_change b p).trans hy
  unfold endTail
  simp only
  rw [show ((b.onLane p fun l => { l with tail := none }).lane p).change = some y from change]
  rfl

theorem endTail_aloof (h : y.phase ≠ .tail) : endTail p b = b.untailed p := (endTail_changing hy).trans (if_neg h)

theorem endTail_floored (h : y.phase = .tail) (hf : y.floored = true) :
    endTail p b = b.onLane p fun l => { l with tail := none, change := some { y with phase := .remainder } } := by
  rw [endTail_changing hy, if_pos h, if_pos hf, Body.untailed, onLane_onLane]

theorem endTail_completes (h : y.phase = .tail) (hf : y.floored = false) :
    endTail p b = endChange p .success (b.untailed p) := by
  rw [endTail_changing hy, if_pos h, if_neg (by simp [hf])]

end

/-! ### The events -/

/-- The lane of a tail whose end completes its change. -/
theorem untailed_changeEnded (b : Body) (p : Fin 16) :
    (b.untailed p).changeEnded p = b.onLane p fun l => { l with tail := none, change := none, overrideFast := false } :=
  onLane_onLane ..

theorem fadeTailEnd_event {s : State} {x : FadeTail} (ht : (s.body.lane p).tail = some x) (h0 : x.remaining = 0) {c : Body}
    (hc : (endTail p s.body).quiet = c.quiet) : ∃ t, exec (.fadeTailEnd p) s = .next t ∧ Becomes s c t := by
  obtain ⟨t, hexec, keeps, quiet⟩ := bodyEvent_result (settleTail_ended ht h0)
  exact ⟨t, hexec, keeps, quiet.trans hc⟩

/-- A ramp at its end becomes absent, and the applied gain stays (R126). -/
theorem rampEnd_event {s : State} {r : Ramp} (hr : (s.body.gain p).ramp = some r) (h : 4800 ≤ r.position) :
    ∃ t, exec (.rampEnd p) s = .next t ∧ Becomes s (s.body.onGain p fun x => { x with ramp := none }) t := by
  have gone : (s.body.gain p).ramp.filter (fun r => r.position < 4800) = none := by
    rw [hr, Option.filter_some, if_neg (by simpa using h)]
  refine bodyEvent_result ?_
  show s.body.setGain p { s.body.gain p with ramp := (s.body.gain p).ramp.filter fun r => r.position < 4800 } = _
  rw [gone]
  rfl

end Sys2Proof.Machine
end

section
/-! The steps of a reader that reaches no mark, and of its fade tail (R66, R77, R97): a layer under the first part of O13. -/

namespace Sys2Proof.Machine

variable {b : Body} {p : Fin 16} {l : Lane} {x : RatioRecord} {k : FadeTail} {written : Count}

/-! ### Places ahead -/

/-- One frame on, what lies ahead is one frame nearer. -/
theorem ahead_succ {z r : Count} (h : 1 ≤ (z - r).toNat) : (z - (r + 1)).toNat = (z - r).toNat - 1 := by
  bv_omega

theorem ahead_one {z r : Count} : (z - r).toNat = 1 ↔ z = r + 1 := by
  constructor <;> intro h <;> bv_omega

/-! ### The reader before its oldest mark -/

/-- The oldest mark, if any, lies beyond the next `n` frames of the reader (R97). -/
def Lane.unmarkedFor (l : Lane) (n : Nat) : Prop :=
  ∀ z, l.marks.head?.map SpliceMark.seq = some z → n < (z - l.readSeq).toNat

theorem consumed_unmarkedFor {n q : Nat} (h : l.unmarkedFor (n + 1)) : (l.consumed 1 q).unmarkedFor n := by
  intro z hz
  have far := h z hz
  show n < (z - (l.readSeq + 1)).toNat
  rw [ahead_succ (by omega)]
  omega

section
variable (hx : (b.lane p).ratio = some x)
include hx

theorem stepLoop_passes (n : Nat) (ha : x.q ≤ (b.lane p).acc) (ho : 5 ≤ (b.lane p).occupancy)
    (hm : (b.lane p).unmarkedFor 1) :
    stepLoop p (n + 1) b = stepLoop p n (b.setLane p ((b.lane p).consumed 1 x.q)) := by
  cases hk : (b.lane p).marks with
  | nil => exact stepLoop_consumes hx n ha ho hk
  | cons m rest =>
    have ahead : ¬ m.seq = (b.lane p).readSeq + 1 := fun e => by
      have far := hm m.seq (by rw [hk]; rfl)
      rw [ahead_one.2 e] at far
      exact lt_irrefl 1 far
    rw [stepLoop]
    simp only [hx, hk, ahead, Nat.not_lt.2 ha, Nat.not_lt.2 ho, if_false]
    rw [← consumed_one]
    rfl

/-- With no mark among them, and with what it takes in the line, the loop consumes a frame for each Q in the accumulator. -/
theorem stepLoop_unmarked (hq : 0 < x.q) {j n : Nat} (hm : (b.lane p).unmarkedFor j) (hj : (b.lane p).acc / x.q = j)
    (hn : j < n) (ho : j = 0 ∨ j + 4 ≤ (b.lane p).occupancy) :
    stepLoop p n b = (b.setLane p ((b.lane p).consumed j x.q), false) := by
  obtain ⟨n, rfl⟩ : ∃ m, n = m + 1 := ⟨n - 1, by omega⟩
  induction j generalizing b n with
  | zero =>
    have ha : (b.lane p).acc < x.q := (Nat.div_eq_zero_iff_lt hq).1 hj
    rw [stepLoop_ends hx n ha, consumed_zero, setLane_lane]
  | succ j ih =>
    obtain ⟨ha, hj'⟩ := consumed_quotient hq hj
    have occupancy := consumed_occupancy (l := b.lane p) (n := 1) (by omega) x.q
    have next : (b.lane p).unmarkedFor 1 := fun z hz => lt_of_le_of_lt (Nat.le_add_left 1 j) (hm z hz)
    have rest := ih (b := b.setLane p ((b.lane p).consumed 1 x.q))
    rw [Body.lane_setLane_same, occupancy] at rest
    obtain ⟨n, rfl⟩ : ∃ m, n = m + 1 := ⟨n - 1, by omega⟩
    rw [stepLoop_passes hx _ ha (by omega) next, rest hx (consumed_unmarkedFor hm) hj' (by omega) n (by omega),
      setLane_setLane, consumed_consumed, Nat.add_comm 1]

/-- The stepper consumes a frame for each Q in the accumulator (R66). -/
theorem stepReader_unmarked (hq : 0 < x.q) {n : Nat} (hn : ((b.lane p).acc + (b.lane p).stepIncrement) / x.q = n)
    (hm : (b.lane p).unmarkedFor n) (ho : n = 0 ∨ n + 4 ≤ (b.lane p).occupancy) :
    stepReader p b = (b.setLane p ((b.lane p).incremented.consumed n x.q), false) := by
  have loop := stepLoop_unmarked (b := b.setLane p (b.lane p).incremented) (p := p) (x := x)
  simp only [Body.lane_setLane_same, setLane_setLane] at loop
  rw [stepReader_eq, hx, Option.map_some, Option.getD_some, hn]
  exact loop hx hq hm hn (Nat.lt_succ_self n) ho

end

/-! ### The fade tail -/

/-- A tail that has stepped `n` frames, each for one of its Q. -/
def FadeTail.stepped (k : FadeTail) (n : Nat) : FadeTail :=
  { k with readSeq := k.readSeq + cnt n, acc := k.acc - n * k.q }

theorem stepped_zero (k : FadeTail) : k.stepped 0 = k := by
  unfold FadeTail.stepped
  rw [Nat.zero_mul, Nat.sub_zero, show cnt 0 = 0#32 from rfl, BitVec.add_zero]

theorem stepped_one (k : FadeTail) : { k with acc := k.acc - k.q, readSeq := k.readSeq + 1 } = k.stepped 1 := by
  unfold FadeTail.stepped
  rw [Nat.one_mul]
  rfl

theorem stepped_stepped (k : FadeTail) (m n : Nat) : (k.stepped m).stepped n = k.stepped (m + n) := by
  simp only [FadeTail.stepped, BitVec.add_assoc, cnt_add, Nat.sub_sub, Nat.add_mul]

/-- One step on, of an accumulator with `j + 1` times its Q. -/
theorem stepTail_quotient (hq : 0 < k.q) {j : Nat} (hj : k.acc / k.q = j + 1) :
    k.q ≤ k.acc ∧ (k.stepped 1).acc / k.q = j := by
  have ha : k.q ≤ k.acc := (Nat.one_le_div_iff hq).1 (by omega)
  have once : k.acc / k.q = (k.acc - k.q) / k.q + 1 := Nat.div_eq_sub_div hq ha
  rw [show (k.stepped 1).acc = k.acc - 1 * k.q from rfl, Nat.one_mul]
  exact ⟨ha, by omega⟩

theorem stepTail_next (n : Nat) (ha : k.q ≤ k.acc) (ho : 5 ≤ (written - k.readSeq).toNat)
    (hs : k.stop ≠ some (k.readSeq + 1)) : stepTail written (n + 1) k = stepTail written n (k.stepped 1) := by
  rw [stepTail, if_neg (Nat.not_lt.2 ha), if_neg (Nat.not_lt.2 ho), if_neg hs, stepped_one]

/-- A tail with enough before it, and its stop beyond, steps a frame for each Q in its accumulator (R77). -/
theorem stepTail_goes (hq : 0 < k.q) {j n : Nat} (hj : k.acc / k.q = j) (hn : j < n)
    (ho : j = 0 ∨ j + 4 ≤ (written - k.readSeq).toNat) (hs : ∀ z, k.stop = some z → j < (z - k.readSeq).toNat) :
    stepTail written n k = some (k.stepped j) := by
  obtain ⟨n, rfl⟩ : ∃ m, n = m + 1 := ⟨n - 1, by omega⟩
  induction j generalizing k n with
  | zero => rw [stepTail, if_pos ((Nat.div_eq_zero_iff_lt hq).1 hj), stepped_zero]
  | succ j ih =>
    obtain ⟨ha, hj'⟩ := stepTail_quotient hq hj
    have nearer : (written - (k.readSeq + 1)).toNat = (written - k.readSeq).toNat - 1 := ahead_succ (by omega)
    have beyond : k.stop ≠ some (k.readSeq + 1) := fun e => by
      have far := hs _ e
      rw [ahead_one.2 rfl] at far
      omega
    obtain ⟨n, rfl⟩ : ∃ m, n = m + 1 := ⟨n - 1, by omega⟩
    rw [stepTail_next _ ha (by omega) beyond, ih (k := k.stepped 1) hq hj' ?_ ?_ n (by omega), stepped_stepped,
      Nat.add_comm 1]
    · exact .inr ((by omega : j + 4 ≤ (written - k.readSeq).toNat - 1).trans (Nat.le_of_eq nearer.symm))
    · intro z hz
      have far := hs z hz
      show j < (z - (k.readSeq + 1)).toNat
      rw [ahead_succ (by omega)]
      omega

/-- A tail that its next frames would take below an occupancy of 4, or to its stop, ends at once (R77). -/
theorem stepTail_ends (hq : 0 < k.q) {j n : Nat} (hj : k.acc / k.q = j) (hn : j < n)
    (h : (j ≠ 0 ∧ (written - k.readSeq).toNat < j + 4) ∨
      ∃ z, k.stop = some z ∧ 1 ≤ (z - k.readSeq).toNat ∧ (z - k.readSeq).toNat ≤ j) :
    stepTail written n k = none := by
  obtain ⟨n, rfl⟩ : ∃ m, n = m + 1 := ⟨n - 1, by omega⟩
  induction j generalizing k n with
  | zero =>
    rcases h with ⟨h, -⟩ | ⟨z, -, h1, h0⟩
    · exact absurd rfl h
    · omega
  | succ j ih =>
    obtain ⟨ha, hj'⟩ := stepTail_quotient hq hj
    by_cases ho : (written - k.readSeq).toNat < 5
    · rw [stepTail, if_neg (Nat.not_lt.2 ha), if_pos ho]
    · by_cases hs : k.stop = some (k.readSeq + 1)
      · rw [stepTail, if_neg (Nat.not_lt.2 ha), if_neg ho, if_pos hs]
      · obtain ⟨n, rfl⟩ : ∃ m, n = m + 1 := ⟨n - 1, by omega⟩
        rw [stepTail_next _ ha (by omega) hs]
        refine ih (k := k.stepped 1) hq hj' ?_ n (by omega)
        have nearer : (written - (k.readSeq + 1)).toNat = (written - k.readSeq).toNat - 1 := ahead_succ (by omega)
        rcases h with ⟨-, h⟩ | ⟨z, hz, h1, hle⟩
        · exact .inl ⟨by omega, (Nat.le_of_eq (congrArg Nat.succ nearer)).trans (by omega)⟩
        · have far : (z - k.readSeq).toNat ≠ 1 := fun e => hs (hz.trans (congrArg some (ahead_one.1 e)))
          have ahead : (z - (k.readSeq + 1)).toNat = (z - k.readSeq).toNat - 1 := ahead_succ h1
          exact .inr ⟨z, hz, (by omega : 1 ≤ (z - k.readSeq).toNat - 1).trans (Nat.le_of_eq ahead.symm),
            (Nat.le_of_eq ahead).trans (by omega)⟩

/-! ### The tail in its lane -/

theorem laneTail_absent (h : l.tail = none) : l.stepTail = l := by
  unfold Lane.stepTail
  rw [h]

section
variable {sum j : Nat} (h : l.tail = some k) (hsum : k.acc + Config.unityRatio = sum)
include h hsum

/-- A tail that ends early keeps the increment that it took, and a remaining count of 0 (R77). -/
theorem laneTail_eq :
    l.stepTail =
      (let y := (stepTail l.writeSeq (sum / k.q + 1) { k with acc := sum }).getD { k with acc := sum, remaining := 0 }
       { l with tail := some y }) := by
  fun_cases Lane.stepTail l
  next h' => cases h.symm.trans h'
  next t h' t' y e =>
    cases h.symm.trans h'
    have grown : t' = { k with acc := sum } := by rw [← hsum]
    rw [grown] at e
    simp only [e, Option.getD_some]
  next t h' t' e =>
    cases h.symm.trans h'
    have grown : t' = { k with acc := sum } := by rw [← hsum]
    rw [grown] at e
    simp only [e, grown, Option.getD_none]

variable (hq : 0 < k.q) (hj : sum / k.q = j)
include hq hj

theorem laneTail_goes (ho : j = 0 ∨ j + 4 ≤ (l.writeSeq - k.readSeq).toNat)
    (hs : ∀ z, k.stop = some z → j < (z - k.readSeq).toNat) :
    l.stepTail = { l with tail := some { k with readSeq := k.readSeq + cnt j, acc := sum % k.q } } := by
  have goes : stepTail l.writeSeq (sum / k.q + 1) { k with acc := sum } =
      some { k with readSeq := k.readSeq + cnt j, acc := sum - j * k.q } :=
    stepTail_goes (k := { k with acc := sum }) hq hj (by omega) ho hs
  have rest : sum - j * k.q = sum % k.q := by
    rw [← hj]
    exact sub_div_mul sum k.q
  rw [laneTail_eq h hsum, goes, Option.getD_some, rest]

theorem laneTail_ends (he : (j ≠ 0 ∧ (l.writeSeq - k.readSeq).toNat < j + 4) ∨
      ∃ z, k.stop = some z ∧ 1 ≤ (z - k.readSeq).toNat ∧ (z - k.readSeq).toNat ≤ j) :
    l.stepTail = { l with tail := some { k with acc := sum, remaining := 0 } } := by
  rw [laneTail_eq h hsum, stepTail_ends (k := { k with acc := sum }) hq hj (by omega) he, Option.getD_none]

end

end Sys2Proof.Machine
end

section
/-! What a lane sounds with marks ahead and a fade tail beside it, and the assembly of O13 (R68, R69, R77, R97). -/

namespace Sys2Proof.Machine

variable {s t : State} {b c : Body} {p : Fin 16} {l : Lane} {x : RatioRecord} {k : FadeTail} {y : Option FadeTail}
  {rr : Option ReadRequest} {st : Settings} {r start : Count} {stop : Option Count}

/-! ### What the windows hold -/

/-- A channel of a frame in a window that begins at `start` and is silent from `stop` on (R67, R97). -/
def Lane.heardWithin (l : Lane) (start : Count) (stop : Option Count) (seq : Count) (i : Nat) : Int :=
  if stop.any (fun z => seqUpTo z seq) = true ∨ seqBefore seq start = true then 0
  else ((l.held seq).map fun f => (f.samples.getD i 0).toInt).getD 0

theorem frame_heardWithin (l : Lane) (start : Count) (stop : Option Count) (seq : Count) (i : Nat) :
    ((l.frame start stop seq).samples.getD i 0).toInt = l.heardWithin start stop seq i := by
  unfold Lane.frame Lane.heardWithin
  split
  next h => simp [h]
  next h =>
    split
    next h' => simp [h']
    next h' => cases l.held seq <;> simp [h, h']

/-- The cubic sum of the four frames round a place (R68). -/
def Lane.cubicAt (l : Lane) (r : Count) (F : Int) (start : Count) (stop : Option Count) (i : Nat) : Int :=
  (-F * 2 ^ 32 + 2 * F ^ 2 * 2 ^ 16 - F ^ 3) * l.heardWithin start stop (r - 1) i +
  (2 ^ 49 - 5 * F ^ 2 * 2 ^ 16 + 3 * F ^ 3) * l.heardWithin start stop r i +
  (F * 2 ^ 32 + 4 * F ^ 2 * 2 ^ 16 - 3 * F ^ 3) * l.heardWithin start stop (r + 1) i +
  (-F ^ 2 * 2 ^ 16 + F ^ 3) * l.heardWithin start stop (r + 2) i

theorem interpolate_fourFrames (F : Int) (i : Nat) :
    interpolateChannel F i (l.fourFrames r start stop) = l.cubicAt r F start stop i := by
  simp only [Lane.fourFrames, List.map_cons, List.map_nil, interpolateChannel, interpolate, cubicWeights,
    frame_heardWithin, Lane.cubicAt]

/-- The splice dip at a place, in 64ths (R97). -/
def dipAt (r : Count) (stop : Option Count) : Int := (stop.map fun z => (min 64 (z - r).toNat : Int)).getD 64

theorem dipFactor_cast (r : Count) (stop : Option Count) : (dipFactor r stop : Int) = dipAt r stop := by
  cases stop with
  | none => rfl
  | some z =>
    show ((if (z - r).toNat ≤ 64 then (z - r).toNat else 64 : Nat) : Int) = min 64 ((z - r).toNat : Int)
    split <;> omega

/-! ### What is sounded -/

/-- A channel of the reader's window under the fade-in, the dip and the tail's share of `m` in 64, beside the tail's value
(R69, R77). -/
def Lane.mixedWith (l : Lane) (x : RatioRecord) (old : Nat → Int) (m i : Nat) : Sample :=
  let stop := l.marks.head?.map SpliceMark.seq
  toSample (clampInt (-8388607) 8388607 (roundAway
    (l.cubicAt l.readSeq (fractionOf l.acc x.q) l.historyStart stop i *
        ((64 - l.fadeIn : Nat) * dipAt l.readSeq stop * (64 - m : Nat)) +
      old i * (64 * m)) (2 ^ 67)))

/-- The weights of the two windows, as whole numbers. -/
theorem mixed_weights (v old : Int) (fade dip oldDip m : Nat) :
    v * ((fade * dip * (64 - m) : Nat) : Int) + old * ((oldDip * 64 * m : Nat) : Int) =
      v * (fade * dip * (64 - m : Nat)) + old * oldDip * (64 * m) := by
  push_cast
  ring

section
variable (hx : l.ratio = some x)
include hx

/-- With no tail, or none that sounds, the reader's value alone. -/
theorem produce_untailed (ht : l.tail.filter (fun k => k.remaining ≠ 0) = none) (n : Nat) :
    (l.produce n).1.samples = (List.range n).map (l.mixedWith x (fun _ => 0) 0) := by
  simp only [Lane.produce, ht, hx, Option.map_none, Option.map_some, Option.getD_none, Option.getD_some,
    interpolate_fourFrames]
  refine List.map_congr_left fun i _ => ?_
  unfold Lane.mixedWith
  simp only [interpolateChannel]
  rw [mixed_weights, dipFactor_cast, Int.zero_mul]
  rfl

/-- The value of a fade tail under the dip of its stop (R77). -/
def Lane.tailValue (l : Lane) (k : FadeTail) (i : Nat) : Int :=
  l.cubicAt k.readSeq (fractionOf k.acc k.q) k.historyStart k.stop i * dipAt k.readSeq k.stop

theorem produce_tailed (ht : l.tail = some k) (h0 : k.remaining ≠ 0) (n : Nat) :
    (l.produce n).1.samples = (List.range n).map (l.mixedWith x (l.tailValue k) k.remaining) := by
  have live : l.tail.filter (fun k => k.remaining ≠ 0) = some k := by
    rw [ht, Option.filter_some, if_pos (by simpa using h0)]
  simp only [Lane.produce, live, hx, Option.map_some, Option.getD_some, interpolate_fourFrames]
  refine List.map_congr_left fun i _ => ?_
  unfold Lane.mixedWith Lane.tailValue
  rw [mixed_weights, dipFactor_cast, dipFactor_cast]
  rfl

end

/-- In a dip the output is disturbed (R97). -/
theorem produce_dipped (h : dipAt l.readSeq (l.marks.head?.map SpliceMark.seq) < 64) (n : Nat) :
    (l.produce n).1.disturbed = true := by
  rw [← dipFactor_cast] at h
  have dips : dipFactor l.readSeq (l.marks.head?.map SpliceMark.seq) < 64 := by exact_mod_cast h
  simp only [Lane.produce, dips, decide_true, Bool.or_true, Bool.true_or]

/-- Beside a tail that sounds the output is disturbed (R77). -/
theorem produce_beside_tail (ht : l.tail = some k) (h0 : k.remaining ≠ 0) (n : Nat) :
    (l.produce n).1.disturbed = true := by
  have live : l.tail.filter (fun k => k.remaining ≠ 0) = some k := by
    rw [ht, Option.filter_some, if_pos (by simpa using h0)]
  simp only [Lane.produce, live, Option.isSome_some, Bool.or_true, Bool.true_or]

/-! ### The lane that sounds -/

/-- The step of the tail makes `y` of it, whatever the lane holds beside its tail and its writer. -/
def Lane.TailSteps (l : Lane) (y : Option FadeTail) : Prop :=
  ∀ m : Lane, m.tail = l.tail → m.writeSeq = l.writeSeq → m.stepTail = { m with tail := y }

/-- A lane whose reader has stepped `n` frames and whose tail has stepped to `y`, its window at `w`. -/
def Lane.readyWith (l : Lane) (n q : Nat) (y : Option FadeTail) (w : List HeldFrame) : Lane :=
  { l.incremented.consumed n q with tail := y, window := w }

/-- A lane that has sounded, its fade-in and its tail one house sample on (R69, R77). -/
def Lane.produced (l : Lane) (n : Nat) : Lane := { (l.produce n).2.2 with output := (l.produce n).1 }

theorem readied_setLane (p : Fin 16) (b : Body) (m : Lane) :
    ∃ w rr, (readied p (b.setLane p m)).lane p = { m.stepTail with window := w, readRequest := rr } := by
  unfold readied
  rw [Body.onLane_eq, Body.lane_setLane_same, setLane_setLane]
  exact pumped_lane ..

section
variable (hx : l.ratio = some x) (hq : 0 < x.q) {n : Nat} (hn : (l.acc + l.stepIncrement) / x.q = n)
  (hm : l.unmarkedFor n) (ho : n = 0 ∨ n + 4 ≤ l.occupancy) (hy : l.TailSteps y)
include hx hq hn hm ho hy

theorem runLane_ready (hl : b.lane p = { l with readRequest := rr }) :
    ∃ w rr, (runLane p b).lane p = { (l.readyWith n x.q y w).produced (channels b p) with readRequest := rr } := by
  have stepped := stepReader_unmarked (b := b) (p := p) (x := x) (n := n)
  rw [hl] at stepped
  have lane := runLane_stepped_lane (stepped hx hq hn hm ho)
  obtain ⟨w, rr', ready⟩ := readied_setLane p b (({ l with readRequest := rr } : Lane).incremented.consumed n x.q)
  have tail := hy (({ l with readRequest := rr } : Lane).incremented.consumed n x.q) rfl rfl
  rw [ready, tail] at lane
  exact ⟨w, rr', lane⟩

theorem HouseTurn.sounds (turn : HouseTurn s t p c) (hl : c.lane p = { l with readRequest := rr })
    (ha : (s.body.programme p).active = some st) (hs : (s.body.programme p).state = .running)
    (ht : l.tail.all (fun k => k.remaining ≠ 0) = true) :
    ∃ w rr sc, t.body.lane p =
      { (l.readyWith n x.q y w).produced (channelsOf st.layout) with readRequest := rr, sceneDelayOwed := sc } := by
  have running : sampleLane p c = runLane p c := by
    unfold sampleLane
    simp only [settleTail_going (b := c) (p := p) (by rw [hl]; exact ht), turn.programme, hs]
  obtain ⟨w, rr', lane⟩ := runLane_ready hx hq hn hm ho hy hl
  rw [← running, turn.channels ha] at lane
  obtain ⟨rr2, sc, found, -⟩ := turn.lane_found lane
  exact ⟨w, rr2, sc, found⟩

end

section
variable (hx : l.ratio = some x) {n i : Nat} {w : List HeldFrame}
include hx

theorem readyWith_untailed (hy : y.filter (fun k => k.remaining ≠ 0) = none) :
    ((l.readyWith n x.q y w).produced i).output.samples =
      (List.range i).map ((l.readyWith n x.q y w).mixedWith x (fun _ => 0) 0) :=
  produce_untailed (l := l.readyWith n x.q y w) hx hy i

theorem readyWith_tailed (h0 : k.remaining ≠ 0) :
    let m := l.readyWith n x.q (some k) w
    (m.produced i).output.disturbed = true ∧
      (m.produced i).output.samples = (List.range i).map (m.mixedWith x (m.tailValue k) k.remaining) :=
  ⟨produce_beside_tail rfl h0 i, produce_tailed (l := l.readyWith n x.q (some k) w) hx rfl h0 i⟩

end

/-! ### How the tail steps -/

theorem tailSteps_absent (h : l.tail = none) : l.TailSteps none := by
  intro m hm _
  rw [laneTail_absent (hm.trans h), ← h, ← hm]

section
variable {sum j : Nat} (h : l.tail = some k) (hsum : k.acc + Config.unityRatio = sum) (hq : 0 < k.q) (hj : sum / k.q = j)
include h hsum hq hj

theorem tailSteps_goes (ho : j = 0 ∨ j + 4 ≤ (l.writeSeq - k.readSeq).toNat)
    (hs : ∀ z, k.stop = some z → j < (z - k.readSeq).toNat) :
    l.TailSteps (some { k with readSeq := k.readSeq + cnt j, acc := sum % k.q }) :=
  fun _ hm hw => laneTail_goes (hm.trans h) hsum hq hj (hw ▸ ho) hs

theorem tailSteps_ends (he : (j ≠ 0 ∧ (l.writeSeq - k.readSeq).toNat < j + 4) ∨
      ∃ z, k.stop = some z ∧ 1 ≤ (z - k.readSeq).toNat ∧ (z - k.readSeq).toNat ≤ j) :
    l.TailSteps (some { k with acc := sum, remaining := 0 }) :=
  fun _ hm hw => laneTail_ends (hm.trans h) hsum hq hj (hw ▸ he)

end

/-- Settles O13: the sample by how the tail steps beside the reader; the end of a tail by the change that it finds; the end
of a ramp. -/
theorem tailAndRampEnd : Obligations.TailAndRampEnd := by
  unfold Obligations.TailAndRampEnd
  refine ⟨?_, ?_, fun s p r hr h => rampEnd_event hr h⟩
  · intro s p st x l c acc n stop ho ha hs hx hq hn hm F frame value dip mixed stepped
    obtain ⟨t, hexec, h⟩ := houseSample_event ho
    obtain ⟨b, turn⟩ := h.turn p
    have own : s.body.lane p = l := rfl
    clear_value l
    obtain ⟨rr, hl⟩ := turn.lane
    rw [own] at hl
    have sounds {y} (hy : l.TailSteps y) := turn.sounds hx hq (n := n) rfl hm hn hy hl ha hs
    have rest : acc - n * x.q = acc % x.q := sub_div_mul acc x.q
    refine ⟨fun ht => ⟨t, hexec, ?_⟩, fun k hk h0 hkq => ?_⟩
    · obtain ⟨w, rr, sc, found⟩ := sounds (tailSteps_absent ht) (by rw [ht]; rfl)
      have disturbed := produce_dipped (l := l.readyWith n x.q none w) (n := c)
      rw [found]
      exact ⟨⟨rfl, rest, hx, rfl, rfl, rfl, rfl⟩, rfl, readyWith_untailed hx rfl, disturbed⟩
    · intro sum j
      have active : l.tail.all (fun k => k.remaining ≠ 0) = true := by
        rw [hk]
        exact decide_eq_true h0
      have hsum : k.acc + Config.unityRatio = sum := rfl
      clear_value sum
      refine ⟨fun hw hz => ⟨t, hexec, ?_⟩, fun he => ⟨t, hexec, ?_⟩⟩
      · obtain ⟨w, rr, sc, found⟩ := sounds (tailSteps_goes hk hsum hkq rfl hw hz) active
        have sounded := readyWith_tailed (k := { k with readSeq := k.readSeq + cnt j, acc := sum % k.q }) (n := n) (i := c)
          (w := w) hx h0
        rw [found]
        exact ⟨⟨rfl, rest, hx, rfl, rfl, rfl, rfl⟩, rfl, sounded⟩
      · obtain ⟨w, rr, sc, found⟩ := sounds (tailSteps_ends hk hsum hkq rfl he) active
        rw [found]
        exact ⟨⟨rfl, rest, hx, rfl, rfl, rfl, rfl⟩, rfl, readyWith_untailed hx rfl⟩
  · intro s p x ht h0 made ended
    have makes {b : Body} (e : (endTail p s.body).quiet = b.quiet) : made b := fadeTailEnd_event ht h0 e
    refine ⟨fun h => makes (congrArg Body.quiet (endTail_alone h)), fun y hy => ?_⟩
    have change := (untailed_change s.body p).trans hy
    refine ⟨fun h => ?_, fun h hf => ?_, fun h hf ho => ?_, fun tag h hf ho => ?_⟩
    · exact makes (congrArg Body.quiet (endTail_aloof hy h))
    · exact makes (congrArg Body.quiet (endTail_floored hy h hf))
    · refine makes ?_
      rw [endTail_completes hy h hf, endChange_quiet_untold change ho, untailed_changeEnded]
    · refine makes ?_
      rw [endTail_completes hy h hf, endChange_quiet_told change ho, untailed_changeEnded]

end Sys2Proof.Machine
end
